-- ==== Sys2Proof/Word.lean ====
section
/-! DEFINITION. The word type of HTX: every register, host address and host datum is 32 bits, unsigned
(spec/00_scope.md R8, spec/20_memory.md R70). Plain arithmetic on it is done on naturals (`toNat`), exactly. -/

namespace Sys2Proof

/-- A register value, a host address or a host datum (R8, R70). -/
abbrev Word := BitVec 32

/-- `NULL` = 0xFFFFFFFF, the value that stands for "no node" (R6). -/
def nullIndex : Word := 0xFFFFFFFF#32

end Sys2Proof
end

