-- ==== Sys2Proof/Config.lean ====
section
/-! DEFINITION. What an instance of HTX fixes (spec/00_scope.md R5, R6) and the one free value of the model: what a
memory cell holds that nothing has written since the last reset (spec/70_reset_and_hazards.md R242). -/

namespace Sys2Proof

/-- The parameters of an instance (R5). They are constants: no step of the machine changes them.
DESIGN CHOICE (log 1): they are carried in `State.params`, so that one model covers every instance. -/
structure Params where
  /-- `SYMW`: width in bits of one symbol code. -/
  symW : Nat
  /-- `NSYM_MAX`: largest number of distinct symbols of one frequency table. -/
  nsymMax : Nat
  /-- `TEXT_MAX`: depth of `TEXT`, in symbols. -/
  textMax : Nat
  /-- `BITS_MAX`: depth of each of `ENC`, `PERM`, `INV`, in bits. -/
  bitsMax : Nat
  /-- `DEC_MAX`: depth of `DEC`, in symbols. -/
  decMax : Nat
  deriving DecidableEq, Repr

/-- The default instance of R5. -/
def Params.standard : Params :=
  { symW := 16, nsymMax := 64, textMax := 4096, bitsMax := 65536, decMax := 4096 }

/-- `NODE_MAX = 2*NSYM_MAX - 1`: depth of the node memory (R6). -/
def Params.nodeMax (p : Params) : Nat := 2 * p.nsymMax - 1

/-- `CODE_MAX = max(1, NSYM_MAX - 1)`: greatest length in bits of one code (R6). -/
def Params.codeMax (p : Params) : Nat := max 1 (p.nsymMax - 1)

/-- What a memory cell holds that nothing has written since reset: any value, definite until something writes the
cell, not necessarily the same on two resets (R242). A FREE VALUE (log 2): the arguments are the number of resets so
far, the number of the space and the index of the cell; nothing in Lean says what it answers. -/
opaque Config.unwrittenCell : Nat → Nat → Nat → Word

end Sys2Proof
end

