-- ==== Sys2Proof/Syntax.lean ====
section
/-! DEFINITION. The eleven commands of HTX, one constructor per row of spec/opcode_table.json
(spec/30_encoding.md R104), and the fields of a command word (R100). -/

namespace Sys2Proof

/-- A command of the engine (R104). No command word carries an immediate, a register number or an address; the only
decoded operand is the one-bit `FLG` of format F (R103). -/
inductive Instr where
  /-- `NOP` (44_system_commands.md R200). -/
  | nop
  /-- `CLEAR` (44_system_commands.md R201). -/
  | clear
  /-- `FREQ` (40_tree_builder.md R125). -/
  | freq
  /-- `PQINIT` (40_tree_builder.md R127). -/
  | pqinit
  /-- `MERGE` (40_tree_builder.md R129). -/
  | merge
  /-- `BUILD` (40_tree_builder.md R131). -/
  | build
  /-- `GENCODES` (41_codebook.md R151). -/
  | gencodes
  /-- `ENCODE` (42_encode_decode.md R161). -/
  | encode
  /-- `DECODE` (42_encode_decode.md R165); `src` is `SRC`: false reads `ENC`, true reads `INV` (R102). -/
  | decode (src : Bool)
  /-- `PERMUTE` (43_transposer.md R181). -/
  | permute
  /-- `INVERT` (43_transposer.md R185); `trim` is `TRIM`: true trims the output to `ORIGLEN` (R102). -/
  | invert (trim : Bool)
  deriving DecidableEq, Repr

/-- The fields of a 32-bit command word (R100). -/
structure CommandFields where
  /-- `OPC`, bits 7 to 0. -/
  opc : BitVec 8
  /-- `FLG`, bit 8. -/
  flg : Bool
  /-- `RSV`, bits 31 to 9. -/
  rsv : BitVec 23
  deriving DecidableEq, Repr

end Sys2Proof
end

