-- ==== Sys2Proof/WellFormed.lean ====
section
/-! DEFINITION. Well-formedness checks: of the fields of a command word (spec/30_encoding.md R101, R102, R104, R106),
of a command, and of an instance's parameters (spec/00_scope.md R5). -/

namespace Sys2Proof

/-- The eleven assigned opcodes (R104). -/
def assignedOpcodes : List (BitVec 8) :=
  [0x00#8, 0x01#8, 0x10#8, 0x11#8, 0x12#8, 0x13#8, 0x14#8, 0x15#8, 0x16#8, 0x20#8, 0x21#8]

/-- The opcodes of format F, the only ones whose `FLG` may be 1 (R102). -/
def flagOpcodes : List (BitVec 8) := [0x16#8, 0x21#8]

/-- Check 1: `RSV` must be 0 in every command (R100). -/
def CommandFields.reservedClear (f : CommandFields) : Bool := f.rsv == 0#23

/-- Check 2: `OPC` is one of the assigned opcodes (R104, R106). -/
def CommandFields.opcodeAssigned (f : CommandFields) : Bool := assignedOpcodes.contains f.opc

/-- Check 3: `FLG` is 0 but in format F (R100, R101). -/
def CommandFields.flagAllowed (f : CommandFields) : Bool := !f.flg || flagOpcodes.contains f.opc

/-- The fields are those of one of the thirteen legal command words (R104, R105). -/
def CommandFields.wellFormed (f : CommandFields) : Bool :=
  f.reservedClear && f.opcodeAssigned && f.flagAllowed

/-- Every command of the syntax is well formed: its one operand is a bit (R103). -/
def Instr.wellFormed : Instr → Bool
  | .nop => true
  | .clear => true
  | .freq => true
  | .pqinit => true
  | .merge => true
  | .build => true
  | .gencodes => true
  | .encode => true
  | .decode _ => true
  | .permute => true
  | .invert _ => true

/-- `1 ≤ SYMW ≤ 32` (R5). -/
def Params.symWOk (p : Params) : Bool := 1 ≤ p.symW && p.symW ≤ 32

/-- `1 ≤ NSYM_MAX ≤ 16384` and `NSYM_MAX ≤ 2^SYMW` (R5). -/
def Params.nsymMaxOk (p : Params) : Bool := 1 ≤ p.nsymMax && p.nsymMax ≤ 16384 && p.nsymMax ≤ 2 ^ p.symW

/-- `1 ≤ TEXT_MAX ≤ 2^28` (R5). -/
def Params.textMaxOk (p : Params) : Bool := 1 ≤ p.textMax && p.textMax ≤ 2 ^ 28

/-- `1 ≤ BITS_MAX ≤ 2^28` (R5). -/
def Params.bitsMaxOk (p : Params) : Bool := 1 ≤ p.bitsMax && p.bitsMax ≤ 2 ^ 28

/-- `1 ≤ DEC_MAX ≤ 2^28` (R5). -/
def Params.decMaxOk (p : Params) : Bool := 1 ≤ p.decMax && p.decMax ≤ 2 ^ 28

/-- The parameters are within the bounds of R5. -/
def Params.valid (p : Params) : Bool :=
  p.symWOk && p.nsymMaxOk && p.textMaxOk && p.bitsMaxOk && p.decMaxOk

end Sys2Proof
end

