-- ==== Sys2Proof/Decode.lean ====
section
/-! DEFINITION. The command decoder and encoder (spec/30_encoding.md R100 to R106). Decoding is total: every 32-bit
word selects one command or is rejected by name, in the order of the tests of R105. -/

namespace Sys2Proof

/-- Why a command word selects no command (R105, R106). The engine answers all three with `BAD_COMMAND`. -/
inductive DecodeError where
  /-- `w[31:9]` is not 0. -/
  | reservedBits
  /-- `w[7:0]` is no opcode of R104. -/
  | unassignedOpcode
  /-- `w[8]` is 1 and the opcode's format is Z. -/
  | flagOnFormatZ
  deriving DecidableEq, Repr

/-- The fields of a command word (R100). -/
def fieldsOf (w : Word) : CommandFields :=
  { opc := w.extractLsb' 0 8, flg := w.getLsbD 8, rsv := w.extractLsb' 9 23 }

/-- The command word with the given fields (R100). -/
def packFields (f : CommandFields) : Word := f.rsv ++ (BitVec.ofBool f.flg ++ f.opc)

/-- The command an opcode selects, with the flag it is given (R104); `none` for an unassigned opcode. -/
def commandOf (opc : BitVec 8) (flg : Bool) : Option Instr :=
  if opc = 0x00#8 then some .nop
  else if opc = 0x01#8 then some .clear
  else if opc = 0x10#8 then some .freq
  else if opc = 0x11#8 then some .pqinit
  else if opc = 0x12#8 then some .merge
  else if opc = 0x13#8 then some .build
  else if opc = 0x14#8 then some .gencodes
  else if opc = 0x15#8 then some .encode
  else if opc = 0x16#8 then some (.decode flg)
  else if opc = 0x20#8 then some .permute
  else if opc = 0x21#8 then some (.invert flg)
  else none

/-- Whether an opcode's format is F, the format with a flag (R102, R104). -/
def isFormatF (opc : BitVec 8) : Bool := opc == 0x16#8 || opc == 0x21#8

/-- Decoding the fields of a command word: the three tests of R105, in their order. -/
def decodeFields (f : CommandFields) : Except DecodeError Instr :=
  if f.rsv ≠ 0#23 then .error .reservedBits
  else
    match commandOf f.opc f.flg with
    | none => .error .unassignedOpcode
    | some i => if f.flg && !isFormatF f.opc then .error .flagOnFormatZ else .ok i

/-- Decoding a command word (R105). -/
def decode (w : Word) : Except DecodeError Instr := decodeFields (fieldsOf w)

/-- The opcode of a command (R104). -/
def opcodeOf : Instr → BitVec 8
  | .nop => 0x00#8
  | .clear => 0x01#8
  | .freq => 0x10#8
  | .pqinit => 0x11#8
  | .merge => 0x12#8
  | .build => 0x13#8
  | .gencodes => 0x14#8
  | .encode => 0x15#8
  | .decode _ => 0x16#8
  | .permute => 0x20#8
  | .invert _ => 0x21#8

/-- The flag of a command: `SRC` of `DECODE`, `TRIM` of `INVERT`, 0 in every other (R100, R102). -/
def flagOf : Instr → Bool
  | .nop => false
  | .clear => false
  | .freq => false
  | .pqinit => false
  | .merge => false
  | .build => false
  | .gencodes => false
  | .encode => false
  | .decode src => src
  | .permute => false
  | .invert trim => trim

/-- The command word of a command (R101, R102). -/
def encode (i : Instr) : Word := packFields { opc := opcodeOf i, flg := flagOf i, rsv := 0#23 }

/-- What the decoder reads from an instruction of `nbits` bits given as a number, bit 0 the least significant bit of
the command word. A command word is 32 bits (R100): every bit above `nbits` is 0, and a number that does not fit is
no command word. -/
def decodeTableWord (nbits w : Nat) : Option Instr :=
  if nbits ≤ 32 && w < 2 ^ nbits then (decode (BitVec.ofNat 32 w)).toOption else none

end Sys2Proof
end

