-- ==== Sys2Proof/Machine/State.lean ====
section
/-! DEFINITION. The state of HTX as plain data: the registers of spec/10_state.md R22, the eleven memories of its
section 5, and the model's own fields (the instance's parameters, the pending host inputs, the values read, the number
of resets). Also the names of registers and memories, the host's inputs, the outcome types, and the reset state. -/

namespace Sys2Proof.Machine

/-- HTX has no traps and nothing that stops it: a failed command and a rejected access are effects on the state
(60_exceptions.md R210, R214; 20_memory.md R76), and a run ends only when the host's list does (R252). So no step
ends in a fault, and this type has no constructor: safe, there is no stop to model. -/
inductive Fault where
  deriving DecidableEq, Repr

/-- Why the model gives an instruction no meaning. -/
inductive Refusal where
  /-- Answered by an arm of `exec` whose instruction has no meaning yet. Safe: the model claims nothing of it. No arm
  of this model answers it. -/
  | notModelled (mnemonic : String)
  deriving DecidableEq, Repr

/-- The 24 registers, by name (R22). -/
inductive Reg where
  | id | cap0 | cap1 | cap2 | cap3 | cmd | status | err | errinfo
  | tlen | nsym | nnodes | root | pqn | ncodes | enclen | skipcnt | declen
  | cols | rows | padlen | origlen | permlen | invlen
  deriving DecidableEq, Repr

/-- The eleven memories, by name (10_state.md R46 to R54; spaces 0x1 to 0xB of 20_memory.md R73). -/
inductive Space where
  | text | ftsym | ftcnt | node | pq | cblen | cbbit | enc | perm | inv | dec
  deriving DecidableEq, Repr

/-- The contents of one memory: the cells something has written since reset, as (index, value) pairs in one canonical
form, indices strictly rising (`Memory.wf`). A cell that is not listed has not been written (log 2, log 7). -/
abbrev Memory := List (Nat × Word)

/-- The canonical form of a memory's contents. -/
abbrev Memory.wf (m : Memory) : Prop := m.Pairwise (fun a b => a.1 < b.1)

/-- An input of the block (20_memory.md R70; 70_reset_and_hazards.md R240). -/
inductive HostInput where
  /-- `HostWrite(a, d)`. -/
  | write (a d : Word)
  /-- `HostRead(a)`. -/
  | read (a : Word)
  /-- The reset input, applied between two transactions. -/
  | reset
  deriving DecidableEq, Repr

/-- The state of HTX (R20). -/
structure State where
  /-- The parameters of the instance (R5): the model's own field, a constant no step changes (log 1). -/
  params : Params
  /-- `STATUS.FREQ_V` (R26). -/
  freqV : Bool
  /-- `STATUS.PQ_V` (R26). -/
  pqV : Bool
  /-- `STATUS.CODES_V` (R26). -/
  codesV : Bool
  /-- `STATUS.W_EMPTY`, sticky (R26). -/
  wEmpty : Bool
  /-- `STATUS.W_UNKNOWN`, sticky (R26). -/
  wUnknown : Bool
  /-- `STATUS.ACCERR`, sticky (R26). -/
  accErr : Bool
  /-- `ERR` (R28). -/
  err : Word
  /-- `ERRINFO` (R29). -/
  errinfo : Word
  /-- `TLEN` (R30). -/
  tlen : Word
  /-- `NSYM` (R31). -/
  nsym : Word
  /-- `NNODES` (R32). -/
  nnodes : Word
  /-- `ROOT` (R33). -/
  root : Word
  /-- `PQN` (R34). -/
  pqn : Word
  /-- `NCODES` (R35). -/
  ncodes : Word
  /-- `ENCLEN` (R36). -/
  enclen : Word
  /-- `SKIPCNT` (R37). -/
  skipcnt : Word
  /-- `DECLEN` (R38). -/
  declen : Word
  /-- `COLS` (R39). -/
  cols : Word
  /-- `ROWS` (R40). -/
  rows : Word
  /-- `PADLEN` (R41). -/
  padlen : Word
  /-- `ORIGLEN` (R42). -/
  origlen : Word
  /-- `PERMLEN` (R43). -/
  permlen : Word
  /-- `INVLEN` (R44). -/
  invlen : Word
  /-- `TEXT` (R46). -/
  text : Memory
  /-- `FTSYM` (R47). -/
  ftsym : Memory
  /-- `FTCNT` (R47). -/
  ftcnt : Memory
  /-- `NODE` (R48), cell 8n + f holding field f of node n (R74). -/
  node : Memory
  /-- `PQ` (R49). -/
  pq : Memory
  /-- `CBLEN` (R50). -/
  cblen : Memory
  /-- `CBBIT` (R50), cell i*`CODE_MAX` + j holding bit j of code i (R74). -/
  cbbit : Memory
  /-- `ENC` (R51). -/
  enc : Memory
  /-- `PERM` (R52). -/
  perm : Memory
  /-- `INV` (R53). -/
  inv : Memory
  /-- `DEC` (R54). -/
  dec : Memory
  /-- The model's own field: the host's inputs not yet served, oldest first (R252; log 3). -/
  inbox : List HostInput
  /-- The model's own field: the values the host's reads have returned, in order (R252; log 4). -/
  reads : List Word
  /-- The model's own field: how often the reset input has been applied, on which the free contents of unwritten cells
  depend (R242; log 2, log 6). -/
  resets : Nat
  deriving DecidableEq, Repr

/-- The machine right after reset (R58, R241, R242), for the default instance (R5; log 1): every register at its reset
value, no memory cell written, no input pending. -/
def State.reset : State :=
  { params := Params.standard
    freqV := false, pqV := false, codesV := false, wEmpty := false, wUnknown := false, accErr := false
    err := 0#32, errinfo := 0#32
    tlen := 0#32, nsym := 0#32, nnodes := 0#32, root := nullIndex, pqn := 0#32, ncodes := 0#32
    enclen := 0#32, skipcnt := 0#32, declen := 0#32
    cols := 0#32, rows := 0#32, padlen := 0#32, origlen := 0#32, permlen := 0#32, invlen := 0#32
    text := [], ftsym := [], ftcnt := [], node := [], pq := [], cblen := [], cbbit := []
    enc := [], perm := [], inv := [], dec := []
    inbox := [], reads := [], resets := 0 }

end Sys2Proof.Machine
end

