-- ==== Sys2Proof/Machine/Ops.lean ====
section
/-! DEFINITION. The named operations over memories and registers: element reads and writes (spec/20_memory.md R72 to
R74), tree nodes (spec/10_state.md R48), the priority queue (spec/40_tree_builder.md R120 to R123), the reset values of
the registers (spec/10_state.md R58), and how a command completes or fails (spec/60_exceptions.md R211 to R214). -/

namespace Sys2Proof.Machine

/-! ### Elements -/

/-- The low `width` bits of a datum: a write stores these and ignores the rest (R72). -/
def truncTo (width : Nat) (v : Word) : Word := BitVec.ofNat 32 (v.toNat % 2 ^ width)

/-- What was last written to a cell, `none` if nothing has been. -/
def Memory.read? : Memory → Nat → Option Word
  | [], _ => none
  | (j, v) :: m, i => if i = j then some v else Memory.read? m i

/-- Write one cell, keeping the canonical form. -/
def Memory.write : Memory → Nat → Word → Memory
  | [], i, v => [(i, v)]
  | (j, u) :: m, i, v =>
    if i < j then (i, v) :: (j, u) :: m
    else if i = j then (i, v) :: m
    else (j, u) :: Memory.write m i v

/-- The space number of a memory (R73). -/
def Space.number : Space → Nat
  | .text => 0x1
  | .ftsym => 0x2
  | .ftcnt => 0x3
  | .node => 0x4
  | .pq => 0x5
  | .cblen => 0x6
  | .cbbit => 0x7
  | .enc => 0x8
  | .perm => 0x9
  | .inv => 0xA
  | .dec => 0xB

/-- The width in bits of element `i` of a memory (R73); in `NODE` the width of the field (R74). -/
def elemWidth (p : Params) (sp : Space) (i : Nat) : Nat :=
  match sp with
  | .text => p.symW
  | .ftsym => p.symW
  | .ftcnt => 32
  | .node => if i % 8 = 0 then 1 else if i % 8 = 1 then p.symW else 32
  | .pq => 32
  | .cblen => 32
  | .cbbit => 1
  | .enc => 1
  | .perm => 1
  | .inv => 1
  | .dec => p.symW

/-- The depth of a memory: its indices are those below it (R73). -/
def elemDepth (p : Params) : Space → Nat
  | .text => p.textMax
  | .ftsym => p.nsymMax
  | .ftcnt => p.nsymMax
  | .node => 8 * p.nodeMax
  | .pq => p.nsymMax
  | .cblen => p.nsymMax
  | .cbbit => p.nsymMax * p.codeMax
  | .enc => p.bitsMax
  | .perm => p.bitsMax
  | .inv => p.bitsMax
  | .dec => p.decMax

/-- Whether a memory has an element at an index; fields 5 to 7 of a node are absent (R73, R74). -/
def elemExists (p : Params) (sp : Space) (i : Nat) : Bool :=
  i < elemDepth p sp && (sp != .node || i % 8 < 5)

/-- The contents of a memory. -/
def State.memory (s : State) : Space → Memory
  | .text => s.text
  | .ftsym => s.ftsym
  | .ftcnt => s.ftcnt
  | .node => s.node
  | .pq => s.pq
  | .cblen => s.cblen
  | .cbbit => s.cbbit
  | .enc => s.enc
  | .perm => s.perm
  | .inv => s.inv
  | .dec => s.dec

/-- Replace the contents of a memory. -/
def State.setMemory (s : State) (sp : Space) (m : Memory) : State :=
  match sp with
  | .text => { s with text := m }
  | .ftsym => { s with ftsym := m }
  | .ftcnt => { s with ftcnt := m }
  | .node => { s with node := m }
  | .pq => { s with pq := m }
  | .cblen => { s with cblen := m }
  | .cbbit => { s with cbbit := m }
  | .enc => { s with enc := m }
  | .perm => { s with perm := m }
  | .inv => { s with inv := m }
  | .dec => { s with dec := m }

/-- `MemRead(space, index)`: the element, zero-extended (R72). A cell nothing has written since reset holds an
unspecified but definite value of its width (R242): a free value (log 2). -/
def State.readElem (s : State) (sp : Space) (i : Nat) : Word :=
  truncTo (elemWidth s.params sp i)
    (match (s.memory sp).read? i with
      | some v => v
      | none => Config.unwrittenCell s.resets sp.number i)

/-- `MemWrite(space, index, v)`: store the low bits of `v` in one element (R72). -/
def State.writeElem (s : State) (sp : Space) (i : Nat) (v : Word) : State :=
  s.setMemory sp ((s.memory sp).write i (truncTo (elemWidth s.params sp i) v))

/-- Write a list of values to consecutive elements from `base` on. The elements are different ones, so the order of
the writes cannot be observed (R83). -/
def State.writeSeq (s : State) (sp : Space) (base : Nat) : List Word → State
  | [] => s
  | v :: vs => (State.writeSeq s sp (base + 1) vs).writeElem sp base v

/-- The first `n` elements of a memory, in index order. -/
def State.readSeq (s : State) (sp : Space) (n : Nat) : List Word := (List.range n).map (s.readElem sp)

/-- A bit as an element of width 1. -/
def bitWord (b : Bool) : Word := if b then 1#32 else 0#32

/-- An element of a bit memory as a bit (R9). -/
def State.readBit (s : State) (sp : Space) (i : Nat) : Bool := s.readElem sp i == 1#32

/-- The first `n` bits of a bit memory: a bit sequence, element 0 first (R9). -/
def State.readBits (s : State) (sp : Space) (n : Nat) : List Bool := (List.range n).map (s.readBit sp)

/-! ### Tree nodes -/

/-- A tree node (R48): `internal` is `kind`, false for a leaf. -/
structure Node where
  /-- `kind`: 0 = leaf, 1 = internal node. -/
  internal : Bool
  /-- `sym`. -/
  sym : Word
  /-- `freq`. -/
  freq : Word
  /-- `left`. -/
  left : Word
  /-- `right`. -/
  right : Word
  deriving DecidableEq, Repr

/-- A leaf: its children are `NULL` (R48). -/
def leafNode (sym freq : Word) : Node :=
  { internal := false, sym := sym, freq := freq, left := nullIndex, right := nullIndex }

/-- An internal node: its `sym` is 0, not meaningful (R48). -/
def internalNode (freq left right : Word) : Node :=
  { internal := true, sym := 0#32, freq := freq, left := left, right := right }

/-- `NODE[n].kind` = 1 (R74). -/
def State.nodeInternal (s : State) (n : Nat) : Bool := s.readBit .node (8 * n)

/-- `NODE[n].sym` (R74). -/
def State.nodeSym (s : State) (n : Nat) : Word := s.readElem .node (8 * n + 1)

/-- `NODE[n].freq` (R74). -/
def State.nodeFreq (s : State) (n : Nat) : Word := s.readElem .node (8 * n + 2)

/-- `NODE[n].left` (R74). -/
def State.nodeLeft (s : State) (n : Nat) : Word := s.readElem .node (8 * n + 3)

/-- `NODE[n].right` (R74). -/
def State.nodeRight (s : State) (n : Nat) : Word := s.readElem .node (8 * n + 4)

/-- Node `n`, all five fields. -/
def State.readNode (s : State) (n : Nat) : Node :=
  { internal := s.nodeInternal n, sym := s.nodeSym n, freq := s.nodeFreq n, left := s.nodeLeft n,
    right := s.nodeRight n }

/-- `NODE[n] <- x`: the five fields of node `n` (R74). -/
def State.writeNode (s : State) (n : Nat) (x : Node) : State :=
  s.writeSeq .node (8 * n) [bitWord x.internal, x.sym, x.freq, x.left, x.right]

/-! ### The priority queue -/

/-- The queue: `PQ[0], ..., PQ[PQN-1]` (R120). -/
def State.queue (s : State) : List Word := s.readSeq .pq s.pqn.toNat

/-- Write the queue's entries from rank 0 on, and `PQN`. -/
def State.setQueue (s : State) (q : List Word) : State :=
  { s.writeSeq .pq 0 q with pqn := BitVec.ofNat 32 q.length }

/-- `key(i) < key(j)`: the smaller frequency first, and of equal frequencies the smaller index (R10, R122). The second part
is the tie-break: it chooses the tree and the codes, but not their encoded length (R135). -/
def State.keyBefore (s : State) (i j : Word) : Bool :=
  s.nodeFreq i.toNat < s.nodeFreq j.toNat || (s.nodeFreq i.toNat == s.nodeFreq j.toNat && i < j)

/-- `pq_insert(i)`: `i` goes to the rank that counts the entries of smaller key; those from there on move up (R121). -/
def State.pqInsert (s : State) (i : Word) : State :=
  let q := s.queue
  let p := q.countP (fun j => s.keyBefore j i)
  s.setQueue (q.take p ++ i :: q.drop p)

/-- `pq_pop()`: `PQ[0]`, and the state with the other entries moved down by one rank (R123). -/
def State.pqPop (s : State) : Word × State := (s.readElem .pq 0, s.setQueue (s.queue.drop 1))

/-- `ROOT <- (PQN = 1) ? PQ[0] : NULL`, the value that ends `PQINIT` and `MERGE` (R33). -/
def State.rootFromQueue (s : State) : Word := if s.pqn = 1#32 then s.readElem .pq 0 else nullIndex

/-! ### Registers -/

/-- The register number of a register (R22). -/
def Reg.number : Reg → Nat
  | .id => 0x00
  | .cap0 => 0x01
  | .cap1 => 0x02
  | .cap2 => 0x03
  | .cap3 => 0x04
  | .cmd => 0x05
  | .status => 0x06
  | .err => 0x07
  | .errinfo => 0x08
  | .tlen => 0x10
  | .nsym => 0x11
  | .nnodes => 0x12
  | .root => 0x13
  | .pqn => 0x14
  | .ncodes => 0x15
  | .enclen => 0x16
  | .skipcnt => 0x17
  | .declen => 0x18
  | .cols => 0x20
  | .rows => 0x21
  | .padlen => 0x22
  | .origlen => 0x23
  | .permlen => 0x24
  | .invlen => 0x25

/-- Every register but the constants at its reset value; the memories untouched (R58). What `CLEAR` does (R201), and
the part of the reset input that concerns registers (R241). -/
def State.resetRegisters (s : State) : State :=
  { s with
    freqV := false, pqV := false, codesV := false, wEmpty := false, wUnknown := false, accErr := false
    err := 0#32, errinfo := 0#32
    tlen := 0#32, nsym := 0#32, nnodes := 0#32, root := nullIndex, pqn := 0#32, ncodes := 0#32
    enclen := 0#32, skipcnt := 0#32, declen := 0#32
    cols := 0#32, rows := 0#32, padlen := 0#32, origlen := 0#32, permlen := 0#32, invlen := 0#32 }

/-- The reset input (R240 to R242): registers at their reset values, every memory cell unspecified anew. The instance,
the inputs still pending and the values already read are not touched (log 6). -/
def State.applyReset (s : State) : State :=
  { s.resetRegisters with
    text := [], ftsym := [], ftcnt := [], node := [], pq := [], cblen := [], cbbit := []
    enc := [], perm := [], inv := [], dec := []
    resets := s.resets + 1 }

/-! ### How a command ends -/

/-- Which capacity was exceeded (R213, row 6). -/
inductive CapacityLimit where
  /-- More than `NSYM_MAX` distinct symbols. -/
  | symbols
  /-- `ENC` too small. -/
  | encBits
  /-- `PERM` too small. -/
  | permBits
  /-- `DEC` too small. -/
  | decSymbols
  deriving DecidableEq, Repr

/-- The failures of a command, with what `ERRINFO` records of each (R211, R213). -/
inductive CmdError where
  /-- The bit sequence ends inside a code word that began at bit `start`. -/
  | incompleteCode (start : Nat)
  /-- `PERMLEN ≠ ROWS*COLS`; carries `PERMLEN`. -/
  | shapeMismatch (permlen : Word)
  /-- The command word is not legal; carries the word. -/
  | badCommand (w : Word)
  /-- The state the command needs does not exist; carries the command word. -/
  | badSequence (w : Word)
  /-- An operand register is out of range. -/
  | badParam (r : Reg)
  /-- A result does not fit. -/
  | capacity (limit : CapacityLimit)
  /-- A 1 bit at index `k` where only 0 is a code word. -/
  | invalidBit (k : Nat)
  deriving DecidableEq, Repr

/-- The sub-code of a capacity failure (R213). -/
def CapacityLimit.number : CapacityLimit → Nat
  | .symbols => 1
  | .encBits => 2
  | .permBits => 3
  | .decSymbols => 4

/-- `code(E)`, what a failure leaves in `ERR` (R211). -/
def CmdError.code : CmdError → Word
  | .incompleteCode _ => 1#32
  | .shapeMismatch _ => 2#32
  | .badCommand _ => 3#32
  | .badSequence _ => 4#32
  | .badParam _ => 5#32
  | .capacity _ => 6#32
  | .invalidBit _ => 7#32

/-- What a failure leaves in `ERRINFO` (R213). -/
def CmdError.info : CmdError → Word
  | .incompleteCode start => BitVec.ofNat 32 start
  | .shapeMismatch permlen => permlen
  | .badCommand w => w
  | .badSequence w => w
  | .badParam r => BitVec.ofNat 32 r.number
  | .capacity limit => BitVec.ofNat 32 limit.number
  | .invalidBit k => BitVec.ofNat 32 k

/-- `raise E(info)`: every write of the command is discarded, `ERR` and `ERRINFO` are written, and nothing else
changes (R214). There is nothing to return from: the next command overwrites both (R215). -/
def State.raise (s : State) (e : CmdError) : State := { s with err := e.code, errinfo := e.info }

/-- On completion `ERR` and `ERRINFO` become 0 (R12, R105). -/
def State.complete (s : State) : State := { s with err := 0#32, errinfo := 0#32 }

/-- The end of a command that began in `s`: a command that fails changes nothing but `ERR` and `ERRINFO` (R12, R214).
Either way the machine goes on. -/
def finish (s : State) (r : Except CmdError State) : Host.Outcome State Fault Refusal :=
  match r with
  | .ok t => .next t.complete
  | .error e => .next (s.raise e)

end Sys2Proof.Machine
end

