-- ==== Sys2Proof/Machine/Flags.lean ====
section
/-! DEFINITION. The `STATUS` register (spec/10_state.md R26): the derived flags, the assembled word, the sticky flags
and how they are set and cleared. -/

namespace Sys2Proof.Machine

/-- `TREE_V`: the tree is complete, `PQ_V = 1` and `PQN = 1` (R26). -/
def State.treeV (s : State) : Bool := s.pqV && s.pqn == 1#32

/-- `NOTREE`: a build has ended with no tree, `PQ_V = 1` and `NSYM = 0` (R26). -/
def State.noTree (s : State) : Bool := s.pqV && s.nsym == 0#32

/-- `STATUS` as the host reads it; bits 15:5 and 31:19 read 0 (R26). -/
def State.statusWord (s : State) : Word :=
  BitVec.ofNat 32
    (s.freqV.toNat + 2 * s.pqV.toNat + 4 * s.treeV.toNat + 8 * s.noTree.toNat + 16 * s.codesV.toNat
      + 2 ^ 16 * s.wEmpty.toNat + 2 ^ 17 * s.wUnknown.toNat + 2 ^ 18 * s.accErr.toNat)

/-- A host write of `d` to `STATUS`: a sticky flag whose bit of `d` is 1 is cleared, and nothing else happens (R26). -/
def State.clearSticky (s : State) (d : Word) : State :=
  { s with
    wEmpty := s.wEmpty && !d.getLsbD 16
    wUnknown := s.wUnknown && !d.getLsbD 17
    accErr := s.accErr && !d.getLsbD 18 }

/-- A rejected host access sets `ACCERR` and changes nothing else (20_memory.md R76). -/
def State.rejectAccess (s : State) : State := { s with accErr := true }

/-- `if NSYM = 0 then W_EMPTY <- 1` (40_tree_builder.md R127; 60_exceptions.md R212). -/
def State.warnEmpty (s : State) : State := { s with wEmpty := s.wEmpty || s.nsym == 0#32 }

/-- `if skipped > 0 then W_UNKNOWN <- 1` (42_encode_decode.md R161; 60_exceptions.md R212). -/
def State.warnUnknown (s : State) (skipped : Nat) : State := { s with wUnknown := s.wUnknown || 0 < skipped }

end Sys2Proof.Machine
end

