-- ==== Sys2Proof/Machine/Operands.lean ====
section
/-! DEFINITION. The operands. Every operand of a command is implicit (spec/30_encoding.md R103): a named register or
memory. Also the registers as the host reads and writes them (spec/10_state.md R22, spec/20_memory.md R75). -/

namespace Sys2Proof.Machine

/-! ### Registers by name -/

/-- How the host may access a register (R22). -/
inductive Access where
  /-- Read only: a write is an access error. -/
  | ro
  /-- Any 32-bit value can be read and written. -/
  | rw
  /-- A write has an effect, a read returns 0. -/
  | wo
  /-- Read only, but writing 1 to a W1C bit clears it. -/
  | w1c
  deriving DecidableEq, Repr

/-- The access kind of a register (R22). -/
def Reg.access : Reg → Access
  | .id => .ro
  | .cap0 => .ro
  | .cap1 => .ro
  | .cap2 => .ro
  | .cap3 => .ro
  | .cmd => .wo
  | .status => .w1c
  | .err => .ro
  | .errinfo => .ro
  | .tlen => .rw
  | .nsym => .ro
  | .nnodes => .ro
  | .root => .ro
  | .pqn => .ro
  | .ncodes => .ro
  | .enclen => .rw
  | .skipcnt => .ro
  | .declen => .ro
  | .cols => .rw
  | .rows => .rw
  | .padlen => .ro
  | .origlen => .rw
  | .permlen => .rw
  | .invlen => .rw

/-- The value of a register as the host reads it (R75): the constants of R23 and R24, 0 for `CMD`, the assembled flags
for `STATUS`, the stored value otherwise. -/
def State.readReg (s : State) : Reg → Word
  | .id => 0x48540007#32
  | .cap0 => (BitVec.ofNat 32 s.params.nsymMax <<< 16) ||| BitVec.ofNat 32 s.params.symW
  | .cap1 => BitVec.ofNat 32 s.params.textMax
  | .cap2 => BitVec.ofNat 32 s.params.bitsMax
  | .cap3 => BitVec.ofNat 32 s.params.decMax
  | .cmd => 0#32
  | .status => s.statusWord
  | .err => s.err
  | .errinfo => s.errinfo
  | .tlen => s.tlen
  | .nsym => s.nsym
  | .nnodes => s.nnodes
  | .root => s.root
  | .pqn => s.pqn
  | .ncodes => s.ncodes
  | .enclen => s.enclen
  | .skipcnt => s.skipcnt
  | .declen => s.declen
  | .cols => s.cols
  | .rows => s.rows
  | .padlen => s.padlen
  | .origlen => s.origlen
  | .permlen => s.permlen
  | .invlen => s.invlen

/-- A host write to an RW register: it takes all 32 bits, with no check (R75). The other registers store nothing this
way: what a write to them does is 20_memory.md R75 and R76 (`hostWriteReg`). -/
def State.setOperandReg (s : State) (r : Reg) (d : Word) : State :=
  match r with
  | .tlen => { s with tlen := d }
  | .enclen => { s with enclen := d }
  | .cols => { s with cols := d }
  | .rows => { s with rows := d }
  | .origlen => { s with origlen := d }
  | .permlen => { s with permlen := d }
  | .invlen => { s with invlen := d }
  | .id => s
  | .cap0 => s
  | .cap1 => s
  | .cap2 => s
  | .cap3 => s
  | .cmd => s
  | .status => s
  | .err => s
  | .errinfo => s
  | .nsym => s
  | .nnodes => s
  | .root => s
  | .pqn => s
  | .ncodes => s
  | .skipcnt => s
  | .declen => s
  | .padlen => s

/-! ### Sequences -/

/-- The text `TEXT[0..TLEN)` (R27). -/
def State.textSeq (s : State) : List Word := s.readSeq .text s.tlen.toNat

/-- The bit memory `DECODE` reads: `ENC` if `SRC` = 0, `INV` if `SRC` = 1 (R102, R165). -/
def sourceSpace (src : Bool) : Space := if src then .inv else .enc

/-- The register that holds the length of that sequence (R165). -/
def sourceLenReg (src : Bool) : Reg := if src then .invlen else .enclen

/-- The length of the sequence `DECODE` reads (R165). -/
def State.sourceLen (s : State) (src : Bool) : Nat := (s.readReg (sourceLenReg src)).toNat

/-- The bit sequence `DECODE` reads: `ENC[0..ENCLEN)` or `INV[0..INVLEN)` (R102, R165). -/
def State.sourceBits (s : State) (src : Bool) : List Bool := s.readBits (sourceSpace src) (s.sourceLen src)

/-! ### The codebook -/

/-- `lookup(x)`: the codebook entry of a symbol, `none` if it has none (R160). -/
def State.lookup (s : State) (x : Word) : Option Nat :=
  (List.range s.ncodes.toNat).find? (fun i => s.readElem .ftsym i == x)

/-- `code(i)`: bits `CBBIT[i*CODE_MAX + j]` for `j < CBLEN[i]` (R50). -/
def State.codeBits (s : State) (i : Nat) : List Bool :=
  (List.range (s.readElem .cblen i).toNat).map (fun j => s.readBit .cbbit (i * s.params.codeMax + j))

end Sys2Proof.Machine
end

