-- ==== Sys2Proof/Machine/Codebook.lean ====
section
/-! DEFINITION. Code generation: `GENCODES` (spec/41_codebook.md). -/

namespace Sys2Proof.Machine

/-- The path bits from node `x` down to node `target`, left = 0, right = 1, if there is a path of at most `depth` steps
through internal nodes (R150). -/
def State.findPath (s : State) (target : Word) : Nat → Word → Option (List Bool)
  | 0, x => if x = target then some [] else none
  | depth + 1, x =>
    if x = target then some []
    else if !s.nodeInternal x.toNat then none
    else
      match State.findPath s target depth (s.nodeLeft x.toNat) with
      | some p => some (false :: p)
      | none => (State.findPath s target depth (s.nodeRight x.toNat)).map (true :: ·)

/-- The path bits of leaf `i` (R150): no leaf's are a prefix of another's, whatever the tie-break (R135, R153). A path visits each node at most once, so `NNODES` bounds its length. A leaf
without a path, which no tree has, gets no code bits (DEDUCED, log 8). -/
def State.pathBits (s : State) (i : Nat) : List Bool :=
  (s.findPath (BitVec.ofNat 32 i) s.nnodes.toNat s.root).getD []

/-- `CBLEN[i] <- len(p)`, `CBBIT[i*CODE_MAX + j] <- p_j` (R151). -/
def State.writeCode (s : State) (i : Nat) (p : List Bool) : State :=
  (s.writeElem .cblen i (BitVec.ofNat 32 p.length)).writeSeq .cbbit (i * s.params.codeMax) (p.map bitWord)

/-- `for i in 0..n-1`: the path bits of leaf `i` become code `i` (R151). -/
def State.writePathCodes (s : State) (n : Nat) : State :=
  (List.range n).foldl (fun t i => t.writeCode i (s.pathBits i)) s

/-- The body of `GENCODES` (R151); `w` is the command word. -/
def gencodesBody (w : Word) (s : State) : Except CmdError State :=
  if !(s.treeV || s.noTree) then .error (.badSequence w)
  else
    let emptied := s.writeSeq .cblen 0 (List.replicate s.params.nsymMax 0#32)
    if s.noTree then .ok { emptied with ncodes := 0#32, codesV := true }
    else if !s.nodeInternal s.root.toNat then
      .ok { emptied.writeCode 0 [false] with ncodes := 1#32, codesV := true }
    else .ok { emptied.writePathCodes s.nsym.toNat with ncodes := s.nsym, codesV := true }

/-- `GENCODES` (R151). -/
def execGencodes (s : State) : Host.Outcome State Fault Refusal := finish s (gencodesBody (encode .gencodes) s)

end Sys2Proof.Machine
end

