-- ==== Sys2Proof/Machine/Codec.lean ====
section
/-! DEFINITION. `ENCODE` and `DECODE` (spec/42_encode_decode.md). -/

namespace Sys2Proof.Machine

/-- The bits `ENCODE` produces: in the order of the text, the codes of the symbols that have one (R161). After `BUILD` and
`GENCODES` on the text they are as few as with any prefix code of non-empty words (R135). -/
def State.encodedBits (s : State) : List Bool :=
  (s.textSeq.filterMap s.lookup).flatMap s.codeBits

/-- How many symbols of the text have no codebook entry (R161, R162). -/
def State.skippedCount (s : State) : Nat := s.textSeq.countP (fun x => (s.lookup x).isNone)

/-- The body of `ENCODE` (R161); `w` is the command word. -/
def encodeBody (w : Word) (s : State) : Except CmdError State :=
  if !s.codesV then .error (.badSequence w)
  else if s.params.textMax < s.tlen.toNat then .error (.badParam .tlen)
  else
    let out := s.encodedBits
    if s.params.bitsMax < out.length then .error (.capacity .encBits)
    else
      let written :=
        { s.writeSeq .enc 0 (out.map bitWord) with
          enclen := BitVec.ofNat 32 out.length
          skipcnt := BitVec.ofNat 32 s.skippedCount }
      .ok (written.warnUnknown s.skippedCount)

/-- `emit(x)` of `DECODE`: one more symbol, if `DEC` can hold it (R165). -/
def State.emit (s : State) (out : List Word) (x : Word) : Except CmdError (List Word) :=
  if out.length < s.params.decMax then .ok (out ++ [x]) else .error (.capacity .decSymbols)

/-- The scan of `DECODE` (R165, R166): consume the remaining bits, the first of them at index `k`, with the tree cursor
at `cur`, the current code word begun at bit `start`, and `out` emitted so far. On the bits `ENCODE` wrote it returns the
text, whatever the tie-break (R135, R168). -/
def State.scan (s : State) : List Bool → Nat → Word → Nat → List Word → Except CmdError (List Word)
  | [], _, cur, start, out => if cur = s.root then .ok out else .error (.incompleteCode start)
  | b :: bits, k, cur, start, out =>
    if !s.nodeInternal s.root.toNat then
      if b then .error (.invalidBit k)
      else
        match s.emit out (s.nodeSym s.root.toNat) with
        | .error e => .error e
        | .ok out' => State.scan s bits (k + 1) cur start out'
    else
      let child := if b then s.nodeRight cur.toNat else s.nodeLeft cur.toNat
      if !s.nodeInternal child.toNat then
        match s.emit out (s.nodeSym child.toNat) with
        | .error e => .error e
        | .ok out' => State.scan s bits (k + 1) s.root (k + 1) out'
      else State.scan s bits (k + 1) child start out

/-- The body of `DECODE` (R165, R167); `w` is the command word. -/
def decodeBody (w : Word) (src : Bool) (s : State) : Except CmdError State :=
  if !(s.treeV || s.noTree) then .error (.badSequence w)
  else if s.params.bitsMax < s.sourceLen src then .error (.badParam (sourceLenReg src))
  else if s.noTree then
    if s.sourceLen src ≠ 0 then .error (.badSequence w) else .ok { s with declen := 0#32 }
  else
    match s.scan (s.sourceBits src) 0 s.root 0 [] with
    | .error e => .error e
    | .ok out => .ok { s.writeSeq .dec 0 out with declen := BitVec.ofNat 32 out.length }

/-- `ENCODE` (R161). -/
def execEncode (s : State) : Host.Outcome State Fault Refusal := finish s (encodeBody (encode .encode) s)

/-- `DECODE` (R165). -/
def execDecode (src : Bool) (s : State) : Host.Outcome State Fault Refusal :=
  finish s (decodeBody (encode (.decode src)) src s)

end Sys2Proof.Machine
end

