-- ==== Sys2Proof/Machine/System.lean ====
section
/-! DEFINITION. The system commands: `NOP` and `CLEAR` (spec/44_system_commands.md). -/

namespace Sys2Proof.Machine

/-- `NOP` (R200): `ERR` and `ERRINFO` become 0 and nothing else is read or written. -/
def execNop (s : State) : Host.Outcome State Fault Refusal := finish s (.ok s)

/-- `CLEAR` (R201): every register but the constants takes its reset value; no memory cell is written. -/
def execClear (s : State) : Host.Outcome State Fault Refusal := finish s (.ok s.resetRegisters)

end Sys2Proof.Machine
end

