-- ==== Sys2Proof/Machine/Transposer.lean ====
section
/-! DEFINITION. The columnar transposer: `PERMUTE` and `INVERT` (spec/43_transposer.md). -/

namespace Sys2Proof.Machine

/-- `ceil(len/cols)` for `cols ≥ 1` (R8, R181). -/
def ceilDiv (len cols : Nat) : Nat := (len + cols - 1) / cols

/-- The column-major position of the bit at row-major position `p` of a matrix of `rows` by `cols`: the map σ that
`PERMUTE` applies to positions (R189). Cell (r, c) is at `r*cols + c` row-major and at `c*rows + r` column-major
(R180). -/
def toColumnMajor (rows cols p : Nat) : Nat := p % cols * rows + p / cols

/-- The row-major position of the bit at column-major position `q`: the map τ that `INVERT` applies (R189). -/
def toRowMajor (rows cols q : Nat) : Nat := q % rows * cols + q / rows

/-- `padded(p)`: the input bit, or the filler bit 0 beyond the input (R181). -/
def State.paddedBit (s : State) (p : Nat) : Bool := p < s.enclen.toNat && s.readBit .enc p

/-- The bits `PERMUTE` writes to `PERM`: output bit `c*R + r` is `padded(r*C + c)` (R180, R181). -/
def State.permutedBits (s : State) (rows cols : Nat) : List Bool :=
  (List.range (rows * cols)).map (fun q => s.paddedBit (toRowMajor rows cols q))

/-- The body of `PERMUTE` (R181). -/
def permuteBody (s : State) : Except CmdError State :=
  let c := s.cols.toNat
  let l := s.enclen.toNat
  if c < 1 then .error (.badParam .cols)
  else if s.params.bitsMax < l then .error (.badParam .enclen)
  else
    let r := ceilDiv l c
    let n := r * c
    if s.params.bitsMax < n then .error (.capacity .permBits)
    else
      .ok { s.writeSeq .perm 0 ((s.permutedBits r c).map bitWord) with
        permlen := BitVec.ofNat 32 n
        rows := BitVec.ofNat 32 r
        padlen := BitVec.ofNat 32 (n - l)
        origlen := BitVec.ofNat 32 l }

/-- The bits `INVERT` writes to `INV`: bit `r*C + c` is `PERM[c*R + r]` (R185). -/
def State.invertedBits (s : State) (rows cols : Nat) : List Bool :=
  (List.range (rows * cols)).map (fun p => s.readBit .perm (toColumnMajor rows cols p))

/-- The body of `INVERT` (R185). -/
def invertBody (trim : Bool) (s : State) : Except CmdError State :=
  let c := s.cols.toNat
  let r := s.rows.toNat
  let n := s.permlen.toNat
  if c < 1 then .error (.badParam .cols)
  else if s.params.bitsMax < n then .error (.badParam .permlen)
  else if n ≠ r * c then .error (.shapeMismatch s.permlen)
  else if trim && n < s.origlen.toNat then .error (.badParam .origlen)
  else
    .ok { s.writeSeq .inv 0 ((s.invertedBits r c).map bitWord) with
      invlen := if trim then s.origlen else s.permlen }

/-- `PERMUTE` (R181). -/
def execPermute (s : State) : Host.Outcome State Fault Refusal := finish s (permuteBody s)

/-- `INVERT` (R185). -/
def execInvert (trim : Bool) (s : State) : Host.Outcome State Fault Refusal := finish s (invertBody trim s)

end Sys2Proof.Machine
end

