-- ==== Sys2Proof/Machine/TreeBuilder.lean ====
section
/-! DEFINITION. The tree builder: `FREQ`, `PQINIT`, `MERGE`, `BUILD` (spec/40_tree_builder.md). Each command is a body
that answers the state it would leave or the failure it raises; `finish` ends the command. -/

namespace Sys2Proof.Machine

/-- Insert a symbol into a strictly ascending list of symbols, unless it is there (R10 orders symbols). -/
def insertSymbol (x : Word) : List Word → List Word
  | [] => [x]
  | y :: ys => if x < y then x :: y :: ys else if x = y then y :: ys else y :: insertSymbol x ys

/-- The distinct symbols of a text, in ascending order of code (R125). -/
def distinctSymbols (text : List Word) : List Word := text.foldr insertSymbol []

/-- The body of `FREQ` (R125). -/
def freqBody (s : State) : Except CmdError State :=
  if s.params.textMax < s.tlen.toNat then .error (.badParam .tlen)
  else
    let syms := distinctSymbols s.textSeq
    if s.params.nsymMax < syms.length then .error (.capacity .symbols)
    else
      let counts := syms.map (fun x => BitVec.ofNat 32 (s.textSeq.count x))
      .ok { (s.writeSeq .ftsym 0 syms).writeSeq .ftcnt 0 counts with
        nsym := BitVec.ofNat 32 syms.length
        freqV := true, pqV := false, codesV := false
        pqn := 0#32, nnodes := 0#32, root := nullIndex, ncodes := 0#32 }

/-- `for i in 0..n-1: NODE[i] <- leaf(FTSYM[i], FTCNT[i])` (R127). -/
def State.writeLeaves (s : State) (n : Nat) : State :=
  (List.range n).foldl (fun t i => t.writeNode i (leafNode (t.readElem .ftsym i) (t.readElem .ftcnt i))) s

/-- `for i in 0..n-1: pq_insert(i)` (R127). -/
def State.insertLeaves (s : State) (n : Nat) : State :=
  (List.range n).foldl (fun t i => t.pqInsert (BitVec.ofNat 32 i)) s

/-- The body of `PQINIT` (R127); `w` is the command word. -/
def pqinitBody (w : Word) (s : State) : Except CmdError State :=
  if !s.freqV then .error (.badSequence w)
  else
    let leaves := { ({ s with pqn := 0#32 }).writeLeaves s.nsym.toNat with nnodes := s.nsym }
    let loaded := leaves.insertLeaves s.nsym.toNat
    let ready :=
      { loaded with pqV := true, codesV := false, ncodes := 0#32, root := loaded.rootFromQueue }
    .ok ready.warnEmpty

/-- The body of `MERGE` (R129); `w` is the command word. -/
def mergeBody (w : Word) (s : State) : Except CmdError State :=
  if !(s.pqV && 2 ≤ s.pqn.toNat) then .error (.badSequence w)
  else
    let a := s.pqPop.1
    let b := s.pqPop.2.pqPop.1
    let rest := s.pqPop.2.pqPop.2
    let k := s.nnodes
    let x := internalNode (s.nodeFreq a.toNat + s.nodeFreq b.toNat) a b
    let merged := ({ rest.writeNode k.toNat x with nnodes := k + 1#32 }).pqInsert k
    .ok { merged with root := merged.rootFromQueue }

/-- `while PQN >= 2: MERGE`, at most `rounds` times (R131). -/
def mergeLoop (w : Word) : Nat → State → Except CmdError State
  | 0, s => .ok s
  | rounds + 1, s =>
    if 2 ≤ s.pqn.toNat then
      match mergeBody w s with
      | .ok t => mergeLoop w rounds t
      | .error e => .error e
    else .ok s

/-- The body of `BUILD` (R131): `FREQ`, `PQINIT`, then `MERGE` until one node remains. Every round lowers `PQN` by 1, so
`PQN` rounds are enough. -/
def buildBody (w : Word) (s : State) : Except CmdError State :=
  match freqBody s with
  | .error e => .error e
  | .ok counted =>
    match pqinitBody w counted with
    | .error e => .error e
    | .ok loaded => mergeLoop w loaded.pqn.toNat loaded

/-- `FREQ` (R125). -/
def execFreq (s : State) : Host.Outcome State Fault Refusal := finish s (freqBody s)

/-- `PQINIT` (R127). -/
def execPqinit (s : State) : Host.Outcome State Fault Refusal := finish s (pqinitBody (encode .pqinit) s)

/-- `MERGE` (R129). -/
def execMerge (s : State) : Host.Outcome State Fault Refusal := finish s (mergeBody (encode .merge) s)

/-- `BUILD` (R131). -/
def execBuild (s : State) : Host.Outcome State Fault Refusal := finish s (buildBody (encode .build) s)

end Sys2Proof.Machine
end

