-- ==== Sys2Proof/Machine/HostPort.lean ====
section
/-! DEFINITION. The host port (spec/20_memory.md): addresses, reads, writes, access errors, the issue of a command by a
write to `CMD`, and the serving of one host input. -/

namespace Sys2Proof.Machine

/-! ### Addresses -/

/-- The register with a given number, `none` if the number is reserved (10_state.md R22). -/
def Reg.ofNumber? (n : Nat) : Option Reg :=
  [Reg.id, .cap0, .cap1, .cap2, .cap3, .cmd, .status, .err, .errinfo, .tlen, .nsym, .nnodes, .root, .pqn, .ncodes,
    .enclen, .skipcnt, .declen, .cols, .rows, .padlen, .origlen, .permlen, .invlen].find? (fun r => r.number == n)

/-- The memory with a given space number, `none` for `REG` and the reserved spaces (R73). -/
def Space.ofNumber? (n : Nat) : Option Space :=
  [Space.text, .ftsym, .ftcnt, .node, .pq, .cblen, .cbbit, .enc, .perm, .inv, .dec].find? (fun sp => sp.number == n)

/-- What a host address names. -/
inductive Target where
  /-- A register of space 0. -/
  | register (r : Reg)
  /-- An element of a memory. -/
  | element (sp : Space) (i : Nat)
  deriving DecidableEq, Repr

/-- The space number of a host address, a[31:28] (R71). -/
def addressSpace (a : Word) : Nat := a.toNat / 2 ^ 28

/-- The index of a host address, a[27:0] (R71). -/
def addressIndex (a : Word) : Nat := a.toNat % 2 ^ 28

/-- What a host address names; `none` where there is nothing, so that any access is rejected (R73, R74, R76). -/
def targetOf (p : Params) (a : Word) : Option Target :=
  if addressSpace a = 0 then (Reg.ofNumber? (addressIndex a)).map .register
  else
    match Space.ofNumber? (addressSpace a) with
    | none => none
    | some sp => if elemExists p sp (addressIndex a) then some (.element sp (addressIndex a)) else none

/-- The host address of a register (R73). -/
def regAddress (r : Reg) : Word := BitVec.ofNat 32 r.number

/-- The host address of an element (R71, R73). -/
def elemAddress (sp : Space) (i : Nat) : Word := BitVec.ofNat 32 (sp.number * 2 ^ 28 + i)

/-- The memories the host may write: `TEXT`, `ENC`, `PERM`, `INV` (R73). -/
def Space.hostWritable (sp : Space) : Bool := sp == .text || sp == .enc || sp == .perm || sp == .inv

/-! ### Transactions -/

/-- The host's view of an element: `PQ` reads `NULL` at and beyond `PQN` (R84), every other element is what it holds. -/
def State.hostElem (s : State) (sp : Space) (i : Nat) : Word :=
  if sp = .pq ∧ s.pqn.toNat ≤ i then nullIndex else s.readElem sp i

/-- `HostRead(a)`: the value returned, and the state after (R70, R72, R75, R80). A rejected read returns 0 and sets
`ACCERR` (R76). -/
def State.hostRead (s : State) (a : Word) : Word × State :=
  match targetOf s.params a with
  | some (.register r) => (s.readReg r, s)
  | some (.element sp i) => (s.hostElem sp i, s)
  | none => (0#32, s.rejectAccess)

/-- The engine takes a command word (10_state.md R25; 30_encoding.md R105): it executes the command the word encodes, or
fails with `BAD_COMMAND`. -/
def issueCommand (w : Word) (s : State) : Host.Outcome State Fault Refusal :=
  match decode w with
  | .ok i => exec i s
  | .error _ => .next (s.raise (.badCommand w))

/-- A host write to a register (R75, R76). -/
def hostWriteReg (r : Reg) (d : Word) (s : State) : Host.Outcome State Fault Refusal :=
  match r.access with
  | .ro => .next s.rejectAccess
  | .rw => .next (s.setOperandReg r d)
  | .wo => issueCommand d s
  | .w1c => .next (s.clearSticky d)

/-- A host write to an element of a memory (R72, R76). -/
def State.hostWriteElem (s : State) (sp : Space) (i : Nat) (d : Word) : State :=
  if sp.hostWritable then s.writeElem sp i d else s.rejectAccess

/-- `HostWrite(a, d)` (R70, R75, R76). -/
def hostWrite (a d : Word) (s : State) : Host.Outcome State Fault Refusal :=
  match targetOf s.params a with
  | some (.register r) => hostWriteReg r d s
  | some (.element sp i) => .next (s.hostWriteElem sp i d)
  | none => .next s.rejectAccess

/-- One host input, served completely (R70, R89, R240). The value a read returns is recorded in `State.reads`. -/
def serveInput (x : HostInput) (s : State) : Host.Outcome State Fault Refusal :=
  match x with
  | .write a d => hostWrite a d s
  | .read a => .next { (s.hostRead a).2 with reads := s.reads ++ [(s.hostRead a).1] }
  | .reset => .next s.applyReset

/-- One step: the first pending input is taken and served. With no input pending nothing happens: HTX has no program
and no halt state, and is ready for a further input in every state (R252; log 3). -/
def serveNext (s : State) : Host.Outcome State Fault Refusal :=
  match s.inbox with
  | [] => .next s
  | x :: rest => serveInput x { s with inbox := rest }

/-- The host input that issues a command word: a write of the word to `CMD` (30_encoding.md R100). -/
def commandInput (w : Word) : HostInput := .write (regAddress .cmd) w

end Sys2Proof.Machine
end

