-- ==== Sys2Proof/Machine/Step.lean ====
section
/-! DEFINITION. The step of the machine: one host input (spec/70_reset_and_hazards.md R250, R252). -/

namespace Sys2Proof.Machine

/-- One step of HTX serves one host input; a write to `CMD` contains the whole command (R250). -/
def step (s : State) : Host.Outcome State Fault Refusal := Sys2Proof.Machine.serveNext s

/-- `s` with the command word `w` of `nbits` bits (higher bits 0) presented as the very next input of the host, a write
to `CMD`: HTX fetches no instruction, its host supplies each word at the moment it wants it executed (10_state.md R21;
log 3). -/
def State.withFetchWord (s : State) (nbits w : Nat) : State :=
  { s with inbox := commandInput (BitVec.ofNat 32 (w % 2 ^ nbits)) :: s.inbox }

end Sys2Proof.Machine
end

