-- ==== Sys2Proof/Machine/HostScript.lean ====
section
/-! DEFINITION. The host's side, as the spec writes it down: host-script statements and pseudo-statements
(spec/30_encoding.md R108, R109) as host inputs, and the interchange forms (spec/20_memory.md R86 to R88). None of this
is the engine's: it gives names to sequences of inputs and to readings of the state. -/

namespace Sys2Proof.Machine

/-- A host-script statement (R108). A command statement is written with the command itself. -/
inductive ScriptStmt where
  /-- `WR <reg>, <value>`. -/
  | wr (r : Reg) (v : Word)
  /-- `WRM <space>[<index>], <value>`. -/
  | wrm (sp : Space) (i : Nat) (v : Word)
  /-- `RD <reg>`. -/
  | rd (r : Reg)
  /-- `RDM <space>[<index>]`. -/
  | rdm (sp : Space) (i : Nat)
  /-- A command statement: `NOP` to `PERMUTE`, `DECODE ENC`, `DECODE INV`, `INVERT`, `INVERT TRIM`. -/
  | command (i : Instr)
  /-- `CMDW <value>`. -/
  | cmdw (w : Word)
  deriving DecidableEq, Repr

/-- The one transaction of a statement (R108). -/
def ScriptStmt.input : ScriptStmt → HostInput
  | .wr r v => .write (regAddress r) v
  | .wrm sp i v => .write (elemAddress sp i) v
  | .rd r => .read (regAddress r)
  | .rdm sp i => .read (elemAddress sp i)
  | .command i => commandInput (encode i)
  | .cmdw w => commandInput w

/-- The index of field `f` of node `n`, written `n.kind` to `n.right` in a script (R74, R108). -/
def nodeIndex (n f : Nat) : Nat := 8 * n + f

/-- The index of bit `j` of code `i`, written `i.j` in a script (R74, R108). -/
def codeBitIndex (p : Params) (i j : Nat) : Nat := i * p.codeMax + j

/-- `SYMCODE`, default: the Unicode code point of the character (R7). -/
def codePoint (ch : Char) : Word := BitVec.ofNat 32 ch.toNat

/-- The bit memories a script names, each with its length register (R109). -/
inductive BitBuffer where
  | enc
  | perm
  | inv
  deriving DecidableEq, Repr

/-- The memory of a bit buffer. -/
def BitBuffer.space : BitBuffer → Space
  | .enc => .enc
  | .perm => .perm
  | .inv => .inv

/-- The length register of a bit buffer (R27). -/
def BitBuffer.lenReg : BitBuffer → Reg
  | .enc => .enclen
  | .perm => .permlen
  | .inv => .invlen

/-- One `WRM` for each value, to consecutive indices from `base` on. -/
def writeStmts (sp : Space) (base : Nat) : List Word → List ScriptStmt
  | [] => []
  | v :: vs => .wrm sp base v :: writeStmts sp (base + 1) vs

/-- One `RDM` for each index below `n`. -/
def readStmts (sp : Space) (n : Nat) : List ScriptStmt := (List.range n).map (.rdm sp)

/-- `TEXT "<string>"` (R109), under a character map `symCode`. -/
def textStmts (symCode : Char → Word) (text : List Char) : List ScriptStmt :=
  writeStmts .text 0 (text.map symCode) ++ [.wr .tlen (BitVec.ofNat 32 text.length)]

/-- `BITS <buf>, "<bitstring>"` (R109). -/
def bitsStmts (b : BitBuffer) (bits : List Bool) : List ScriptStmt :=
  writeStmts b.space 0 (bits.map bitWord) ++ [.wr b.lenReg (BitVec.ofNat 32 bits.length)]

/-- `KEY <c>` (R109). -/
def keyStmts (c : Word) : List ScriptStmt := [.wr .cols c]

/-- `W1C <mask>` (R109). -/
def w1cStmts (mask : Word) : List ScriptStmt := [.wr .status mask]

/-- The reads of `EXPECT <buf> = "<bitstring>"` for a string of `n` bits (R109). -/
def expectStmts (b : BitBuffer) (n : Nat) : List ScriptStmt := .rd b.lenReg :: readStmts b.space n

/-- The reads of `EXPECTTEXT DEC = "<string>"` for a string of `n` characters (R109). -/
def expectTextStmts (n : Nat) : List ScriptStmt := .rd .declen :: readStmts .dec n

/-- `PIPELINE <c>` (R109). -/
def pipelineStmts (c : Word) : List ScriptStmt :=
  [.command .build, .command .gencodes, .command .encode, .wr .cols c, .command .permute]

/-- The state with the inputs of a script pending. -/
def State.withScript (s : State) (script : List ScriptStmt) : State :=
  { s with inbox := s.inbox ++ script.map ScriptStmt.input }

/-- A bit sequence as a string of the characters 0 and 1, element 0 first (R9, R86). -/
def bitString (bits : List Bool) : String := String.ofList (bits.map (fun b => if b then '1' else '0'))

/-- The interchange string of a bit buffer: its bits below its length register (R86). -/
def State.bufferString (s : State) (b : BitBuffer) : String :=
  bitString (s.readBits b.space (s.readReg b.lenReg).toNat)

/-- The codebook as an ordered list of (symbol, code) pairs, sorted by symbol (R87). -/
def State.codebookPairs (s : State) : List (Word × List Bool) :=
  (List.range s.ncodes.toNat).map (fun i => (s.readElem .ftsym i, s.codeBits i))

/-- (columnCount, rowCount, originalBitLength), which travels with a permuted sequence (R88). -/
def State.permutationKey (s : State) : Word × Word × Word := (s.cols, s.rows, s.origlen)

end Sys2Proof.Machine
end

