-- ==== Sys2Proof/Safety.lean ====
section
/-! DEFINITION. The words the claims are stated in: how a command ends, what it leaves unchanged, the invariants of the
state (spec/10_state.md R57 and what the rules say of the tables), walks in the tree, and runs. -/

namespace Sys2Proof.Machine

/-! ### How a command ends -/

/-- Command `i` completes from `s`, leaving `t`: `ERR` and `ERRINFO` are 0 there (R12). -/
def Completes (i : Instr) (s t : State) : Prop := exec i s = .next t ∧ t.err = 0#32 ∧ t.errinfo = 0#32

/-- Command `i` fails from `s`: `ERR` and `ERRINFO` take the given values and nothing else changes (R12, R214). -/
def FailsWith (i : Instr) (s : State) (code info : Word) : Prop :=
  exec i s = .next { s with err := code, errinfo := info }

/-- The stored flags of `STATUS` (R26). -/
inductive Flag where
  | freqV | pqV | codesV | wEmpty | wUnknown | accErr
  deriving DecidableEq, Repr

/-- The value of a stored flag. -/
def State.flag (s : State) : Flag → Bool
  | .freqV => s.freqV
  | .pqV => s.pqV
  | .codesV => s.codesV
  | .wEmpty => s.wEmpty
  | .wUnknown => s.wUnknown
  | .accErr => s.accErr

/-- From `s` to `t` nothing changes but the listed registers, the listed flags and the touched elements. (`STATUS` is
the flags; its derived bits follow from `PQN` and `NSYM`.) -/
structure Framed (s t : State) (regs : List Reg) (flags : List Flag) (touched : Space → Nat → Prop) : Prop where
  params : t.params = s.params
  inbox : t.inbox = s.inbox
  reads : t.reads = s.reads
  resets : t.resets = s.resets
  regs : ∀ r, r ≠ .status → r ∉ regs → t.readReg r = s.readReg r
  flags : ∀ f, f ∉ flags → t.flag f = s.flag f
  elems : ∀ sp i, ¬ touched sp i → t.readElem sp i = s.readElem sp i

/-- No element is touched. -/
def noElem : Space → Nat → Prop := fun _ _ => False

/-- Commands issued one after the other. -/
def runCommands : List Instr → State → Host.Outcome State Fault Refusal
  | [], s => .next s
  | i :: is, s =>
    match exec i s with
    | .next t => runCommands is t
    | .fault f => .fault f
    | .refused r => .refused r

/-- The reset value of a register, for an instance (10_state.md R22, R58). -/
def resetValue (p : Params) : Reg → Word
  | .id => 0x48540007#32
  | .cap0 => (BitVec.ofNat 32 p.nsymMax <<< 16) ||| BitVec.ofNat 32 p.symW
  | .cap1 => BitVec.ofNat 32 p.textMax
  | .cap2 => BitVec.ofNat 32 p.bitsMax
  | .cap3 => BitVec.ofNat 32 p.decMax
  | .root => 0xFFFFFFFF#32
  | _ => 0#32

/-- The thirteen legal command words (30_encoding.md R104). -/
def legalWords : List Word :=
  [0x00000000#32, 0x00000001#32, 0x00000010#32, 0x00000011#32, 0x00000012#32, 0x00000013#32, 0x00000014#32,
    0x00000015#32, 0x00000016#32, 0x00000116#32, 0x00000020#32, 0x00000021#32, 0x00000121#32]

/-! ### The host's map, row by row as the spec's tables give it -/

/-- The rows of the table of 10_state.md R22: each register with its number and its access kind. -/
def registerMap : List (Reg × Nat × Access) :=
  [(.id, 0x00, .ro), (.cap0, 0x01, .ro), (.cap1, 0x02, .ro), (.cap2, 0x03, .ro), (.cap3, 0x04, .ro),
    (.cmd, 0x05, .wo), (.status, 0x06, .w1c), (.err, 0x07, .ro), (.errinfo, 0x08, .ro), (.tlen, 0x10, .rw),
    (.nsym, 0x11, .ro), (.nnodes, 0x12, .ro), (.root, 0x13, .ro), (.pqn, 0x14, .ro), (.ncodes, 0x15, .ro),
    (.enclen, 0x16, .rw), (.skipcnt, 0x17, .ro), (.declen, 0x18, .ro), (.cols, 0x20, .rw), (.rows, 0x21, .rw),
    (.padlen, 0x22, .ro), (.origlen, 0x23, .rw), (.permlen, 0x24, .rw), (.invlen, 0x25, .rw)]

/-- The rows of the table of 20_memory.md R73: each memory with the host address of its element 0 and its depth. -/
def memoryMap (p : Params) : List (Space × Nat × Nat) :=
  [(.text, 0x10000000, p.textMax), (.ftsym, 0x20000000, p.nsymMax), (.ftcnt, 0x30000000, p.nsymMax),
    (.node, 0x40000000, 8 * (2 * p.nsymMax - 1)), (.pq, 0x50000000, p.nsymMax), (.cblen, 0x60000000, p.nsymMax),
    (.cbbit, 0x70000000, p.nsymMax * max 1 (p.nsymMax - 1)), (.enc, 0x80000000, p.bitsMax),
    (.perm, 0x90000000, p.bitsMax), (.inv, 0xA0000000, p.bitsMax), (.dec, 0xB0000000, p.decMax)]

/-- The value a host read of each register number returns (20_memory.md R75): the constants of 10_state.md R23 and R24,
0 for `CMD`, the flags at the places of R26 for `STATUS`, the stored value of every other register. -/
def registerValues (s : State) : List (Nat × Word) :=
  [(0x00, 0x48540007#32),
    (0x01, (BitVec.ofNat 32 s.params.nsymMax <<< 16) ||| BitVec.ofNat 32 s.params.symW),
    (0x02, BitVec.ofNat 32 s.params.textMax), (0x03, BitVec.ofNat 32 s.params.bitsMax),
    (0x04, BitVec.ofNat 32 s.params.decMax), (0x05, 0#32),
    (0x06, BitVec.ofNat 32 (2 ^ 0 * s.freqV.toNat + 2 ^ 1 * s.pqV.toNat + 2 ^ 2 * (s.pqV && s.pqn == 1#32).toNat
      + 2 ^ 3 * (s.pqV && s.nsym == 0#32).toNat + 2 ^ 4 * s.codesV.toNat + 2 ^ 16 * s.wEmpty.toNat
      + 2 ^ 17 * s.wUnknown.toNat + 2 ^ 18 * s.accErr.toNat)),
    (0x07, s.err), (0x08, s.errinfo), (0x10, s.tlen), (0x11, s.nsym), (0x12, s.nnodes), (0x13, s.root), (0x14, s.pqn),
    (0x15, s.ncodes), (0x16, s.enclen), (0x17, s.skipcnt), (0x18, s.declen), (0x20, s.cols), (0x21, s.rows),
    (0x22, s.padlen), (0x23, s.origlen), (0x24, s.permlen), (0x25, s.invlen)]

/-! ### The registers and memories each command may write -/

/-- The registers a completed command may write, besides `ERR` and `ERRINFO` (10_state.md R45). -/
def writtenRegs : Instr → List Reg
  | .nop => []
  | .clear => [.tlen, .nsym, .nnodes, .root, .pqn, .ncodes, .enclen, .skipcnt, .declen, .cols, .rows, .padlen,
      .origlen, .permlen, .invlen]
  | .freq => [.nsym, .nnodes, .root, .pqn, .ncodes]
  | .pqinit => [.nnodes, .root, .pqn, .ncodes]
  | .merge => [.nnodes, .root, .pqn]
  | .build => [.nsym, .nnodes, .root, .pqn, .ncodes]
  | .gencodes => [.ncodes]
  | .encode => [.enclen, .skipcnt]
  | .decode _ => [.declen]
  | .permute => [.rows, .padlen, .origlen, .permlen]
  | .invert _ => [.invlen]

/-- The flags a completed command may write (10_state.md R26, R45). -/
def writtenFlags : Instr → List Flag
  | .nop => []
  | .clear => [.freqV, .pqV, .codesV, .wEmpty, .wUnknown, .accErr]
  | .freq => [.freqV, .pqV, .codesV]
  | .pqinit => [.pqV, .codesV, .wEmpty]
  | .merge => []
  | .build => [.freqV, .pqV, .codesV, .wEmpty]
  | .gencodes => [.codesV]
  | .encode => [.wUnknown]
  | .decode _ => []
  | .permute => []
  | .invert _ => []

/-- The memories a completed command may write (10_state.md R45). -/
def writtenSpaces : Instr → List Space
  | .nop => []
  | .clear => []
  | .freq => [.ftsym, .ftcnt]
  | .pqinit => [.node, .pq]
  | .merge => [.node, .pq]
  | .build => [.ftsym, .ftcnt, .node, .pq]
  | .gencodes => [.cblen, .cbbit]
  | .encode => [.enc]
  | .decode _ => [.dec]
  | .permute => [.perm]
  | .invert _ => [.inv]

/-! ### Walks in the tree -/

/-- The node reached from `x` along path bits, 0 = left, 1 = right, each step taken from an internal node (R150). -/
def State.walk (s : State) : Word → List Bool → Option Word
  | x, [] => some x
  | x, b :: p =>
    if s.nodeInternal x.toNat then
      State.walk s (if b then s.nodeRight x.toNat else s.nodeLeft x.toNat) p
    else none

/-- `p` leads from the root to the leaf `x`. -/
def State.leadsToLeaf (s : State) (p : List Bool) (x : Word) : Prop :=
  s.walk s.root p = some x ∧ s.nodeInternal x.toNat = false

/-- The reference traversal of R154: depth first with an explicit stack, left before right, for at most `rounds` rounds.
Answers the (leaf, path) pairs met, and the stack that is left. -/
def State.traverse (s : State) : Nat → List (Word × List Bool) → List (Word × List Bool) × List (Word × List Bool)
  | 0, stack => ([], stack)
  | _ + 1, [] => ([], [])
  | rounds + 1, (x, p) :: stack =>
    if s.nodeInternal x.toNat then
      State.traverse s rounds
        ((s.nodeLeft x.toNat, p ++ [false]) :: (s.nodeRight x.toNat, p ++ [true]) :: stack)
    else
      ((x, p) :: (State.traverse s rounds stack).1, (State.traverse s rounds stack).2)

/-! ### What the tie-break does not change (40_tree_builder.md R135) -/

/-- The encoded length of the text the table was made of: the sum of `FTCNT[i]*CBLEN[i]` (R135). -/
def State.codedLength (s : State) : Nat :=
  ((List.range s.nsym.toNat).map (fun i => (s.readElem .ftcnt i).toNat * (s.readElem .cblen i).toNat)).sum

/-- `AnyTieBreak freqs c`: some tree built over leaves of these frequencies by joining two nodes of least frequency until
one node remains, ties broken in any way, has the encoded length `c`. Joining two nodes puts one bit more before every
symbol below them, so it adds the new node's frequency to the encoded length. -/
inductive AnyTieBreak : List Nat → Nat → Prop where
  /-- One node is left. -/
  | done (f : Nat) : AnyTieBreak [f] 0
  /-- Two nodes of least frequency, `f` and `g`, are joined. -/
  | join {freqs rest : List Nat} {f g c : Nat} (taken : freqs.Perm (f :: g :: rest)) (first : f ≤ g)
      (least : ∀ x ∈ rest, g ≤ x) (built : AnyTieBreak ((f + g) :: rest) c) : AnyTieBreak freqs (c + (f + g))

/-! ### Invariants -/

/-- The frequencies of some nodes, added as naturals. -/
def State.freqSum (s : State) (nodes : List Word) : Nat := (nodes.map (fun j => (s.nodeFreq j.toNat).toNat)).sum

/-- The sum of the counts of the frequency table. -/
def State.countSum (s : State) : Nat := ((s.readSeq .ftcnt s.nsym.toNat).map BitVec.toNat).sum

/-- The children of the internal nodes, each node's left child before its right one. -/
def State.childList (s : State) : List Nat :=
  (List.range' s.nsym.toNat (s.nnodes.toNat - s.nsym.toNat)).flatMap
    (fun k => [(s.nodeLeft k).toNat, (s.nodeRight k).toNat])

/-- The frequency table (10_state.md R31, R47): symbols strictly ascending, counts at least 1, at most `NSYM_MAX`
entries; the counts add up to the length of a text that fitted `TEXT`. -/
structure State.TableInv (s : State) : Prop where
  bound : s.nsym.toNat ≤ s.params.nsymMax
  ascending : (s.readSeq .ftsym s.nsym.toNat).Pairwise (· < ·)
  positive : ∀ c ∈ s.readSeq .ftcnt s.nsym.toNat, 1 ≤ c.toNat
  total : s.countSum ≤ s.params.textMax

/-- 10_state.md R57 (a) to (h), and of R48 that the leaves are the first `NSYM` nodes. -/
structure State.StageInv (s : State) : Prop where
  /-- (a) -/
  queue_needs_table : s.pqV = true → s.freqV = true
  /-- (a) -/
  codes_need_tree : s.codesV = true → s.pqV = true ∧ (s.pqn = 1#32 ∨ s.nsym = 0#32)
  /-- (b) -/
  no_queue : s.pqV = false → s.pqn = 0#32 ∧ s.nnodes = 0#32 ∧ s.root = nullIndex
  /-- (c) -/
  node_count : s.pqV = true → s.pqn.toNat + s.nnodes.toNat = 2 * s.nsym.toNat
  /-- (c) -/
  queue_nonempty : s.pqV = true → 1 ≤ s.nsym.toNat → 1 ≤ s.pqn.toNat
  /-- (c) -/
  queue_empty : s.pqV = true → s.nsym = 0#32 → s.pqn = 0#32
  /-- (d) -/
  root_iff : s.root ≠ nullIndex ↔ s.pqV = true ∧ s.pqn = 1#32
  /-- (d) -/
  root_value : s.pqV = true → s.pqn = 1#32 →
    s.root = s.readElem .pq 0 ∧ s.root.toNat + 1 = s.nnodes.toNat ∧ s.root.toNat + 2 = 2 * s.nsym.toNat
  /-- (e) -/
  no_codes : s.codesV = false → s.ncodes = 0#32
  /-- (e) -/
  all_codes : s.codesV = true → s.ncodes = s.nsym
  /-- (f) -/
  no_table : s.freqV = false → s.nsym = 0#32
  /-- (g) -/
  freq_sum : s.pqV = true → s.freqSum s.queue = s.countSum
  /-- (h) -/
  queue_below : ∀ j ∈ s.queue, j.toNat < s.nnodes.toNat
  /-- (h): the key order is strict, so the entries are distinct. -/
  queue_sorted : s.queue.Pairwise (fun i j => s.keyBefore i j = true)
  /-- The leaves are the first `NSYM` nodes (R48). -/
  leaves_exist : s.pqV = true → s.nsym.toNat ≤ s.nnodes.toNat
  /-- `kind` says which nodes are leaves (R48). -/
  kinds : s.pqV = true → ∀ n, n < s.nnodes.toNat → (s.nodeInternal n = false ↔ n < s.nsym.toNat)

/-- The nodes created so far (10_state.md R48, 40_tree_builder.md R130). -/
structure State.TreeInv (s : State) : Prop where
  leaves : s.pqV = true → ∀ i, i < s.nsym.toNat →
    s.readNode i = leafNode (s.readElem .ftsym i) (s.readElem .ftcnt i)
  internals : s.pqV = true → ∀ k, s.nsym.toNat ≤ k → k < s.nnodes.toNat →
    s.nodeInternal k = true ∧ s.nodeSym k = 0#32
      ∧ (s.nodeLeft k).toNat < k ∧ (s.nodeRight k).toNat < k
      ∧ (s.nodeFreq k).toNat
          = (s.nodeFreq (s.nodeLeft k).toNat).toNat + (s.nodeFreq (s.nodeRight k).toNat).toNat
      ∧ s.keyBefore (s.nodeLeft k) (s.nodeRight k) = true
  /-- Every node is either queued or the child of exactly one internal node, and of that one only once. -/
  owned_once : s.pqV = true →
    (s.queue.map BitVec.toNat ++ s.childList).Perm (List.range s.nnodes.toNat)

/-- The codebook, while `CODES_V` is 1 (10_state.md R50, 41_codebook.md R151 to R155): it is the codebook of the tree in
`NODE`. -/
structure State.CodebookInv (s : State) : Prop where
  lengths : s.codesV = true → ∀ i, i < s.ncodes.toNat →
    1 ≤ (s.readElem .cblen i).toNat ∧ (s.readElem .cblen i).toNat ≤ s.params.codeMax
  unused : s.codesV = true → ∀ i, s.ncodes.toNat ≤ i → i < s.params.nsymMax → s.readElem .cblen i = 0#32
  one_leaf : s.codesV = true → s.nsym = 1#32 → s.codeBits 0 = [false]
  paths : s.codesV = true → 2 ≤ s.nsym.toNat → ∀ i, i < s.nsym.toNat →
    s.walk s.root (s.codeBits i) = some (BitVec.ofNat 32 i)

/-- Every memory is in canonical form: indices strictly rising, every value within its element's width. -/
def State.MemoriesCanonical (s : State) : Prop :=
  ∀ sp, (s.memory sp).wf ∧ ∀ c ∈ s.memory sp, truncTo (elemWidth s.params sp c.1) c.2 = c.2

/-- Every written cell is an element that exists (20_memory.md R73, R74). -/
def State.CellsExist (s : State) : Prop := ∀ sp, ∀ c ∈ s.memory sp, elemExists s.params sp c.1 = true

/-- What R57 says, with what its proof needs: the parameters' bounds and the frequency table. -/
structure State.BuildInv (s : State) : Prop where
  params_valid : s.params.valid = true
  table : s.TableInv
  stage : s.StageInv

/-- The whole invariant of the machine. -/
structure State.Inv (s : State) : Prop where
  build : s.BuildInv
  tree : s.TreeInv
  codebook : s.CodebookInv
  canonical : s.MemoriesCanonical
  cells : s.CellsExist

/-! ### What the host can tell apart -/

/-- Two states that agree on the instance, on every register, and on every element below its valid length
(10_state.md R27). They may differ in cells no valid length covers. -/
structure State.AgreeOnValid (s t : State) : Prop where
  params : t.params = s.params
  regs : ∀ r, t.readReg r = s.readReg r
  text : t.textSeq = s.textSeq
  ftsym : t.readSeq .ftsym s.nsym.toNat = s.readSeq .ftsym s.nsym.toNat
  ftcnt : t.readSeq .ftcnt s.nsym.toNat = s.readSeq .ftcnt s.nsym.toNat
  node : ∀ n, n < s.nnodes.toNat → t.readNode n = s.readNode n
  queue : t.queue = s.queue
  codes : ∀ i, i < s.ncodes.toNat → t.codeBits i = s.codeBits i
  enc : t.readBits .enc s.enclen.toNat = s.readBits .enc s.enclen.toNat
  perm : t.readBits .perm s.permlen.toNat = s.readBits .perm s.permlen.toNat
  inv : t.readBits .inv s.invlen.toNat = s.readBits .inv s.invlen.toNat
  dec : t.readSeq .dec s.declen.toNat = s.readSeq .dec s.declen.toNat

end Sys2Proof.Machine
end

