-- ==== Sys2Proof/Certificates/Slice0/Obligations.lean ====
section
/-! DEFINITION. The statements for the provers about HTX. Each formalises what a numbered rule of spec/ says, or what
follows from several; each docstring names the rule. `Completes`, `FailsWith`, `Framed` and the invariants are defined in
Sys2Proof/Safety.lean. -/

open Sys2Proof Sys2Proof.Machine

/-! ### Encoding and issue of commands -/

/-- 30_encoding.md R101, R102, R104: words written out from the encoding table decode to the commands they stand for. -/
def Obligations.SampleWordsDecode : Prop :=
  decode 0x00000000#32 = .ok .nop ∧ decode 0x00000001#32 = .ok .clear ∧ decode 0x00000010#32 = .ok .freq
    ∧ decode 0x00000011#32 = .ok .pqinit ∧ decode 0x00000012#32 = .ok .merge ∧ decode 0x00000013#32 = .ok .build
    ∧ decode 0x00000014#32 = .ok .gencodes ∧ decode 0x00000015#32 = .ok .encode
    ∧ decode 0x00000016#32 = .ok (.decode false) ∧ decode 0x00000116#32 = .ok (.decode true)
    ∧ decode 0x00000020#32 = .ok .permute
    ∧ decode 0x00000021#32 = .ok (.invert false) ∧ decode 0x00000121#32 = .ok (.invert true)

/-- Every well-formed command decodes from the word it is encoded as, with its flag. -/
def Obligations.DecodeOfEncode : Prop := ∀ i : Instr, i.wellFormed = true → decode (encode i) = .ok i

/-- A word that decodes is the word of the command it decodes to: decoding drops no bit of the word. With
`DecodeOfEncode`, decode and encode agree in both directions. -/
def Obligations.EncodeOfDecode : Prop :=
  ∀ (w : Word) (i : Instr), decode w = .ok i → encode i = w ∧ i.wellFormed = true

/-- 30_encoding.md R105: decoding is total; a word is rejected exactly when one of the three tests of the rule, in
their order, refuses it, and passes exactly when it is one of the thirteen legal words. -/
def Obligations.DecodeRejectsByTheThreeTests : Prop :=
  ∀ w : Word,
    (decode w = .error .reservedBits ↔ w.toNat / 2 ^ 9 ≠ 0)
    ∧ (decode w = .error .unassignedOpcode ↔ w.toNat / 2 ^ 9 = 0
        ∧ w.toNat % 2 ^ 8 ∉ [0x00, 0x01, 0x10, 0x11, 0x12, 0x13, 0x14, 0x15, 0x16, 0x20, 0x21])
    ∧ (decode w = .error .flagOnFormatZ ↔ w.toNat / 2 ^ 9 = 0 ∧ w.toNat / 2 ^ 8 = 1
        ∧ w.toNat % 2 ^ 8 ∈ [0x00, 0x01, 0x10, 0x11, 0x12, 0x13, 0x14, 0x15, 0x20])
    ∧ ((∃ i, decode w = .ok i) ↔ w ∈ legalWords)

/-- 30_encoding.md R106: a write to `CMD` of a word that is not legal fails with `BAD_COMMAND` (3), `ERRINFO` the word,
and changes nothing else (the transaction itself leaves the pending inputs). -/
def Obligations.IllegalWordFailsWithBadCommand : Prop :=
  ∀ (s : State) (w : Word) (rest : List HostInput), w ∉ legalWords →
    s.inbox = .write 0x00000005#32 w :: rest →
    step s = .next { s with inbox := rest, err := 3#32, errinfo := w }

/-- A step runs the decoded command: when the next host input writes to `CMD` (address 0x00000005) a word that decodes
to `i`, the step is `exec i` at the state that has taken the input (10_state.md R25, 30_encoding.md R100, R105). -/
def Obligations.StepRunsDecodedCommand : Prop :=
  ∀ (s : State) (w : Word) (i : Instr) (rest : List HostInput),
    s.inbox = .write 0x00000005#32 w :: rest → decode w = .ok i → i.wellFormed = true →
    step s = exec i { s with inbox := rest }

/-! ### Reset and the system commands -/

/-- 70_reset_and_hazards.md R241: after reset, in every instance, every register holds its reset value, and every
invariant of R57 holds; in the default instance `CAP0` to `CAP3` read as 10_state.md R24 says. -/
def Obligations.ResetRegistersAndInvariants : Prop :=
  (∀ (p : Params) (s : State), s = { State.reset with params := p } →
      (∀ r, s.readReg r = resetValue p r) ∧ s.StageInv)
    ∧ State.reset.readReg .cap0 = 0x00400010#32 ∧ State.reset.readReg .cap1 = 0x00001000#32
    ∧ State.reset.readReg .cap2 = 0x00010000#32 ∧ State.reset.readReg .cap3 = 0x00001000#32

/-- The whole invariant of the model holds at reset (its clauses on the form of the memories are the model's choice, log
7). -/
def Obligations.ResetMeetsInvariant : Prop := State.reset.Inv

/-- 70_reset_and_hazards.md R240 to R242, 10_state.md R58: the reset input, served between two transactions in any
state, gives every register its reset value, and leaves no memory cell written. (That the instance, the inputs still
pending and the values already read stay is the model's choice, log 6.) -/
def Obligations.ResetInputFromAnyState : Prop :=
  ∀ (s : State) (rest : List HostInput), s.inbox = .reset :: rest →
    ∃ t, step s = .next t ∧ (∀ r, t.readReg r = resetValue s.params r) ∧ (∀ sp, t.memory sp = [])
      ∧ t.params = s.params ∧ t.inbox = rest ∧ t.reads = s.reads ∧ t.StageInv

/-- 44_system_commands.md R200: `NOP` completes in every state and changes nothing but `ERR` and `ERRINFO`. -/
def Obligations.NopOnlyClearsErr : Prop :=
  decode 0x00000000#32 = .ok .nop
    ∧ ∀ s : State, exec .nop s = .next { s with err := 0#32, errinfo := 0#32 }

/-- 44_system_commands.md R201: `CLEAR` completes in every state; every register takes its reset value, every cell of
every memory keeps its contents, and every element of `PQ` reads `NULL`. It is the only command that clears `FREQ_V` and
the only one that clears a sticky bit. -/
def Obligations.ClearResetsRegistersKeepsCells : Prop :=
  decode 0x00000001#32 = .ok .clear
    ∧ (∀ s : State, ∃ t, Completes .clear s t
      ∧ (∀ r, t.readReg r = resetValue s.params r) ∧ (∀ f, t.flag f = false)
      ∧ (∀ sp i, t.readElem sp i = s.readElem sp i) ∧ (∀ i, t.hostElem .pq i = 0xFFFFFFFF#32)
      ∧ Framed s t (.err :: .errinfo :: writtenRegs .clear) (writtenFlags .clear) noElem)
    ∧ ∀ (i : Instr) (s t : State), i ≠ .clear → exec i s = .next t →
      (s.freqV = true → t.freqV = true) ∧ (s.wEmpty = true → t.wEmpty = true)
      ∧ (s.wUnknown = true → t.wUnknown = true) ∧ (s.accErr = true → t.accErr = true)

/-! ### The tree builder -/

/-- 40_tree_builder.md R125: `FREQ`. Its two checks in their order; when they pass, the table of the distinct symbols of
the text in strictly ascending order with their counts, and the tree and codebook state reset. -/
def Obligations.FreqBuildsFrequencyTable : Prop :=
  decode 0x00000010#32 = .ok .freq ∧
  ∀ s : State,
    (s.params.textMax < s.tlen.toNat → FailsWith .freq s 5#32 0x10#32)
    ∧ (s.tlen.toNat ≤ s.params.textMax → s.params.nsymMax < s.textSeq.dedup.length →
        FailsWith .freq s 6#32 1#32)
    ∧ (s.tlen.toNat ≤ s.params.textMax → s.textSeq.dedup.length ≤ s.params.nsymMax →
        ∃ t, Completes .freq s t
          ∧ t.nsym.toNat = s.textSeq.dedup.length
          ∧ (t.readSeq .ftsym t.nsym.toNat).Pairwise (· < ·)
          ∧ (∀ x, x ∈ t.readSeq .ftsym t.nsym.toNat ↔ x ∈ s.textSeq)
          ∧ (∀ i, i < t.nsym.toNat →
              (t.readElem .ftcnt i).toNat = s.textSeq.count (t.readElem .ftsym i))
          ∧ t.freqV = true ∧ t.pqV = false ∧ t.codesV = false ∧ t.treeV = false ∧ t.noTree = false
          ∧ t.pqn = 0#32 ∧ t.nnodes = 0#32 ∧ t.root = 0xFFFFFFFF#32 ∧ t.ncodes = 0#32
          ∧ Framed s t [.err, .errinfo, .nsym, .pqn, .nnodes, .root, .ncodes] [.freqV, .pqV, .codesV]
              (fun sp i => (sp = .ftsym ∨ sp = .ftcnt) ∧ i < t.nsym.toNat))

/-- 40_tree_builder.md R126 (c): two texts that are permutations of each other give identical tables. -/
def Obligations.FreqIgnoresTextOrder : Prop :=
  ∀ s s' t t' : State, s.params = s'.params → s.textSeq.Perm s'.textSeq →
    exec .freq s = .next t → exec .freq s' = .next t' → t.err = 0#32 → t'.err = 0#32 →
    t.nsym = t'.nsym ∧ ∀ i, i < t.nsym.toNat →
      t.readElem .ftsym i = t'.readElem .ftsym i ∧ t.readElem .ftcnt i = t'.readElem .ftcnt i

/-- 40_tree_builder.md R127: `PQINIT`. Without a frequency table it fails; with one, leaf i holds symbol i and its count,
and the queue is the leaves in strictly ascending key order. -/
def Obligations.PqinitLoadsLeavesInKeyOrder : Prop :=
  decode 0x00000011#32 = .ok .pqinit ∧
  ∀ s : State,
    (s.freqV = false → FailsWith .pqinit s 4#32 0x00000011#32)
    ∧ (s.freqV = true →
        ∃ t, Completes .pqinit s t
          ∧ (∀ i, i < s.nsym.toNat →
              t.readNode i = { internal := false, sym := s.readElem .ftsym i, freq := s.readElem .ftcnt i,
                               left := 0xFFFFFFFF#32, right := 0xFFFFFFFF#32 })
          ∧ t.nnodes = s.nsym ∧ t.pqn = s.nsym
          ∧ t.queue.Perm ((List.range s.nsym.toNat).map (BitVec.ofNat 32))
          ∧ t.queue.Pairwise (fun i j => t.keyBefore i j = true)
          ∧ t.root = (if s.nsym = 1#32 then 0#32 else 0xFFFFFFFF#32)
          ∧ t.pqV = true ∧ t.codesV = false ∧ t.ncodes = 0#32
          ∧ t.wEmpty = (s.wEmpty || s.nsym == 0#32)
          ∧ t.treeV = (s.nsym == 1#32) ∧ t.noTree = (s.nsym == 0#32)
          ∧ Framed s t [.err, .errinfo, .nnodes, .pqn, .root, .ncodes] [.pqV, .codesV, .wEmpty]
              (fun sp i => (sp = .node ∧ i < 8 * s.nsym.toNat ∧ i % 8 < 5) ∨ (sp = .pq ∧ i < s.nsym.toNat)))

/-- 40_tree_builder.md R129: `MERGE`. It fails, in every state, when no queue is loaded or it holds fewer than two
entries. In a state that meets the invariants of R57 it completes otherwise: the two least keys are popped, the first
popped is the left child of a new internal node of their summed frequency, and that node is queued; the queue
stays sorted. -/
def Obligations.MergeJoinsTwoLeastNodes : Prop :=
  decode 0x00000012#32 = .ok .merge ∧
  (∀ s : State, (s.pqV = false ∨ s.pqn.toNat < 2) → FailsWith .merge s 4#32 0x00000012#32) ∧
  ∀ s : State, s.BuildInv → s.pqV = true → 2 ≤ s.pqn.toNat →
    ∃ t a b, Completes .merge s t
      ∧ a = s.readElem .pq 0 ∧ b = s.readElem .pq 1
      ∧ s.keyBefore a b = true ∧ (∀ j ∈ s.queue.drop 2, s.keyBefore b j = true)
      ∧ (t.readNode s.nnodes.toNat).internal = true ∧ (t.readNode s.nnodes.toNat).sym = 0#32
      ∧ (t.readNode s.nnodes.toNat).freq.toNat = (s.nodeFreq a.toNat).toNat + (s.nodeFreq b.toNat).toNat
      ∧ (t.readNode s.nnodes.toNat).left = a ∧ (t.readNode s.nnodes.toNat).right = b
      ∧ t.nnodes.toNat = s.nnodes.toNat + 1 ∧ t.pqn.toNat + 1 = s.pqn.toNat
      ∧ t.queue.Perm (s.nnodes :: s.queue.drop 2)
      ∧ t.queue.Pairwise (fun i j => t.keyBefore i j = true)
      ∧ t.root = (if t.pqn = 1#32 then t.readElem .pq 0 else 0xFFFFFFFF#32)
      ∧ Framed s t [.err, .errinfo, .nnodes, .pqn, .root] []
          (fun sp i => (sp = .node ∧ 8 * s.nnodes.toNat ≤ i ∧ i < 8 * s.nnodes.toNat + 5)
            ∨ (sp = .pq ∧ i < t.pqn.toNat))

/-- 40_tree_builder.md R131: the state after `BUILD` is, register for register and cell for cell, the state after the
command sequence `FREQ`, `PQINIT`, `MERGE` × (`NSYM` - 1); when one of `FREQ`'s two checks fails, `BUILD` fails as `FREQ`
does and nothing else changes. -/
def Obligations.BuildIsFreqPqinitMerges : Prop :=
  ∀ s : State,
    (s.params.textMax < s.tlen.toNat → FailsWith .build s 5#32 0x10#32)
    ∧ (s.tlen.toNat ≤ s.params.textMax → s.params.nsymMax < s.textSeq.dedup.length →
        FailsWith .build s 6#32 1#32)
    ∧ (s.tlen.toNat ≤ s.params.textMax → s.textSeq.dedup.length ≤ s.params.nsymMax →
        exec .build s = runCommands ([.freq, .pqinit] ++ List.replicate (s.textSeq.dedup.length - 1) .merge) s)

/-- 40_tree_builder.md R131, R132: what a completed `BUILD` leaves: with at least one symbol a complete tree whose root is
node 2*`NSYM` - 2 and whose root frequency is the length of the text; with none, no tree and the warning `W_EMPTY`. -/
def Obligations.BuildLeavesFinishedTree : Prop :=
  decode 0x00000013#32 = .ok .build ∧
  ∀ s : State, s.params.valid = true → s.tlen.toNat ≤ s.params.textMax →
    s.textSeq.dedup.length ≤ s.params.nsymMax →
    ∃ t, Completes .build s t
      ∧ t.nsym.toNat = s.textSeq.dedup.length
      ∧ t.freqV = true ∧ t.pqV = true ∧ t.codesV = false ∧ t.ncodes = 0#32
      ∧ (1 ≤ t.nsym.toNat → t.pqn = 1#32 ∧ t.nnodes.toNat = 2 * t.nsym.toNat - 1
          ∧ t.root.toNat = 2 * t.nsym.toNat - 2 ∧ t.treeV = true ∧ t.noTree = false
          ∧ t.wEmpty = s.wEmpty ∧ t.nodeFreq t.root.toNat = s.tlen)
      ∧ (t.nsym = 0#32 → t.pqn = 0#32 ∧ t.nnodes = 0#32 ∧ t.root = 0xFFFFFFFF#32 ∧ t.noTree = true
          ∧ t.treeV = false ∧ t.wEmpty = true)
      ∧ Framed s t [.err, .errinfo, .nsym, .nnodes, .root, .pqn, .ncodes] [.freqV, .pqV, .codesV, .wEmpty]
          (fun sp i => ((sp = .ftsym ∨ sp = .ftcnt ∨ sp = .pq) ∧ i < t.nsym.toNat)
            ∨ (sp = .node ∧ i < 8 * t.nnodes.toNat ∧ i % 8 < 5))

/-- 40_tree_builder.md R133: the finished tree, in any state that meets the invariant: `NSYM` leaves and `NSYM` - 1
internal nodes, the root the last node, every other node the child of exactly one internal node, each internal node's
index larger than its children's, the root's frequency the sum of all counts. -/
def Obligations.FinishedTreeIsStrictBinary : Prop :=
  ∀ s : State, s.Inv → s.treeV = true → 1 ≤ s.nsym.toNat →
    s.nnodes.toNat = 2 * s.nsym.toNat - 1 ∧ s.root.toNat = 2 * s.nsym.toNat - 2
    ∧ (∀ n, n < s.nnodes.toNat → (s.nodeInternal n = false ↔ n < s.nsym.toNat))
    ∧ (s.nodeFreq s.root.toNat).toNat = s.countSum
    ∧ (∀ x, x < s.nnodes.toNat → x ≠ s.root.toNat →
        ∃ k, (s.nsym.toNat ≤ k ∧ k < s.nnodes.toNat
            ∧ ((s.nodeLeft k).toNat = x ∨ (s.nodeRight k).toNat = x))
          ∧ ∀ k', s.nsym.toNat ≤ k' → k' < s.nnodes.toNat →
            ((s.nodeLeft k').toNat = x ∨ (s.nodeRight k').toNat = x) → k' = k)
    ∧ (∀ k, s.nsym.toNat ≤ k → k < s.nnodes.toNat →
        (s.nodeLeft k).toNat < k ∧ (s.nodeRight k).toNat < k ∧ s.nodeLeft k ≠ s.nodeRight k)

/-! ### The codebook -/

/-- 41_codebook.md R151, R152, R155, R156: `GENCODES` in every state: it fails without a complete tree and without a
no-tree build; with no tree it gives the empty codebook; with a one-leaf tree the code "0"; every `CBLEN` at and beyond
the new `NCODES` is 0. -/
def Obligations.GencodesFailsOrHandlesSmallTrees : Prop :=
  ∀ s : State, s.params.valid = true →
    (s.treeV = false → s.noTree = false → FailsWith .gencodes s 4#32 0x00000014#32)
    ∧ (s.noTree = true →
        ∃ t, Completes .gencodes s t ∧ t.ncodes = 0#32 ∧ t.codesV = true
          ∧ (∀ i, i < s.params.nsymMax → t.readElem .cblen i = 0#32)
          ∧ Framed s t [.err, .errinfo, .ncodes] [.codesV] (fun sp i => sp = .cblen ∧ i < s.params.nsymMax))
    ∧ (s.treeV = true → s.noTree = false → s.nodeInternal s.root.toNat = false →
        ∃ t, Completes .gencodes s t ∧ t.ncodes = 1#32 ∧ t.codesV = true
          ∧ t.readElem .cblen 0 = 1#32 ∧ t.readElem .cbbit 0 = 0#32 ∧ t.codeBits 0 = [false]
          ∧ (∀ i, 1 ≤ i → i < s.params.nsymMax → t.readElem .cblen i = 0#32)
          ∧ Framed s t [.err, .errinfo, .ncodes] [.codesV]
              (fun sp i => (sp = .cblen ∧ i < s.params.nsymMax) ∨ (sp = .cbbit ∧ i = 0)))

/-- 41_codebook.md R150, R151: with a tree of two or more leaves `GENCODES` completes, and the code of leaf i is its path
bits: walking from the root along `code(i)`, 0 left and 1 right, ends at node i, each step taken from an internal node,
and i is a leaf. -/
def Obligations.GencodesAssignsPathBits : Prop :=
  decode 0x00000014#32 = .ok .gencodes ∧
  ∀ s : State, s.Inv → s.treeV = true → 2 ≤ s.nsym.toNat →
    ∃ t, Completes .gencodes s t ∧ t.ncodes = s.nsym ∧ t.codesV = true
      ∧ (∀ i, i < s.nsym.toNat → s.leadsToLeaf (t.codeBits i) (BitVec.ofNat 32 i)
          ∧ 1 ≤ (t.readElem .cblen i).toNat ∧ (t.readElem .cblen i).toNat ≤ s.nsym.toNat - 1)
      ∧ (∀ i, s.nsym.toNat ≤ i → i < s.params.nsymMax → t.readElem .cblen i = 0#32)
      ∧ Framed s t [.err, .errinfo, .ncodes] [.codesV]
          (fun sp i => (sp = .cblen ∧ i < s.params.nsymMax)
            ∨ (sp = .cbbit ∧ ∃ e j, e < s.nsym.toNat ∧ j < (t.readElem .cblen e).toNat
                ∧ i = e * s.params.codeMax + j))

/-- 41_codebook.md R154: the reference traversal is conforming: started at the root with an empty prefix it meets every
leaf once within `NNODES` rounds, empties its stack, and the path it carries to a leaf is the code `GENCODES` gives it. -/
def Obligations.ReferenceTraversalConforms : Prop :=
  ∀ s t : State, s.Inv → s.treeV = true → 2 ≤ s.nsym.toNat → Completes .gencodes s t →
    (s.traverse s.nnodes.toNat [(s.root, [])]).2 = []
    ∧ ((s.traverse s.nnodes.toNat [(s.root, [])]).1.map (fun e => e.1.toNat)).Perm (List.range s.nsym.toNat)
    ∧ ∀ e ∈ (s.traverse s.nnodes.toNat [(s.root, [])]).1, t.codeBits e.1.toNat = e.2

/-- 41_codebook.md R153: the codebook after a completed `GENCODES` with `NSYM ≥ 1`: (a) code lengths, (b) prefix-free,
(c) different leaves have different codes, (d) the entries are in ascending symbol order, (e) the codes of two sibling
leaves differ exactly in their last bit. -/
def Obligations.CodebookIsPrefixFree : Prop :=
  ∀ s t : State, s.Inv → 1 ≤ s.nsym.toNat → Completes .gencodes s t →
    t.ncodes = s.nsym
    ∧ (∀ i, i < t.ncodes.toNat →
        1 ≤ (t.codeBits i).length ∧ (t.codeBits i).length ≤ max 1 (s.nsym.toNat - 1)
        ∧ (t.codeBits i).length ≤ s.params.codeMax)
    ∧ (∀ i j, i < t.ncodes.toNat → j < t.ncodes.toNat → i ≠ j → ¬ (t.codeBits i <+: t.codeBits j))
    ∧ (∀ i j, i < t.ncodes.toNat → j < t.ncodes.toNat → t.codeBits i = t.codeBits j → i = j)
    ∧ (t.readSeq .ftsym t.ncodes.toNat).Pairwise (· < ·)
    ∧ (∀ k, t.nsym.toNat ≤ k → k < t.nnodes.toNat →
        (t.nodeLeft k).toNat < t.nsym.toNat → (t.nodeRight k).toNat < t.nsym.toNat →
        ∃ p, t.codeBits (t.nodeLeft k).toNat = p ++ [false] ∧ t.codeBits (t.nodeRight k).toNat = p ++ [true])

/-! ### ENCODE and DECODE -/

/-- 42_encode_decode.md R160, R161, R162: `ENCODE`. Its three checks in their order; when they pass, `ENC` holds the codes
of the symbols that have an entry, concatenated in the order of the text, and `SKIPCNT` counts the others. -/
def Obligations.EncodeConcatenatesCodes : Prop :=
  decode 0x00000015#32 = .ok .encode ∧
  ∀ (s : State) (out : List Bool) (skipped : Nat), s.params.valid = true →
    out = s.textSeq.flatMap (fun x =>
      match (List.range s.ncodes.toNat).find? (fun i => s.readElem .ftsym i == x) with
      | some i => s.codeBits i
      | none => []) →
    skipped = s.textSeq.countP (fun x => (s.lookup x).isNone) →
    (s.codesV = false → FailsWith .encode s 4#32 0x00000015#32)
    ∧ (s.codesV = true → s.params.textMax < s.tlen.toNat → FailsWith .encode s 5#32 0x10#32)
    ∧ (s.codesV = true → s.tlen.toNat ≤ s.params.textMax → s.params.bitsMax < out.length →
        FailsWith .encode s 6#32 2#32)
    ∧ (s.codesV = true → s.tlen.toNat ≤ s.params.textMax → out.length ≤ s.params.bitsMax →
        ∃ t, Completes .encode s t
          ∧ t.enclen.toNat = out.length ∧ t.readBits .enc t.enclen.toNat = out
          ∧ t.skipcnt.toNat = skipped ∧ t.wUnknown = (s.wUnknown || decide (0 < skipped))
          ∧ Framed s t [.err, .errinfo, .enclen, .skipcnt] [.wUnknown]
              (fun sp i => sp = .enc ∧ i < out.length))

/-- 42_encode_decode.md R160: `lookup(x)` is the one entry i below `NCODES` whose symbol is x, if there is one. -/
def Obligations.LookupFindsTheEntry : Prop :=
  ∀ (s : State) (x : Word), s.Inv →
    (∀ i, s.lookup x = some i ↔ i < s.ncodes.toNat ∧ s.readElem .ftsym i = x)
    ∧ (s.lookup x = none ↔ ∀ i, i < s.ncodes.toNat → s.readElem .ftsym i ≠ x)

/-- 42_encode_decode.md R162: when `ENCODE` follows `BUILD`, `GENCODES` with the text untouched and completes, no symbol
is skipped, and the output's length is the sum over the table of count times code length. -/
def Obligations.FreshCodebookSkipsNothing : Prop :=
  ∀ s a b c : State, s.params.valid = true → Completes .build s a → Completes .gencodes a b →
    Completes .encode b c →
    c.skipcnt = 0#32 ∧ c.wUnknown = s.wUnknown
    ∧ c.enclen.toNat
        = ((List.range c.nsym.toNat).map
            (fun i => (c.readElem .ftcnt i).toNat * (c.readElem .cblen i).toNat)).sum

/-- 42_encode_decode.md R165, R167: the checks of `DECODE` before its scan, and decoding with no tree, for both values
of `SRC`. -/
def Obligations.DecodeChecksAndNoTree : Prop :=
  decode 0x00000016#32 = .ok (.decode false) ∧ decode 0x00000116#32 = .ok (.decode true) ∧
  ∀ (s : State) (src : Bool) (w info len : Word),
    w = (if src then 0x00000116#32 else 0x00000016#32) → info = (if src then 0x25#32 else 0x16#32) →
    len = (if src then s.invlen else s.enclen) →
    (s.treeV = false → s.noTree = false → FailsWith (.decode src) s 4#32 w)
    ∧ ((s.treeV = true ∨ s.noTree = true) → s.params.bitsMax < len.toNat → FailsWith (.decode src) s 5#32 info)
    ∧ (s.noTree = true → len.toNat ≤ s.params.bitsMax → len ≠ 0#32 → FailsWith (.decode src) s 4#32 w)
    ∧ (s.noTree = true → len = 0#32 →
        ∃ t, Completes (.decode src) s t ∧ t.declen = 0#32
          ∧ Framed s t [.err, .errinfo, .declen] [] noElem)

/-- 42_encode_decode.md R166: decoding with a one-leaf tree: each 0 bit emits the one symbol; the first 1 bit fails with
`INVALID_BIT` and its index; more than `DEC_MAX` symbols fail with `CAPACITY`. -/
def Obligations.DecodeWithOneLeaf : Prop :=
  ∀ (s : State) (src : Bool) (bits : List Bool), s.params.valid = true →
    bits = s.readBits (if src then .inv else .enc) (if src then s.invlen else s.enclen).toNat →
    s.treeV = true → s.noTree = false → s.nodeInternal s.root.toNat = false →
    bits.length ≤ s.params.bitsMax →
    (bits = List.replicate bits.length false → bits.length ≤ s.params.decMax →
        ∃ t, Completes (.decode src) s t ∧ t.declen.toNat = bits.length
          ∧ t.readSeq .dec t.declen.toNat = List.replicate bits.length (s.nodeSym s.root.toNat)
          ∧ Framed s t [.err, .errinfo, .declen] [] (fun sp i => sp = .dec ∧ i < bits.length))
    ∧ (∀ k rest, bits = List.replicate k false ++ true :: rest → k ≤ s.params.decMax →
        FailsWith (.decode src) s 7#32 (BitVec.ofNat 32 k))
    ∧ (∀ rest, bits = List.replicate (s.params.decMax + 1) false ++ rest →
        FailsWith (.decode src) s 6#32 4#32)

/-- 42_encode_decode.md R165: the tree walk of `DECODE` with a root that is an internal node. The input is a sequence of
code words, each leading from the root to a leaf, then bits that stay inside the tree. With no bits left over `DECODE`
emits the symbol of each leaf; with bits left over it fails with `INCOMPLETE_CODE` and the index where they begin; with
more than `DEC_MAX` code words it fails with `CAPACITY`. -/
def Obligations.DecodeWalksTheTree : Prop :=
  ∀ (s : State) (src : Bool) (ws : List (List Bool × Word)) (rest : List Bool) (y : Word),
    s.params.valid = true →
    s.readBits (if src then .inv else .enc) (if src then s.invlen else s.enclen).toNat
      = (ws.map Prod.fst).flatten ++ rest →
    (if src then s.invlen else s.enclen).toNat ≤ s.params.bitsMax →
    s.treeV = true → s.noTree = false → s.nodeInternal s.root.toNat = true →
    (∀ e ∈ ws, s.leadsToLeaf e.1 e.2) →
    s.walk s.root rest = some y → s.nodeInternal y.toNat = true →
    (rest = [] → ws.length ≤ s.params.decMax →
        ∃ t, Completes (.decode src) s t ∧ t.declen.toNat = ws.length
          ∧ t.readSeq .dec t.declen.toNat = ws.map (fun e => s.nodeSym e.2.toNat)
          ∧ Framed s t [.err, .errinfo, .declen] [] (fun sp i => sp = .dec ∧ i < ws.length))
    ∧ (rest ≠ [] → y ≠ s.root → ws.length ≤ s.params.decMax →
        FailsWith (.decode src) s 1#32 (BitVec.ofNat 32 (ws.map Prod.fst).flatten.length))
    ∧ (s.params.decMax < ws.length → FailsWith (.decode src) s 6#32 4#32)

/-- 42_encode_decode.md R169 (d): with a tree of two or more leaves every bit sequence is a sequence of code words, then
bits that stay inside the tree (and, if there are any, do not come back to the root): no bit is invalid there. -/
def Obligations.EveryBitSequenceParses : Prop :=
  ∀ (s : State) (bits : List Bool), s.Inv → s.treeV = true → 2 ≤ s.nsym.toNat →
    s.nodeInternal s.root.toNat = true
    ∧ ∃ (ws : List (List Bool × Word)) (rest : List Bool) (y : Word),
        bits = (ws.map Prod.fst).flatten ++ rest ∧ (∀ e ∈ ws, s.leadsToLeaf e.1 e.2 ∧ e.1 ≠ [])
        ∧ s.walk s.root rest = some y ∧ s.nodeInternal y.toNat = true ∧ (rest ≠ [] → y ≠ s.root)

/-- 42_encode_decode.md R168, the round-trip law: with a codebook of the current tree, `ENCODE` completes and `DECODE`
with `SRC` = 0 follows; if `DEC` is large enough it completes, and `DEC[0..DECLEN)` is the subsequence of the text of the
symbols with a codebook entry; when nothing was skipped it is the text. -/
def Obligations.EncodeDecodeRoundTrip : Prop :=
  ∀ s t : State, s.Inv → s.codesV = true → Completes .encode s t →
    s.tlen.toNat - t.skipcnt.toNat ≤ s.params.decMax →
    ∃ u, Completes (.decode false) t u
      ∧ u.declen.toNat = s.tlen.toNat - t.skipcnt.toNat
      ∧ u.readSeq .dec u.declen.toNat = s.textSeq.filter (fun x => (s.lookup x).isSome)
      ∧ (t.skipcnt = 0#32 → u.readSeq .dec u.declen.toNat = s.textSeq)

/-! ### The transposer -/

/-- 43_transposer.md R181: `PERMUTE`. Its three checks in their order; when they pass, output bit c*R + r is the padded
input's bit r*C + c, and the four result registers hold N, R, N - L and L. -/
def Obligations.PermuteReadsOutColumns : Prop :=
  decode 0x00000020#32 = .ok .permute ∧
  ∀ (s : State) (C L R N : Nat), s.params.valid = true →
    C = s.cols.toNat → L = s.enclen.toNat → R = (L + C - 1) / C → N = R * C →
    (C = 0 → FailsWith .permute s 5#32 0x20#32)
    ∧ (1 ≤ C → s.params.bitsMax < L → FailsWith .permute s 5#32 0x16#32)
    ∧ (1 ≤ C → L ≤ s.params.bitsMax → s.params.bitsMax < N → FailsWith .permute s 6#32 3#32)
    ∧ (1 ≤ C → L ≤ s.params.bitsMax → N ≤ s.params.bitsMax →
        ∃ t, Completes .permute s t
          ∧ (∀ r c, r < R → c < C →
              t.readBit .perm (c * R + r) = (decide (r * C + c < L) && s.readBit .enc (r * C + c)))
          ∧ t.permlen.toNat = N ∧ t.rows.toNat = R ∧ t.padlen.toNat = N - L ∧ t.origlen.toNat = L
          ∧ Framed s t [.err, .errinfo, .permlen, .rows, .padlen, .origlen] []
              (fun sp i => sp = .perm ∧ i < N))

/-- 43_transposer.md R182: lengths after a completed `PERMUTE`, where the filler bits are, and the number of 1 bits. -/
def Obligations.PermuteLengthsAndFiller : Prop :=
  ∀ s t : State, s.params.valid = true → Completes .permute s t →
    t.permlen.toNat = t.rows.toNat * t.cols.toNat ∧ t.cols.toNat ∣ t.permlen.toNat
    ∧ t.origlen.toNat ≤ t.permlen.toNat
    ∧ t.padlen.toNat < t.cols.toNat ∧ (t.padlen = 0#32 ↔ t.cols.toNat ∣ t.origlen.toNat)
    ∧ (t.rows = 0#32 ↔ t.origlen = 0#32)
    ∧ (∀ p, p < t.permlen.toNat →
        (t.origlen.toNat ≤ p ↔ ∃ c, t.cols.toNat - t.padlen.toNat ≤ c ∧ c < t.cols.toNat
          ∧ p = (t.rows.toNat - 1) * t.cols.toNat + c))
    ∧ (∀ c, t.cols.toNat - t.padlen.toNat ≤ c → c < t.cols.toNat →
        t.readBit .perm (c * t.rows.toNat + t.rows.toNat - 1) = false)
    ∧ (t.readBits .perm t.permlen.toNat).count true = (t.readBits .enc t.enclen.toNat).count true

/-- 43_transposer.md R185: `INVERT`. Its checks in their order; when they pass, bit r*C + c of the output is bit c*R + r
of the input, all N cells are written, and `TRIM` decides `INVLEN` only. -/
def Obligations.InvertReadsOutRows : Prop :=
  decode 0x00000021#32 = .ok (.invert false) ∧ decode 0x00000121#32 = .ok (.invert true) ∧
  ∀ (s : State) (trim : Bool) (C R N : Nat),
    C = s.cols.toNat → R = s.rows.toNat → N = s.permlen.toNat →
    (C = 0 → FailsWith (.invert trim) s 5#32 0x20#32)
    ∧ (1 ≤ C → s.params.bitsMax < N → FailsWith (.invert trim) s 5#32 0x24#32)
    ∧ (1 ≤ C → N ≤ s.params.bitsMax → N ≠ R * C → FailsWith (.invert trim) s 2#32 s.permlen)
    ∧ (1 ≤ C → N ≤ s.params.bitsMax → N = R * C → trim = true → N < s.origlen.toNat →
        FailsWith (.invert trim) s 5#32 0x23#32)
    ∧ (1 ≤ C → N ≤ s.params.bitsMax → N = R * C → (trim = true → s.origlen.toNat ≤ N) →
        ∃ t, Completes (.invert trim) s t
          ∧ (∀ r c, r < R → c < C → t.readBit .inv (r * C + c) = s.readBit .perm (c * R + r))
          ∧ t.invlen = (if trim then s.origlen else s.permlen)
          ∧ Framed s t [.err, .errinfo, .invlen] [] (fun sp i => sp = .inv ∧ i < N))

/-- 43_transposer.md R187, the round-trip law: `INVERT TRIM` after `PERMUTE` completes and returns the bits; `INVERT`
without `TRIM` returns them followed by `PADLEN` zero bits. -/
def Obligations.PermuteInvertRoundTrip : Prop :=
  ∀ s t : State, s.params.valid = true → Completes .permute s t →
    (∃ u, Completes (.invert true) t u ∧ u.invlen = s.enclen
      ∧ u.readBits .inv u.invlen.toNat = s.readBits .enc s.enclen.toNat)
    ∧ (∃ u, Completes (.invert false) t u ∧ u.invlen = t.permlen
      ∧ u.readBits .inv u.invlen.toNat
          = s.readBits .enc s.enclen.toNat ++ List.replicate t.padlen.toNat false)

/-- 43_transposer.md R189: for fixed R and C ≥ 1, σ and τ map 0..R*C-1 into itself, are inverse to each other, fix 0 and
R*C-1, and are the maps `PERMUTE` and `INVERT` apply to bit positions. -/
def Obligations.PositionMapsAreInverse : Prop :=
  ∀ R C : Nat, 1 ≤ C → 1 ≤ R →
    (∀ p, p < R * C → toColumnMajor R C p < R * C ∧ toRowMajor R C (toColumnMajor R C p) = p)
    ∧ (∀ q, q < R * C → toRowMajor R C q < R * C ∧ toColumnMajor R C (toRowMajor R C q) = q)
    ∧ toColumnMajor R C 0 = 0 ∧ toColumnMajor R C (R * C - 1) = R * C - 1
    ∧ (∀ s t : State, Completes .permute s t → s.params.valid = true → t.rows.toNat = R → s.cols.toNat = C →
        ∀ p, p < s.enclen.toNat → t.readBit .perm (toColumnMajor R C p) = s.readBit .enc p)
    ∧ (∀ (s t : State) (trim : Bool), Completes (.invert trim) s t → s.rows.toNat = R → s.cols.toNat = C →
        ∀ q, q < R * C → t.readBit .inv (toRowMajor R C q) = s.readBit .perm q)

/-! ### Failures, warnings, what commands write -/

/-- 60_exceptions.md R214: failure is precise: a command that ends with `ERR` ≠ 0 has changed nothing but `ERR` and
`ERRINFO`. -/
def Obligations.FailureChangesOnlyErr : Prop :=
  ∀ (i : Instr) (s t : State), exec i s = .next t → t.err ≠ 0#32 →
    t = { s with err := t.err, errinfo := t.errinfo }

/-- 60_exceptions.md R211, R213: which failures each command can end with, and what `ERRINFO` then records. A command that
completes leaves `ERRINFO` 0; `NOP` and `CLEAR` never fail; no command ends with a code above 7. -/
def Obligations.ErrorCodesPerCommand : Prop :=
  ∀ (i : Instr) (s t : State), exec i s = .next t →
    (t.err = 0#32 ∧ t.errinfo = 0#32)
    ∨ (t.err = 1#32 ∧ ∃ src, i = .decode src ∧ t.errinfo.toNat < s.sourceLen src)
    ∨ (t.err = 2#32 ∧ (∃ trim, i = .invert trim) ∧ t.errinfo = s.permlen)
    ∨ (t.err = 4#32 ∧ t.errinfo = encode i
        ∧ (i = .pqinit ∨ i = .merge ∨ i = .gencodes ∨ i = .encode ∨ ∃ src, i = .decode src))
    ∨ (t.err = 5#32 ∧
        (((i = .freq ∨ i = .build ∨ i = .encode) ∧ t.errinfo = 0x10#32)
          ∨ (i = .decode false ∧ t.errinfo = 0x16#32) ∨ (i = .decode true ∧ t.errinfo = 0x25#32)
          ∨ (i = .permute ∧ (t.errinfo = 0x20#32 ∨ t.errinfo = 0x16#32))
          ∨ ((∃ trim, i = .invert trim) ∧ (t.errinfo = 0x20#32 ∨ t.errinfo = 0x24#32))
          ∨ (i = .invert true ∧ t.errinfo = 0x23#32)))
    ∨ (t.err = 6#32 ∧
        (((i = .freq ∨ i = .build) ∧ t.errinfo = 1#32) ∨ (i = .encode ∧ t.errinfo = 2#32)
          ∨ (i = .permute ∧ t.errinfo = 3#32) ∨ ((∃ src, i = .decode src) ∧ t.errinfo = 4#32)))
    ∨ (t.err = 7#32 ∧ ∃ src, i = .decode src ∧ t.errinfo.toNat < s.sourceLen src
        ∧ s.readBit (if src then .inv else .enc) t.errinfo.toNat = true)

/-- 60_exceptions.md R212, 10_state.md R26: the warnings are sticky: through any command but `CLEAR`, a set `W_EMPTY` or
`W_UNKNOWN` stays set. A completed `PQINIT` or `BUILD` that leaves `NSYM` = 0 sets `W_EMPTY`, and a command sets it only so;
a completed `ENCODE` that skipped a symbol (`SKIPCNT` ≠ 0) sets `W_UNKNOWN`, and a command sets it only so. `ACCERR` is
changed by no command but `CLEAR`. -/
def Obligations.WarningsAreSticky : Prop :=
  ∀ (i : Instr) (s t : State), exec i s = .next t → i ≠ .clear →
    (s.wEmpty = true → t.wEmpty = true) ∧ (s.wUnknown = true → t.wUnknown = true) ∧ t.accErr = s.accErr
    ∧ ((i = .pqinit ∨ i = .build) → t.err = 0#32 → t.nsym = 0#32 → t.wEmpty = true)
    ∧ (s.wEmpty = false → t.wEmpty = true → (i = .pqinit ∨ i = .build) ∧ t.err = 0#32 ∧ t.nsym = 0#32)
    ∧ (i = .encode → t.err = 0#32 → t.skipcnt ≠ 0#32 → t.wUnknown = true)
    ∧ (s.wUnknown = false → t.wUnknown = true → i = .encode ∧ t.err = 0#32 ∧ t.skipcnt ≠ 0#32)

/-- 10_state.md R45: every command, completed or failed, leaves unchanged every register, flag and memory that the table
of the rule does not list as written by it; no command writes `TEXT`, and none touches the model's own fields. -/
def Obligations.CommandsWriteOnlyTheirState : Prop :=
  ∀ (i : Instr) (s t : State), exec i s = .next t →
    Framed s t (.err :: .errinfo :: writtenRegs i) (writtenFlags i) (fun sp _ => sp ∈ writtenSpaces i)

/-- 70_reset_and_hazards.md R245: the invalidation chain: a completed `FREQ` clears `PQ_V` and `CODES_V` and empties queue
and tree, a completed `BUILD` or `PQINIT` clears `CODES_V`, `MERGE` completes only when `CODES_V` is 0 already and leaves
it so, and a failed command invalidates nothing. -/
def Obligations.BuildersInvalidateDerivedState : Prop :=
  ∀ s t : State,
    (Completes .freq s t → t.pqV = false ∧ t.codesV = false ∧ t.pqn = 0#32 ∧ t.nnodes = 0#32 ∧ t.ncodes = 0#32)
    ∧ (Completes .build s t → t.codesV = false ∧ t.ncodes = 0#32)
    ∧ (Completes .pqinit s t → t.codesV = false ∧ t.ncodes = 0#32)
    ∧ (s.StageInv → Completes .merge s t → s.codesV = false ∧ t.codesV = false)
    ∧ (∀ i, exec i s = .next t → t.err ≠ 0#32 →
        t.freqV = s.freqV ∧ t.pqV = s.pqV ∧ t.codesV = s.codesV ∧ t.treeV = s.treeV ∧ t.noTree = s.noTree)

/-- 10_state.md R55, 70_reset_and_hazards.md R247: the result of a command is a function of the registers and of the
valid data: from two states that agree on those, every command gives states that agree on those, whatever the cells
outside the valid lengths hold. -/
def Obligations.ValidDataDeterminesResult : Prop :=
  ∀ (i : Instr) (s s' t : State), s.Inv → s'.Inv → s.AgreeOnValid s' → exec i s = .next t →
    ∃ t', exec i s' = .next t' ∧ t.AgreeOnValid t'

/-! ### The host port -/

/-- 20_memory.md R71, R73, R74, 10_state.md R22, with the literal numbers of their tables (`memoryMap`, `registerMap`):
each memory has the space number (the top digit of its first address), the depth and the element widths of its row, its
elements are the indices below the depth (in `NODE` without fields 5 to 7), and each register has the number and the
access kind of its row. The host address of an existing element, the memory's first address plus the index, names that
element and no other address does; likewise for a register and its number. -/
def Obligations.AddressMapIsOneToOne : Prop :=
  ∀ p : Params, p.valid = true →
    (∀ sp, ∃ base d, (sp, base, d) ∈ memoryMap p) ∧ (∀ r, ∃ n k, (r, n, k) ∈ registerMap)
    ∧ (∀ sp base d, (sp, base, d) ∈ memoryMap p →
        sp.number = base / 0x10000000 ∧ elemDepth p sp = d
        ∧ ∀ i, (elemExists p sp i = true ↔ i < d ∧ (sp = .node → i % 8 < 5))
          ∧ (elemExists p sp i = true →
              elemAddress sp i = BitVec.ofNat 32 (base + i)
              ∧ targetOf p (BitVec.ofNat 32 (base + i)) = some (.element sp i))
          ∧ ∀ a, targetOf p a = some (.element sp i) → a.toNat = base + i ∧ elemExists p sp i = true)
    ∧ (∀ r n k, (r, n, k) ∈ registerMap →
        r.number = n ∧ r.access = k ∧ regAddress r = BitVec.ofNat 32 n
        ∧ targetOf p (BitVec.ofNat 32 n) = some (.register r)
        ∧ ∀ a, targetOf p a = some (.register r) → a.toNat = n)
    ∧ ∀ sp i, elemWidth p sp i =
        (if sp = .text ∨ sp = .ftsym ∨ sp = .dec ∨ (sp = .node ∧ i % 8 = 1) then p.symW
          else if sp = .cbbit ∨ sp = .enc ∨ sp = .perm ∨ sp = .inv ∨ (sp = .node ∧ i % 8 = 0) then 1
          else 32)

/-- 20_memory.md R76: a transaction in a reserved space, at a reserved register number, at or beyond the depth of its
memory, at field 5 to 7 of a node, or a write to a read-only register or memory, changes no state except that it sets
`ACCERR`; a rejected read returns 0. -/
def Obligations.RejectedAccessSetsOnlyAccerr : Prop :=
  ∀ (s : State) (a d : Word) (space index : Nat) (rest : List HostInput),
    space = a.toNat / 2 ^ 28 → index = a.toNat % 2 ^ 28 →
    ((0xC ≤ space ∨ (space = 0 ∧ ∀ r : Reg, r.number ≠ index)
        ∨ (∃ sp : Space, sp.number = space ∧ (elemDepth s.params sp ≤ index ∨ (sp = .node ∧ 5 ≤ index % 8)))) →
      (s.inbox = .write a d :: rest → step s = .next { s with inbox := rest, accErr := true })
      ∧ (s.inbox = .read a :: rest →
          step s = .next { s with inbox := rest, accErr := true, reads := s.reads ++ [0#32] }))
    ∧ (((space = 0 ∧ ∃ r : Reg, r.number = index ∧ r.access = .ro)
        ∨ (space ≠ 0 ∧ space ≠ 0x1 ∧ space ≠ 0x8 ∧ space ≠ 0x9 ∧ space ≠ 0xA)) →
      s.inbox = .write a d :: rest → step s = .next { s with inbox := rest, accErr := true })

/-- 20_memory.md R72: a host write to an element of `TEXT`, `ENC`, `PERM` or `INV` stores the low bits of the datum, as
many as the element is wide, in that one element and changes nothing else. -/
def Obligations.HostWriteStoresOneElement : Prop :=
  ∀ (s : State) (sp : Space) (i : Nat) (d : Word) (rest : List HostInput), s.params.valid = true →
    (sp = .text ∨ sp = .enc ∨ sp = .perm ∨ sp = .inv) → i < elemDepth s.params sp →
    s.inbox = .write (elemAddress sp i) d :: rest →
    ∃ t, step s = .next t
      ∧ (t.readElem sp i).toNat = d.toNat % 2 ^ (if sp = .text then s.params.symW else 1)
      ∧ Framed { s with inbox := rest } t [] [] (fun sp' i' => sp' = sp ∧ i' = i)

/-- 20_memory.md R75: a host write to an RW register makes it take all 32 bits, with no check, and changes nothing
else. -/
def Obligations.HostWriteSetsOperandRegister : Prop :=
  ∀ (s : State) (r : Reg) (d : Word) (rest : List HostInput),
    r ∈ [Reg.tlen, .enclen, .cols, .rows, .origlen, .permlen, .invlen] →
    s.inbox = .write (regAddress r) d :: rest →
    ∃ t, step s = .next t ∧ t.readReg r = d ∧ Framed { s with inbox := rest } t [r] [] noElem

/-- 10_state.md R26: a host write to `STATUS` clears each of the three sticky flags whose bit of the datum is 1, and does
nothing else; all other bits of the datum are ignored. -/
def Obligations.StatusWriteClearsSticky : Prop :=
  ∀ (s : State) (d : Word) (rest : List HostInput), s.inbox = .write 0x00000006#32 d :: rest →
    ∃ t, step s = .next t
      ∧ t.wEmpty = (s.wEmpty && !d.getLsbD 16) ∧ t.wUnknown = (s.wUnknown && !d.getLsbD 17)
      ∧ t.accErr = (s.accErr && !d.getLsbD 18)
      ∧ Framed { s with inbox := rest } t [] [.wEmpty, .wUnknown, .accErr] noElem

/-- 10_state.md R26: the bits of `STATUS` as the host reads it: the six stored flags and the two derived ones at their
places, every other bit 0. -/
def Obligations.StatusBitsAtTheirPlaces : Prop :=
  ∀ (s : State) (k : Nat), k < 32 →
    (s.readReg .status).getLsbD k =
      (if k = 0 then s.freqV else if k = 1 then s.pqV
        else if k = 2 then s.pqV && s.pqn == 1#32 else if k = 3 then s.pqV && s.nsym == 0#32
        else if k = 4 then s.codesV else if k = 16 then s.wEmpty else if k = 17 then s.wUnknown
        else if k = 18 then s.accErr else false)

/-- 20_memory.md R80: no read has a side effect: whatever the address, a read step records the value returned and
changes nothing else, but that a rejected one returns 0 and sets `ACCERR`. Of a register it returns the value that R75
gives its number (`registerValues`: the constants, 0 for `CMD`, the assembled flags, the stored value); of an existing
element (R72, R84) what the element holds, but `NULL` of a `PQ` entry at or beyond `PQN`. -/
def Obligations.ReadsHaveNoSideEffect : Prop :=
  ∀ (s : State) (a : Word) (rest : List HostInput), s.inbox = .read a :: rest →
    (∃ v, step s = .next { s with inbox := rest, reads := s.reads ++ [v] }
        ∨ (v = 0#32 ∧ step s = .next { s with inbox := rest, reads := s.reads ++ [v], accErr := true }))
    ∧ (∀ n v, (n, v) ∈ registerValues s → a = BitVec.ofNat 32 n →
        step s = .next { s with inbox := rest, reads := s.reads ++ [v] })
    ∧ (∀ sp base d i, s.params.valid = true → (sp, base, d) ∈ memoryMap s.params → i < d →
        (sp = .node → i % 8 < 5) → a = BitVec.ofNat 32 (base + i) →
        step s = .next { s with
          inbox := rest
          reads := s.reads ++ [if sp = .pq ∧ s.pqn.toNat ≤ i then 0xFFFFFFFF#32 else s.readElem sp i] })

/-- 20_memory.md R84: a host read of `PQ[k]` returns the queue's entry below `PQN` and `NULL` from `PQN` up to the
depth; at and beyond the depth it is an access error. -/
def Obligations.QueueReadsNullBeyondItsEnd : Prop :=
  ∀ (s : State) (k : Nat) (rest : List HostInput), k < 2 ^ 28 →
    s.inbox = .read (BitVec.ofNat 32 (0x5 * 2 ^ 28 + k)) :: rest →
    (k < s.pqn.toNat → k < s.params.nsymMax →
        step s = .next { s with inbox := rest, reads := s.reads ++ [s.readElem .pq k] })
    ∧ (s.pqn.toNat ≤ k → k < s.params.nsymMax →
        step s = .next { s with inbox := rest, reads := s.reads ++ [0xFFFFFFFF#32] })
    ∧ (s.params.nsymMax ≤ k →
        step s = .next { s with inbox := rest, reads := s.reads ++ [0#32], accErr := true })

/-- 20_memory.md R81, with R72, R75 and R76: a host write anywhere but to `CMD`, accepted or rejected, never changes a validity flag, nor any
register or element of the frequency table, the tree, the queue and the codebook, nor `ERR` and `ERRINFO`. -/
def Obligations.HostWritesKeepDerivedState : Prop :=
  ∀ (s t : State) (a d : Word) (rest : List HostInput), s.inbox = .write a d :: rest → a ≠ 0x00000005#32 →
    step s = .next t →
    t.freqV = s.freqV ∧ t.pqV = s.pqV ∧ t.codesV = s.codesV ∧ t.err = s.err ∧ t.errinfo = s.errinfo
    ∧ (∀ r ∈ [Reg.nsym, .nnodes, .root, .pqn, .ncodes, .skipcnt, .declen, .padlen], t.readReg r = s.readReg r)
    ∧ (∀ sp ∈ [Space.ftsym, .ftcnt, .node, .pq, .cblen, .cbbit, .dec], t.memory sp = s.memory sp)

/-! ### Invariants that every step keeps, and runs -/

/-- 10_state.md R57: (a) to (h) hold after reset, and after every host access and every command, completed or failed, from every state in
which they hold (with the frequency table's own facts and the parameters' bounds, which the rule takes for granted). -/
def Obligations.StepKeepsStageInvariants : Prop :=
  State.reset.BuildInv ∧ ∀ s t : State, s.BuildInv → step s = .next t → t.BuildInv

/-- The whole invariant of the machine is kept by every step: R57, the tree of R48 and R133, the codebook of that tree
(R153, R155, R245), and the memories' canonical form (the model's choice, log 7) with no cell outside the address
map. -/
def Obligations.StepKeepsInvariant : Prop :=
  ∀ s t : State, s.Inv → step s = .next t → t.Inv

/-- Every memory keeps its canonical form and the instance its parameters through every step from every state. THE MODEL'S
CHOICE, no rule of the spec: that a memory is a list of written cells in a canonical form is log 7, that the parameters
are carried in the state is log 1. That a stored value fits the width of its element is 20_memory.md R72 with the widths
of R73 and R74. -/
def Obligations.StepKeepsMemoriesCanonical : Prop :=
  ∀ s t : State, s.MemoriesCanonical → step s = .next t → t.MemoriesCanonical ∧ t.params = s.params

/-- 70_reset_and_hazards.md R252: the run function is total: from every state a run of as many steps as inputs are pending
ends in a state, with every input taken, and each read among them has returned one value. -/
def Obligations.EveryRunHasAnEndState : Prop :=
  ∀ s : State, ∃ t, Sys2Proof.core.run s.inbox.length s = .next t ∧ t.inbox = []
    ∧ t.reads.length
        = s.reads.length + s.inbox.countP (fun x => match x with | .read _ => true | _ => false)

/-- 70_reset_and_hazards.md R243: what each command does issued directly after reset, whatever the memories hold:
`NOP` and `CLEAR` complete, `FREQ` and `BUILD` complete with the empty text, the others fail as the rule says. -/
def Obligations.CommandsDirectlyAfterReset : Prop :=
  ∀ s : State, (∀ r, s.readReg r = resetValue s.params r) →
    (∃ t, Completes .nop s t) ∧ (∃ t, Completes .clear s t)
    ∧ (∃ t, Completes .freq s t ∧ t.nsym = 0#32 ∧ t.readReg .status = 0x00000001#32)
    ∧ (∃ t, Completes .build s t ∧ t.nsym = 0#32 ∧ t.readReg .status = 0x0001000B#32)
    ∧ FailsWith .pqinit s 4#32 0x11#32 ∧ FailsWith .merge s 4#32 0x12#32 ∧ FailsWith .gencodes s 4#32 0x14#32
    ∧ FailsWith .encode s 4#32 0x15#32 ∧ FailsWith (.decode false) s 4#32 0x16#32
    ∧ FailsWith (.decode true) s 4#32 0x116#32 ∧ FailsWith .permute s 5#32 0x20#32
    ∧ FailsWith (.invert false) s 5#32 0x20#32 ∧ FailsWith (.invert true) s 5#32 0x20#32

/-! ### What the tie-break does not change -/

/-- 40_tree_builder.md R135, third property: after `BUILD` and `GENCODES` the encoded length, the sum of
`FTCNT[i]*CBLEN[i]`, is the least that any prefix code of non-empty words has on these counts; and with two symbols or
more it is the one encoded length of every tree that joins two nodes of least frequency in each round, however ties are
broken. (The first two properties, prefix-freeness and decode after encode, are `CodebookIsPrefixFree` and
`EncodeDecodeRoundTrip`.) The spec marks the optimality as general knowledge, not the source's. -/
def Obligations.EncodedLengthIsLeast : Prop :=
  ∀ s a b : State, s.params.valid = true → Completes .build s a → Completes .gencodes a b →
    (∀ code : Nat → List Bool,
      (∀ i, i < b.nsym.toNat → code i ≠ []) →
      (∀ i j, i < b.nsym.toNat → j < b.nsym.toNat → i ≠ j → ¬ (code i <+: code j)) →
      b.codedLength ≤
        ((List.range b.nsym.toNat).map (fun i => (b.readElem .ftcnt i).toNat * (code i).length)).sum)
    ∧ (2 ≤ b.nsym.toNat →
        AnyTieBreak ((b.readSeq .ftcnt b.nsym.toNat).map BitVec.toNat) b.codedLength
        ∧ ∀ c, AnyTieBreak ((b.readSeq .ftcnt b.nsym.toNat).map BitVec.toNat) c → c = b.codedLength)
end

