-- ==== Sys2Proof/Laws/State.lean ====
section
/-! SUPPORT. One lemma per field per update of the state, so that no proof unfolds a record update. The memories are
reached through `State.memory`. -/

namespace Sys2Proof.Machine

/-! ### The memories, by name -/

@[simp] theorem State.memory_text (s : State) : s.memory .text = s.text := rfl
@[simp] theorem State.memory_ftsym (s : State) : s.memory .ftsym = s.ftsym := rfl
@[simp] theorem State.memory_ftcnt (s : State) : s.memory .ftcnt = s.ftcnt := rfl
@[simp] theorem State.memory_node (s : State) : s.memory .node = s.node := rfl
@[simp] theorem State.memory_pq (s : State) : s.memory .pq = s.pq := rfl
@[simp] theorem State.memory_cblen (s : State) : s.memory .cblen = s.cblen := rfl
@[simp] theorem State.memory_cbbit (s : State) : s.memory .cbbit = s.cbbit := rfl
@[simp] theorem State.memory_enc (s : State) : s.memory .enc = s.enc := rfl
@[simp] theorem State.memory_perm (s : State) : s.memory .perm = s.perm := rfl
@[simp] theorem State.memory_inv (s : State) : s.memory .inv = s.inv := rfl
@[simp] theorem State.memory_dec (s : State) : s.memory .dec = s.dec := rfl

/-! ### setMemory, writeElem, writeSeq: one memory changes -/

@[simp] theorem State.setMemory_params (s : State) (sp : Space) (m : Memory) : (s.setMemory sp m).params = s.params := by
  cases sp <;> rfl
@[simp] theorem State.setMemory_freqV (s : State) (sp : Space) (m : Memory) : (s.setMemory sp m).freqV = s.freqV := by
  cases sp <;> rfl
@[simp] theorem State.setMemory_pqV (s : State) (sp : Space) (m : Memory) : (s.setMemory sp m).pqV = s.pqV := by
  cases sp <;> rfl
@[simp] theorem State.setMemory_codesV (s : State) (sp : Space) (m : Memory) : (s.setMemory sp m).codesV = s.codesV := by
  cases sp <;> rfl
@[simp] theorem State.setMemory_wEmpty (s : State) (sp : Space) (m : Memory) : (s.setMemory sp m).wEmpty = s.wEmpty := by
  cases sp <;> rfl
@[simp] theorem State.setMemory_wUnknown (s : State) (sp : Space) (m : Memory) : (s.setMemory sp m).wUnknown = s.wUnknown := by
  cases sp <;> rfl
@[simp] theorem State.setMemory_accErr (s : State) (sp : Space) (m : Memory) : (s.setMemory sp m).accErr = s.accErr := by
  cases sp <;> rfl
@[simp] theorem State.setMemory_err (s : State) (sp : Space) (m : Memory) : (s.setMemory sp m).err = s.err := by
  cases sp <;> rfl
@[simp] theorem State.setMemory_errinfo (s : State) (sp : Space) (m : Memory) : (s.setMemory sp m).errinfo = s.errinfo := by
  cases sp <;> rfl
@[simp] theorem State.setMemory_tlen (s : State) (sp : Space) (m : Memory) : (s.setMemory sp m).tlen = s.tlen := by
  cases sp <;> rfl
@[simp] theorem State.setMemory_nsym (s : State) (sp : Space) (m : Memory) : (s.setMemory sp m).nsym = s.nsym := by
  cases sp <;> rfl
@[simp] theorem State.setMemory_nnodes (s : State) (sp : Space) (m : Memory) : (s.setMemory sp m).nnodes = s.nnodes := by
  cases sp <;> rfl
@[simp] theorem State.setMemory_root (s : State) (sp : Space) (m : Memory) : (s.setMemory sp m).root = s.root := by
  cases sp <;> rfl
@[simp] theorem State.setMemory_pqn (s : State) (sp : Space) (m : Memory) : (s.setMemory sp m).pqn = s.pqn := by
  cases sp <;> rfl
@[simp] theorem State.setMemory_ncodes (s : State) (sp : Space) (m : Memory) : (s.setMemory sp m).ncodes = s.ncodes := by
  cases sp <;> rfl
@[simp] theorem State.setMemory_enclen (s : State) (sp : Space) (m : Memory) : (s.setMemory sp m).enclen = s.enclen := by
  cases sp <;> rfl
@[simp] theorem State.setMemory_skipcnt (s : State) (sp : Space) (m : Memory) : (s.setMemory sp m).skipcnt = s.skipcnt := by
  cases sp <;> rfl
@[simp] theorem State.setMemory_declen (s : State) (sp : Space) (m : Memory) : (s.setMemory sp m).declen = s.declen := by
  cases sp <;> rfl
@[simp] theorem State.setMemory_cols (s : State) (sp : Space) (m : Memory) : (s.setMemory sp m).cols = s.cols := by
  cases sp <;> rfl
@[simp] theorem State.setMemory_rows (s : State) (sp : Space) (m : Memory) : (s.setMemory sp m).rows = s.rows := by
  cases sp <;> rfl
@[simp] theorem State.setMemory_padlen (s : State) (sp : Space) (m : Memory) : (s.setMemory sp m).padlen = s.padlen := by
  cases sp <;> rfl
@[simp] theorem State.setMemory_origlen (s : State) (sp : Space) (m : Memory) : (s.setMemory sp m).origlen = s.origlen := by
  cases sp <;> rfl
@[simp] theorem State.setMemory_permlen (s : State) (sp : Space) (m : Memory) : (s.setMemory sp m).permlen = s.permlen := by
  cases sp <;> rfl
@[simp] theorem State.setMemory_invlen (s : State) (sp : Space) (m : Memory) : (s.setMemory sp m).invlen = s.invlen := by
  cases sp <;> rfl
@[simp] theorem State.setMemory_inbox (s : State) (sp : Space) (m : Memory) : (s.setMemory sp m).inbox = s.inbox := by
  cases sp <;> rfl
@[simp] theorem State.setMemory_reads (s : State) (sp : Space) (m : Memory) : (s.setMemory sp m).reads = s.reads := by
  cases sp <;> rfl
@[simp] theorem State.setMemory_resets (s : State) (sp : Space) (m : Memory) : (s.setMemory sp m).resets = s.resets := by
  cases sp <;> rfl
@[simp] theorem State.writeElem_params (s : State) (sp : Space) (i : Nat) (v : Word) : (s.writeElem sp i v).params = s.params :=
  State.setMemory_params s sp _
@[simp] theorem State.writeElem_freqV (s : State) (sp : Space) (i : Nat) (v : Word) : (s.writeElem sp i v).freqV = s.freqV :=
  State.setMemory_freqV s sp _
@[simp] theorem State.writeElem_pqV (s : State) (sp : Space) (i : Nat) (v : Word) : (s.writeElem sp i v).pqV = s.pqV :=
  State.setMemory_pqV s sp _
@[simp] theorem State.writeElem_codesV (s : State) (sp : Space) (i : Nat) (v : Word) : (s.writeElem sp i v).codesV = s.codesV :=
  State.setMemory_codesV s sp _
@[simp] theorem State.writeElem_wEmpty (s : State) (sp : Space) (i : Nat) (v : Word) : (s.writeElem sp i v).wEmpty = s.wEmpty :=
  State.setMemory_wEmpty s sp _
@[simp] theorem State.writeElem_wUnknown (s : State) (sp : Space) (i : Nat) (v : Word) : (s.writeElem sp i v).wUnknown = s.wUnknown :=
  State.setMemory_wUnknown s sp _
@[simp] theorem State.writeElem_accErr (s : State) (sp : Space) (i : Nat) (v : Word) : (s.writeElem sp i v).accErr = s.accErr :=
  State.setMemory_accErr s sp _
@[simp] theorem State.writeElem_err (s : State) (sp : Space) (i : Nat) (v : Word) : (s.writeElem sp i v).err = s.err :=
  State.setMemory_err s sp _
@[simp] theorem State.writeElem_errinfo (s : State) (sp : Space) (i : Nat) (v : Word) : (s.writeElem sp i v).errinfo = s.errinfo :=
  State.setMemory_errinfo s sp _
@[simp] theorem State.writeElem_tlen (s : State) (sp : Space) (i : Nat) (v : Word) : (s.writeElem sp i v).tlen = s.tlen :=
  State.setMemory_tlen s sp _
@[simp] theorem State.writeElem_nsym (s : State) (sp : Space) (i : Nat) (v : Word) : (s.writeElem sp i v).nsym = s.nsym :=
  State.setMemory_nsym s sp _
@[simp] theorem State.writeElem_nnodes (s : State) (sp : Space) (i : Nat) (v : Word) : (s.writeElem sp i v).nnodes = s.nnodes :=
  State.setMemory_nnodes s sp _
@[simp] theorem State.writeElem_root (s : State) (sp : Space) (i : Nat) (v : Word) : (s.writeElem sp i v).root = s.root :=
  State.setMemory_root s sp _
@[simp] theorem State.writeElem_pqn (s : State) (sp : Space) (i : Nat) (v : Word) : (s.writeElem sp i v).pqn = s.pqn :=
  State.setMemory_pqn s sp _
@[simp] theorem State.writeElem_ncodes (s : State) (sp : Space) (i : Nat) (v : Word) : (s.writeElem sp i v).ncodes = s.ncodes :=
  State.setMemory_ncodes s sp _
@[simp] theorem State.writeElem_enclen (s : State) (sp : Space) (i : Nat) (v : Word) : (s.writeElem sp i v).enclen = s.enclen :=
  State.setMemory_enclen s sp _
@[simp] theorem State.writeElem_skipcnt (s : State) (sp : Space) (i : Nat) (v : Word) : (s.writeElem sp i v).skipcnt = s.skipcnt :=
  State.setMemory_skipcnt s sp _
@[simp] theorem State.writeElem_declen (s : State) (sp : Space) (i : Nat) (v : Word) : (s.writeElem sp i v).declen = s.declen :=
  State.setMemory_declen s sp _
@[simp] theorem State.writeElem_cols (s : State) (sp : Space) (i : Nat) (v : Word) : (s.writeElem sp i v).cols = s.cols :=
  State.setMemory_cols s sp _
@[simp] theorem State.writeElem_rows (s : State) (sp : Space) (i : Nat) (v : Word) : (s.writeElem sp i v).rows = s.rows :=
  State.setMemory_rows s sp _
@[simp] theorem State.writeElem_padlen (s : State) (sp : Space) (i : Nat) (v : Word) : (s.writeElem sp i v).padlen = s.padlen :=
  State.setMemory_padlen s sp _
@[simp] theorem State.writeElem_origlen (s : State) (sp : Space) (i : Nat) (v : Word) : (s.writeElem sp i v).origlen = s.origlen :=
  State.setMemory_origlen s sp _
@[simp] theorem State.writeElem_permlen (s : State) (sp : Space) (i : Nat) (v : Word) : (s.writeElem sp i v).permlen = s.permlen :=
  State.setMemory_permlen s sp _
@[simp] theorem State.writeElem_invlen (s : State) (sp : Space) (i : Nat) (v : Word) : (s.writeElem sp i v).invlen = s.invlen :=
  State.setMemory_invlen s sp _
@[simp] theorem State.writeElem_inbox (s : State) (sp : Space) (i : Nat) (v : Word) : (s.writeElem sp i v).inbox = s.inbox :=
  State.setMemory_inbox s sp _
@[simp] theorem State.writeElem_reads (s : State) (sp : Space) (i : Nat) (v : Word) : (s.writeElem sp i v).reads = s.reads :=
  State.setMemory_reads s sp _
@[simp] theorem State.writeElem_resets (s : State) (sp : Space) (i : Nat) (v : Word) : (s.writeElem sp i v).resets = s.resets :=
  State.setMemory_resets s sp _
@[simp] theorem State.writeSeq_params (s : State) (sp : Space) (b : Nat) (vs : List Word) : (s.writeSeq sp b vs).params = s.params := by
  induction vs generalizing b <;> simp [State.writeSeq, *]
@[simp] theorem State.writeSeq_freqV (s : State) (sp : Space) (b : Nat) (vs : List Word) : (s.writeSeq sp b vs).freqV = s.freqV := by
  induction vs generalizing b <;> simp [State.writeSeq, *]
@[simp] theorem State.writeSeq_pqV (s : State) (sp : Space) (b : Nat) (vs : List Word) : (s.writeSeq sp b vs).pqV = s.pqV := by
  induction vs generalizing b <;> simp [State.writeSeq, *]
@[simp] theorem State.writeSeq_codesV (s : State) (sp : Space) (b : Nat) (vs : List Word) : (s.writeSeq sp b vs).codesV = s.codesV := by
  induction vs generalizing b <;> simp [State.writeSeq, *]
@[simp] theorem State.writeSeq_wEmpty (s : State) (sp : Space) (b : Nat) (vs : List Word) : (s.writeSeq sp b vs).wEmpty = s.wEmpty := by
  induction vs generalizing b <;> simp [State.writeSeq, *]
@[simp] theorem State.writeSeq_wUnknown (s : State) (sp : Space) (b : Nat) (vs : List Word) : (s.writeSeq sp b vs).wUnknown = s.wUnknown := by
  induction vs generalizing b <;> simp [State.writeSeq, *]
@[simp] theorem State.writeSeq_accErr (s : State) (sp : Space) (b : Nat) (vs : List Word) : (s.writeSeq sp b vs).accErr = s.accErr := by
  induction vs generalizing b <;> simp [State.writeSeq, *]
@[simp] theorem State.writeSeq_err (s : State) (sp : Space) (b : Nat) (vs : List Word) : (s.writeSeq sp b vs).err = s.err := by
  induction vs generalizing b <;> simp [State.writeSeq, *]
@[simp] theorem State.writeSeq_errinfo (s : State) (sp : Space) (b : Nat) (vs : List Word) : (s.writeSeq sp b vs).errinfo = s.errinfo := by
  induction vs generalizing b <;> simp [State.writeSeq, *]
@[simp] theorem State.writeSeq_tlen (s : State) (sp : Space) (b : Nat) (vs : List Word) : (s.writeSeq sp b vs).tlen = s.tlen := by
  induction vs generalizing b <;> simp [State.writeSeq, *]
@[simp] theorem State.writeSeq_nsym (s : State) (sp : Space) (b : Nat) (vs : List Word) : (s.writeSeq sp b vs).nsym = s.nsym := by
  induction vs generalizing b <;> simp [State.writeSeq, *]
@[simp] theorem State.writeSeq_nnodes (s : State) (sp : Space) (b : Nat) (vs : List Word) : (s.writeSeq sp b vs).nnodes = s.nnodes := by
  induction vs generalizing b <;> simp [State.writeSeq, *]
@[simp] theorem State.writeSeq_root (s : State) (sp : Space) (b : Nat) (vs : List Word) : (s.writeSeq sp b vs).root = s.root := by
  induction vs generalizing b <;> simp [State.writeSeq, *]
@[simp] theorem State.writeSeq_pqn (s : State) (sp : Space) (b : Nat) (vs : List Word) : (s.writeSeq sp b vs).pqn = s.pqn := by
  induction vs generalizing b <;> simp [State.writeSeq, *]
@[simp] theorem State.writeSeq_ncodes (s : State) (sp : Space) (b : Nat) (vs : List Word) : (s.writeSeq sp b vs).ncodes = s.ncodes := by
  induction vs generalizing b <;> simp [State.writeSeq, *]
@[simp] theorem State.writeSeq_enclen (s : State) (sp : Space) (b : Nat) (vs : List Word) : (s.writeSeq sp b vs).enclen = s.enclen := by
  induction vs generalizing b <;> simp [State.writeSeq, *]
@[simp] theorem State.writeSeq_skipcnt (s : State) (sp : Space) (b : Nat) (vs : List Word) : (s.writeSeq sp b vs).skipcnt = s.skipcnt := by
  induction vs generalizing b <;> simp [State.writeSeq, *]
@[simp] theorem State.writeSeq_declen (s : State) (sp : Space) (b : Nat) (vs : List Word) : (s.writeSeq sp b vs).declen = s.declen := by
  induction vs generalizing b <;> simp [State.writeSeq, *]
@[simp] theorem State.writeSeq_cols (s : State) (sp : Space) (b : Nat) (vs : List Word) : (s.writeSeq sp b vs).cols = s.cols := by
  induction vs generalizing b <;> simp [State.writeSeq, *]
@[simp] theorem State.writeSeq_rows (s : State) (sp : Space) (b : Nat) (vs : List Word) : (s.writeSeq sp b vs).rows = s.rows := by
  induction vs generalizing b <;> simp [State.writeSeq, *]
@[simp] theorem State.writeSeq_padlen (s : State) (sp : Space) (b : Nat) (vs : List Word) : (s.writeSeq sp b vs).padlen = s.padlen := by
  induction vs generalizing b <;> simp [State.writeSeq, *]
@[simp] theorem State.writeSeq_origlen (s : State) (sp : Space) (b : Nat) (vs : List Word) : (s.writeSeq sp b vs).origlen = s.origlen := by
  induction vs generalizing b <;> simp [State.writeSeq, *]
@[simp] theorem State.writeSeq_permlen (s : State) (sp : Space) (b : Nat) (vs : List Word) : (s.writeSeq sp b vs).permlen = s.permlen := by
  induction vs generalizing b <;> simp [State.writeSeq, *]
@[simp] theorem State.writeSeq_invlen (s : State) (sp : Space) (b : Nat) (vs : List Word) : (s.writeSeq sp b vs).invlen = s.invlen := by
  induction vs generalizing b <;> simp [State.writeSeq, *]
@[simp] theorem State.writeSeq_inbox (s : State) (sp : Space) (b : Nat) (vs : List Word) : (s.writeSeq sp b vs).inbox = s.inbox := by
  induction vs generalizing b <;> simp [State.writeSeq, *]
@[simp] theorem State.writeSeq_reads (s : State) (sp : Space) (b : Nat) (vs : List Word) : (s.writeSeq sp b vs).reads = s.reads := by
  induction vs generalizing b <;> simp [State.writeSeq, *]
@[simp] theorem State.writeSeq_resets (s : State) (sp : Space) (b : Nat) (vs : List Word) : (s.writeSeq sp b vs).resets = s.resets := by
  induction vs generalizing b <;> simp [State.writeSeq, *]

/-! ### setQueue, pqInsert, writeNode -/

@[simp] theorem State.setQueue_params (s : State) (q : List Word) : (s.setQueue q).params = s.params :=
  State.writeSeq_params s .pq 0 q
@[simp] theorem State.setQueue_freqV (s : State) (q : List Word) : (s.setQueue q).freqV = s.freqV :=
  State.writeSeq_freqV s .pq 0 q
@[simp] theorem State.setQueue_pqV (s : State) (q : List Word) : (s.setQueue q).pqV = s.pqV :=
  State.writeSeq_pqV s .pq 0 q
@[simp] theorem State.setQueue_codesV (s : State) (q : List Word) : (s.setQueue q).codesV = s.codesV :=
  State.writeSeq_codesV s .pq 0 q
@[simp] theorem State.setQueue_wEmpty (s : State) (q : List Word) : (s.setQueue q).wEmpty = s.wEmpty :=
  State.writeSeq_wEmpty s .pq 0 q
@[simp] theorem State.setQueue_wUnknown (s : State) (q : List Word) : (s.setQueue q).wUnknown = s.wUnknown :=
  State.writeSeq_wUnknown s .pq 0 q
@[simp] theorem State.setQueue_accErr (s : State) (q : List Word) : (s.setQueue q).accErr = s.accErr :=
  State.writeSeq_accErr s .pq 0 q
@[simp] theorem State.setQueue_err (s : State) (q : List Word) : (s.setQueue q).err = s.err :=
  State.writeSeq_err s .pq 0 q
@[simp] theorem State.setQueue_errinfo (s : State) (q : List Word) : (s.setQueue q).errinfo = s.errinfo :=
  State.writeSeq_errinfo s .pq 0 q
@[simp] theorem State.setQueue_tlen (s : State) (q : List Word) : (s.setQueue q).tlen = s.tlen :=
  State.writeSeq_tlen s .pq 0 q
@[simp] theorem State.setQueue_nsym (s : State) (q : List Word) : (s.setQueue q).nsym = s.nsym :=
  State.writeSeq_nsym s .pq 0 q
@[simp] theorem State.setQueue_nnodes (s : State) (q : List Word) : (s.setQueue q).nnodes = s.nnodes :=
  State.writeSeq_nnodes s .pq 0 q
@[simp] theorem State.setQueue_root (s : State) (q : List Word) : (s.setQueue q).root = s.root :=
  State.writeSeq_root s .pq 0 q
@[simp] theorem State.setQueue_ncodes (s : State) (q : List Word) : (s.setQueue q).ncodes = s.ncodes :=
  State.writeSeq_ncodes s .pq 0 q
@[simp] theorem State.setQueue_enclen (s : State) (q : List Word) : (s.setQueue q).enclen = s.enclen :=
  State.writeSeq_enclen s .pq 0 q
@[simp] theorem State.setQueue_skipcnt (s : State) (q : List Word) : (s.setQueue q).skipcnt = s.skipcnt :=
  State.writeSeq_skipcnt s .pq 0 q
@[simp] theorem State.setQueue_declen (s : State) (q : List Word) : (s.setQueue q).declen = s.declen :=
  State.writeSeq_declen s .pq 0 q
@[simp] theorem State.setQueue_cols (s : State) (q : List Word) : (s.setQueue q).cols = s.cols :=
  State.writeSeq_cols s .pq 0 q
@[simp] theorem State.setQueue_rows (s : State) (q : List Word) : (s.setQueue q).rows = s.rows :=
  State.writeSeq_rows s .pq 0 q
@[simp] theorem State.setQueue_padlen (s : State) (q : List Word) : (s.setQueue q).padlen = s.padlen :=
  State.writeSeq_padlen s .pq 0 q
@[simp] theorem State.setQueue_origlen (s : State) (q : List Word) : (s.setQueue q).origlen = s.origlen :=
  State.writeSeq_origlen s .pq 0 q
@[simp] theorem State.setQueue_permlen (s : State) (q : List Word) : (s.setQueue q).permlen = s.permlen :=
  State.writeSeq_permlen s .pq 0 q
@[simp] theorem State.setQueue_invlen (s : State) (q : List Word) : (s.setQueue q).invlen = s.invlen :=
  State.writeSeq_invlen s .pq 0 q
@[simp] theorem State.setQueue_inbox (s : State) (q : List Word) : (s.setQueue q).inbox = s.inbox :=
  State.writeSeq_inbox s .pq 0 q
@[simp] theorem State.setQueue_reads (s : State) (q : List Word) : (s.setQueue q).reads = s.reads :=
  State.writeSeq_reads s .pq 0 q
@[simp] theorem State.setQueue_resets (s : State) (q : List Word) : (s.setQueue q).resets = s.resets :=
  State.writeSeq_resets s .pq 0 q
@[simp] theorem State.setQueue_pqn (s : State) (q : List Word) : (s.setQueue q).pqn = BitVec.ofNat 32 q.length := rfl
@[simp] theorem State.pqInsert_params (s : State) (i : Word) : (s.pqInsert i).params = s.params := State.setQueue_params s _
@[simp] theorem State.pqInsert_freqV (s : State) (i : Word) : (s.pqInsert i).freqV = s.freqV := State.setQueue_freqV s _
@[simp] theorem State.pqInsert_pqV (s : State) (i : Word) : (s.pqInsert i).pqV = s.pqV := State.setQueue_pqV s _
@[simp] theorem State.pqInsert_codesV (s : State) (i : Word) : (s.pqInsert i).codesV = s.codesV := State.setQueue_codesV s _
@[simp] theorem State.pqInsert_wEmpty (s : State) (i : Word) : (s.pqInsert i).wEmpty = s.wEmpty := State.setQueue_wEmpty s _
@[simp] theorem State.pqInsert_wUnknown (s : State) (i : Word) : (s.pqInsert i).wUnknown = s.wUnknown := State.setQueue_wUnknown s _
@[simp] theorem State.pqInsert_accErr (s : State) (i : Word) : (s.pqInsert i).accErr = s.accErr := State.setQueue_accErr s _
@[simp] theorem State.pqInsert_err (s : State) (i : Word) : (s.pqInsert i).err = s.err := State.setQueue_err s _
@[simp] theorem State.pqInsert_errinfo (s : State) (i : Word) : (s.pqInsert i).errinfo = s.errinfo := State.setQueue_errinfo s _
@[simp] theorem State.pqInsert_tlen (s : State) (i : Word) : (s.pqInsert i).tlen = s.tlen := State.setQueue_tlen s _
@[simp] theorem State.pqInsert_nsym (s : State) (i : Word) : (s.pqInsert i).nsym = s.nsym := State.setQueue_nsym s _
@[simp] theorem State.pqInsert_nnodes (s : State) (i : Word) : (s.pqInsert i).nnodes = s.nnodes := State.setQueue_nnodes s _
@[simp] theorem State.pqInsert_root (s : State) (i : Word) : (s.pqInsert i).root = s.root := State.setQueue_root s _
@[simp] theorem State.pqInsert_ncodes (s : State) (i : Word) : (s.pqInsert i).ncodes = s.ncodes := State.setQueue_ncodes s _
@[simp] theorem State.pqInsert_enclen (s : State) (i : Word) : (s.pqInsert i).enclen = s.enclen := State.setQueue_enclen s _
@[simp] theorem State.pqInsert_skipcnt (s : State) (i : Word) : (s.pqInsert i).skipcnt = s.skipcnt := State.setQueue_skipcnt s _
@[simp] theorem State.pqInsert_declen (s : State) (i : Word) : (s.pqInsert i).declen = s.declen := State.setQueue_declen s _
@[simp] theorem State.pqInsert_cols (s : State) (i : Word) : (s.pqInsert i).cols = s.cols := State.setQueue_cols s _
@[simp] theorem State.pqInsert_rows (s : State) (i : Word) : (s.pqInsert i).rows = s.rows := State.setQueue_rows s _
@[simp] theorem State.pqInsert_padlen (s : State) (i : Word) : (s.pqInsert i).padlen = s.padlen := State.setQueue_padlen s _
@[simp] theorem State.pqInsert_origlen (s : State) (i : Word) : (s.pqInsert i).origlen = s.origlen := State.setQueue_origlen s _
@[simp] theorem State.pqInsert_permlen (s : State) (i : Word) : (s.pqInsert i).permlen = s.permlen := State.setQueue_permlen s _
@[simp] theorem State.pqInsert_invlen (s : State) (i : Word) : (s.pqInsert i).invlen = s.invlen := State.setQueue_invlen s _
@[simp] theorem State.pqInsert_inbox (s : State) (i : Word) : (s.pqInsert i).inbox = s.inbox := State.setQueue_inbox s _
@[simp] theorem State.pqInsert_reads (s : State) (i : Word) : (s.pqInsert i).reads = s.reads := State.setQueue_reads s _
@[simp] theorem State.pqInsert_resets (s : State) (i : Word) : (s.pqInsert i).resets = s.resets := State.setQueue_resets s _
@[simp] theorem State.writeNode_params (s : State) (n : Nat) (x : Node) : (s.writeNode n x).params = s.params :=
  State.writeSeq_params s .node _ _
@[simp] theorem State.writeNode_freqV (s : State) (n : Nat) (x : Node) : (s.writeNode n x).freqV = s.freqV :=
  State.writeSeq_freqV s .node _ _
@[simp] theorem State.writeNode_pqV (s : State) (n : Nat) (x : Node) : (s.writeNode n x).pqV = s.pqV :=
  State.writeSeq_pqV s .node _ _
@[simp] theorem State.writeNode_codesV (s : State) (n : Nat) (x : Node) : (s.writeNode n x).codesV = s.codesV :=
  State.writeSeq_codesV s .node _ _
@[simp] theorem State.writeNode_wEmpty (s : State) (n : Nat) (x : Node) : (s.writeNode n x).wEmpty = s.wEmpty :=
  State.writeSeq_wEmpty s .node _ _
@[simp] theorem State.writeNode_wUnknown (s : State) (n : Nat) (x : Node) : (s.writeNode n x).wUnknown = s.wUnknown :=
  State.writeSeq_wUnknown s .node _ _
@[simp] theorem State.writeNode_accErr (s : State) (n : Nat) (x : Node) : (s.writeNode n x).accErr = s.accErr :=
  State.writeSeq_accErr s .node _ _
@[simp] theorem State.writeNode_err (s : State) (n : Nat) (x : Node) : (s.writeNode n x).err = s.err :=
  State.writeSeq_err s .node _ _
@[simp] theorem State.writeNode_errinfo (s : State) (n : Nat) (x : Node) : (s.writeNode n x).errinfo = s.errinfo :=
  State.writeSeq_errinfo s .node _ _
@[simp] theorem State.writeNode_tlen (s : State) (n : Nat) (x : Node) : (s.writeNode n x).tlen = s.tlen :=
  State.writeSeq_tlen s .node _ _
@[simp] theorem State.writeNode_nsym (s : State) (n : Nat) (x : Node) : (s.writeNode n x).nsym = s.nsym :=
  State.writeSeq_nsym s .node _ _
@[simp] theorem State.writeNode_nnodes (s : State) (n : Nat) (x : Node) : (s.writeNode n x).nnodes = s.nnodes :=
  State.writeSeq_nnodes s .node _ _
@[simp] theorem State.writeNode_root (s : State) (n : Nat) (x : Node) : (s.writeNode n x).root = s.root :=
  State.writeSeq_root s .node _ _
@[simp] theorem State.writeNode_pqn (s : State) (n : Nat) (x : Node) : (s.writeNode n x).pqn = s.pqn :=
  State.writeSeq_pqn s .node _ _
@[simp] theorem State.writeNode_ncodes (s : State) (n : Nat) (x : Node) : (s.writeNode n x).ncodes = s.ncodes :=
  State.writeSeq_ncodes s .node _ _
@[simp] theorem State.writeNode_enclen (s : State) (n : Nat) (x : Node) : (s.writeNode n x).enclen = s.enclen :=
  State.writeSeq_enclen s .node _ _
@[simp] theorem State.writeNode_skipcnt (s : State) (n : Nat) (x : Node) : (s.writeNode n x).skipcnt = s.skipcnt :=
  State.writeSeq_skipcnt s .node _ _
@[simp] theorem State.writeNode_declen (s : State) (n : Nat) (x : Node) : (s.writeNode n x).declen = s.declen :=
  State.writeSeq_declen s .node _ _
@[simp] theorem State.writeNode_cols (s : State) (n : Nat) (x : Node) : (s.writeNode n x).cols = s.cols :=
  State.writeSeq_cols s .node _ _
@[simp] theorem State.writeNode_rows (s : State) (n : Nat) (x : Node) : (s.writeNode n x).rows = s.rows :=
  State.writeSeq_rows s .node _ _
@[simp] theorem State.writeNode_padlen (s : State) (n : Nat) (x : Node) : (s.writeNode n x).padlen = s.padlen :=
  State.writeSeq_padlen s .node _ _
@[simp] theorem State.writeNode_origlen (s : State) (n : Nat) (x : Node) : (s.writeNode n x).origlen = s.origlen :=
  State.writeSeq_origlen s .node _ _
@[simp] theorem State.writeNode_permlen (s : State) (n : Nat) (x : Node) : (s.writeNode n x).permlen = s.permlen :=
  State.writeSeq_permlen s .node _ _
@[simp] theorem State.writeNode_invlen (s : State) (n : Nat) (x : Node) : (s.writeNode n x).invlen = s.invlen :=
  State.writeSeq_invlen s .node _ _
@[simp] theorem State.writeNode_inbox (s : State) (n : Nat) (x : Node) : (s.writeNode n x).inbox = s.inbox :=
  State.writeSeq_inbox s .node _ _
@[simp] theorem State.writeNode_reads (s : State) (n : Nat) (x : Node) : (s.writeNode n x).reads = s.reads :=
  State.writeSeq_reads s .node _ _
@[simp] theorem State.writeNode_resets (s : State) (n : Nat) (x : Node) : (s.writeNode n x).resets = s.resets :=
  State.writeSeq_resets s .node _ _

/-! ### raise -/

@[simp] theorem State.raise_params (s : State) (e : CmdError) : (s.raise e).params = s.params := rfl
@[simp] theorem State.raise_freqV (s : State) (e : CmdError) : (s.raise e).freqV = s.freqV := rfl
@[simp] theorem State.raise_pqV (s : State) (e : CmdError) : (s.raise e).pqV = s.pqV := rfl
@[simp] theorem State.raise_codesV (s : State) (e : CmdError) : (s.raise e).codesV = s.codesV := rfl
@[simp] theorem State.raise_wEmpty (s : State) (e : CmdError) : (s.raise e).wEmpty = s.wEmpty := rfl
@[simp] theorem State.raise_wUnknown (s : State) (e : CmdError) : (s.raise e).wUnknown = s.wUnknown := rfl
@[simp] theorem State.raise_accErr (s : State) (e : CmdError) : (s.raise e).accErr = s.accErr := rfl
@[simp] theorem State.raise_err (s : State) (e : CmdError) : (s.raise e).err = e.code := rfl
@[simp] theorem State.raise_errinfo (s : State) (e : CmdError) : (s.raise e).errinfo = e.info := rfl
@[simp] theorem State.raise_tlen (s : State) (e : CmdError) : (s.raise e).tlen = s.tlen := rfl
@[simp] theorem State.raise_nsym (s : State) (e : CmdError) : (s.raise e).nsym = s.nsym := rfl
@[simp] theorem State.raise_nnodes (s : State) (e : CmdError) : (s.raise e).nnodes = s.nnodes := rfl
@[simp] theorem State.raise_root (s : State) (e : CmdError) : (s.raise e).root = s.root := rfl
@[simp] theorem State.raise_pqn (s : State) (e : CmdError) : (s.raise e).pqn = s.pqn := rfl
@[simp] theorem State.raise_ncodes (s : State) (e : CmdError) : (s.raise e).ncodes = s.ncodes := rfl
@[simp] theorem State.raise_enclen (s : State) (e : CmdError) : (s.raise e).enclen = s.enclen := rfl
@[simp] theorem State.raise_skipcnt (s : State) (e : CmdError) : (s.raise e).skipcnt = s.skipcnt := rfl
@[simp] theorem State.raise_declen (s : State) (e : CmdError) : (s.raise e).declen = s.declen := rfl
@[simp] theorem State.raise_cols (s : State) (e : CmdError) : (s.raise e).cols = s.cols := rfl
@[simp] theorem State.raise_rows (s : State) (e : CmdError) : (s.raise e).rows = s.rows := rfl
@[simp] theorem State.raise_padlen (s : State) (e : CmdError) : (s.raise e).padlen = s.padlen := rfl
@[simp] theorem State.raise_origlen (s : State) (e : CmdError) : (s.raise e).origlen = s.origlen := rfl
@[simp] theorem State.raise_permlen (s : State) (e : CmdError) : (s.raise e).permlen = s.permlen := rfl
@[simp] theorem State.raise_invlen (s : State) (e : CmdError) : (s.raise e).invlen = s.invlen := rfl
@[simp] theorem State.raise_inbox (s : State) (e : CmdError) : (s.raise e).inbox = s.inbox := rfl
@[simp] theorem State.raise_reads (s : State) (e : CmdError) : (s.raise e).reads = s.reads := rfl
@[simp] theorem State.raise_resets (s : State) (e : CmdError) : (s.raise e).resets = s.resets := rfl

/-! ### complete -/

@[simp] theorem State.complete_params (s : State) : (s.complete).params = s.params := rfl
@[simp] theorem State.complete_freqV (s : State) : (s.complete).freqV = s.freqV := rfl
@[simp] theorem State.complete_pqV (s : State) : (s.complete).pqV = s.pqV := rfl
@[simp] theorem State.complete_codesV (s : State) : (s.complete).codesV = s.codesV := rfl
@[simp] theorem State.complete_wEmpty (s : State) : (s.complete).wEmpty = s.wEmpty := rfl
@[simp] theorem State.complete_wUnknown (s : State) : (s.complete).wUnknown = s.wUnknown := rfl
@[simp] theorem State.complete_accErr (s : State) : (s.complete).accErr = s.accErr := rfl
@[simp] theorem State.complete_err (s : State) : (s.complete).err = 0#32 := rfl
@[simp] theorem State.complete_errinfo (s : State) : (s.complete).errinfo = 0#32 := rfl
@[simp] theorem State.complete_tlen (s : State) : (s.complete).tlen = s.tlen := rfl
@[simp] theorem State.complete_nsym (s : State) : (s.complete).nsym = s.nsym := rfl
@[simp] theorem State.complete_nnodes (s : State) : (s.complete).nnodes = s.nnodes := rfl
@[simp] theorem State.complete_root (s : State) : (s.complete).root = s.root := rfl
@[simp] theorem State.complete_pqn (s : State) : (s.complete).pqn = s.pqn := rfl
@[simp] theorem State.complete_ncodes (s : State) : (s.complete).ncodes = s.ncodes := rfl
@[simp] theorem State.complete_enclen (s : State) : (s.complete).enclen = s.enclen := rfl
@[simp] theorem State.complete_skipcnt (s : State) : (s.complete).skipcnt = s.skipcnt := rfl
@[simp] theorem State.complete_declen (s : State) : (s.complete).declen = s.declen := rfl
@[simp] theorem State.complete_cols (s : State) : (s.complete).cols = s.cols := rfl
@[simp] theorem State.complete_rows (s : State) : (s.complete).rows = s.rows := rfl
@[simp] theorem State.complete_padlen (s : State) : (s.complete).padlen = s.padlen := rfl
@[simp] theorem State.complete_origlen (s : State) : (s.complete).origlen = s.origlen := rfl
@[simp] theorem State.complete_permlen (s : State) : (s.complete).permlen = s.permlen := rfl
@[simp] theorem State.complete_invlen (s : State) : (s.complete).invlen = s.invlen := rfl
@[simp] theorem State.complete_inbox (s : State) : (s.complete).inbox = s.inbox := rfl
@[simp] theorem State.complete_reads (s : State) : (s.complete).reads = s.reads := rfl
@[simp] theorem State.complete_resets (s : State) : (s.complete).resets = s.resets := rfl

/-! ### warnEmpty -/

@[simp] theorem State.warnEmpty_params (s : State) : (s.warnEmpty).params = s.params := rfl
@[simp] theorem State.warnEmpty_freqV (s : State) : (s.warnEmpty).freqV = s.freqV := rfl
@[simp] theorem State.warnEmpty_pqV (s : State) : (s.warnEmpty).pqV = s.pqV := rfl
@[simp] theorem State.warnEmpty_codesV (s : State) : (s.warnEmpty).codesV = s.codesV := rfl
@[simp] theorem State.warnEmpty_wEmpty (s : State) : (s.warnEmpty).wEmpty = (s.wEmpty || s.nsym == 0#32) := rfl
@[simp] theorem State.warnEmpty_wUnknown (s : State) : (s.warnEmpty).wUnknown = s.wUnknown := rfl
@[simp] theorem State.warnEmpty_accErr (s : State) : (s.warnEmpty).accErr = s.accErr := rfl
@[simp] theorem State.warnEmpty_err (s : State) : (s.warnEmpty).err = s.err := rfl
@[simp] theorem State.warnEmpty_errinfo (s : State) : (s.warnEmpty).errinfo = s.errinfo := rfl
@[simp] theorem State.warnEmpty_tlen (s : State) : (s.warnEmpty).tlen = s.tlen := rfl
@[simp] theorem State.warnEmpty_nsym (s : State) : (s.warnEmpty).nsym = s.nsym := rfl
@[simp] theorem State.warnEmpty_nnodes (s : State) : (s.warnEmpty).nnodes = s.nnodes := rfl
@[simp] theorem State.warnEmpty_root (s : State) : (s.warnEmpty).root = s.root := rfl
@[simp] theorem State.warnEmpty_pqn (s : State) : (s.warnEmpty).pqn = s.pqn := rfl
@[simp] theorem State.warnEmpty_ncodes (s : State) : (s.warnEmpty).ncodes = s.ncodes := rfl
@[simp] theorem State.warnEmpty_enclen (s : State) : (s.warnEmpty).enclen = s.enclen := rfl
@[simp] theorem State.warnEmpty_skipcnt (s : State) : (s.warnEmpty).skipcnt = s.skipcnt := rfl
@[simp] theorem State.warnEmpty_declen (s : State) : (s.warnEmpty).declen = s.declen := rfl
@[simp] theorem State.warnEmpty_cols (s : State) : (s.warnEmpty).cols = s.cols := rfl
@[simp] theorem State.warnEmpty_rows (s : State) : (s.warnEmpty).rows = s.rows := rfl
@[simp] theorem State.warnEmpty_padlen (s : State) : (s.warnEmpty).padlen = s.padlen := rfl
@[simp] theorem State.warnEmpty_origlen (s : State) : (s.warnEmpty).origlen = s.origlen := rfl
@[simp] theorem State.warnEmpty_permlen (s : State) : (s.warnEmpty).permlen = s.permlen := rfl
@[simp] theorem State.warnEmpty_invlen (s : State) : (s.warnEmpty).invlen = s.invlen := rfl
@[simp] theorem State.warnEmpty_inbox (s : State) : (s.warnEmpty).inbox = s.inbox := rfl
@[simp] theorem State.warnEmpty_reads (s : State) : (s.warnEmpty).reads = s.reads := rfl
@[simp] theorem State.warnEmpty_resets (s : State) : (s.warnEmpty).resets = s.resets := rfl

/-! ### warnUnknown -/

@[simp] theorem State.warnUnknown_params (s : State) (n : Nat) : (s.warnUnknown n).params = s.params := rfl
@[simp] theorem State.warnUnknown_freqV (s : State) (n : Nat) : (s.warnUnknown n).freqV = s.freqV := rfl
@[simp] theorem State.warnUnknown_pqV (s : State) (n : Nat) : (s.warnUnknown n).pqV = s.pqV := rfl
@[simp] theorem State.warnUnknown_codesV (s : State) (n : Nat) : (s.warnUnknown n).codesV = s.codesV := rfl
@[simp] theorem State.warnUnknown_wEmpty (s : State) (n : Nat) : (s.warnUnknown n).wEmpty = s.wEmpty := rfl
@[simp] theorem State.warnUnknown_wUnknown (s : State) (n : Nat) : (s.warnUnknown n).wUnknown = (s.wUnknown || decide (0 < n)) := rfl
@[simp] theorem State.warnUnknown_accErr (s : State) (n : Nat) : (s.warnUnknown n).accErr = s.accErr := rfl
@[simp] theorem State.warnUnknown_err (s : State) (n : Nat) : (s.warnUnknown n).err = s.err := rfl
@[simp] theorem State.warnUnknown_errinfo (s : State) (n : Nat) : (s.warnUnknown n).errinfo = s.errinfo := rfl
@[simp] theorem State.warnUnknown_tlen (s : State) (n : Nat) : (s.warnUnknown n).tlen = s.tlen := rfl
@[simp] theorem State.warnUnknown_nsym (s : State) (n : Nat) : (s.warnUnknown n).nsym = s.nsym := rfl
@[simp] theorem State.warnUnknown_nnodes (s : State) (n : Nat) : (s.warnUnknown n).nnodes = s.nnodes := rfl
@[simp] theorem State.warnUnknown_root (s : State) (n : Nat) : (s.warnUnknown n).root = s.root := rfl
@[simp] theorem State.warnUnknown_pqn (s : State) (n : Nat) : (s.warnUnknown n).pqn = s.pqn := rfl
@[simp] theorem State.warnUnknown_ncodes (s : State) (n : Nat) : (s.warnUnknown n).ncodes = s.ncodes := rfl
@[simp] theorem State.warnUnknown_enclen (s : State) (n : Nat) : (s.warnUnknown n).enclen = s.enclen := rfl
@[simp] theorem State.warnUnknown_skipcnt (s : State) (n : Nat) : (s.warnUnknown n).skipcnt = s.skipcnt := rfl
@[simp] theorem State.warnUnknown_declen (s : State) (n : Nat) : (s.warnUnknown n).declen = s.declen := rfl
@[simp] theorem State.warnUnknown_cols (s : State) (n : Nat) : (s.warnUnknown n).cols = s.cols := rfl
@[simp] theorem State.warnUnknown_rows (s : State) (n : Nat) : (s.warnUnknown n).rows = s.rows := rfl
@[simp] theorem State.warnUnknown_padlen (s : State) (n : Nat) : (s.warnUnknown n).padlen = s.padlen := rfl
@[simp] theorem State.warnUnknown_origlen (s : State) (n : Nat) : (s.warnUnknown n).origlen = s.origlen := rfl
@[simp] theorem State.warnUnknown_permlen (s : State) (n : Nat) : (s.warnUnknown n).permlen = s.permlen := rfl
@[simp] theorem State.warnUnknown_invlen (s : State) (n : Nat) : (s.warnUnknown n).invlen = s.invlen := rfl
@[simp] theorem State.warnUnknown_inbox (s : State) (n : Nat) : (s.warnUnknown n).inbox = s.inbox := rfl
@[simp] theorem State.warnUnknown_reads (s : State) (n : Nat) : (s.warnUnknown n).reads = s.reads := rfl
@[simp] theorem State.warnUnknown_resets (s : State) (n : Nat) : (s.warnUnknown n).resets = s.resets := rfl

/-! ### rejectAccess -/

@[simp] theorem State.rejectAccess_params (s : State) : (s.rejectAccess).params = s.params := rfl
@[simp] theorem State.rejectAccess_freqV (s : State) : (s.rejectAccess).freqV = s.freqV := rfl
@[simp] theorem State.rejectAccess_pqV (s : State) : (s.rejectAccess).pqV = s.pqV := rfl
@[simp] theorem State.rejectAccess_codesV (s : State) : (s.rejectAccess).codesV = s.codesV := rfl
@[simp] theorem State.rejectAccess_wEmpty (s : State) : (s.rejectAccess).wEmpty = s.wEmpty := rfl
@[simp] theorem State.rejectAccess_wUnknown (s : State) : (s.rejectAccess).wUnknown = s.wUnknown := rfl
@[simp] theorem State.rejectAccess_accErr (s : State) : (s.rejectAccess).accErr = true := rfl
@[simp] theorem State.rejectAccess_err (s : State) : (s.rejectAccess).err = s.err := rfl
@[simp] theorem State.rejectAccess_errinfo (s : State) : (s.rejectAccess).errinfo = s.errinfo := rfl
@[simp] theorem State.rejectAccess_tlen (s : State) : (s.rejectAccess).tlen = s.tlen := rfl
@[simp] theorem State.rejectAccess_nsym (s : State) : (s.rejectAccess).nsym = s.nsym := rfl
@[simp] theorem State.rejectAccess_nnodes (s : State) : (s.rejectAccess).nnodes = s.nnodes := rfl
@[simp] theorem State.rejectAccess_root (s : State) : (s.rejectAccess).root = s.root := rfl
@[simp] theorem State.rejectAccess_pqn (s : State) : (s.rejectAccess).pqn = s.pqn := rfl
@[simp] theorem State.rejectAccess_ncodes (s : State) : (s.rejectAccess).ncodes = s.ncodes := rfl
@[simp] theorem State.rejectAccess_enclen (s : State) : (s.rejectAccess).enclen = s.enclen := rfl
@[simp] theorem State.rejectAccess_skipcnt (s : State) : (s.rejectAccess).skipcnt = s.skipcnt := rfl
@[simp] theorem State.rejectAccess_declen (s : State) : (s.rejectAccess).declen = s.declen := rfl
@[simp] theorem State.rejectAccess_cols (s : State) : (s.rejectAccess).cols = s.cols := rfl
@[simp] theorem State.rejectAccess_rows (s : State) : (s.rejectAccess).rows = s.rows := rfl
@[simp] theorem State.rejectAccess_padlen (s : State) : (s.rejectAccess).padlen = s.padlen := rfl
@[simp] theorem State.rejectAccess_origlen (s : State) : (s.rejectAccess).origlen = s.origlen := rfl
@[simp] theorem State.rejectAccess_permlen (s : State) : (s.rejectAccess).permlen = s.permlen := rfl
@[simp] theorem State.rejectAccess_invlen (s : State) : (s.rejectAccess).invlen = s.invlen := rfl
@[simp] theorem State.rejectAccess_inbox (s : State) : (s.rejectAccess).inbox = s.inbox := rfl
@[simp] theorem State.rejectAccess_reads (s : State) : (s.rejectAccess).reads = s.reads := rfl
@[simp] theorem State.rejectAccess_resets (s : State) : (s.rejectAccess).resets = s.resets := rfl

/-! ### clearSticky -/

@[simp] theorem State.clearSticky_params (s : State) (d : Word) : (s.clearSticky d).params = s.params := rfl
@[simp] theorem State.clearSticky_freqV (s : State) (d : Word) : (s.clearSticky d).freqV = s.freqV := rfl
@[simp] theorem State.clearSticky_pqV (s : State) (d : Word) : (s.clearSticky d).pqV = s.pqV := rfl
@[simp] theorem State.clearSticky_codesV (s : State) (d : Word) : (s.clearSticky d).codesV = s.codesV := rfl
@[simp] theorem State.clearSticky_wEmpty (s : State) (d : Word) : (s.clearSticky d).wEmpty = (s.wEmpty && !d.getLsbD 16) := rfl
@[simp] theorem State.clearSticky_wUnknown (s : State) (d : Word) : (s.clearSticky d).wUnknown = (s.wUnknown && !d.getLsbD 17) := rfl
@[simp] theorem State.clearSticky_accErr (s : State) (d : Word) : (s.clearSticky d).accErr = (s.accErr && !d.getLsbD 18) := rfl
@[simp] theorem State.clearSticky_err (s : State) (d : Word) : (s.clearSticky d).err = s.err := rfl
@[simp] theorem State.clearSticky_errinfo (s : State) (d : Word) : (s.clearSticky d).errinfo = s.errinfo := rfl
@[simp] theorem State.clearSticky_tlen (s : State) (d : Word) : (s.clearSticky d).tlen = s.tlen := rfl
@[simp] theorem State.clearSticky_nsym (s : State) (d : Word) : (s.clearSticky d).nsym = s.nsym := rfl
@[simp] theorem State.clearSticky_nnodes (s : State) (d : Word) : (s.clearSticky d).nnodes = s.nnodes := rfl
@[simp] theorem State.clearSticky_root (s : State) (d : Word) : (s.clearSticky d).root = s.root := rfl
@[simp] theorem State.clearSticky_pqn (s : State) (d : Word) : (s.clearSticky d).pqn = s.pqn := rfl
@[simp] theorem State.clearSticky_ncodes (s : State) (d : Word) : (s.clearSticky d).ncodes = s.ncodes := rfl
@[simp] theorem State.clearSticky_enclen (s : State) (d : Word) : (s.clearSticky d).enclen = s.enclen := rfl
@[simp] theorem State.clearSticky_skipcnt (s : State) (d : Word) : (s.clearSticky d).skipcnt = s.skipcnt := rfl
@[simp] theorem State.clearSticky_declen (s : State) (d : Word) : (s.clearSticky d).declen = s.declen := rfl
@[simp] theorem State.clearSticky_cols (s : State) (d : Word) : (s.clearSticky d).cols = s.cols := rfl
@[simp] theorem State.clearSticky_rows (s : State) (d : Word) : (s.clearSticky d).rows = s.rows := rfl
@[simp] theorem State.clearSticky_padlen (s : State) (d : Word) : (s.clearSticky d).padlen = s.padlen := rfl
@[simp] theorem State.clearSticky_origlen (s : State) (d : Word) : (s.clearSticky d).origlen = s.origlen := rfl
@[simp] theorem State.clearSticky_permlen (s : State) (d : Word) : (s.clearSticky d).permlen = s.permlen := rfl
@[simp] theorem State.clearSticky_invlen (s : State) (d : Word) : (s.clearSticky d).invlen = s.invlen := rfl
@[simp] theorem State.clearSticky_inbox (s : State) (d : Word) : (s.clearSticky d).inbox = s.inbox := rfl
@[simp] theorem State.clearSticky_reads (s : State) (d : Word) : (s.clearSticky d).reads = s.reads := rfl
@[simp] theorem State.clearSticky_resets (s : State) (d : Word) : (s.clearSticky d).resets = s.resets := rfl

/-! ### resetRegisters -/

@[simp] theorem State.resetRegisters_params (s : State) : (s.resetRegisters).params = s.params := rfl
@[simp] theorem State.resetRegisters_freqV (s : State) : (s.resetRegisters).freqV = false := rfl
@[simp] theorem State.resetRegisters_pqV (s : State) : (s.resetRegisters).pqV = false := rfl
@[simp] theorem State.resetRegisters_codesV (s : State) : (s.resetRegisters).codesV = false := rfl
@[simp] theorem State.resetRegisters_wEmpty (s : State) : (s.resetRegisters).wEmpty = false := rfl
@[simp] theorem State.resetRegisters_wUnknown (s : State) : (s.resetRegisters).wUnknown = false := rfl
@[simp] theorem State.resetRegisters_accErr (s : State) : (s.resetRegisters).accErr = false := rfl
@[simp] theorem State.resetRegisters_err (s : State) : (s.resetRegisters).err = 0#32 := rfl
@[simp] theorem State.resetRegisters_errinfo (s : State) : (s.resetRegisters).errinfo = 0#32 := rfl
@[simp] theorem State.resetRegisters_tlen (s : State) : (s.resetRegisters).tlen = 0#32 := rfl
@[simp] theorem State.resetRegisters_nsym (s : State) : (s.resetRegisters).nsym = 0#32 := rfl
@[simp] theorem State.resetRegisters_nnodes (s : State) : (s.resetRegisters).nnodes = 0#32 := rfl
@[simp] theorem State.resetRegisters_root (s : State) : (s.resetRegisters).root = nullIndex := rfl
@[simp] theorem State.resetRegisters_pqn (s : State) : (s.resetRegisters).pqn = 0#32 := rfl
@[simp] theorem State.resetRegisters_ncodes (s : State) : (s.resetRegisters).ncodes = 0#32 := rfl
@[simp] theorem State.resetRegisters_enclen (s : State) : (s.resetRegisters).enclen = 0#32 := rfl
@[simp] theorem State.resetRegisters_skipcnt (s : State) : (s.resetRegisters).skipcnt = 0#32 := rfl
@[simp] theorem State.resetRegisters_declen (s : State) : (s.resetRegisters).declen = 0#32 := rfl
@[simp] theorem State.resetRegisters_cols (s : State) : (s.resetRegisters).cols = 0#32 := rfl
@[simp] theorem State.resetRegisters_rows (s : State) : (s.resetRegisters).rows = 0#32 := rfl
@[simp] theorem State.resetRegisters_padlen (s : State) : (s.resetRegisters).padlen = 0#32 := rfl
@[simp] theorem State.resetRegisters_origlen (s : State) : (s.resetRegisters).origlen = 0#32 := rfl
@[simp] theorem State.resetRegisters_permlen (s : State) : (s.resetRegisters).permlen = 0#32 := rfl
@[simp] theorem State.resetRegisters_invlen (s : State) : (s.resetRegisters).invlen = 0#32 := rfl
@[simp] theorem State.resetRegisters_inbox (s : State) : (s.resetRegisters).inbox = s.inbox := rfl
@[simp] theorem State.resetRegisters_reads (s : State) : (s.resetRegisters).reads = s.reads := rfl
@[simp] theorem State.resetRegisters_resets (s : State) : (s.resetRegisters).resets = s.resets := rfl

/-! ### applyReset -/

@[simp] theorem State.applyReset_params (s : State) : (s.applyReset).params = s.params := rfl
@[simp] theorem State.applyReset_freqV (s : State) : (s.applyReset).freqV = false := rfl
@[simp] theorem State.applyReset_pqV (s : State) : (s.applyReset).pqV = false := rfl
@[simp] theorem State.applyReset_codesV (s : State) : (s.applyReset).codesV = false := rfl
@[simp] theorem State.applyReset_wEmpty (s : State) : (s.applyReset).wEmpty = false := rfl
@[simp] theorem State.applyReset_wUnknown (s : State) : (s.applyReset).wUnknown = false := rfl
@[simp] theorem State.applyReset_accErr (s : State) : (s.applyReset).accErr = false := rfl
@[simp] theorem State.applyReset_err (s : State) : (s.applyReset).err = 0#32 := rfl
@[simp] theorem State.applyReset_errinfo (s : State) : (s.applyReset).errinfo = 0#32 := rfl
@[simp] theorem State.applyReset_tlen (s : State) : (s.applyReset).tlen = 0#32 := rfl
@[simp] theorem State.applyReset_nsym (s : State) : (s.applyReset).nsym = 0#32 := rfl
@[simp] theorem State.applyReset_nnodes (s : State) : (s.applyReset).nnodes = 0#32 := rfl
@[simp] theorem State.applyReset_root (s : State) : (s.applyReset).root = nullIndex := rfl
@[simp] theorem State.applyReset_pqn (s : State) : (s.applyReset).pqn = 0#32 := rfl
@[simp] theorem State.applyReset_ncodes (s : State) : (s.applyReset).ncodes = 0#32 := rfl
@[simp] theorem State.applyReset_enclen (s : State) : (s.applyReset).enclen = 0#32 := rfl
@[simp] theorem State.applyReset_skipcnt (s : State) : (s.applyReset).skipcnt = 0#32 := rfl
@[simp] theorem State.applyReset_declen (s : State) : (s.applyReset).declen = 0#32 := rfl
@[simp] theorem State.applyReset_cols (s : State) : (s.applyReset).cols = 0#32 := rfl
@[simp] theorem State.applyReset_rows (s : State) : (s.applyReset).rows = 0#32 := rfl
@[simp] theorem State.applyReset_padlen (s : State) : (s.applyReset).padlen = 0#32 := rfl
@[simp] theorem State.applyReset_origlen (s : State) : (s.applyReset).origlen = 0#32 := rfl
@[simp] theorem State.applyReset_permlen (s : State) : (s.applyReset).permlen = 0#32 := rfl
@[simp] theorem State.applyReset_invlen (s : State) : (s.applyReset).invlen = 0#32 := rfl
@[simp] theorem State.applyReset_inbox (s : State) : (s.applyReset).inbox = s.inbox := rfl
@[simp] theorem State.applyReset_reads (s : State) : (s.applyReset).reads = s.reads := rfl
@[simp] theorem State.applyReset_resets (s : State) : (s.applyReset).resets = s.resets + 1 := rfl

/-! ### Updates that leave every memory alone -/

@[simp] theorem State.raise_memory (s : State) (e : CmdError) (sp : Space) : (s.raise e).memory sp = s.memory sp := by
  cases sp <;> rfl
@[simp] theorem State.complete_memory (s : State) (sp : Space) : (s.complete).memory sp = s.memory sp := by
  cases sp <;> rfl
@[simp] theorem State.warnEmpty_memory (s : State) (sp : Space) : (s.warnEmpty).memory sp = s.memory sp := by
  cases sp <;> rfl
@[simp] theorem State.warnUnknown_memory (s : State) (n : Nat) (sp : Space) : (s.warnUnknown n).memory sp = s.memory sp := by
  cases sp <;> rfl
@[simp] theorem State.rejectAccess_memory (s : State) (sp : Space) : (s.rejectAccess).memory sp = s.memory sp := by
  cases sp <;> rfl
@[simp] theorem State.clearSticky_memory (s : State) (d : Word) (sp : Space) : (s.clearSticky d).memory sp = s.memory sp := by
  cases sp <;> rfl
@[simp] theorem State.resetRegisters_memory (s : State) (sp : Space) : (s.resetRegisters).memory sp = s.memory sp := by
  cases sp <;> rfl
@[simp] theorem State.applyReset_memory (s : State) (sp : Space) : s.applyReset.memory sp = [] := by
  cases sp <;> rfl
@[simp] theorem State.setOperandReg_memory (s : State) (r : Reg) (d : Word) (sp : Space) :
    (s.setOperandReg r d).memory sp = s.memory sp := by
  cases r <;> cases sp <;> rfl
@[simp] theorem State.setOperandReg_params (s : State) (r : Reg) (d : Word) : (s.setOperandReg r d).params = s.params := by
  cases r <;> rfl
@[simp] theorem State.setOperandReg_freqV (s : State) (r : Reg) (d : Word) : (s.setOperandReg r d).freqV = s.freqV := by
  cases r <;> rfl
@[simp] theorem State.setOperandReg_pqV (s : State) (r : Reg) (d : Word) : (s.setOperandReg r d).pqV = s.pqV := by
  cases r <;> rfl
@[simp] theorem State.setOperandReg_codesV (s : State) (r : Reg) (d : Word) : (s.setOperandReg r d).codesV = s.codesV := by
  cases r <;> rfl
@[simp] theorem State.setOperandReg_wEmpty (s : State) (r : Reg) (d : Word) : (s.setOperandReg r d).wEmpty = s.wEmpty := by
  cases r <;> rfl
@[simp] theorem State.setOperandReg_wUnknown (s : State) (r : Reg) (d : Word) : (s.setOperandReg r d).wUnknown = s.wUnknown := by
  cases r <;> rfl
@[simp] theorem State.setOperandReg_accErr (s : State) (r : Reg) (d : Word) : (s.setOperandReg r d).accErr = s.accErr := by
  cases r <;> rfl
@[simp] theorem State.setOperandReg_err (s : State) (r : Reg) (d : Word) : (s.setOperandReg r d).err = s.err := by
  cases r <;> rfl
@[simp] theorem State.setOperandReg_errinfo (s : State) (r : Reg) (d : Word) : (s.setOperandReg r d).errinfo = s.errinfo := by
  cases r <;> rfl
@[simp] theorem State.setOperandReg_nsym (s : State) (r : Reg) (d : Word) : (s.setOperandReg r d).nsym = s.nsym := by
  cases r <;> rfl
@[simp] theorem State.setOperandReg_nnodes (s : State) (r : Reg) (d : Word) : (s.setOperandReg r d).nnodes = s.nnodes := by
  cases r <;> rfl
@[simp] theorem State.setOperandReg_root (s : State) (r : Reg) (d : Word) : (s.setOperandReg r d).root = s.root := by
  cases r <;> rfl
@[simp] theorem State.setOperandReg_pqn (s : State) (r : Reg) (d : Word) : (s.setOperandReg r d).pqn = s.pqn := by
  cases r <;> rfl
@[simp] theorem State.setOperandReg_ncodes (s : State) (r : Reg) (d : Word) : (s.setOperandReg r d).ncodes = s.ncodes := by
  cases r <;> rfl
@[simp] theorem State.setOperandReg_skipcnt (s : State) (r : Reg) (d : Word) : (s.setOperandReg r d).skipcnt = s.skipcnt := by
  cases r <;> rfl
@[simp] theorem State.setOperandReg_declen (s : State) (r : Reg) (d : Word) : (s.setOperandReg r d).declen = s.declen := by
  cases r <;> rfl
@[simp] theorem State.setOperandReg_padlen (s : State) (r : Reg) (d : Word) : (s.setOperandReg r d).padlen = s.padlen := by
  cases r <;> rfl
@[simp] theorem State.setOperandReg_inbox (s : State) (r : Reg) (d : Word) : (s.setOperandReg r d).inbox = s.inbox := by
  cases r <;> rfl
@[simp] theorem State.setOperandReg_reads (s : State) (r : Reg) (d : Word) : (s.setOperandReg r d).reads = s.reads := by
  cases r <;> rfl
@[simp] theorem State.setOperandReg_resets (s : State) (r : Reg) (d : Word) : (s.setOperandReg r d).resets = s.resets := by
  cases r <;> rfl

end Sys2Proof.Machine
end

