-- ==== Sys2Proof/Laws/Memory.lean ====
section
/-! SUPPORT. What reads and writes of elements do: read after write, the canonical form, sequences, bits. -/

namespace Sys2Proof.Machine

/-! ### Truncation -/

@[simp] theorem truncTo_toNat (w : Nat) (v : Word) : (truncTo w v).toNat = v.toNat % 2 ^ w := by
  simp only [truncTo, BitVec.toNat_ofNat]
  exact Nat.mod_eq_of_lt (lt_of_le_of_lt (Nat.mod_le _ _) v.isLt)

@[simp] theorem truncTo_idem (w : Nat) (v : Word) : truncTo w (truncTo w v) = truncTo w v := by
  apply BitVec.eq_of_toNat_eq; simp

@[simp] theorem truncTo_32 (v : Word) : truncTo 32 v = v := by
  apply BitVec.eq_of_toNat_eq; simp [Nat.mod_eq_of_lt v.isLt]

@[simp] theorem truncTo_one_bitWord (b : Bool) : truncTo 1 (bitWord b) = bitWord b := by
  cases b <;> rfl

@[simp] theorem bitWord_beq_one (b : Bool) : (bitWord b == 1#32) = b := by cases b <;> rfl

/-! ### One memory -/

@[simp] theorem Memory.read?_nil (i : Nat) : Memory.read? [] i = none := rfl

/-- Read after write, the same cell. -/
theorem Memory.read?_write_same (m : Memory) (i : Nat) (v : Word) : (m.write i v).read? i = some v := by
  induction m with
  | nil => simp [Memory.write, Memory.read?]
  | cons c m ih =>
    obtain ⟨j, u⟩ := c
    simp only [Memory.write]
    split
    · simp [Memory.read?]
    · split
      · simp [Memory.read?]
      · rename_i h1 h2
        simp [Memory.read?, h2, ih]

/-- Read after write, another cell. -/
theorem Memory.read?_write_other (m : Memory) {i j : Nat} (v : Word) (h : j ≠ i) :
    (m.write i v).read? j = m.read? j := by
  induction m with
  | nil => simp [Memory.write, Memory.read?, h]
  | cons c m ih =>
    obtain ⟨k, u⟩ := c
    simp only [Memory.write]
    split
    · simp [Memory.read?, h]
    · split
      · rename_i h1 h2; subst h2; simp [Memory.read?, h]
      · simp only [Memory.read?]; split
        · rfl
        · exact ih

/-- The cells of a memory after a write are the written one and cells it had. -/
theorem Memory.mem_write {m : Memory} {i : Nat} {v : Word} {c : Nat × Word} (h : c ∈ m.write i v) :
    c = (i, v) ∨ c ∈ m := by
  induction m with
  | nil => simpa [Memory.write] using h
  | cons d m ih =>
    obtain ⟨j, u⟩ := d
    simp only [Memory.write] at h
    split at h
    · simpa using h
    · split at h
      · rcases List.mem_cons.mp h with h | h
        · exact .inl h
        · exact .inr (List.mem_cons_of_mem _ h)
      · rcases List.mem_cons.mp h with h | h
        · exact .inr (by simp [h])
        · exact (ih h).imp id (List.mem_cons_of_mem _)

/-- A write keeps the canonical form. -/
theorem Memory.write_wf {m : Memory} (h : m.wf) (i : Nat) (v : Word) : (m.write i v).wf := by
  induction m with
  | nil => simp [Memory.write, Memory.wf]
  | cons d m ih =>
    obtain ⟨j, u⟩ := d
    rw [Memory.wf, List.pairwise_cons] at h
    simp only [Memory.write]
    split
    · rename_i hij
      rw [Memory.wf, List.pairwise_cons, List.pairwise_cons]
      refine ⟨fun c hc => ?_, h.1, h.2⟩
      rcases List.mem_cons.mp hc with rfl | hc
      · exact hij
      · exact lt_trans hij (h.1 c hc)
    · split
      · rename_i hij; subst hij
        exact List.pairwise_cons.mpr ⟨h.1, h.2⟩
      · rename_i h1 h2
        refine List.pairwise_cons.mpr ⟨fun c hc => ?_, ih h.2⟩
        rcases Memory.mem_write hc with rfl | hc
        · show j < i
          omega
        · exact h.1 c hc

theorem State.reset_memories_wf (sp : Space) : (State.reset.memory sp).wf := by
  cases sp <;> exact List.Pairwise.nil

/-! ### One element of the state -/

@[simp] theorem State.memory_setMemory_same (s : State) (sp : Space) (m : Memory) :
    (s.setMemory sp m).memory sp = m := by
  cases sp <;> rfl

theorem State.memory_setMemory_other (s : State) {sp sp' : Space} (m : Memory) (h : sp' ≠ sp) :
    (s.setMemory sp m).memory sp' = s.memory sp' := by
  cases sp <;> cases sp' <;> first | rfl | exact absurd rfl h

/-- Reading an element depends on the instance, the number of resets and the one memory. -/
theorem State.readElem_congr {s t : State} {sp : Space} (hp : t.params = s.params) (hr : t.resets = s.resets)
    (hm : t.memory sp = s.memory sp) (i : Nat) : t.readElem sp i = s.readElem sp i := by
  simp [State.readElem, hp, hr, hm]

theorem State.memory_writeElem_other (s : State) {sp sp' : Space} (i : Nat) (v : Word) (h : sp' ≠ sp) :
    (s.writeElem sp i v).memory sp' = s.memory sp' :=
  s.memory_setMemory_other _ h

/-- An element reads as the low bits of what was written to it. -/
@[simp] theorem State.readElem_writeElem_same (s : State) (sp : Space) (i : Nat) (v : Word) :
    (s.writeElem sp i v).readElem sp i = truncTo (elemWidth s.params sp i) v := by
  simp [State.readElem, State.writeElem, Memory.read?_write_same]

/-- A write changes no other element. -/
theorem State.readElem_writeElem_other (s : State) {sp sp' : Space} {i i' : Nat} (v : Word)
    (h : sp' = sp → i' ≠ i) : (s.writeElem sp i v).readElem sp' i' = s.readElem sp' i' := by
  by_cases hs : sp' = sp
  · subst hs
    simp [State.readElem, State.writeElem, Memory.read?_write_other _ _ (h rfl)]
  · exact State.readElem_congr (by simp) (by simp) (s.memory_writeElem_other i v hs) i'

/-- What an element reads as fits its width. -/
@[simp] theorem State.truncTo_readElem (s : State) (sp : Space) (i : Nat) :
    truncTo (elemWidth s.params sp i) (s.readElem sp i) = s.readElem sp i := by
  simp [State.readElem]

/-! ### Sequences -/

@[simp] theorem State.writeSeq_nil (s : State) (sp : Space) (b : Nat) : s.writeSeq sp b [] = s := rfl

theorem State.writeSeq_cons (s : State) (sp : Space) (b : Nat) (v : Word) (vs : List Word) :
    s.writeSeq sp b (v :: vs) = (s.writeSeq sp (b + 1) vs).writeElem sp b v := rfl

theorem State.memory_writeSeq_other (s : State) {sp sp' : Space} (b : Nat) (vs : List Word) (h : sp' ≠ sp) :
    (s.writeSeq sp b vs).memory sp' = s.memory sp' := by
  induction vs generalizing b with
  | nil => rfl
  | cons v vs ih => rw [State.writeSeq_cons, State.memory_writeElem_other _ _ _ h, ih]

/-- Writing a sequence changes only the elements from its base on, as many as it is long. -/
theorem State.readElem_writeSeq_other (s : State) {sp sp' : Space} {b i : Nat} {vs : List Word}
    (h : sp' = sp → i < b ∨ b + vs.length ≤ i) : (s.writeSeq sp b vs).readElem sp' i = s.readElem sp' i := by
  induction vs generalizing b with
  | nil => rfl
  | cons v vs ih =>
    rw [State.writeSeq_cons, State.readElem_writeElem_other, ih]
    · intro hs; have := h hs; simp only [List.length_cons] at this; omega
    · intro hs; have := h hs; simp only [List.length_cons] at this; omega

/-- An element of a written sequence reads as the low bits of its value. -/
theorem State.readElem_writeSeq_same (s : State) (sp : Space) (b : Nat) {vs : List Word} {k : Nat}
    (h : k < vs.length) :
    (s.writeSeq sp b vs).readElem sp (b + k) = truncTo (elemWidth s.params sp (b + k)) vs[k] := by
  induction vs generalizing b k with
  | nil => simp at h
  | cons v vs ih =>
    rw [State.writeSeq_cons]
    cases k with
    | zero => simp
    | succ k =>
      rw [State.readElem_writeElem_other _ _ (by omega)]
      have := ih (b + 1) (k := k) (by simpa using h)
      rw [show b + (k + 1) = b + 1 + k by omega, this]
      simp

/-- The same, as one formula for every element. -/
theorem State.readElem_writeSeq (s : State) (sp sp' : Space) (b i : Nat) (vs : List Word) :
    (s.writeSeq sp b vs).readElem sp' i =
      if h : sp' = sp ∧ b ≤ i ∧ i - b < vs.length then truncTo (elemWidth s.params sp i) (vs[i - b]'h.2.2)
      else s.readElem sp' i := by
  split
  · rename_i h
    obtain ⟨rfl, h1, h2⟩ := h
    have := s.readElem_writeSeq_same sp' b h2
    rwa [show b + (i - b) = i by omega] at this
  · rename_i h
    apply State.readElem_writeSeq_other
    intro hs
    by_contra hc
    exact h ⟨hs, by omega, by omega⟩

@[simp] theorem State.length_readSeq (s : State) (sp : Space) (n : Nat) : (s.readSeq sp n).length = n := by
  simp [State.readSeq]

@[simp] theorem State.getElem_readSeq (s : State) (sp : Space) (n k : Nat) (h : k < (s.readSeq sp n).length) :
    (s.readSeq sp n)[k] = s.readElem sp k := by
  simp [State.readSeq]

theorem State.mem_readSeq {s : State} {sp : Space} {n : Nat} {x : Word} :
    x ∈ s.readSeq sp n ↔ ∃ i, i < n ∧ s.readElem sp i = x := by
  simp [State.readSeq]

theorem State.readSeq_congr {s t : State} {sp : Space} {n : Nat}
    (h : ∀ i, i < n → t.readElem sp i = s.readElem sp i) : t.readSeq sp n = s.readSeq sp n := by
  apply List.ext_getElem <;> simp_all

/-- Reading back a sequence written from index 0, in a memory whose elements all have width `w`. -/
theorem State.readSeq_writeSeq (s : State) (sp : Space) (vs : List Word) (w : Nat)
    (hw : ∀ i, elemWidth s.params sp i = w) :
    (s.writeSeq sp 0 vs).readSeq sp vs.length = vs.map (truncTo w) := by
  apply List.ext_getElem
  · simp
  · intro k h1 h2
    have hk : k < vs.length := by simpa using h1
    have := s.readElem_writeSeq_same sp 0 hk
    simp only [Nat.zero_add] at this
    simp [this, hw]

/-! ### Bits -/

theorem State.readBit_congr {s t : State} {sp : Space} {i : Nat} (h : t.readElem sp i = s.readElem sp i) :
    t.readBit sp i = s.readBit sp i := by
  simp [State.readBit, h]

/-- An element of width 1 is the bit it reads as. -/
theorem State.readElem_eq_bitWord (s : State) {sp : Space} {i : Nat} (h : elemWidth s.params sp i = 1) :
    s.readElem sp i = bitWord (s.readBit sp i) := by
  have ht := s.truncTo_readElem sp i
  rw [h] at ht
  have hn : (s.readElem sp i).toNat % 2 ^ 1 = (s.readElem sp i).toNat := by
    rw [← truncTo_toNat, ht]
  have hlt : (s.readElem sp i).toNat < 2 := by omega
  unfold State.readBit bitWord
  interval_cases hv : (s.readElem sp i).toNat
  · have h0 : s.readElem sp i = 0#32 := by apply BitVec.eq_of_toNat_eq; simpa using hv
    simp [h0]
  · have h1 : s.readElem sp i = 1#32 := by apply BitVec.eq_of_toNat_eq; simpa using hv
    simp [h1]

@[simp] theorem State.length_readBits (s : State) (sp : Space) (n : Nat) : (s.readBits sp n).length = n := by
  simp [State.readBits]

@[simp] theorem State.getElem_readBits (s : State) (sp : Space) (n k : Nat) (h : k < (s.readBits sp n).length) :
    (s.readBits sp n)[k] = s.readBit sp k := by
  simp [State.readBits]

theorem State.readBits_congr {s t : State} {sp : Space} {n : Nat}
    (h : ∀ i, i < n → t.readBit sp i = s.readBit sp i) : t.readBits sp n = s.readBits sp n := by
  apply List.ext_getElem <;> simp_all

/-- A bit of a written bit sequence. -/
theorem State.readBit_writeSeq_bits (s : State) (sp : Space) (b : Nat) {bits : List Bool} {k : Nat}
    (hw : elemWidth s.params sp (b + k) = 1) (h : k < bits.length) :
    (s.writeSeq sp b (bits.map bitWord)).readBit sp (b + k) = bits[k] := by
  have := s.readElem_writeSeq_same sp b (vs := bits.map bitWord) (k := k) (by simpa using h)
  simp [State.readBit, this, hw]

/-- Reading back a bit sequence written from index 0. -/
theorem State.readBits_writeSeq_bits (s : State) (sp : Space) (bits : List Bool)
    (hw : ∀ i, elemWidth s.params sp i = 1) :
    (s.writeSeq sp 0 (bits.map bitWord)).readBits sp bits.length = bits := by
  apply List.ext_getElem
  · simp
  · intro k h1 h2
    have := s.readBit_writeSeq_bits sp 0 (bits := bits) (k := k) (hw _) h2
    simpa using this

/-! ### The canonical form of all memories -/

/-- Every memory operation keeps the canonical form: a write of one element … -/
theorem State.writeElem_canonical {s : State} (h : ∀ sp, (s.memory sp).wf) (sp : Space) (i : Nat) (v : Word) :
    ∀ sp', ((s.writeElem sp i v).memory sp').wf := by
  intro sp'
  by_cases hs : sp' = sp
  · subst hs
    simpa [State.writeElem] using Memory.write_wf (h sp') i _
  · rw [s.memory_writeElem_other i v hs]; exact h sp'

/-- … and so a write of a sequence. -/
theorem State.writeSeq_canonical {s : State} (h : ∀ sp, (s.memory sp).wf) (sp : Space) (b : Nat) (vs : List Word) :
    ∀ sp', ((s.writeSeq sp b vs).memory sp').wf := by
  induction vs generalizing b with
  | nil => exact h
  | cons v vs ih => exact State.writeElem_canonical (ih (b + 1)) sp b v

/-- The cells of a memory after a write of one element: cells it had, and the written one, its value cut to its width. -/
theorem State.mem_memory_writeElem {s : State} {sp sp' : Space} {i : Nat} {v : Word} {c : Nat × Word}
    (h : c ∈ (s.writeElem sp i v).memory sp') :
    c ∈ s.memory sp' ∨ (sp' = sp ∧ c = (i, truncTo (elemWidth s.params sp i) v)) := by
  by_cases hs : sp' = sp
  · subst hs
    simp only [State.writeElem, State.memory_setMemory_same] at h
    rcases Memory.mem_write h with h | h
    · exact .inr ⟨rfl, h⟩
    · exact .inl h
  · rw [s.memory_writeElem_other i v hs] at h; exact .inl h

/-- The cells of a memory after a write of a sequence. -/
theorem State.mem_memory_writeSeq {s : State} {sp sp' : Space} {b : Nat} {vs : List Word} {c : Nat × Word}
    (h : c ∈ (s.writeSeq sp b vs).memory sp') :
    c ∈ s.memory sp' ∨ (sp' = sp ∧ b ≤ c.1 ∧ c.1 < b + vs.length
      ∧ truncTo (elemWidth s.params sp c.1) c.2 = c.2) := by
  induction vs generalizing b with
  | nil => exact .inl h
  | cons v vs ih =>
    rw [State.writeSeq_cons] at h
    rcases State.mem_memory_writeElem h with h | ⟨hs, rfl⟩
    · rcases ih h with h | ⟨hs, h1, h2, h3⟩
      · exact .inl h
      · exact .inr ⟨hs, by omega, by simp only [List.length_cons]; omega, h3⟩
    · exact .inr ⟨hs, by simp, by simp, by simp⟩

end Sys2Proof.Machine
end

