-- ==== Sys2Proof/Laws/Ops.lean ====
section
/-! SUPPORT. What the shared operations do, said once each: how a command ends, nodes, keys, the priority queue. -/

namespace Sys2Proof.Machine

/-! ### How a command ends -/

/-- What the body of each command answers, before `finish`. -/
def commandBody : Instr → State → Except CmdError State
  | .nop, s => .ok s
  | .clear, s => .ok s.resetRegisters
  | .freq, s => freqBody s
  | .pqinit, s => pqinitBody (encode .pqinit) s
  | .merge, s => mergeBody (encode .merge) s
  | .build, s => buildBody (encode .build) s
  | .gencodes, s => gencodesBody (encode .gencodes) s
  | .encode, s => encodeBody (encode .encode) s
  | .decode src, s => decodeBody (encode (.decode src)) src s
  | .permute, s => permuteBody s
  | .invert trim, s => invertBody trim s

/-- Every command is its body, finished. -/
theorem exec_eq_finish (i : Instr) (s : State) : exec i s = finish s (commandBody i s) := by
  cases i <;> rfl

@[simp] theorem CmdError.code_ne_zero (e : CmdError) : e.code ≠ 0#32 := by
  cases e <;> simp [CmdError.code]

/-- Everything a command can do: its body completes, or it fails and only `ERR` and `ERRINFO` change. -/
theorem exec_cases {i : Instr} {s t : State} (h : exec i s = .next t) :
    (∃ u, commandBody i s = .ok u ∧ t = u.complete) ∨ (∃ e, commandBody i s = .error e ∧ t = s.raise e) := by
  rw [exec_eq_finish] at h
  cases hb : commandBody i s with
  | ok u => rw [hb] at h; exact .inl ⟨u, rfl, by simpa [finish] using h.symm⟩
  | error e => rw [hb] at h; exact .inr ⟨e, rfl, by simpa [finish] using h.symm⟩

/-- Every command answers a next state. -/
theorem exec_next (i : Instr) (s : State) : ∃ t, exec i s = .next t := by
  rw [exec_eq_finish]
  cases commandBody i s with
  | ok u => exact ⟨_, rfl⟩
  | error e => exact ⟨_, rfl⟩

/-- A command completes exactly when its body answers a state. -/
theorem completes_iff {i : Instr} {s t : State} :
    Completes i s t ↔ ∃ u, commandBody i s = .ok u ∧ t = u.complete := by
  constructor
  · rintro ⟨h, h0, -⟩
    rcases exec_cases h with h' | ⟨e, -, rfl⟩
    · exact h'
    · exact absurd h0 (by simp)
  · rintro ⟨u, h, rfl⟩
    exact ⟨by rw [exec_eq_finish, h]; rfl, rfl, rfl⟩

/-- A command fails with what its body raises. -/
theorem failsWith_of_error {i : Instr} {s : State} {e : CmdError} (h : commandBody i s = .error e) :
    FailsWith i s e.code e.info := by
  unfold FailsWith
  rw [exec_eq_finish, h]
  rfl

/-! ### Reading the state after the updates that end a command -/

@[simp] theorem State.readElem_complete (s : State) (sp : Space) (i : Nat) :
    s.complete.readElem sp i = s.readElem sp i :=
  State.readElem_congr rfl rfl (by simp) i

@[simp] theorem State.readElem_raise (s : State) (e : CmdError) (sp : Space) (i : Nat) :
    (s.raise e).readElem sp i = s.readElem sp i :=
  State.readElem_congr rfl rfl (by simp) i

@[simp] theorem State.readElem_warnEmpty (s : State) (sp : Space) (i : Nat) :
    s.warnEmpty.readElem sp i = s.readElem sp i :=
  State.readElem_congr rfl rfl (by simp) i

@[simp] theorem State.readElem_warnUnknown (s : State) (n : Nat) (sp : Space) (i : Nat) :
    (s.warnUnknown n).readElem sp i = s.readElem sp i :=
  State.readElem_congr rfl rfl (by simp) i

@[simp] theorem State.readElem_resetRegisters (s : State) (sp : Space) (i : Nat) :
    s.resetRegisters.readElem sp i = s.readElem sp i :=
  State.readElem_congr rfl rfl (by simp) i

@[simp] theorem State.readElem_setOperandReg (s : State) (r : Reg) (d : Word) (sp : Space) (i : Nat) :
    (s.setOperandReg r d).readElem sp i = s.readElem sp i :=
  State.readElem_congr (by simp) (by simp) (by simp) i

/-! ### Element widths -/

@[simp] theorem elemWidth_pq (p : Params) (i : Nat) : elemWidth p .pq i = 32 := rfl
@[simp] theorem elemWidth_ftcnt (p : Params) (i : Nat) : elemWidth p .ftcnt i = 32 := rfl
@[simp] theorem elemWidth_cblen (p : Params) (i : Nat) : elemWidth p .cblen i = 32 := rfl
@[simp] theorem elemWidth_text (p : Params) (i : Nat) : elemWidth p .text i = p.symW := rfl
@[simp] theorem elemWidth_ftsym (p : Params) (i : Nat) : elemWidth p .ftsym i = p.symW := rfl
@[simp] theorem elemWidth_dec (p : Params) (i : Nat) : elemWidth p .dec i = p.symW := rfl
@[simp] theorem elemWidth_cbbit (p : Params) (i : Nat) : elemWidth p .cbbit i = 1 := rfl
@[simp] theorem elemWidth_enc (p : Params) (i : Nat) : elemWidth p .enc i = 1 := rfl
@[simp] theorem elemWidth_perm (p : Params) (i : Nat) : elemWidth p .perm i = 1 := rfl
@[simp] theorem elemWidth_inv (p : Params) (i : Nat) : elemWidth p .inv i = 1 := rfl

theorem elemWidth_kind (p : Params) (n : Nat) : elemWidth p .node (8 * n) = 1 := by simp [elemWidth]

theorem elemWidth_sym (p : Params) (n : Nat) : elemWidth p .node (8 * n + 1) = p.symW := by simp [elemWidth]

/-- Fields 2, 3 and 4 of a node are 32 bits wide. -/
theorem elemWidth_field (p : Params) (n : Nat) {f : Nat} (h1 : 2 ≤ f) (h2 : f < 5) :
    elemWidth p .node (8 * n + f) = 32 := by
  have : (8 * n + f) % 8 = f := by omega
  simp only [elemWidth, this]
  rw [if_neg (by omega), if_neg (by omega)]

/-! ### Nodes -/

/-- Node `n` after it is written; its symbol is cut to the symbol width. -/
theorem State.readNode_writeNode_same (s : State) (n : Nat) (x : Node)
    (h : truncTo s.params.symW x.sym = x.sym) : (s.writeNode n x).readNode n = x := by
  have key : ∀ k (hk : k < 5), (s.writeNode n x).readElem .node (8 * n + k)
      = truncTo (elemWidth s.params .node (8 * n + k))
          ([bitWord x.internal, x.sym, x.freq, x.left, x.right][k]'(by simpa using hk)) :=
    fun k hk => s.readElem_writeSeq_same .node (8 * n) (by simpa using hk)
  have h0 := key 0 (by omega)
  have h1 := key 1 (by omega)
  have h2 := key 2 (by omega)
  have h3 := key 3 (by omega)
  have h4 := key 4 (by omega)
  rw [Nat.add_zero, elemWidth_kind] at h0
  rw [elemWidth_sym] at h1
  rw [elemWidth_field _ _ (by omega) (by omega)] at h2 h3 h4
  simp only [List.getElem_cons_zero, List.getElem_cons_succ, truncTo_32, truncTo_one_bitWord, h] at h0 h1 h2 h3 h4
  simp [State.readNode, State.nodeInternal, State.readBit, State.nodeSym, State.nodeFreq, State.nodeLeft,
    State.nodeRight, h0, h1, h2, h3, h4]

/-- Writing a node touches five elements of `NODE`. -/
theorem State.readElem_writeNode_other (s : State) {n : Nat} {x : Node} {sp : Space} {i : Nat}
    (h : sp = .node → i < 8 * n ∨ 8 * n + 5 ≤ i) : (s.writeNode n x).readElem sp i = s.readElem sp i :=
  s.readElem_writeSeq_other (by simpa using h)

/-- Writing a node leaves the other nodes alone. -/
theorem State.readNode_writeNode_other (s : State) {n m : Nat} {x : Node} (h : m ≠ n) :
    (s.writeNode n x).readNode m = s.readNode m := by
  have key : ∀ f, f < 5 → (s.writeNode n x).readElem .node (8 * m + f) = s.readElem .node (8 * m + f) :=
    fun f hf => s.readElem_writeNode_other (fun _ => by omega)
  have h0 := key 0 (by omega)
  rw [Nat.add_zero] at h0
  simp [State.readNode, State.nodeInternal, State.readBit, State.nodeSym, State.nodeFreq, State.nodeLeft,
    State.nodeRight, h0, key]

/-- A node is read from the five elements of its own. -/
theorem State.readNode_congr {s t : State} {n : Nat}
    (h : ∀ f, f < 5 → t.readElem .node (8 * n + f) = s.readElem .node (8 * n + f)) :
    t.readNode n = s.readNode n := by
  have h0 := h 0 (by omega)
  rw [Nat.add_zero] at h0
  simp [State.readNode, State.nodeInternal, State.readBit, State.nodeSym, State.nodeFreq, State.nodeLeft,
    State.nodeRight, h0, h]

@[simp] theorem State.readNode_internal (s : State) (n : Nat) : (s.readNode n).internal = s.nodeInternal n := rfl
@[simp] theorem State.readNode_sym (s : State) (n : Nat) : (s.readNode n).sym = s.nodeSym n := rfl
@[simp] theorem State.readNode_freq (s : State) (n : Nat) : (s.readNode n).freq = s.nodeFreq n := rfl
@[simp] theorem State.readNode_left (s : State) (n : Nat) : (s.readNode n).left = s.nodeLeft n := rfl
@[simp] theorem State.readNode_right (s : State) (n : Nat) : (s.readNode n).right = s.nodeRight n := rfl

/-! ### The canonical form of the memories, with the widths of their elements -/

/-- Every memory operation keeps the canonical form: a write of a sequence … -/
theorem State.MemoriesCanonical.writeSeq {s : State} (h : s.MemoriesCanonical) (sp : Space) (b : Nat)
    (vs : List Word) : (s.writeSeq sp b vs).MemoriesCanonical := by
  intro sp'
  refine ⟨State.writeSeq_canonical (fun x => (h x).1) sp b vs sp', fun c hc => ?_⟩
  rw [State.writeSeq_params]
  rcases State.mem_memory_writeSeq hc with hc | ⟨rfl, -, -, hw⟩
  · exact (h sp').2 c hc
  · exact hw

/-- … a write of one element … -/
theorem State.MemoriesCanonical.writeElem {s : State} (h : s.MemoriesCanonical) (sp : Space) (i : Nat) (v : Word) :
    (s.writeElem sp i v).MemoriesCanonical := h.writeSeq sp i [v]

/-- … a write of a node … -/
theorem State.MemoriesCanonical.writeNode {s : State} (h : s.MemoriesCanonical) (n : Nat) (x : Node) :
    (s.writeNode n x).MemoriesCanonical := h.writeSeq .node _ _

/-- … and every update that leaves the instance and the memories alone. -/
theorem State.MemoriesCanonical.congr {s t : State} (h : s.MemoriesCanonical) (hp : t.params = s.params)
    (hm : ∀ sp, t.memory sp = s.memory sp) : t.MemoriesCanonical := by
  intro sp
  rw [hp, hm]
  exact h sp

/-- Writing the queue keeps the canonical form. -/
theorem State.MemoriesCanonical.setQueue {s : State} (h : s.MemoriesCanonical) (q : List Word) :
    (s.setQueue q).MemoriesCanonical :=
  (h.writeSeq .pq 0 q).congr rfl (fun sp => by cases sp <;> rfl)

/-! ### Keys -/

theorem State.keyBefore_iff {s : State} {i j : Word} :
    s.keyBefore i j = true ↔ (s.nodeFreq i.toNat).toNat < (s.nodeFreq j.toNat).toNat
      ∨ ((s.nodeFreq i.toNat).toNat = (s.nodeFreq j.toNat).toNat ∧ i.toNat < j.toNat) := by
  simp [State.keyBefore, BitVec.lt_def, ← BitVec.toNat_inj]

theorem State.keyBefore_irrefl (s : State) (i : Word) : s.keyBefore i i = false := by
  rw [Bool.eq_false_iff, ne_eq, State.keyBefore_iff]; omega

theorem State.keyBefore_trans {s : State} {i j k : Word} (h1 : s.keyBefore i j = true) (h2 : s.keyBefore j k = true) :
    s.keyBefore i k = true := by
  rw [State.keyBefore_iff] at *; omega

/-- Of two different nodes one has the smaller key: the key order is strict and total (R122). -/
theorem State.keyBefore_total {s : State} {i j : Word} (h : i ≠ j) (h1 : s.keyBefore i j ≠ true) :
    s.keyBefore j i = true := by
  rw [ne_eq, State.keyBefore_iff] at h1
  rw [State.keyBefore_iff]
  have : i.toNat ≠ j.toNat := fun hc => h (BitVec.eq_of_toNat_eq hc)
  omega

theorem State.keyBefore_congr {s t : State} {i j : Word} (hi : t.nodeFreq i.toNat = s.nodeFreq i.toNat)
    (hj : t.nodeFreq j.toNat = s.nodeFreq j.toNat) : t.keyBefore i j = s.keyBefore i j := by
  simp [State.keyBefore, hi, hj]

/-! ### The priority queue -/

@[simp] theorem State.length_queue (s : State) : s.queue.length = s.pqn.toNat := by simp [State.queue]

/-- The queue that was written is the queue. -/
theorem State.queue_setQueue (s : State) {q : List Word} (h : q.length < 2 ^ 32) : (s.setQueue q).queue = q := by
  have hr : ∀ i, (s.setQueue q).readElem .pq i = (s.writeSeq .pq 0 q).readElem .pq i :=
    fun i => State.readElem_congr rfl rfl rfl i
  have hn : (s.setQueue q).pqn.toNat = q.length := by
    simp only [State.setQueue_pqn, BitVec.toNat_ofNat]; omega
  apply List.ext_getElem
  · rw [State.length_queue, hn]
  · intro k h1 h2
    have := s.readElem_writeSeq_same .pq 0 h2
    simp only [Nat.zero_add, elemWidth_pq, truncTo_32] at this
    simp [State.queue, hr, this]

/-- Writing the queue touches `PQ` alone, below the length of the queue. -/
theorem State.readElem_setQueue_other (s : State) {q : List Word} {sp : Space} {i : Nat}
    (h : sp = .pq → q.length ≤ i) : (s.setQueue q).readElem sp i = s.readElem sp i := by
  have : (s.setQueue q).readElem sp i = (s.writeSeq .pq 0 q).readElem sp i :=
    State.readElem_congr rfl rfl (by cases sp <;> rfl) i
  rw [this]
  exact s.readElem_writeSeq_other (fun hs => .inr (by simpa using h hs))

@[simp] theorem State.readNode_setQueue (s : State) (q : List Word) (n : Nat) :
    (s.setQueue q).readNode n = s.readNode n :=
  State.readNode_congr (fun _ _ => s.readElem_setQueue_other (by simp))

@[simp] theorem State.nodeFreq_setQueue (s : State) (q : List Word) (n : Nat) :
    (s.setQueue q).nodeFreq n = s.nodeFreq n :=
  s.readElem_setQueue_other (by simp)

@[simp] theorem State.keyBefore_setQueue (s : State) (q : List Word) (i j : Word) :
    (s.setQueue q).keyBefore i j = s.keyBefore i j :=
  State.keyBefore_congr (by simp) (by simp)

/-- The queue after an insertion (R121). -/
theorem State.queue_pqInsert (s : State) (i : Word) (h : s.pqn.toNat + 1 < 2 ^ 32) :
    (s.pqInsert i).queue = s.queue.take (s.queue.countP (fun j => s.keyBefore j i))
      ++ i :: s.queue.drop (s.queue.countP (fun j => s.keyBefore j i)) := by
  apply State.queue_setQueue
  have := s.length_queue
  simp only [List.length_append, List.length_cons, List.length_take, List.length_drop]
  omega

/-- An insertion adds the one entry. -/
theorem State.perm_pqInsert (s : State) (i : Word) (h : s.pqn.toNat + 1 < 2 ^ 32) :
    (s.pqInsert i).queue.Perm (i :: s.queue) := by
  rw [State.queue_pqInsert s i h]
  refine List.perm_middle.trans (List.Perm.cons i ?_)
  rw [List.take_append_drop]

theorem State.pqn_pqInsert (s : State) (i : Word) (h : s.pqn.toNat + 1 < 2 ^ 32) :
    (s.pqInsert i).pqn.toNat = s.pqn.toNat + 1 := by
  have := (s.perm_pqInsert i h).length_eq
  simpa using this

/-- An insertion touches `PQ` alone. -/
theorem State.readElem_pqInsert_other (s : State) (i : Word) {sp : Space} {k : Nat}
    (h : sp = .pq → s.pqn.toNat + 1 ≤ k) : (s.pqInsert i).readElem sp k = s.readElem sp k := by
  apply s.readElem_setQueue_other
  intro hs
  have := h hs
  have := s.length_queue
  simp only [List.length_append, List.length_cons, List.length_take, List.length_drop]
  omega

@[simp] theorem State.readNode_pqInsert (s : State) (i : Word) (n : Nat) :
    (s.pqInsert i).readNode n = s.readNode n := s.readNode_setQueue _ n

@[simp] theorem State.nodeFreq_pqInsert (s : State) (i : Word) (n : Nat) :
    (s.pqInsert i).nodeFreq n = s.nodeFreq n := s.nodeFreq_setQueue _ n

@[simp] theorem State.keyBefore_pqInsert (s : State) (i j k : Word) :
    (s.pqInsert i).keyBefore j k = s.keyBefore j k := s.keyBefore_setQueue _ j k

/-- In a list sorted by a strict total order the entries before `i` are a prefix, so that inserting `i` behind them
gives a sorted list. -/
theorem sorted_insert_countP {α : Type} (r : α → α → Bool) (i : α) :
    ∀ (q : List α), (∀ a b c, r a b = true → r b c = true → r a c = true) →
      (∀ a ∈ q, r a i ≠ true → r i a = true) → q.Pairwise (fun a b => r a b = true) →
      (q.take (q.countP (fun j => r j i)) ++ i :: q.drop (q.countP (fun j => r j i))).Pairwise
        (fun a b => r a b = true)
  | [], _, _, _ => by simp
  | a :: q, tr, tot, hs => by
    rw [List.pairwise_cons] at hs
    by_cases ha : r a i = true
    · rw [List.countP_cons_of_pos (by simpa using ha)]
      simp only [List.take_succ_cons, List.drop_succ_cons, List.cons_append, List.pairwise_cons]
      refine ⟨fun b hb => ?_, sorted_insert_countP r i q tr (fun b hb => tot b (List.mem_cons_of_mem _ hb)) hs.2⟩
      have hb' : b ∈ i :: q := by
        have := List.perm_middle (a := i) (l₁ := q.take (q.countP fun j => r j i))
          (l₂ := q.drop (q.countP fun j => r j i))
        rw [List.take_append_drop] at this
        exact this.mem_iff.mp hb
      rcases List.mem_cons.mp hb' with rfl | hb'
      · exact ha
      · exact hs.1 b hb'
    · have hia := tot a (by simp) ha
      have h0 : (a :: q).countP (fun j => r j i) = 0 := by
        rw [List.countP_eq_zero]
        intro b hb
        rcases List.mem_cons.mp hb with rfl | hb
        · exact ha
        · exact fun hc => ha (tr _ _ _ (hs.1 b hb) hc)
      rw [h0]
      simp only [List.take_zero, List.drop_zero, List.nil_append, List.pairwise_cons]
      refine ⟨fun b hb => ?_, hs⟩
      rcases List.mem_cons.mp hb with rfl | hb
      · exact hia
      · exact tr _ _ _ hia (hs.1 b hb)

/-- An insertion keeps the queue in key order (R120, R121). -/
theorem State.sorted_pqInsert (s : State) (i : Word) (h : s.pqn.toNat + 1 < 2 ^ 32) (hi : i ∉ s.queue)
    (hs : s.queue.Pairwise (fun a b => s.keyBefore a b = true)) :
    (s.pqInsert i).queue.Pairwise (fun a b => (s.pqInsert i).keyBefore a b = true) := by
  rw [State.queue_pqInsert s i h]
  simp only [State.keyBefore_pqInsert]
  exact sorted_insert_countP s.keyBefore i s.queue (fun _ _ _ => State.keyBefore_trans)
    (fun a ha => State.keyBefore_total (fun hc => hi (hc ▸ ha))) hs

/-- Popping takes the first entry (R123). -/
theorem State.pqPop_cons (s : State) {a : Word} {q : List Word} (h : s.queue = a :: q) :
    s.pqPop.1 = a ∧ s.pqPop.2 = s.setQueue q ∧ s.pqPop.2.queue = q := by
  have hl := s.length_queue
  rw [h] at hl
  simp only [List.length_cons] at hl
  have hd : s.queue.drop 1 = q := by rw [h]; rfl
  have h0 : s.readElem .pq 0 = a := by
    have := s.getElem_readSeq .pq s.pqn.toNat 0 (by simp; omega)
    rw [← this]
    simp only [State.queue] at h
    simp [h]
  refine ⟨h0, ?_, ?_⟩
  · simp [State.pqPop, hd]
  · simp only [State.pqPop, hd]
    exact s.queue_setQueue (by have := s.pqn.isLt; omega)

/-- The queue starts with `PQ[0]`. -/
theorem State.queue_cons (s : State) (h : 1 ≤ s.pqn.toNat) :
    s.queue = s.readElem .pq 0 :: s.queue.drop 1 := by
  have hl := s.length_queue
  cases hq : s.queue with
  | nil => rw [hq] at hl; simp at hl; omega
  | cons a q =>
    have h0 : s.queue[0]'(by omega) = s.readElem .pq 0 := by simp [State.queue]
    simp only [hq, List.getElem_cons_zero] at h0
    simp [h0]

end Sys2Proof.Machine
end

