-- ==== Sys2Proof/Laws/Codebook.lean ====
section
/-! SUPPORT. Walks in the tree, the search for a path, and the writing of a code. -/

namespace Sys2Proof.Machine

/-! ### Walks -/

@[simp] theorem State.walk_nil (s : State) (x : Word) : s.walk x [] = some x := rfl

theorem State.walk_cons (s : State) (x : Word) (b : Bool) (p : List Bool) :
    s.walk x (b :: p) =
      if s.nodeInternal x.toNat then s.walk (if b then s.nodeRight x.toNat else s.nodeLeft x.toNat) p else none := rfl

/-- A walk along two pieces. -/
theorem State.walk_append (s : State) (x : Word) (p q : List Bool) :
    s.walk x (p ++ q) = (s.walk x p).bind (fun y => s.walk y q) := by
  induction p generalizing x with
  | nil => rfl
  | cons b p ih =>
    rw [List.cons_append, State.walk_cons, State.walk_cons]
    split
    · exact ih _
    · rfl

/-- A walk of at least one step starts at an internal node. -/
theorem State.internal_of_walk {s : State} {x y : Word} {p : List Bool} (h : s.walk x p = some y) (hp : p ≠ []) :
    s.nodeInternal x.toNat = true := by
  cases p with
  | nil => exact absurd rfl hp
  | cons b p =>
    rw [State.walk_cons] at h
    by_contra hc
    simp [hc] at h

/-- A walk depends on the nodes alone. -/
theorem State.walk_congr {s t : State} (h : ∀ n, t.readNode n = s.readNode n) (x : Word) (p : List Bool) :
    t.walk x p = s.walk x p := by
  induction p generalizing x with
  | nil => rfl
  | cons b p ih =>
    have hi := congrArg Node.internal (h x.toNat)
    have hl := congrArg Node.left (h x.toNat)
    have hr := congrArg Node.right (h x.toNat)
    simp only [State.readNode_internal, State.readNode_left, State.readNode_right] at hi hl hr
    rw [State.walk_cons, State.walk_cons, hi, hl, hr, ih]

/-! ### The search for a path -/

/-- A path that is found leads to its target (R150). -/
theorem State.walk_of_findPath {s : State} {target : Word} {d : Nat} {x : Word} {p : List Bool}
    (h : s.findPath target d x = some p) : s.walk x p = some target ∧ p.length ≤ d := by
  induction d generalizing x p with
  | zero =>
    simp only [State.findPath] at h
    split at h
    · simp_all
    · cases h
  | succ d ih =>
    simp only [State.findPath] at h
    split at h
    · simp_all
    · split at h
      · cases h
      · rename_i hx hi
        have hi : s.nodeInternal x.toNat = true := by simpa using hi
        split at h
        · rename_i q hq
          obtain ⟨h1, h2⟩ := ih hq
          cases h
          exact ⟨by simp [State.walk_cons, hi, h1], by simpa using h2⟩
        · obtain ⟨q, hq, rfl⟩ := Option.map_eq_some_iff.mp h
          obtain ⟨h1, h2⟩ := ih hq
          exact ⟨by simp [State.walk_cons, hi, h1], by simpa using h2⟩

/-- A path that exists within the depth is found, or another one to the same target is. -/
theorem State.findPath_of_walk {s : State} {target : Word} {d : Nat} {x : Word} {p : List Bool}
    (h : s.walk x p = some target) (hd : p.length ≤ d) : (s.findPath target d x).isSome = true := by
  induction d generalizing x p with
  | zero =>
    have : p = [] := List.eq_nil_of_length_eq_zero (by omega)
    subst this
    simp only [State.walk_nil, Option.some.injEq] at h
    simp [State.findPath, h]
  | succ d ih =>
    simp only [State.findPath]
    split
    · rfl
    · rename_i hx
      cases p with
      | nil => exact absurd (Option.some.inj h) hx
      | cons b p =>
        have hi := State.internal_of_walk h (by simp)
        rw [State.walk_cons, if_pos hi] at h
        simp only [List.length_cons] at hd
        simp only [hi, Bool.not_true, Bool.false_eq_true, if_false]
        cases hl : s.findPath target d (s.nodeLeft x.toNat) with
        | some q => rfl
        | none =>
          cases b with
          | false =>
            have := ih (by simpa using h) (by omega : p.length ≤ d)
            simp [hl] at this
          | true =>
            have := ih (by simpa using h) (by omega : p.length ≤ d)
            simpa using this

/-! ### Codes -/

@[simp] theorem State.length_codeBits (s : State) (i : Nat) : (s.codeBits i).length = (s.readElem .cblen i).toNat := by
  simp [State.codeBits]

@[simp] theorem State.writeCode_params (s : State) (i : Nat) (p : List Bool) :
    (s.writeCode i p).params = s.params := by simp [State.writeCode]

/-- The length of a code that was written, and the lengths of the others. -/
theorem State.cblen_writeCode (s : State) (i k : Nat) (p : List Bool) :
    (s.writeCode i p).readElem .cblen k = if k = i then BitVec.ofNat 32 p.length else s.readElem .cblen k := by
  rw [State.writeCode, State.readElem_writeSeq_other _ (by simp)]
  split
  · rename_i h; subst h; simp
  · rename_i h; exact s.readElem_writeElem_other _ (by simpa using h)

/-- Writing a code leaves every memory but `CBLEN` and `CBBIT` alone, and of those every element but its own. -/
theorem State.readElem_writeCode_other (s : State) {i : Nat} {p : List Bool} {sp : Space} {k : Nat}
    (h1 : sp = .cblen → k ≠ i)
    (h2 : sp = .cbbit → k < i * s.params.codeMax ∨ i * s.params.codeMax + p.length ≤ k) :
    (s.writeCode i p).readElem sp k = s.readElem sp k := by
  rw [State.writeCode, State.readElem_writeSeq_other, State.readElem_writeElem_other]
  · exact h1
  · intro hs; simpa using h2 hs

@[simp] theorem State.readNode_writeCode (s : State) (i : Nat) (p : List Bool) (n : Nat) :
    (s.writeCode i p).readNode n = s.readNode n :=
  State.readNode_congr (fun _ _ => s.readElem_writeCode_other (by simp) (by simp))

/-- The code that was written is the code (R50, R151). -/
theorem State.codeBits_writeCode_same (s : State) (i : Nat) {p : List Bool} (h : p.length < 2 ^ 32) :
    (s.writeCode i p).codeBits i = p := by
  apply List.ext_getElem
  · simp only [State.length_codeBits, State.cblen_writeCode, if_true, BitVec.toNat_ofNat]; omega
  · intro k h1 h2
    have hb := (s.writeElem .cblen i (BitVec.ofNat 32 p.length)).readBit_writeSeq_bits .cbbit
      (i * s.params.codeMax) (bits := p) (k := k) rfl h2
    simpa [State.codeBits, State.writeCode] using hb

/-- Writing a code no longer than `CODE_MAX` leaves the other codes alone, if they are no longer than that either. -/
theorem State.codeBits_writeCode_other (s : State) {i k : Nat} {p : List Bool} (hk : k ≠ i)
    (hp : p.length ≤ s.params.codeMax) (hc : (s.readElem .cblen k).toNat ≤ s.params.codeMax) :
    (s.writeCode i p).codeBits k = s.codeBits k := by
  apply List.ext_getElem
  · simp [State.cblen_writeCode, hk]
  · intro j h1 h2
    rw [State.length_codeBits] at h2
    have : (s.writeCode i p).readElem .cbbit (k * s.params.codeMax + j)
        = s.readElem .cbbit (k * s.params.codeMax + j) := by
      apply s.readElem_writeCode_other (by simp)
      intro _
      rcases Nat.lt_or_gt_of_ne hk with h | h
      · left
        have := Nat.mul_le_mul_right s.params.codeMax (show k + 1 ≤ i by omega)
        rw [Nat.add_mul] at this
        omega
      · right
        have := Nat.mul_le_mul_right s.params.codeMax (show i + 1 ≤ k by omega)
        rw [Nat.add_mul] at this
        omega
    simp [State.codeBits, State.readBit, this]

theorem State.writePathCodes_succ (s : State) (n : Nat) :
    s.writePathCodes (n + 1) = (s.writePathCodes n).writeCode n (s.pathBits n) := by
  simp [State.writePathCodes, List.range_succ]

@[simp] theorem State.readNode_writePathCodes (s : State) (n k : Nat) :
    (s.writePathCodes n).readNode k = s.readNode k := by
  induction n with
  | zero => rfl
  | succ n ih => rw [State.writePathCodes_succ, State.readNode_writeCode, ih]

end Sys2Proof.Machine
end

