-- ==== Sys2Proof/Laws/Codec.lean ====
section
/-! SUPPORT. What the scan of `DECODE` does along a walk in the tree. -/

namespace Sys2Proof.Machine

theorem State.emit_ok (s : State) {out : List Word} {x : Word} (h : out.length < s.params.decMax) :
    s.emit out x = .ok (out ++ [x]) := by simp [State.emit, h]

theorem State.emit_full (s : State) {out : List Word} {x : Word} (h : s.params.decMax ≤ out.length) :
    s.emit out x = .error (.capacity .decSymbols) := by simp [State.emit]; omega

/-- At the end of the input the scan succeeds at the root, and fails elsewhere (R165). -/
theorem State.scan_nil (s : State) (k : Nat) (cur : Word) (start : Nat) (out : List Word) :
    s.scan [] k cur start out = if cur = s.root then .ok out else .error (.incompleteCode start) := rfl

/-- One bit with a root that is an internal node (R165). -/
theorem State.scan_cons (s : State) (hr : s.nodeInternal s.root.toNat = true) (b : Bool) (bits : List Bool) (k : Nat)
    (cur : Word) (start : Nat) (out : List Word) (child : Word)
    (hc : child = if b then s.nodeRight cur.toNat else s.nodeLeft cur.toNat) :
    s.scan (b :: bits) k cur start out =
      if s.nodeInternal child.toNat then s.scan bits (k + 1) child start out
      else
        match s.emit out (s.nodeSym child.toNat) with
        | .error e => .error e
        | .ok out' => s.scan bits (k + 1) s.root (k + 1) out' := by
  subst hc
  simp only [State.scan, hr, Bool.not_true, Bool.false_eq_true, if_false]
  cases s.nodeInternal (if b = true then s.nodeRight cur.toNat else s.nodeLeft cur.toNat).toNat <;> rfl

/-- A walk that stays inside the tree only moves the cursor. -/
theorem State.scan_walk (s : State) (hr : s.nodeInternal s.root.toNat = true) {p : List Bool} {cur y : Word}
    (hw : s.walk cur p = some y) (hy : s.nodeInternal y.toNat = true) (bits : List Bool) (k start : Nat)
    (out : List Word) : s.scan (p ++ bits) k cur start out = s.scan bits (k + p.length) y start out := by
  induction p generalizing cur k with
  | nil => cases hw; rfl
  | cons b p ih =>
    have hi := State.internal_of_walk hw (by simp)
    rw [State.walk_cons, if_pos hi] at hw
    have hchild : s.nodeInternal (if b then s.nodeRight cur.toNat else s.nodeLeft cur.toNat).toNat = true := by
      cases p with
      | nil => cases hw; exact hy
      | cons b' p' => exact State.internal_of_walk hw (by simp)
    rw [List.cons_append, s.scan_cons hr _ _ _ _ _ _ _ rfl, if_pos hchild, ih hw]
    congr 1
    simp only [List.length_cons]
    omega

/-- A code word, whose walk from the cursor ends at a leaf, emits the leaf's symbol and goes back to the root. -/
theorem State.scan_word (s : State) (hr : s.nodeInternal s.root.toNat = true) {p : List Bool} {cur x : Word}
    (hw : s.walk cur p = some x) (hp : p ≠ []) (hx : s.nodeInternal x.toNat = false) (bits : List Bool)
    (k start : Nat) (out : List Word) :
    s.scan (p ++ bits) k cur start out =
      match s.emit out (s.nodeSym x.toNat) with
      | .error e => .error e
      | .ok out' => s.scan bits (k + p.length) s.root (k + p.length) out' := by
  induction p generalizing cur k with
  | nil => exact absurd rfl hp
  | cons b p ih =>
    have hi := State.internal_of_walk hw (by simp)
    rw [State.walk_cons, if_pos hi] at hw
    rw [List.cons_append, s.scan_cons hr _ _ _ _ _ _ _ rfl]
    cases p with
    | nil =>
      cases hw
      rw [if_neg (by simp [hx])]
      rfl
    | cons b' p' =>
      rw [if_pos (State.internal_of_walk hw (by simp)), ih hw (by simp)]
      simp only [List.length_cons, show k + 1 + (p'.length + 1) = k + (p'.length + 1 + 1) by omega]

/-- One bit with a one-leaf tree (R166). -/
theorem State.scan_cons_leaf (s : State) (hr : s.nodeInternal s.root.toNat = false) (b : Bool) (bits : List Bool)
    (k : Nat) (cur : Word) (start : Nat) (out : List Word) :
    s.scan (b :: bits) k cur start out =
      if b then .error (.invalidBit k)
      else
        match s.emit out (s.nodeSym s.root.toNat) with
        | .error e => .error e
        | .ok out' => s.scan bits (k + 1) cur start out' := by
  simp only [State.scan, hr, Bool.not_false, if_true]
  all_goals (cases b <;> rfl)

end Sys2Proof.Machine
end

