-- ==== Sys2Proof/Laws/HostPort.lean ====
section
/-! SUPPORT. Everything a host input and a step can do. -/

namespace Sys2Proof.Machine

/-- Everything the issue of a command word can do. -/
theorem issueCommand_cases {w : Word} {s t : State} (h : issueCommand w s = .next t) :
    (∃ i, decode w = .ok i ∧ exec i s = .next t) ∨ ((∃ e, decode w = .error e) ∧ t = s.raise (.badCommand w)) := by
  unfold issueCommand at h
  cases hd : decode w with
  | ok i => rw [hd] at h; exact .inl ⟨i, rfl, h⟩
  | error e => rw [hd] at h; exact .inr ⟨⟨e, rfl⟩, by simpa using h.symm⟩

/-- Everything a host write can do. -/
theorem hostWrite_cases {a d : Word} {s t : State} (h : hostWrite a d s = .next t) :
    t = s.rejectAccess
    ∨ (∃ r, targetOf s.params a = some (.register r) ∧ r.access = .rw ∧ t = s.setOperandReg r d)
    ∨ (∃ r, targetOf s.params a = some (.register r) ∧ r.access = .w1c ∧ t = s.clearSticky d)
    ∨ (∃ r, targetOf s.params a = some (.register r) ∧ r.access = .wo ∧ issueCommand d s = .next t)
    ∨ (∃ sp i, targetOf s.params a = some (.element sp i) ∧ sp.hostWritable = true ∧ t = s.writeElem sp i d) := by
  unfold hostWrite at h
  split at h
  · rename_i r hr
    unfold hostWriteReg at h
    split at h
    · exact .inl (by simpa using h.symm)
    · rename_i ha; exact .inr (.inl ⟨r, hr, ha, by simpa using h.symm⟩)
    · rename_i ha; exact .inr (.inr (.inr (.inl ⟨r, hr, ha, h⟩)))
    · rename_i ha; exact .inr (.inr (.inl ⟨r, hr, ha, by simpa using h.symm⟩))
  · rename_i sp i he
    unfold State.hostWriteElem at h
    split at h
    · rename_i hw; exact .inr (.inr (.inr (.inr ⟨sp, i, he, hw, by simpa using h.symm⟩)))
    · exact .inl (by simpa using h.symm)
  · exact .inl (by simpa using h.symm)

/-- A host read changes nothing, but that a rejected one returns 0 and sets `ACCERR` (R76, R80). -/
theorem State.hostRead_cases (s : State) (a : Word) :
    ((s.hostRead a).2 = s ∧ ∃ x, targetOf s.params a = some x)
      ∨ (s.hostRead a = (0#32, s.rejectAccess) ∧ targetOf s.params a = none) := by
  unfold State.hostRead
  cases h : targetOf s.params a with
  | none => exact .inr ⟨rfl, rfl⟩
  | some x => cases x <;> exact .inl ⟨rfl, _, rfl⟩

/-- Everything a step can do: nothing if no input is pending, else serve the first one. -/
theorem step_cases {s t : State} (h : step s = .next t) :
    (s.inbox = [] ∧ t = s) ∨ ∃ x rest, s.inbox = x :: rest ∧ serveInput x { s with inbox := rest } = .next t := by
  unfold step serveNext at h
  cases hi : s.inbox with
  | nil => rw [hi] at h; exact .inl ⟨rfl, by simpa using h.symm⟩
  | cons x rest => rw [hi] at h; exact .inr ⟨x, rest, rfl, h⟩

theorem step_of_inbox {s : State} {x : HostInput} {rest : List HostInput} (h : s.inbox = x :: rest) :
    step s = serveInput x { s with inbox := rest } := by
  unfold step serveNext
  rw [h]

/-- Every host input is served: no input stops the machine. -/
theorem serveInput_next (x : HostInput) (s : State) : ∃ t, serveInput x s = .next t := by
  cases x with
  | read a => exact ⟨_, rfl⟩
  | reset => exact ⟨_, rfl⟩
  | write a d =>
    show ∃ t, hostWrite a d s = .next t
    unfold hostWrite
    split
    · unfold hostWriteReg
      split
      · exact ⟨_, rfl⟩
      · exact ⟨_, rfl⟩
      · unfold issueCommand
        split
        · exact exec_next _ _
        · exact ⟨_, rfl⟩
      · exact ⟨_, rfl⟩
    · exact ⟨_, rfl⟩
    · exact ⟨_, rfl⟩

/-- Every step answers a next state. -/
theorem step_next (s : State) : ∃ t, step s = .next t := by
  cases h : s.inbox with
  | nil => exact ⟨s, by unfold step serveNext; rw [h]⟩
  | cons x rest => rw [step_of_inbox h]; exact serveInput_next _ _

/-- The targets of an address are existing ones. -/
theorem elemExists_of_targetOf {p : Params} {a : Word} {sp : Space} {i : Nat}
    (h : targetOf p a = some (.element sp i)) : elemExists p sp i = true := by
  unfold targetOf at h
  split at h
  · cases hr : Reg.ofNumber? (addressIndex a) <;> simp [hr] at h
  · split at h
    · cases h
    · split at h
      · rename_i he
        simp only [Option.some.injEq, Target.element.injEq] at h
        obtain ⟨rfl, rfl⟩ := h
        exact he
      · cases h

@[simp] theorem Reg.ofNumber?_number (r : Reg) : Reg.ofNumber? r.number = some r := by cases r <;> rfl

@[simp] theorem Space.ofNumber?_number (sp : Space) : Space.ofNumber? sp.number = some sp := by cases sp <;> rfl

theorem Reg.number_of_ofNumber? {n : Nat} {r : Reg} (h : Reg.ofNumber? n = some r) : r.number = n := by
  simpa using List.find?_some h

theorem Space.number_of_ofNumber? {n : Nat} {sp : Space} (h : Space.ofNumber? n = some sp) : sp.number = n := by
  simpa using List.find?_some h

/-- The address of an existing element names it (R71, R73). Stated over `a.toNat`, so that no proof evaluates a sum of a
large literal and a variable. -/
theorem targetOf_of_toNat_element {p : Params} {sp : Space} {i : Nat} {a : Word} (hi : i < 2 ^ 28)
    (he : elemExists p sp i = true) (ha : a.toNat = sp.number * 2 ^ 28 + i) :
    targetOf p a = some (.element sp i) := by
  have hn : 1 ≤ sp.number := by cases sp <;> simp [Space.number]
  unfold targetOf addressSpace addressIndex
  rw [ha, show (sp.number * 2 ^ 28 + i) / 2 ^ 28 = sp.number by omega,
    show (sp.number * 2 ^ 28 + i) % 2 ^ 28 = i by omega, if_neg (by omega), Space.ofNumber?_number]
  simp only [he, if_true]

/-- The address that is the number of a register names it (R73). -/
theorem targetOf_of_toNat_register {p : Params} {r : Reg} {a : Word} (ha : a.toNat = r.number) :
    targetOf p a = some (.register r) := by
  have hn : r.number < 64 := by cases r <;> simp [Reg.number]
  unfold targetOf addressSpace addressIndex
  rw [ha, if_pos (by omega), show r.number % 2 ^ 28 = r.number by omega, Reg.ofNumber?_number]
  rfl

end Sys2Proof.Machine
end

