-- ==== Sys2Proof/Laws/Huffman.lean ====
section
/-! SUPPORT. The combinatorics behind 40_tree_builder.md R135: Kraft's inequality for prefix codes, and that joining two
least frequencies in each round gives the least encoded length, however ties are broken. Nothing here is about states. -/

namespace Sys2Proof.Machine

/-! ### Kraft's inequality -/

/-- The words that begin with a bit, without it. -/
def wordsAfter (b : Bool) (words : List (List Bool)) : List (List Bool) :=
  words.filterMap (fun w => match w with
    | [] => none
    | x :: rest => if x = b then some rest else none)

/-- Neither word is a prefix of the other. -/
def Incomparable (v w : List Bool) : Prop := ¬ v <+: w ∧ ¬ w <+: v

theorem mem_wordsAfter {b : Bool} {words : List (List Bool)} {w : List Bool} :
    w ∈ wordsAfter b words ↔ b :: w ∈ words := by
  unfold wordsAfter
  rw [List.mem_filterMap]
  constructor
  · rintro ⟨v, hv, h⟩
    cases v with
    | nil => cases h
    | cons x rest =>
      simp only at h
      split at h
      · rename_i hx; cases h; exact hx ▸ hv
      · cases h
  · intro h; exact ⟨b :: w, h, by simp⟩

theorem incomparable_wordsAfter {b : Bool} {words : List (List Bool)} (h : words.Pairwise Incomparable) :
    (wordsAfter b words).Pairwise Incomparable := by
  unfold wordsAfter
  rw [List.pairwise_filterMap]
  refine h.imp ?_
  intro v w hvw v' hv' w' hw'
  cases v with
  | nil => cases hv'
  | cons x v =>
    cases w with
    | nil => cases hw'
    | cons y w =>
      simp only at hv' hw'
      split at hv' <;> split at hw' <;> simp_all [Incomparable, List.cons_prefix_cons]

/-- Words of at least one bit split by their first bit. -/
theorem sum_wordsAfter (M : Nat) (words : List (List Bool)) (h : ∀ w ∈ words, w ≠ []) :
    (words.map (fun w => 2 ^ (M + 1 - w.length))).sum
      = ((wordsAfter false words).map (fun w => 2 ^ (M - w.length))).sum
        + ((wordsAfter true words).map (fun w => 2 ^ (M - w.length))).sum := by
  induction words with
  | nil => rfl
  | cons w words ih =>
    have ih := ih (fun v hv => h v (List.mem_cons_of_mem _ hv))
    cases w with
    | nil => exact absurd rfl (h [] (by simp))
    | cons x w =>
      cases x <;> simp_all [wordsAfter] <;> omega

/-- Kraft's inequality: the words of a prefix code are short only at the cost of being few. -/
theorem kraft_le {M : Nat} {words : List (List Bool)} (hp : words.Pairwise Incomparable)
    (hl : ∀ w ∈ words, w.length ≤ M) : (words.map (fun w => 2 ^ (M - w.length))).sum ≤ 2 ^ M := by
  induction M generalizing words with
  | zero =>
    match words, hp with
    | [], _ => simp
    | [w], _ => simp
    | v :: w :: rest, hp =>
      have hv : v = [] := List.eq_nil_of_length_eq_zero (by simpa using hl v (by simp))
      rw [List.pairwise_cons] at hp
      exact absurd (hv ▸ List.nil_prefix) (hp.1 w (by simp)).1
  | succ M ih =>
    by_cases hn : [] ∈ words
    · obtain ⟨l, r, rfl⟩ := List.append_of_mem hn
      rw [List.pairwise_append, List.pairwise_cons] at hp
      have hr : r = [] := by
        cases r with
        | nil => rfl
        | cons w r => exact absurd List.nil_prefix (hp.2.1.1 w (by simp)).1
      have hl' : l = [] := by
        cases l with
        | nil => rfl
        | cons w l => exact absurd List.nil_prefix (hp.2.2 w (by simp) [] (by simp)).2
      simp [hr, hl']
    · rw [sum_wordsAfter M words (fun w hw hc => hn (hc ▸ hw)), pow_succ]
      have hb : ∀ b, ((wordsAfter b words).map (fun w => 2 ^ (M - w.length))).sum ≤ 2 ^ M := fun b =>
        ih (incomparable_wordsAfter hp) (fun w hw => by
          have := hl _ (mem_wordsAfter.mp hw)
          simpa using this)
      have h0 := hb false
      have h1 := hb true
      omega

/-! ### Frequencies with lengths

A pair holds a frequency and a code length. -/

/-- The encoded length of frequencies with code lengths. -/
def pairCost (ps : List (Nat × Nat)) : Nat := (ps.map (fun p => p.1 * p.2)).sum

/-- The lengths satisfy Kraft's inequality. -/
def KraftOk (M : Nat) (lengths : List Nat) : Prop :=
  (∀ l ∈ lengths, l ≤ M) ∧ (lengths.map (fun l => 2 ^ (M - l))).sum ≤ 2 ^ M

theorem KraftOk.perm {M : Nat} {ls ls' : List Nat} (h : KraftOk M ls) (hp : ls'.Perm ls) : KraftOk M ls' :=
  ⟨fun l hl => h.1 l (hp.mem_iff.mp hl), by rw [(hp.map _).sum_eq]; exact h.2⟩

theorem pairCost_perm {ps ps' : List (Nat × Nat)} (h : ps.Perm ps') : pairCost ps = pairCost ps' :=
  (h.map _).sum_eq

@[simp] theorem pairCost_cons (p : Nat × Nat) (ps : List (Nat × Nat)) : pairCost (p :: ps) = p.1 * p.2 + pairCost ps := by
  simp [pairCost]

/-- The least frequency can be given the greatest length, at no cost. -/
theorem exists_greatest_length (f : Nat) (l : Nat) : ∀ ps : List (Nat × Nat), (∀ p ∈ ps, f ≤ p.1) →
    ∃ l' ps', ps'.map Prod.fst = ps.map Prod.fst ∧ (∀ p ∈ ps', p.2 ≤ l')
      ∧ (l' :: ps'.map Prod.snd).Perm (l :: ps.map Prod.snd) ∧ f * l' + pairCost ps' ≤ f * l + pairCost ps
  | [], _ => ⟨l, [], rfl, by simp, by simp, le_refl _⟩
  | (w, k) :: ps, h => by
    obtain ⟨l1, ps1, h1, h2, h3, h4⟩ := exists_greatest_length f l ps (fun p hp => h p (List.mem_cons_of_mem _ hp))
    have hw : f ≤ w := h (w, k) (by simp)
    by_cases hk : k ≤ l1
    · refine ⟨l1, (w, k) :: ps1, by simp [h1], ?_, ?_, by simp; omega⟩
      · intro p hp
        rcases List.mem_cons.mp hp with rfl | hp
        · exact hk
        · exact h2 p hp
      · simp only [List.map_cons]
        exact (List.Perm.swap _ _ _).trans ((h3.cons k).trans (List.Perm.swap _ _ _))
    · refine ⟨k, (w, l1) :: ps1, by simp [h1], ?_, ?_, ?_⟩
      · intro p hp
        rcases List.mem_cons.mp hp with rfl | hp
        · simp only; omega
        · have := h2 p hp; omega
      · simp only [List.map_cons]
        exact (h3.cons k).trans (List.Perm.swap _ _ _)
      · obtain ⟨d, rfl⟩ := Nat.exists_eq_add_of_le hw
        obtain ⟨e, rfl⟩ := Nat.exists_eq_add_of_le (show l1 ≤ k by omega)
        simp only [pairCost_cons]
        have : f * (l1 + e) + (f + d) * l1 ≤ f * l1 + (f + d) * (l1 + e) := by ring_nf; nlinarith [Nat.zero_le (d * e)]
        omega

/-- A power of two that divides every term and the bound leaves room for one more term of its size. -/
theorem kraft_room {M l : Nat} {ls : List Nat} (hl : l ≤ M) (hls : ∀ k ∈ ls, k ≤ l)
    (h : (ls.map (fun k => 2 ^ (M - k))).sum < 2 ^ M) :
    2 ^ (M - l) + (ls.map (fun k => 2 ^ (M - k))).sum ≤ 2 ^ M := by
  have hd : 2 ^ (M - l) ∣ (ls.map (fun k => 2 ^ (M - k))).sum := by
    apply List.dvd_sum
    intro x hx
    obtain ⟨k, hk, rfl⟩ := List.mem_map.mp hx
    exact pow_dvd_pow 2 (by have := hls k hk; omega)
  have hM : 2 ^ (M - l) ∣ 2 ^ M := pow_dvd_pow 2 (by omega)
  obtain ⟨u, hu⟩ := hd
  obtain ⟨v, hv⟩ := hM
  have hpos : 0 < 2 ^ (M - l) := by positivity
  rw [hu] at h ⊢
  generalize 2 ^ (M - l) = q at *
  rw [hv] at h ⊢
  have : u < v := Nat.lt_of_mul_lt_mul_left h
  calc q + q * u = q * (u + 1) := by ring
    _ ≤ q * v := Nat.mul_le_mul_left q this

/-- Two least frequencies can be joined: any lengths give lengths with the two joined that save their sum. -/
theorem exists_joined {f g l k M : Nat} {ps : List (Nat × Nat)} (hfg : f ≤ g) (hg : ∀ p ∈ ps, g ≤ p.1)
    (hk : KraftOk M (l :: k :: ps.map Prod.snd)) :
    ∃ m ps', ps'.map Prod.fst = ps.map Prod.fst ∧ KraftOk M (m :: ps'.map Prod.snd)
      ∧ (f + g) * m + pairCost ps' + (f + g) ≤ f * l + (g * k + pairCost ps) := by
  obtain ⟨l1, ps1, h1, h2, h3, h4⟩ := exists_greatest_length f l ((g, k) :: ps) (by
    intro p hp
    rcases List.mem_cons.mp hp with rfl | hp
    · exact hfg
    · exact hfg.trans (hg p hp))
  obtain _ | ⟨⟨g', k1⟩, ps2⟩ := ps1
  · simp at h1
  simp only [List.map_cons, List.cons.injEq] at h1
  obtain ⟨rfl, h1⟩ := h1
  obtain ⟨k3, ps3, e1, e2, e3, e4⟩ := exists_greatest_length g' k1 ps2 (by
    intro p hp
    have : p.1 ∈ ps2.map Prod.fst := List.mem_map_of_mem hp
    rw [h1] at this
    obtain ⟨q, hq, hqp⟩ := List.mem_map.mp this
    exact hqp ▸ hg q hq)
  have hperm : (l1 :: k3 :: ps3.map Prod.snd).Perm (l :: k :: ps.map Prod.snd) := (e3.cons l1).trans h3
  have hK := hk.perm hperm
  have hk3 : k3 ≤ l1 := by
    have : k3 ∈ k1 :: ps2.map Prod.snd := e3.mem_iff.mp (by simp)
    rcases List.mem_cons.mp this with rfl | hm
    · exact h2 (g', k3) (by simp)
    · obtain ⟨p, hp, rfl⟩ := List.mem_map.mp hm
      exact h2 p (List.mem_cons_of_mem _ hp)
  have hkM : k3 ≤ M := hK.1 k3 (by simp)
  have hsum := hK.2
  simp only [List.map_cons, List.sum_cons] at hsum
  have hl1 : 0 < 2 ^ (M - l1) := by positivity
  have hroom : 2 ^ (M - k3) + (2 ^ (M - k3) + ((ps3.map Prod.snd).map (fun x => 2 ^ (M - x))).sum) ≤ 2 ^ M := by
    have := kraft_room (M := M) (l := k3) (ls := k3 :: ps3.map Prod.snd) hkM (by
      intro x hx
      rcases List.mem_cons.mp hx with rfl | hx
      · exact le_refl _
      · obtain ⟨p, hp, rfl⟩ := List.mem_map.mp hx; exact e2 p hp)
      (by simp only [List.map_cons, List.sum_cons]; omega)
    simpa using this
  have hpos : 1 ≤ k3 := by
    by_contra hc
    have h0 : k3 = 0 := by omega
    subst h0
    have : 0 < 2 ^ M := by positivity
    simp only [Nat.sub_zero] at hroom
    omega
  refine ⟨k3 - 1, ps3, e1.trans h1, ⟨?_, ?_⟩, ?_⟩
  · intro x hx
    rcases List.mem_cons.mp hx with rfl | hx
    · omega
    · exact hK.1 x (by simp [hx])
  · simp only [List.map_cons, List.sum_cons]
    have : 2 ^ (M - (k3 - 1)) = 2 ^ (M - k3) + 2 ^ (M - k3) := by
      rw [show M - (k3 - 1) = M - k3 + 1 by omega, pow_succ]; omega
    omega
  · simp only [pairCost_cons] at h4
    have hle : f * k3 ≤ f * l1 := Nat.mul_le_mul_left f hk3
    have hjoin : (f + g') * (k3 - 1) + (f + g') = f * k3 + g' * k3 := by
      obtain ⟨m, rfl⟩ := Nat.exists_eq_add_of_le hpos
      rw [show 1 + m - 1 = m by omega]; ring
    omega

/-- A pair with a given frequency can be brought to the front. -/
theorem exists_pair {ps : List (Nat × Nat)} {f : Nat} {rest : List Nat} (h : (ps.map Prod.fst).Perm (f :: rest)) :
    ∃ l ps', ps.Perm ((f, l) :: ps') ∧ (ps'.map Prod.fst).Perm rest := by
  have hm : f ∈ ps.map Prod.fst := h.mem_iff.mpr (by simp)
  obtain ⟨⟨f', l⟩, hp, rfl⟩ := List.mem_map.mp hm
  have hperm := List.perm_cons_erase hp
  exact ⟨l, ps.erase (f', l), hperm, ((hperm.map Prod.fst).symm.trans h).cons_inv⟩

/-- Joining two least frequencies in each round is never longer than lengths that satisfy Kraft's inequality. -/
theorem AnyTieBreak.le_pairCost {freqs : List Nat} {c : Nat} (h : AnyTieBreak freqs c) {M : Nat}
    {ps : List (Nat × Nat)} (hp : (ps.map Prod.fst).Perm freqs) (hk : KraftOk M (ps.map Prod.snd)) :
    c ≤ pairCost ps := by
  induction h generalizing M ps with
  | done f => exact Nat.zero_le _
  | @join freqs rest f g c taken first least built ih =>
    obtain ⟨l, ps1, h1, h2⟩ := exists_pair (hp.trans taken)
    obtain ⟨k, ps2, h3, h4⟩ := exists_pair h2
    have hperm : ps.Perm ((f, l) :: (g, k) :: ps2) := h1.trans (h3.cons _)
    obtain ⟨m, ps3, e1, e2, e3⟩ := exists_joined (f := f) (g := g) (l := l) (k := k) (M := M) (ps := ps2) first
      (fun p hp2 => least p.1 (h4.mem_iff.mp (List.mem_map_of_mem hp2)))
      (hk.perm (by simpa using (hperm.map Prod.snd).symm))
    have := ih (ps := (f + g, m) :: ps3) (M := M) (by simpa [e1] using h4) (by simpa using e2)
    rw [pairCost_perm hperm]
    simp only [pairCost_cons] at this ⊢
    omega

/-- … and is reached by such lengths. -/
theorem AnyTieBreak.exists_pairs {freqs : List Nat} {c : Nat} (h : AnyTieBreak freqs c) :
    ∃ M ps, (List.map Prod.fst ps).Perm freqs ∧ KraftOk M (ps.map Prod.snd) ∧ pairCost ps = c := by
  induction h with
  | done f => exact ⟨0, [(f, 0)], by simp, ⟨by simp, by simp⟩, by simp [pairCost]⟩
  | @join freqs rest f g c taken first least built ih =>
    obtain ⟨M, ps, h1, h2, h3⟩ := ih
    obtain ⟨l, ps', e1, e2⟩ := exists_pair h1
    have hK := h2.perm (by simpa using (e1.map Prod.snd).symm : (l :: ps'.map Prod.snd).Perm (ps.map Prod.snd))
    refine ⟨M + 1, (f, l + 1) :: (g, l + 1) :: ps', ?_, ⟨?_, ?_⟩, ?_⟩
    · exact (by simpa using e2 : ((f :: g :: ps'.map Prod.fst).Perm (f :: g :: rest))).trans taken.symm
    · intro x hx
      simp only [List.map_cons, List.mem_cons] at hx
      rcases hx with rfl | rfl | hx
      · have := hK.1 l (by simp); omega
      · have := hK.1 l (by simp); omega
      · have := hK.1 x (by simp only [List.mem_cons]; exact .inr hx); omega
    · have hdouble : ∀ ls : List Nat, (∀ x ∈ ls, x ≤ M) →
          (ls.map (fun x => 2 ^ (M + 1 - x))).sum = 2 * (ls.map (fun x => 2 ^ (M - x))).sum := by
        intro ls hls
        induction ls with
        | nil => rfl
        | cons x ls ihl =>
          have hx : x ≤ M := hls x (by simp)
          have := ihl (fun y hy => hls y (List.mem_cons_of_mem _ hy))
          simp only [List.map_cons, List.sum_cons, this]
          rw [show M + 1 - x = M - x + 1 by omega, pow_succ]; omega
      have hs := hK.2
      simp only [List.map_cons, List.sum_cons] at hs ⊢
      rw [hdouble _ (fun x hx => hK.1 x (by simp only [List.mem_cons]; exact .inr hx)),
        show M + 1 - (l + 1) = M - l by omega, pow_succ]
      omega
    · rw [← h3, pairCost_perm e1]
      simp only [pairCost_cons]
      ring

/-- The encoded length does not depend on how ties are broken. -/
theorem AnyTieBreak.unique {freqs : List Nat} {c c' : Nat} (h : AnyTieBreak freqs c) (h' : AnyTieBreak freqs c') :
    c = c' := by
  obtain ⟨M, ps, h1, h2, h3⟩ := h.exists_pairs
  obtain ⟨M', ps', e1, e2, e3⟩ := h'.exists_pairs
  have := h.le_pairCost e1 e2
  have := h'.le_pairCost h1 h2
  omega

/-- No prefix code has a smaller encoded length (R135). -/
theorem AnyTieBreak.le_prefixCode {n c : Nat} {count : Nat → Nat} (h : AnyTieBreak ((List.range n).map count) c)
    (code : Nat → List Bool) (hp : ∀ i j, i < n → j < n → i ≠ j → ¬ code i <+: code j) :
    c ≤ ((List.range n).map (fun i => count i * (code i).length)).sum := by
  have hl : ∃ M, ∀ i, i < n → (code i).length ≤ M :=
    ⟨((List.range n).map (fun i => (code i).length)).sum, fun i hi =>
      List.le_sum_of_mem (List.mem_map_of_mem (List.mem_range.mpr hi))⟩
  obtain ⟨M, hM⟩ := hl
  have hk := kraft_le (M := M) (words := (List.range n).map code) (by
      rw [List.pairwise_map]
      refine List.Pairwise.imp_of_mem ?_ List.nodup_range
      intro i j hi hj hij
      rw [List.mem_range] at hi hj
      exact ⟨hp i j hi hj hij, hp j i hj hi (Ne.symm hij)⟩)
    (by
      intro w hw
      obtain ⟨i, hi, rfl⟩ := List.mem_map.mp hw
      exact hM i (List.mem_range.mp hi))
  have := h.le_pairCost (M := M) (ps := (List.range n).map (fun i => (count i, (code i).length)))
    (by simp [Function.comp_def]) ⟨by
      intro l hl
      simp only [List.map_map, List.mem_map, List.mem_range, Function.comp] at hl
      obtain ⟨i, hi, rfl⟩ := hl
      exact hM i hi, by simpa [Function.comp_def] using hk⟩
  simpa [pairCost, Function.comp_def] using this

end Sys2Proof.Machine
end

