-- ==== Sys2Proof/Laws/PerInstr.lean ====
section
/-! SUPPORT. What holds of every command as syntax: one lemma per constructor of `Instr`. -/

namespace Sys2Proof.Laws

/-- The word of a command has well-formed fields (30_encoding.md R101, R102) and its opcode selects the command
(R104). -/
def EncodesLegally.Statement (i : Instr) : Prop :=
  (fieldsOf (encode i)).wellFormed = true ∧ commandOf (opcodeOf i) (flagOf i) = some i

theorem EncodesLegally.nop : EncodesLegally.Statement .nop := ⟨by decide, by decide⟩
theorem EncodesLegally.clear : EncodesLegally.Statement .clear := ⟨by decide, by decide⟩
theorem EncodesLegally.freq : EncodesLegally.Statement .freq := ⟨by decide, by decide⟩
theorem EncodesLegally.pqinit : EncodesLegally.Statement .pqinit := ⟨by decide, by decide⟩
theorem EncodesLegally.merge : EncodesLegally.Statement .merge := ⟨by decide, by decide⟩
theorem EncodesLegally.build : EncodesLegally.Statement .build := ⟨by decide, by decide⟩
theorem EncodesLegally.gencodes : EncodesLegally.Statement .gencodes := ⟨by decide, by decide⟩
theorem EncodesLegally.encode : EncodesLegally.Statement .encode := ⟨by decide, by decide⟩
theorem EncodesLegally.decode (src : Bool) : EncodesLegally.Statement (.decode src) := by
  cases src <;> exact ⟨by decide, by decide⟩
theorem EncodesLegally.permute : EncodesLegally.Statement .permute := ⟨by decide, by decide⟩
theorem EncodesLegally.invert (trim : Bool) : EncodesLegally.Statement (.invert trim) := by
  cases trim <;> exact ⟨by decide, by decide⟩

end Sys2Proof.Laws
end

