-- ==== Sys2Proof/Laws/Transposer.lean ====
section
/-! SUPPORT. The lengths and the bits of the transposer's two outputs. -/

namespace Sys2Proof.Machine

/-- `ceil(len/cols)` rows hold `len` bits (R181). -/
theorem le_ceilDiv_mul {len cols : Nat} (h : 1 ≤ cols) : len ≤ ceilDiv len cols * cols := by
  unfold ceilDiv
  have h1 := Nat.div_add_mod (len + cols - 1) cols
  have h2 := Nat.mod_lt (len + cols - 1) (show 0 < cols by omega)
  rw [Nat.mul_comm] at h1
  omega

/-- One row fewer would not: fewer than `cols` cells are filler (R182). -/
theorem ceilDiv_mul_lt {len cols : Nat} (h : 1 ≤ cols) : ceilDiv len cols * cols < len + cols := by
  unfold ceilDiv
  have h1 := Nat.div_mul_le_self (len + cols - 1) cols
  omega

@[simp] theorem State.length_permutedBits (s : State) (rows cols : Nat) :
    (s.permutedBits rows cols).length = rows * cols := by simp [State.permutedBits]

@[simp] theorem State.length_invertedBits (s : State) (rows cols : Nat) :
    (s.invertedBits rows cols).length = rows * cols := by simp [State.invertedBits]

theorem State.getElem_permutedBits (s : State) (rows cols q : Nat) (h : q < (s.permutedBits rows cols).length) :
    (s.permutedBits rows cols)[q] = s.paddedBit (toRowMajor rows cols q) := by simp [State.permutedBits]

theorem State.getElem_invertedBits (s : State) (rows cols p : Nat) (h : p < (s.invertedBits rows cols).length) :
    (s.invertedBits rows cols)[p] = s.readBit .perm (toColumnMajor rows cols p) := by simp [State.invertedBits]

/-- The row-major position of cell (r, c), found from its column-major position (R180). -/
theorem toRowMajor_cell {rows cols r c : Nat} (hr : r < rows) : toRowMajor rows cols (c * rows + r) = r * cols + c := by
  unfold toRowMajor
  rw [Nat.mul_comm c rows, Nat.mul_add_mod, Nat.mod_eq_of_lt hr, Nat.mul_add_div (by omega), Nat.div_eq_of_lt hr]
  omega

/-- The column-major position of cell (r, c), found from its row-major position (R180). -/
theorem toColumnMajor_cell {rows cols r c : Nat} (hc : c < cols) :
    toColumnMajor rows cols (r * cols + c) = c * rows + r := toRowMajor_cell hc

end Sys2Proof.Machine
end

