-- ==== Sys2Proof/Laws/TreeBuilder.lean ====
section
/-! SUPPORT. What the parts of the tree builder do: the list of distinct symbols, writing the leaves, loading the
queue. -/

namespace Sys2Proof.Machine

/-! ### Distinct symbols -/

theorem mem_insertSymbol {x y : Word} {l : List Word} : y ∈ insertSymbol x l ↔ y = x ∨ y ∈ l := by
  induction l with
  | nil => simp [insertSymbol]
  | cons z l ih =>
    simp only [insertSymbol]
    split
    · simp
    · split
      · rename_i h; subst h; simp
      · simp only [List.mem_cons, ih]; tauto

theorem sorted_insertSymbol {x : Word} {l : List Word} (h : l.Pairwise (· < ·)) :
    (insertSymbol x l).Pairwise (· < ·) := by
  induction l with
  | nil => simp [insertSymbol]
  | cons z l ih =>
    rw [List.pairwise_cons] at h
    simp only [insertSymbol]
    split
    · rename_i hx
      refine List.pairwise_cons.mpr ⟨fun y hy => ?_, List.pairwise_cons.mpr h⟩
      rcases List.mem_cons.mp hy with rfl | hy
      · exact hx
      · exact BitVec.lt_trans hx (h.1 y hy)
    · split
      · exact List.pairwise_cons.mpr h
      · rename_i h1 h2
        refine List.pairwise_cons.mpr ⟨fun y hy => ?_, ih h.2⟩
        rcases mem_insertSymbol.mp hy with rfl | hy
        · rw [BitVec.lt_def] at h1 ⊢
          have : y.toNat ≠ z.toNat := fun hc => h2 (BitVec.eq_of_toNat_eq hc)
          omega
        · exact h.1 y hy

/-- The distinct symbols are those of the text. -/
@[simp] theorem mem_distinctSymbols {x : Word} {text : List Word} : x ∈ distinctSymbols text ↔ x ∈ text := by
  induction text with
  | nil => simp [distinctSymbols]
  | cons y text ih =>
    have : distinctSymbols (y :: text) = insertSymbol y (distinctSymbols text) := rfl
    rw [this, mem_insertSymbol, ih, List.mem_cons]

/-- The distinct symbols are in strictly ascending order. -/
theorem sorted_distinctSymbols (text : List Word) : (distinctSymbols text).Pairwise (· < ·) := by
  induction text with
  | nil => exact List.Pairwise.nil
  | cons y text ih => exact sorted_insertSymbol ih

theorem nodup_distinctSymbols (text : List Word) : (distinctSymbols text).Nodup :=
  (sorted_distinctSymbols text).imp (fun h hc => absurd (hc ▸ h) (BitVec.lt_irrefl _))

theorem perm_distinctSymbols (text : List Word) : (distinctSymbols text).Perm text.dedup :=
  (List.perm_ext_iff_of_nodup (nodup_distinctSymbols text) (List.nodup_dedup text)).mpr (by simp)

/-- There are as many as the text has distinct symbols. -/
theorem length_distinctSymbols (text : List Word) : (distinctSymbols text).length = text.dedup.length :=
  (perm_distinctSymbols text).length_eq

/-! ### Writing the leaves -/

theorem State.writeLeaves_succ (s : State) (n : Nat) :
    s.writeLeaves (n + 1) = (s.writeLeaves n).writeNode n
      (leafNode ((s.writeLeaves n).readElem .ftsym n) ((s.writeLeaves n).readElem .ftcnt n)) := by
  simp [State.writeLeaves, List.range_succ]

theorem State.writeElem_eq_setMemory (s : State) (sp : Space) (i : Nat) (v : Word) :
    ∃ m, s.writeElem sp i v = s.setMemory sp m := ⟨_, rfl⟩

theorem State.setMemory_setMemory (s : State) (sp : Space) (m m' : Memory) :
    (s.setMemory sp m).setMemory sp m' = s.setMemory sp m' := by cases sp <;> rfl

theorem State.setMemory_memory (s : State) (sp : Space) : s.setMemory sp (s.memory sp) = s := by cases sp <;> rfl

/-- Writing a sequence changes one memory and nothing else. -/
theorem State.writeSeq_eq_setMemory (s : State) (sp : Space) (b : Nat) (vs : List Word) :
    ∃ m, s.writeSeq sp b vs = s.setMemory sp m := by
  induction vs generalizing b with
  | nil => exact ⟨_, (s.setMemory_memory sp).symm⟩
  | cons v vs ih =>
    obtain ⟨m, hm⟩ := ih (b + 1)
    rw [State.writeSeq_cons, hm]
    exact ⟨_, by rw [State.writeElem, State.setMemory_setMemory]⟩

/-- Writing the leaves changes `NODE` and nothing else. -/
theorem State.writeLeaves_eq_setMemory (s : State) (n : Nat) : ∃ m, s.writeLeaves n = s.setMemory .node m := by
  induction n with
  | zero => exact ⟨_, (s.setMemory_memory .node).symm⟩
  | succ n ih =>
    obtain ⟨m, hm⟩ := ih
    rw [State.writeLeaves_succ, hm]
    obtain ⟨m', hm'⟩ := (s.setMemory .node m).writeSeq_eq_setMemory .node (8 * n)
      [0#32, (s.setMemory .node m).readElem .ftsym n, (s.setMemory .node m).readElem .ftcnt n, nullIndex, nullIndex]
    exact ⟨m', by rw [← State.setMemory_setMemory s .node m m', ← hm']; rfl⟩

/-- Writing the leaves leaves every element alone but those of the nodes below `n`. -/
theorem State.readElem_writeLeaves_other (s : State) {n : Nat} {sp : Space} {i : Nat}
    (h : sp = .node → 8 * n ≤ i ∨ 5 ≤ i % 8) : (s.writeLeaves n).readElem sp i = s.readElem sp i := by
  induction n with
  | zero => rfl
  | succ n ih =>
    rw [State.writeLeaves_succ, State.readElem_writeNode_other, ih]
    · intro hs; have := h hs; omega
    · intro hs; have := h hs; omega

@[simp] theorem State.writeLeaves_params (s : State) (n : Nat) : (s.writeLeaves n).params = s.params := by
  obtain ⟨m, hm⟩ := s.writeLeaves_eq_setMemory n
  simp [hm]

/-- The leaves after they are written (R127). -/
theorem State.readNode_writeLeaves (s : State) {n i : Nat} (h : i < n) :
    (s.writeLeaves n).readNode i = leafNode (s.readElem .ftsym i) (s.readElem .ftcnt i) := by
  induction n with
  | zero => omega
  | succ n ih =>
    rw [State.writeLeaves_succ]
    have hsym := s.readElem_writeLeaves_other (n := n) (sp := .ftsym) (i := n) (by simp)
    have hcnt := s.readElem_writeLeaves_other (n := n) (sp := .ftcnt) (i := n) (by simp)
    by_cases hi : i = n
    · subst hi
      rw [State.readNode_writeNode_same, hsym, hcnt]
      simpa [leafNode, hsym] using s.truncTo_readElem .ftsym i
    · rw [State.readNode_writeNode_other _ hi, ih (by omega)]

/-! ### Loading the queue -/

theorem State.insertLeaves_succ (s : State) (n : Nat) :
    s.insertLeaves (n + 1) = (s.insertLeaves n).pqInsert (BitVec.ofNat 32 n) := by
  simp [State.insertLeaves, List.range_succ]

@[simp] theorem State.readNode_insertLeaves (s : State) (n k : Nat) :
    (s.insertLeaves n).readNode k = s.readNode k := by
  induction n with
  | zero => rfl
  | succ n ih => rw [State.insertLeaves_succ, State.readNode_pqInsert, ih]

@[simp] theorem State.keyBefore_insertLeaves (s : State) (n : Nat) (i j : Word) :
    (s.insertLeaves n).keyBefore i j = s.keyBefore i j :=
  State.keyBefore_congr (congrArg Node.freq (s.readNode_insertLeaves n i.toNat))
    (congrArg Node.freq (s.readNode_insertLeaves n j.toNat))

/-- Loading `n` leaves into the empty queue: the queue holds each of them once, in key order (R127). -/
theorem State.queue_insertLeaves (s : State) (hq : s.pqn = 0#32) {n : Nat} (hn : n < 2 ^ 32) :
    (s.insertLeaves n).queue.Perm ((List.range n).map (BitVec.ofNat 32))
      ∧ (s.insertLeaves n).queue.Pairwise (fun i j => s.keyBefore i j = true)
      ∧ (s.insertLeaves n).pqn.toNat = n := by
  induction n with
  | zero =>
    have : (s.insertLeaves 0).queue = [] := by simp [State.insertLeaves, State.queue, hq, State.readSeq]
    rw [this]
    exact ⟨by simp, List.Pairwise.nil, by simp [State.insertLeaves, hq]⟩
  | succ n ih =>
    obtain ⟨h1, h2, h3⟩ := ih (by omega)
    rw [State.insertLeaves_succ]
    have hroom : (s.insertLeaves n).pqn.toNat + 1 < 2 ^ 32 := by omega
    have hnew : BitVec.ofNat 32 n ∉ (s.insertLeaves n).queue := by
      intro hc
      obtain ⟨i, hi, hin⟩ := List.mem_map.mp (h1.mem_iff.mp hc)
      rw [List.mem_range] at hi
      have := congrArg BitVec.toNat hin
      simp only [BitVec.toNat_ofNat] at this
      omega
    refine ⟨?_, ?_, ?_⟩
    · refine (State.perm_pqInsert _ _ hroom).trans ?_
      rw [List.range_succ, List.map_append]
      exact (h1.cons _).trans (List.perm_append_singleton _ _).symm
    · have := State.sorted_pqInsert _ (BitVec.ofNat 32 n) hroom hnew (by simpa using h2)
      simpa using this
    · rw [State.pqn_pqInsert _ _ hroom, h3]

/-! ### Merging -/

/-- The nodes after a merge: the new one, and the others as they were. -/
theorem State.readNode_merge (s : State) (k : Nat) (x : Node) (h : truncTo s.params.symW x.sym = x.sym) (n : Nat) :
    (s.writeNode k x).readNode n = if n = k then x else s.readNode n := by
  split
  · rename_i hn; subst hn; exact s.readNode_writeNode_same n x h
  · rename_i hn; exact s.readNode_writeNode_other hn

/-- `MERGE` fails only for want of two queued entries, and otherwise answers a state (R129). -/
theorem mergeBody_error_iff {w : Word} {s : State} {e : CmdError} :
    mergeBody w s = .error e ↔ (s.pqV = false ∨ s.pqn.toNat < 2) ∧ e = .badSequence w := by
  unfold mergeBody
  by_cases h1 : s.pqV = true <;> by_cases h2 : 2 ≤ s.pqn.toNat <;> simp [h1, h2, eq_comm (a := e)] <;> omega

/-- A merge keeps `PQ_V`, so that the rounds of `BUILD` never fail. -/
theorem mergeBody_pqV {w : Word} {s t : State} (h : mergeBody w s = .ok t) : s.pqV = true ∧ t.pqV = true := by
  unfold mergeBody at h
  by_cases h1 : s.pqV = true <;> by_cases h2 : 2 ≤ s.pqn.toNat <;> simp [h1, h2] at h
  subst h
  refine ⟨h1, ?_⟩
  simp [State.pqPop, h1]

theorem mergeLoop_ok (w : Word) : ∀ (rounds : Nat) (s : State), s.pqV = true → ∃ t, mergeLoop w rounds s = .ok t
  | 0, s, _ => ⟨s, rfl⟩
  | rounds + 1, s, hv => by
    unfold mergeLoop
    split
    · cases hm : mergeBody w s with
      | error e =>
        rcases (mergeBody_error_iff.mp hm).1 with hc | hc
        · simp [hv] at hc
        · omega
      | ok t => exact mergeLoop_ok w rounds t (mergeBody_pqV hm).2
    · exact ⟨s, rfl⟩

end Sys2Proof.Machine
end

