-- ==== Sys2Proof/Tests/Slice0.lean ====
section
/-! SUPPORT. Tests of the model: the checks refuse ill-formed terms, written-out words decode, commands give the results
of spec/95_test_vectors.md, and every statement with hypotheses has a state that meets them (the theorems
`witness_<statement>`). Expected values come from the spec's tables and vectors, whose row each comment names. -/

open Sys2Proof Sys2Proof.Machine

namespace Sys2Proof.Tests

set_option Elab.async false

/-! ### Well-formedness: one ill-formed term for each check -/

theorem test_reserved_bit_refused :
    CommandFields.reservedClear { opc := 0x00#8, flg := false, rsv := 1#23 } = false := by decide

theorem test_unassigned_opcode_refused :
    CommandFields.opcodeAssigned { opc := 0x02#8, flg := false, rsv := 0#23 } = false := by decide

theorem test_flag_on_format_z_refused :
    CommandFields.flagAllowed { opc := 0x15#8, flg := true, rsv := 0#23 } = false := by decide

theorem test_ill_formed_fields_refused :
    CommandFields.wellFormed { opc := 0x15#8, flg := true, rsv := 0#23 } = false
      ∧ CommandFields.wellFormed { opc := 0x16#8, flg := true, rsv := 0#23 } = true := by decide

theorem test_every_instr_well_formed :
    Instr.wellFormed (.decode true) = true ∧ Instr.wellFormed (.invert true) = true
      ∧ Instr.wellFormed .nop = true := by decide

theorem test_symw_refused :
    Params.symWOk { Params.standard with symW := 0 } = false
      ∧ Params.symWOk { Params.standard with symW := 33 } = false := by decide

theorem test_nsym_max_refused :
    Params.nsymMaxOk { Params.standard with nsymMax := 0 } = false
      ∧ Params.nsymMaxOk { Params.standard with nsymMax := 16385 } = false
      ∧ Params.nsymMaxOk { Params.standard with symW := 5 } = false := by decide

theorem test_text_max_refused : Params.textMaxOk { Params.standard with textMax := 2 ^ 28 + 1 } = false := by decide

theorem test_bits_max_refused : Params.bitsMaxOk { Params.standard with bitsMax := 0 } = false := by decide

theorem test_dec_max_refused : Params.decMaxOk { Params.standard with decMax := 2 ^ 28 + 1 } = false := by decide

theorem test_standard_valid : Params.standard.valid = true := by decide

/-! ### Decoding: the words of 30_encoding.md R104, bit by bit (`RSV` 23 bits, `FLG`, `OPC`) -/

theorem test_decode_nop : decode 0b00000000000000000000000_0_00000000#32 = .ok .nop := by decide
theorem test_decode_clear : decode 0b00000000000000000000000_0_00000001#32 = .ok .clear := by decide
theorem test_decode_freq : decode 0b00000000000000000000000_0_00010000#32 = .ok .freq := by decide
theorem test_decode_pqinit : decode 0b00000000000000000000000_0_00010001#32 = .ok .pqinit := by decide
theorem test_decode_merge : decode 0b00000000000000000000000_0_00010010#32 = .ok .merge := by decide
theorem test_decode_build : decode 0b00000000000000000000000_0_00010011#32 = .ok .build := by decide
theorem test_decode_gencodes : decode 0b00000000000000000000000_0_00010100#32 = .ok .gencodes := by decide
theorem test_decode_encode : decode 0b00000000000000000000000_0_00010101#32 = .ok .encode := by decide
theorem test_decode_decode :
    decode 0b00000000000000000000000_0_00010110#32 = .ok (.decode false)
      ∧ decode 0b00000000000000000000000_1_00010110#32 = .ok (.decode true) := by decide
theorem test_decode_permute : decode 0b00000000000000000000000_0_00100000#32 = .ok .permute := by decide
theorem test_decode_invert :
    decode 0b00000000000000000000000_0_00100001#32 = .ok (.invert false)
      ∧ decode 0b00000000000000000000000_1_00100001#32 = .ok (.invert true) := by decide

/-- 30_encoding.md R105: the three rejections, in their order. -/
theorem test_decode_rejections :
    decode 0x80000116#32 = .error .reservedBits ∧ decode 0x00000302#32 = .error .reservedBits
      ∧ decode 0x00000102#32 = .error .unassignedOpcode ∧ decode 0x00000017#32 = .error .unassignedOpcode
      ∧ decode 0x00000120#32 = .error .flagOnFormatZ := by decide

theorem test_encode_words :
    encode (.decode true) = 0x00000116#32 ∧ encode (.invert true) = 0x00000121#32
      ∧ encode .gencodes = 0x00000014#32 := by decide

theorem test_table_word : decodeTableWord 32 0x116 = some (.decode true) ∧ decodeTableWord 8 0x116 = none
    ∧ decodeTableWord 32 0x117 = none := by decide

/-! ### Helpers: small states, and the state after a command -/

/-- A small instance. -/
def tiny : Params := { symW := 4, nsymMax := 3, textMax := 5, bitsMax := 6, decMax := 4 }

/-- The reset state of an instance. -/
def fresh (p : Params) : State := { State.reset with params := p }

/-- A text in `TEXT`, its length in `TLEN`. -/
def withText (s : State) (text : List Nat) : State :=
  { s.writeSeq .text 0 (text.map (BitVec.ofNat 32)) with tlen := BitVec.ofNat 32 text.length }

/-- Bits in `ENC`, their number in `ENCLEN`. -/
def withEnc (s : State) (bits : List Bool) : State :=
  { s.writeSeq .enc 0 (bits.map bitWord) with enclen := BitVec.ofNat 32 bits.length }

/-- Bits in `INV`, their number in `INVLEN`. -/
def withInv (s : State) (bits : List Bool) : State :=
  { s.writeSeq .inv 0 (bits.map bitWord) with invlen := BitVec.ofNat 32 bits.length }

/-- Bits in `PERM`, their number in `PERMLEN`, and the shape. -/
def withPerm (s : State) (bits : List Bool) (rows cols : Nat) : State :=
  { s.writeSeq .perm 0 (bits.map bitWord) with
    permlen := BitVec.ofNat 32 bits.length, rows := BitVec.ofNat 32 rows, cols := BitVec.ofNat 32 cols }

/-- The state after a command. -/
def after (i : Instr) (s : State) : State :=
  match exec i s with
  | .next t => t
  | .fault _ => s
  | .refused _ => s

/-- The state after several commands. -/
def afterAll (is : List Instr) (s : State) : State := is.foldl (fun s i => after i s) s

/-- The state after a step. -/
def afterStep (s : State) : State :=
  match step s with
  | .next t => t
  | .fault _ => s
  | .refused _ => s

theorem exec_after (i : Instr) (s : State) : exec i s = .next (after i s) := by
  obtain ⟨t, ht⟩ := exec_next i s
  simp [after, ht]

theorem step_after (s : State) : step s = .next (afterStep s) := by
  obtain ⟨t, ht⟩ := step_next s
  simp [afterStep, ht]

theorem completes_after {i : Instr} {s : State} (h : (after i s).err = 0#32) : Completes i s (after i s) := by
  rcases exec_cases (exec_after i s) with ⟨u, -, hu⟩ | ⟨e, -, he⟩
  · exact ⟨exec_after i s, h, by rw [hu]; rfl⟩
  · rw [he] at h; exact absurd h (by simp)

/-- "аба", under the default character map (00_scope.md R7). -/
def aba : List Nat := [0x0430, 0x0431, 0x0430]

/-- "абвг". -/
def abvg : List Nat := [0x0430, 0x0431, 0x0432, 0x0433]

/-- "1011001" as bits. -/
def bits7 : List Bool := [true, false, true, true, false, false, true]

/-- "101100" as bits. -/
def bits6 : List Bool := [true, false, true, true, false, false]

/-! ### Commands: rows of 95_test_vectors.md -/

/-- 44_system_commands.md R200: after a failure, `NOP` clears `ERR` and `ERRINFO`. -/
theorem test_nop_clears_err :
    (after .merge State.reset).err = 4#32 ∧ afterAll [.merge, .nop] State.reset = State.reset := by decide +kernel

/-- 44_system_commands.md R201: `CLEAR` after the pipeline of S1: registers reset, cells kept. -/
theorem test_clear_keeps_cells :
    (afterAll [.build, .clear] (withText State.reset aba)).statusWord = 0#32
      ∧ (afterAll [.build, .clear] (withText State.reset aba)).readElem .ftsym 1 = 0x0431#32 := by decide +kernel

/-- F1. -/
theorem test_freq_aba :
    (after .freq (withText State.reset aba)).readSeq .ftsym 2 = [0x0430#32, 0x0431#32]
      ∧ (after .freq (withText State.reset aba)).readSeq .ftcnt 2 = [2#32, 1#32] := by decide +kernel

/-- F8. -/
theorem test_freq_text_too_long :
    (after .freq { State.reset with tlen := 4097#32 }).err = 5#32
      ∧ (after .freq { State.reset with tlen := 4097#32 }).errinfo = 0x10#32 := by decide +kernel

/-- Q1. -/
theorem test_pqinit_aba :
    (afterAll [.freq, .pqinit] (withText State.reset aba)).queue = [1#32, 0#32]
      ∧ (afterAll [.freq, .pqinit] (withText State.reset aba)).statusWord = 0x00000003#32 := by decide +kernel

/-- Q2. -/
theorem test_pqinit_empty :
    (afterAll [.freq, .pqinit] State.reset).statusWord = 0x0001000B#32 := by decide +kernel

/-- M1, round 1. -/
theorem test_merge_abvg :
    (afterAll [.freq, .pqinit, .merge] (withText State.reset abvg)).readNode 4 = internalNode 2#32 0#32 1#32
      ∧ (afterAll [.freq, .pqinit, .merge] (withText State.reset abvg)).queue = [2#32, 3#32, 4#32] := by
  decide +kernel

/-- M5: the smaller frequency is the left child, though its index is the larger. -/
theorem test_merge_aba :
    (afterAll [.freq, .pqinit, .merge] (withText State.reset aba)).readNode 2 = internalNode 3#32 1#32 0#32
      ∧ (afterAll [.freq, .pqinit, .merge] (withText State.reset aba)).root = 2#32 := by decide +kernel

/-- B6: the state after M1's three rounds. -/
theorem test_build_abvg :
    after .build (withText State.reset abvg)
      = afterAll [.freq, .pqinit, .merge, .merge, .merge] (withText State.reset abvg)
      ∧ (after .build (withText State.reset abvg)).root = 6#32 := by decide +kernel

/-- B2. -/
theorem test_build_empty : (after .build State.reset).statusWord = 0x0001000B#32
    ∧ (after .build State.reset).root = 0xFFFFFFFF#32 := by decide +kernel

/-- G4. -/
theorem test_gencodes_abvg :
    (List.range 4).map (afterAll [.build, .gencodes] (withText State.reset abvg)).codeBits
      = [[false, false], [false, true], [true, false], [true, true]] := by decide +kernel

/-- G2: the one-leaf rule. -/
theorem test_gencodes_one_leaf :
    (afterAll [.build, .gencodes] (withText State.reset [0x0430, 0x0430, 0x0430])).codeBits 0 = [false]
      ∧ (afterAll [.build, .gencodes] (withText State.reset [0x0430, 0x0430, 0x0430])).statusWord = 0x00000017#32 := by
  decide +kernel

/-- E1. -/
theorem test_encode_aba :
    (afterAll [.build, .gencodes, .encode] (withText State.reset aba)).readBits .enc 3 = [true, false, true]
      ∧ (afterAll [.build, .gencodes, .encode] (withText State.reset aba)).enclen = 3#32 := by decide +kernel

/-- E13: "абвг" against the codebook of "аба" skips two symbols. -/
theorem test_encode_skips :
    (after .encode (withText (afterAll [.build, .gencodes] (withText State.reset aba)) abvg)).skipcnt = 2#32
      ∧ (after .encode (withText (afterAll [.build, .gencodes] (withText State.reset aba)) abvg)).statusWord
        = 0x00020017#32 := by decide +kernel

/-- D15: `INV` = "0110" with the tree of "аба" decodes to "бааб". -/
theorem test_decode_inv :
    (after (.decode true) (withInv (after .build (withText State.reset aba)) [false, true, true, false])).readSeq .dec 4
      = [0x0431#32, 0x0430#32, 0x0430#32, 0x0431#32] := by decide +kernel

/-- D9: with one leaf, "0010" fails at bit 2. -/
theorem test_decode_invalid_bit :
    (after (.decode false) (withEnc (after .build (withText State.reset [0x0430])) [false, false, true, false])).err
        = 7#32
      ∧ (after (.decode false)
          (withEnc (after .build (withText State.reset [0x0430])) [false, false, true, false])).errinfo = 2#32 := by
  decide +kernel

/-- T6: "1011001" with three columns. -/
theorem test_permute_padded :
    (after .permute { withEnc State.reset bits7 with cols := 3#32 }).readBits .perm 9
        = [true, true, true, false, false, false, true, false, false]
      ∧ (after .permute { withEnc State.reset bits7 with cols := 3#32 }).padlen = 2#32 := by decide +kernel

/-- T13: one row of 2^32 - 1 cells does not fit. -/
theorem test_permute_too_wide :
    (after .permute { withEnc State.reset [true, false] with cols := 0xFFFFFFFF#32 }).err = 6#32
      ∧ (after .permute { withEnc State.reset [true, false] with cols := 0xFFFFFFFF#32 }).errinfo = 3#32 := by
  decide +kernel

/-- I7: `INVERT TRIM`. -/
theorem test_invert_trim :
    (after (.invert true) { withPerm State.reset [true, true, true, false, false, false, true, false, false] 3 3 with
        origlen := 7#32 }).readBits .inv 7 = bits7 := by decide +kernel

/-- I15: the product of the shape is exact, not taken modulo 2^32. -/
theorem test_invert_shape_exact :
    (after (.invert false) (withPerm State.reset bits6 0x10000 0x10000)).err = 2#32
      ∧ (after (.invert false) (withPerm State.reset bits6 0x10000 0x10000)).errinfo = 6#32 := by decide +kernel

/-! ### The step -/

/-- The first instruction after reset runs: `MERGE` fails with its word, an unassigned word with `BAD_COMMAND`. -/
theorem test_fetch_word :
    step (State.reset.withFetchWord 32 0x00000012) = .next { State.reset with err := 4#32, errinfo := 0x12#32 }
      ∧ step (State.reset.withFetchWord 32 0x00000112) = .next { State.reset with err := 3#32, errinfo := 0x112#32 } :=
  ⟨rfl, rfl⟩

/-- Q10: a read of `PQ` beyond the queue returns `NULL`; at its depth it is an access error. -/
theorem test_read_queue :
    (afterStep { State.reset with inbox := [.read 0x50000002#32] }).reads = [0xFFFFFFFF#32]
      ∧ (afterStep { State.reset with inbox := [.read 0x50000040#32] }).accErr = true := by decide +kernel

/-! ### Witnesses: states that meet the hypotheses of the statements

The small instance `tiny` puts every bound within reach. `[1, 2, 3, 3]` has three distinct symbols (as many as fit) with
codes of 2, 2, 1 bits, six bits in all (as many as fit). -/

/-- The state after `BUILD` of a text. -/
def built (text : List Nat) : State := after .build (withText (fresh tiny) text)

/-- The state after `BUILD`, `GENCODES` of a text. -/
def coded (text : List Nat) : State := after .gencodes (built text)

/-- The state after `FREQ`, `PQINIT` of a text. -/
def loaded (text : List Nat) : State := afterAll [.freq, .pqinit] (withText (fresh tiny) text)

/-- Another text after a codebook was built: 5 has no entry. -/
def coded_skip : State := withText (coded [1, 2, 3, 3]) [1, 5, 3]

/-- A statement about the members of a list, from a check of the list. -/
theorem forall_mem_of_all {α : Type} {l : List α} {p : α → Prop} [DecidablePred p]
    (h : l.all (fun a => decide (p a)) = true) : ∀ a ∈ l, p a := by simpa using h

theorem inv_coded_three : (coded [1, 2, 3, 3]).Inv := by
  refine ⟨⟨?_, ⟨?_, ?_, forall_mem_of_all ?_, ?_⟩, ⟨?_, ?_, ?_, ?_, ?_, ?_, ?_, ?_, ?_, ?_, ?_, ?_, forall_mem_of_all ?_, ?_,
    ?_, ?_⟩⟩, ⟨?_, ?_, ?_⟩, ⟨?_, ?_, ?_, ?_⟩, fun sp => ?_, fun sp => ?_⟩
  all_goals first | decide +kernel | (cases sp <;> decide +kernel)

theorem inv_coded_one : (coded [1, 1]).Inv := by
  refine ⟨⟨?_, ⟨?_, ?_, forall_mem_of_all ?_, ?_⟩, ⟨?_, ?_, ?_, ?_, ?_, ?_, ?_, ?_, ?_, ?_, ?_, ?_, forall_mem_of_all ?_, ?_,
    ?_, ?_⟩⟩, ⟨?_, ?_, ?_⟩, ⟨?_, ?_, ?_, ?_⟩, fun sp => ?_, fun sp => ?_⟩
  all_goals first | decide +kernel | (cases sp <;> decide +kernel)

theorem inv_coded_skip : coded_skip.Inv := by
  refine ⟨⟨?_, ⟨?_, ?_, forall_mem_of_all ?_, ?_⟩, ⟨?_, ?_, ?_, ?_, ?_, ?_, ?_, ?_, ?_, ?_, ?_, ?_, forall_mem_of_all ?_, ?_,
    ?_, ?_⟩⟩, ⟨?_, ?_, ?_⟩, ⟨?_, ?_, ?_, ?_⟩, fun sp => ?_, fun sp => ?_⟩
  all_goals first | decide +kernel | (cases sp <;> decide +kernel)

theorem inv_loaded_two : (loaded [1, 2]).Inv := by
  refine ⟨⟨?_, ⟨?_, ?_, forall_mem_of_all ?_, ?_⟩, ⟨?_, ?_, ?_, ?_, ?_, ?_, ?_, ?_, ?_, ?_, ?_, ?_, forall_mem_of_all ?_, ?_,
    ?_, ?_⟩⟩, ⟨?_, ?_, ?_⟩, ⟨?_, ?_, ?_, ?_⟩, fun sp => ?_, fun sp => ?_⟩
  all_goals first | decide +kernel | (cases sp <;> decide +kernel)

theorem witness_DecodeOfEncode : Instr.wellFormed (.invert true) = true ∧ Instr.wellFormed .nop = true := by decide

theorem witness_EncodeOfDecode : decode 0x00000121#32 = .ok (.invert true) := by decide

theorem witness_DecodeRejectsByTheThreeTests :
    decode 0x00000200#32 = .error .reservedBits ∧ decode 0x000001FF#32 = .error .unassignedOpcode
      ∧ decode 0x00000100#32 = .error .flagOnFormatZ ∧ 0x00000121#32 ∈ legalWords := by decide

theorem witness_IllegalWordFailsWithBadCommand :
    0x00000120#32 ∉ legalWords
      ∧ { fresh tiny with inbox := [.write 0x00000005#32 0x00000120#32] }.inbox
        = [.write 0x00000005#32 0x00000120#32] := by decide

theorem witness_StepRunsDecodedCommand :
    { fresh tiny with inbox := [.write 0x00000005#32 0x00000116#32] }.inbox
        = .write 0x00000005#32 0x00000116#32 :: []
      ∧ decode 0x00000116#32 = .ok (.decode true) ∧ Instr.wellFormed (.decode true) = true := by decide

theorem witness_ResetInputFromAnyState :
    { coded [1, 2, 3, 3] with inbox := [.reset, .read 0#32] }.inbox = .reset :: [.read 0#32] := rfl

theorem witness_ClearResetsRegistersKeepsCells :
    Instr.merge ≠ .clear ∧ exec .merge coded_skip = .next (after .merge coded_skip)
      ∧ coded_skip.freqV = true := ⟨by decide, exec_after _ _, by decide +kernel⟩

theorem witness_FreqBuildsFrequencyTable :
    (tiny.textMax < { fresh tiny with tlen := 6#32 }.tlen.toNat)
    ∧ ((withText (fresh tiny) [1, 2, 3, 4]).tlen.toNat ≤ tiny.textMax
        ∧ tiny.nsymMax < (withText (fresh tiny) [1, 2, 3, 4]).textSeq.dedup.length)
    ∧ ((withText (fresh tiny) [1, 2, 3, 3, 3]).tlen.toNat ≤ tiny.textMax
        ∧ (withText (fresh tiny) [1, 2, 3, 3, 3]).textSeq.dedup.length ≤ tiny.nsymMax) := by decide +kernel

theorem witness_FreqIgnoresTextOrder :
    (withText (fresh tiny) [1, 2, 1]).textSeq.Perm (withText (fresh tiny) [2, 1, 1]).textSeq
      ∧ (after .freq (withText (fresh tiny) [1, 2, 1])).err = 0#32
      ∧ (after .freq (withText (fresh tiny) [2, 1, 1])).err = 0#32
      ∧ (withText (fresh tiny) [1, 2, 1]).textSeq ≠ (withText (fresh tiny) [2, 1, 1]).textSeq := by decide +kernel

theorem witness_PqinitLoadsLeavesInKeyOrder :
    (fresh tiny).freqV = false ∧ (after .freq (fresh tiny)).freqV = true
      ∧ (after .freq (withText (fresh tiny) [1, 2, 3, 3])).freqV = true := by decide +kernel

theorem witness_MergeJoinsTwoLeastNodes :
    (fresh tiny).pqV = false ∧ ((built [1, 2]).pqV = true ∧ (built [1, 2]).pqn.toNat < 2)
      ∧ (loaded [1, 2]).BuildInv ∧ (loaded [1, 2]).pqV = true ∧ 2 ≤ (loaded [1, 2]).pqn.toNat :=
  ⟨by decide +kernel, by decide +kernel, inv_loaded_two.build, by decide +kernel, by decide +kernel⟩

theorem witness_BuildIsFreqPqinitMerges :
    (tiny.textMax < { fresh tiny with tlen := 6#32 }.tlen.toNat)
    ∧ ((withText (fresh tiny) [1, 2, 3, 4]).tlen.toNat ≤ tiny.textMax
        ∧ tiny.nsymMax < (withText (fresh tiny) [1, 2, 3, 4]).textSeq.dedup.length)
    ∧ ((withText (fresh tiny) [1, 2, 3, 3, 3]).tlen.toNat ≤ tiny.textMax
        ∧ (withText (fresh tiny) [1, 2, 3, 3, 3]).textSeq.dedup.length = tiny.nsymMax)
    ∧ (withText (fresh tiny) []).textSeq.dedup.length = 0 := by decide +kernel

theorem witness_BuildLeavesFinishedTree :
    tiny.valid = true ∧ (withText (fresh tiny) [1, 2, 3, 3, 3]).tlen.toNat ≤ tiny.textMax
      ∧ (withText (fresh tiny) [1, 2, 3, 3, 3]).textSeq.dedup.length ≤ tiny.nsymMax
      ∧ 1 ≤ (built [1, 2, 3, 3, 3]).nsym.toNat ∧ (built []).nsym = 0#32 := by decide +kernel

theorem witness_FinishedTreeIsStrictBinary :
    ((coded [1, 2, 3, 3]).Inv ∧ (coded [1, 2, 3, 3]).treeV = true ∧ (coded [1, 2, 3, 3]).nsym = 3#32)
      ∧ ((coded [1, 1]).Inv ∧ (coded [1, 1]).treeV = true ∧ (coded [1, 1]).nsym = 1#32) :=
  ⟨⟨inv_coded_three, by decide +kernel, by decide +kernel⟩, ⟨inv_coded_one, by decide +kernel, by decide +kernel⟩⟩

theorem witness_GencodesFailsOrHandlesSmallTrees :
    tiny.valid = true
      ∧ ((loaded [1, 2]).treeV = false ∧ (loaded [1, 2]).noTree = false)
      ∧ (built []).noTree = true
      ∧ ((built [1, 1]).treeV = true ∧ (built [1, 1]).noTree = false
          ∧ (built [1, 1]).nodeInternal (built [1, 1]).root.toNat = false) := by decide +kernel

theorem witness_GencodesAssignsPathBits :
    (coded [1, 2, 3, 3]).Inv ∧ (coded [1, 2, 3, 3]).treeV = true ∧ 2 ≤ (coded [1, 2, 3, 3]).nsym.toNat :=
  ⟨inv_coded_three, by decide +kernel, by decide +kernel⟩

theorem witness_ReferenceTraversalConforms :
    (coded [1, 2, 3, 3]).Inv ∧ (coded [1, 2, 3, 3]).treeV = true ∧ 2 ≤ (coded [1, 2, 3, 3]).nsym.toNat
      ∧ Completes .gencodes (coded [1, 2, 3, 3]) (after .gencodes (coded [1, 2, 3, 3])) :=
  ⟨inv_coded_three, by decide +kernel, by decide +kernel, completes_after (by decide +kernel)⟩

/-- With two sibling leaves 0 and 1 below node 3, and with one leaf. -/
theorem witness_CodebookIsPrefixFree :
    ((coded [1, 2, 3, 3]).Inv ∧ 1 ≤ (coded [1, 2, 3, 3]).nsym.toNat
        ∧ Completes .gencodes (coded [1, 2, 3, 3]) (after .gencodes (coded [1, 2, 3, 3]))
        ∧ ((after .gencodes (coded [1, 2, 3, 3])).nodeLeft 3).toNat = 0
        ∧ ((after .gencodes (coded [1, 2, 3, 3])).nodeRight 3).toNat = 1)
      ∧ ((coded [1, 1]).Inv ∧ 1 ≤ (coded [1, 1]).nsym.toNat
        ∧ Completes .gencodes (coded [1, 1]) (after .gencodes (coded [1, 1]))) :=
  ⟨⟨inv_coded_three, by decide +kernel, completes_after (by decide +kernel), by decide +kernel, by decide +kernel⟩,
    ⟨inv_coded_one, by decide +kernel, completes_after (by decide +kernel)⟩⟩

theorem witness_EncodeConcatenatesCodes :
    tiny.valid = true
      ∧ (built [1, 2]).codesV = false
      ∧ ({ coded [1, 2] with tlen := 6#32 }.codesV = true ∧ tiny.textMax < { coded [1, 2] with tlen := 6#32 }.tlen.toNat)
      ∧ ((coded [1, 2, 3, 3, 3]).codesV = true ∧ (coded [1, 2, 3, 3, 3]).tlen.toNat ≤ tiny.textMax
          ∧ (coded [1, 2, 3, 3, 3]).encodedBits.length = tiny.bitsMax + 1)
      ∧ ((coded [1, 2, 3, 3]).codesV = true ∧ (coded [1, 2, 3, 3]).tlen.toNat ≤ tiny.textMax
          ∧ (coded [1, 2, 3, 3]).encodedBits.length = tiny.bitsMax)
      ∧ (coded_skip.codesV = true ∧ coded_skip.skippedCount = 1) := by decide +kernel

theorem witness_LookupFindsTheEntry :
    coded_skip.Inv ∧ coded_skip.lookup 3#32 = some 2 ∧ coded_skip.lookup 5#32 = none :=
  ⟨inv_coded_skip, by decide +kernel, by decide +kernel⟩

theorem witness_FreshCodebookSkipsNothing :
    tiny.valid = true ∧ Completes .build (withText (fresh tiny) [1, 2, 3, 3]) (built [1, 2, 3, 3])
      ∧ Completes .gencodes (built [1, 2, 3, 3]) (coded [1, 2, 3, 3])
      ∧ Completes .encode (coded [1, 2, 3, 3]) (after .encode (coded [1, 2, 3, 3])) :=
  ⟨by decide, completes_after (by decide +kernel), completes_after (by decide +kernel),
    completes_after (by decide +kernel)⟩

theorem witness_DecodeChecksAndNoTree :
    ((loaded [1, 2]).treeV = false ∧ (loaded [1, 2]).noTree = false)
      ∧ ({ built [1, 2] with enclen := 7#32 }.treeV = true
          ∧ tiny.bitsMax < { built [1, 2] with enclen := 7#32 }.enclen.toNat)
      ∧ ({ built [] with invlen := 7#32 }.noTree = true
          ∧ tiny.bitsMax < { built [] with invlen := 7#32 }.invlen.toNat)
      ∧ ((withInv (built []) [true]).noTree = true ∧ (withInv (built []) [true]).invlen.toNat ≤ tiny.bitsMax
          ∧ (withInv (built []) [true]).invlen ≠ 0#32)
      ∧ ((built []).noTree = true ∧ (built []).enclen = 0#32) := by decide +kernel

/-- A one-leaf tree, and bits in `ENC`. -/
def oneLeaf (bits : List Bool) : State := withEnc (built [1]) bits

/-- At the bounds: `DEC_MAX` zeros, a 1 bit after `DEC_MAX` zeros, one zero more than `DEC_MAX`. -/
theorem witness_DecodeWithOneLeaf :
    tiny.valid = true
      ∧ (∀ bits ∈ [List.replicate 4 false, List.replicate 4 false ++ [true], List.replicate 5 false],
          (oneLeaf bits).params = tiny ∧ bits = (oneLeaf bits).readBits .enc (oneLeaf bits).enclen.toNat
            ∧ (oneLeaf bits).treeV = true ∧ (oneLeaf bits).noTree = false
            ∧ (oneLeaf bits).nodeInternal (oneLeaf bits).root.toNat = false ∧ bits.length ≤ tiny.bitsMax)
      ∧ tiny.decMax = 4 := by decide +kernel

/-- The tree of `[1, 2, 3, 3]`, whose code words are "10" (leaf 0), "11" (leaf 1), "0" (leaf 2), and bits in `ENC`. -/
def threeLeaves (bits : List Bool) : State := withEnc (built [1, 2, 3, 3]) bits

/-- `DEC_MAX` whole code words; the same number and a rest "1" that stays inside the tree; one code word too many. -/
theorem witness_DecodeWalksTheTree :
    tiny.valid = true
      ∧ ∀ e ∈ ([([([true, false], 0#32), ([false], 2#32), ([false], 2#32), ([false], 2#32)], [], 4#32),
          ([([true, true], 1#32), ([false], 2#32), ([false], 2#32), ([false], 2#32)], [true], 3#32),
          (List.replicate 5 ([false], 2#32), [], 4#32)] : List (List (List Bool × Word) × List Bool × Word)),
        (threeLeaves ((e.1.map Prod.fst).flatten ++ e.2.1)).params = tiny
          ∧ (threeLeaves ((e.1.map Prod.fst).flatten ++ e.2.1)).readBits .enc
              (threeLeaves ((e.1.map Prod.fst).flatten ++ e.2.1)).enclen.toNat = (e.1.map Prod.fst).flatten ++ e.2.1
          ∧ (threeLeaves ((e.1.map Prod.fst).flatten ++ e.2.1)).enclen.toNat ≤ tiny.bitsMax
          ∧ (threeLeaves ((e.1.map Prod.fst).flatten ++ e.2.1)).treeV = true
          ∧ (threeLeaves ((e.1.map Prod.fst).flatten ++ e.2.1)).noTree = false
          ∧ (threeLeaves ((e.1.map Prod.fst).flatten ++ e.2.1)).nodeInternal
              (threeLeaves ((e.1.map Prod.fst).flatten ++ e.2.1)).root.toNat = true
          ∧ (∀ x ∈ e.1, (threeLeaves ((e.1.map Prod.fst).flatten ++ e.2.1)).leadsToLeaf x.1 x.2)
          ∧ (threeLeaves ((e.1.map Prod.fst).flatten ++ e.2.1)).walk
              (threeLeaves ((e.1.map Prod.fst).flatten ++ e.2.1)).root e.2.1 = some e.2.2
          ∧ (threeLeaves ((e.1.map Prod.fst).flatten ++ e.2.1)).nodeInternal e.2.2.toNat = true
          ∧ (e.2.1 = [] ∨ e.2.2 ≠ (threeLeaves ((e.1.map Prod.fst).flatten ++ e.2.1)).root) := by
  unfold State.leadsToLeaf
  decide +kernel

theorem witness_EveryBitSequenceParses :
    (coded [1, 2, 3, 3]).Inv ∧ (coded [1, 2, 3, 3]).treeV = true ∧ 2 ≤ (coded [1, 2, 3, 3]).nsym.toNat :=
  ⟨inv_coded_three, by decide +kernel, by decide +kernel⟩

/-- As many symbols as `DEC` holds, none skipped; and a text with a skipped symbol. -/
theorem witness_EncodeDecodeRoundTrip :
    ((coded [1, 2, 3, 3]).Inv ∧ (coded [1, 2, 3, 3]).codesV = true
        ∧ Completes .encode (coded [1, 2, 3, 3]) (after .encode (coded [1, 2, 3, 3]))
        ∧ (coded [1, 2, 3, 3]).tlen.toNat - (after .encode (coded [1, 2, 3, 3])).skipcnt.toNat ≤ tiny.decMax
        ∧ (after .encode (coded [1, 2, 3, 3])).skipcnt = 0#32)
      ∧ (coded_skip.Inv ∧ coded_skip.codesV = true ∧ Completes .encode coded_skip (after .encode coded_skip)
        ∧ coded_skip.tlen.toNat - (after .encode coded_skip).skipcnt.toNat ≤ tiny.decMax
        ∧ (after .encode coded_skip).skipcnt = 1#32) :=
  ⟨⟨inv_coded_three, by decide +kernel, completes_after (by decide +kernel), by decide +kernel, by decide +kernel⟩,
    ⟨inv_coded_skip, by decide +kernel, completes_after (by decide +kernel), by decide +kernel, by decide +kernel⟩⟩

/-- `ENCLEN` bits and a number of columns. -/
def withCols (len cols : Nat) : State :=
  { withEnc (fresh tiny) (List.replicate len true) with cols := BitVec.ofNat 32 cols }

/-- `BITS_MAX` = 6: no column; 7 bits; 5 bits in 4 columns need 8 cells; 5 bits in 3 columns need 6; no bits. -/
theorem witness_PermuteReadsOutColumns :
    (withCols 5 0).params.valid = true ∧ (withCols 5 0).cols.toNat = 0
      ∧ (1 ≤ (withCols 7 1).cols.toNat ∧ tiny.bitsMax < (withCols 7 1).enclen.toNat)
      ∧ (1 ≤ (withCols 5 4).cols.toNat ∧ (withCols 5 4).enclen.toNat ≤ tiny.bitsMax
          ∧ tiny.bitsMax < ((withCols 5 4).enclen.toNat + (withCols 5 4).cols.toNat - 1) / (withCols 5 4).cols.toNat
            * (withCols 5 4).cols.toNat)
      ∧ (∀ len ∈ [5, 0], 1 ≤ (withCols len 3).cols.toNat ∧ (withCols len 3).enclen.toNat ≤ tiny.bitsMax
          ∧ ((withCols len 3).enclen.toNat + (withCols len 3).cols.toNat - 1) / (withCols len 3).cols.toNat
            * (withCols len 3).cols.toNat ≤ tiny.bitsMax) := by decide +kernel

/-- Five bits in three columns, permuted: two rows, one filler bit. -/
def permuted5 : State := after .permute { withEnc (fresh tiny) [true, false, true, true, false] with cols := 3#32 }

theorem witness_PermuteLengthsAndFiller :
    tiny.valid = true
      ∧ Completes .permute { withEnc (fresh tiny) [true, false, true, true, false] with cols := 3#32 } permuted5
      ∧ permuted5.padlen = 1#32 :=
  ⟨by decide, completes_after (by decide +kernel), by decide +kernel⟩

/-- `BITS_MAX` bits in `PERM`, a shape, and an `ORIGLEN`. -/
def withShape (rows cols orig : Nat) : State :=
  { withPerm (fresh tiny) bits6 rows cols with origlen := BitVec.ofNat 32 orig }

theorem witness_InvertReadsOutRows :
    (withShape 2 0 0).cols.toNat = 0
      ∧ (1 ≤ { withShape 1 7 0 with permlen := 7#32 }.cols.toNat
          ∧ tiny.bitsMax < { withShape 1 7 0 with permlen := 7#32 }.permlen.toNat)
      ∧ (1 ≤ (withShape 3 3 0).cols.toNat ∧ (withShape 3 3 0).permlen.toNat ≤ tiny.bitsMax
          ∧ (withShape 3 3 0).permlen.toNat ≠ (withShape 3 3 0).rows.toNat * (withShape 3 3 0).cols.toNat)
      ∧ (∀ orig ∈ [6, 7], 1 ≤ (withShape 2 3 orig).cols.toNat ∧ (withShape 2 3 orig).permlen.toNat ≤ tiny.bitsMax
          ∧ (withShape 2 3 orig).permlen.toNat = (withShape 2 3 orig).rows.toNat * (withShape 2 3 orig).cols.toNat)
      ∧ (withShape 2 3 7).permlen.toNat < (withShape 2 3 7).origlen.toNat
      ∧ (withShape 2 3 6).origlen.toNat = (withShape 2 3 6).permlen.toNat := by decide +kernel

theorem witness_PermuteInvertRoundTrip :
    tiny.valid = true
      ∧ Completes .permute { withEnc (fresh tiny) [true, false, true, true, false] with cols := 3#32 } permuted5 :=
  ⟨by decide, completes_after (by decide +kernel)⟩

theorem witness_PositionMapsAreInverse :
    1 ≤ 2 ∧ 1 ≤ 3 ∧ 5 < 2 * 3
      ∧ Completes .permute { withEnc (fresh tiny) [true, false, true, true, false] with cols := 3#32 } permuted5
      ∧ permuted5.rows.toNat = 2 ∧ permuted5.cols.toNat = 3
      ∧ Completes (.invert false) permuted5 (after (.invert false) permuted5) :=
  ⟨by decide, by decide, by decide, completes_after (by decide +kernel), by decide +kernel, by decide +kernel,
    completes_after (by decide +kernel)⟩

theorem witness_FailureChangesOnlyErr :
    exec .merge (fresh tiny) = .next (after .merge (fresh tiny)) ∧ (after .merge (fresh tiny)).err ≠ 0#32 :=
  ⟨exec_after _ _, by decide +kernel⟩

/-- Every failure of 60_exceptions.md R211 but `BAD_COMMAND`, which no command of the table raises. -/
theorem witness_ErrorCodesPerCommand :
    (after .nop (fresh tiny)).err = 0#32
      ∧ (after (.decode false) (withEnc (built [1, 2, 3, 3]) [false, true])).err = 1#32
      ∧ (after (.invert false) (withPerm (fresh tiny) bits6 3 3)).err = 2#32
      ∧ (after .encode (fresh tiny)).err = 4#32
      ∧ (after .permute (fresh tiny)).err = 5#32
      ∧ (after .build (withText (fresh tiny) [1, 2, 3, 4])).err = 6#32
      ∧ (after (.decode false) (withEnc (built [1]) [true])).err = 7#32 := by decide +kernel

theorem witness_WarningsAreSticky :
    (exec .build (fresh tiny) = .next (after .build (fresh tiny)) ∧ Instr.build ≠ .clear
        ∧ (fresh tiny).wEmpty = false ∧ (after .build (fresh tiny)).wEmpty = true
        ∧ (after .build (fresh tiny)).err = 0#32 ∧ (after .build (fresh tiny)).nsym = 0#32)
      ∧ (exec .encode coded_skip = .next (after .encode coded_skip) ∧ Instr.encode ≠ .clear
        ∧ coded_skip.wUnknown = false ∧ (after .encode coded_skip).wUnknown = true
        ∧ (after .encode coded_skip).err = 0#32 ∧ (after .encode coded_skip).skipcnt ≠ 0#32) :=
  ⟨⟨exec_after _ _, by decide, by decide +kernel, by decide +kernel, by decide +kernel, by decide +kernel⟩,
    ⟨exec_after _ _, by decide, by decide +kernel, by decide +kernel, by decide +kernel, by decide +kernel⟩⟩

theorem witness_CommandsWriteOnlyTheirState : exec .encode coded_skip = .next (after .encode coded_skip) :=
  exec_after _ _

theorem witness_BuildersInvalidateDerivedState :
    (Completes .freq coded_skip (after .freq coded_skip) ∧ coded_skip.codesV = true)
      ∧ Completes .build (coded [1, 2, 3, 3]) (after .build (coded [1, 2, 3, 3]))
      ∧ Completes .pqinit (coded [1, 2, 3, 3]) (after .pqinit (coded [1, 2, 3, 3]))
      ∧ ((loaded [1, 2]).StageInv ∧ Completes .merge (loaded [1, 2]) (after .merge (loaded [1, 2])))
      ∧ (exec .merge coded_skip = .next (after .merge coded_skip) ∧ (after .merge coded_skip).err ≠ 0#32) :=
  ⟨⟨completes_after (by decide +kernel), by decide +kernel⟩, completes_after (by decide +kernel),
    completes_after (by decide +kernel), ⟨inv_loaded_two.build.stage, completes_after (by decide +kernel)⟩,
    ⟨exec_after _ _, by decide +kernel⟩⟩

/-- The same valid data, but another cell beyond `DECLEN`. -/
def coded_other : State := (coded [1, 2, 3, 3]).writeElem .dec 3 7#32

theorem inv_coded_other : coded_other.Inv := by
  refine ⟨⟨?_, ⟨?_, ?_, forall_mem_of_all ?_, ?_⟩, ⟨?_, ?_, ?_, ?_, ?_, ?_, ?_, ?_, ?_, ?_, ?_, ?_, forall_mem_of_all ?_, ?_,
    ?_, ?_⟩⟩, ⟨?_, ?_, ?_⟩, ⟨?_, ?_, ?_, ?_⟩, fun sp => ?_, fun sp => ?_⟩
  all_goals first | decide +kernel | (cases sp <;> decide +kernel)

theorem witness_ValidDataDeterminesResult :
    (coded [1, 2, 3, 3]).Inv ∧ coded_other.Inv ∧ (coded [1, 2, 3, 3]).AgreeOnValid coded_other
      ∧ coded [1, 2, 3, 3] ≠ coded_other
      ∧ exec .encode (coded [1, 2, 3, 3]) = .next (after .encode (coded [1, 2, 3, 3])) := by
  refine ⟨inv_coded_three, inv_coded_other, ⟨?_, fun r => ?_, ?_, ?_, ?_, ?_, ?_, ?_, ?_, ?_, ?_, ?_⟩, ?_,
    exec_after _ _⟩
  all_goals first | decide +kernel | (cases r <;> decide +kernel)

/-- The last element of `NODE` and of `PERM`, and the last register, by the numbers of R73 and R22. -/
theorem witness_AddressMapIsOneToOne :
    tiny.valid = true
      ∧ ((Space.node, 0x40000000, 40) ∈ memoryMap tiny ∧ elemExists tiny .node 36 = true
          ∧ targetOf tiny 0x40000024#32 = some (.element .node 36))
      ∧ ((Space.perm, 0x90000000, 6) ∈ memoryMap tiny ∧ elemExists tiny .perm 5 = true
          ∧ targetOf tiny 0x90000005#32 = some (.element .perm 5))
      ∧ ((Reg.invlen, 0x25, Access.rw) ∈ registerMap ∧ targetOf tiny 0x00000025#32 = some (.register .invlen)) := by
  decide +kernel

/-- A reserved space; a reserved register; the depth of `TEXT`; field 5 of a node; read-only registers and memories. -/
theorem witness_RejectedAccessSetsOnlyAccerr :
    0xC ≤ (0xC0000000#32).toNat / 2 ^ 28
      ∧ ((0x00000009#32).toNat / 2 ^ 28 = 0 ∧ ∀ r : Reg, r.number ≠ (0x00000009#32).toNat % 2 ^ 28)
      ∧ (Space.text.number = (0x10000005#32).toNat / 2 ^ 28
          ∧ elemDepth tiny .text ≤ (0x10000005#32).toNat % 2 ^ 28)
      ∧ (Space.node.number = (0x40000005#32).toNat / 2 ^ 28 ∧ 5 ≤ (0x40000005#32).toNat % 2 ^ 28 % 8)
      ∧ (Reg.number .err = (0x00000007#32).toNat % 2 ^ 28 ∧ Reg.access .err = .ro)
      ∧ (0x20000000#32).toNat / 2 ^ 28 = 0x2 :=
  ⟨by decide, ⟨by decide, fun r => by cases r <;> decide⟩, by decide, by decide, by decide, by decide⟩

theorem witness_HostWriteStoresOneElement :
    tiny.valid = true ∧ 4 < elemDepth tiny .text ∧ 5 < elemDepth tiny .inv
      ∧ { fresh tiny with inbox := [.write (elemAddress .text 4) 0xFF#32] }.inbox
        = .write 0x10000004#32 0xFF#32 :: [] := by decide

theorem witness_HostWriteSetsOperandRegister :
    Reg.invlen ∈ [Reg.tlen, .enclen, .cols, .rows, .origlen, .permlen, .invlen]
      ∧ { fresh tiny with inbox := [.write (regAddress .invlen) 0xFFFFFFFF#32] }.inbox
        = .write 0x00000025#32 0xFFFFFFFF#32 :: [] := by decide

theorem witness_StatusWriteClearsSticky :
    { built [] with inbox := [.write 0x00000006#32 0x00010000#32] }.inbox
        = .write 0x00000006#32 0x00010000#32 :: [] ∧ (built []).wEmpty = true := by decide +kernel

theorem witness_StatusBitsAtTheirPlaces : 31 < 32 ∧ 18 < 32 := by decide

/-- An address where there is nothing; `NSYM`; the last element of `NODE`; `PQ` just below `PQN` = 2, and at it. -/
theorem witness_ReadsHaveNoSideEffect :
    { loaded [1, 2] with inbox := [.read 0xF0000000#32] }.inbox = .read 0xF0000000#32 :: []
      ∧ ((0x11, 2#32) ∈ registerValues (loaded [1, 2]) ∧ 0x00000011#32 = BitVec.ofNat 32 0x11)
      ∧ (loaded [1, 2]).params.valid = true
      ∧ ((Space.node, 0x40000000, 40) ∈ memoryMap (loaded [1, 2]).params ∧ 36 < 40 ∧ 36 % 8 < 5
          ∧ 0x40000024#32 = BitVec.ofNat 32 (0x40000000 + 36))
      ∧ ((Space.pq, 0x50000000, 3) ∈ memoryMap (loaded [1, 2]).params ∧ 1 < 3 ∧ ¬ (loaded [1, 2]).pqn.toNat ≤ 1
          ∧ 2 < 3 ∧ (loaded [1, 2]).pqn.toNat ≤ 2) := by decide +kernel

/-- `PQN` = 2, depth 3: entries 1, 2 and 3, at the two bounds. -/
theorem witness_QueueReadsNullBeyondItsEnd :
    { loaded [1, 2] with inbox := [.read 0x50000001#32] }.inbox = .read (BitVec.ofNat 32 (0x5 * 2 ^ 28 + 1)) :: []
      ∧ (1 < (loaded [1, 2]).pqn.toNat ∧ 1 < tiny.nsymMax)
      ∧ ((loaded [1, 2]).pqn.toNat ≤ 2 ∧ 2 < tiny.nsymMax) ∧ tiny.nsymMax ≤ 3 := by decide +kernel

theorem witness_HostWritesKeepDerivedState :
    { coded [1, 2, 3, 3] with inbox := [.write 0x10000000#32 2#32] }.inbox = .write 0x10000000#32 2#32 :: []
      ∧ 0x10000000#32 ≠ 0x00000005#32
      ∧ step { coded [1, 2, 3, 3] with inbox := [.write 0x10000000#32 2#32] }
        = .next (afterStep { coded [1, 2, 3, 3] with inbox := [.write 0x10000000#32 2#32] }) :=
  ⟨rfl, by decide, step_after _⟩

/-- A state with a `MERGE` pending that completes. -/
def mergePending : State := { loaded [1, 2] with inbox := [commandInput 0x00000012#32] }

theorem inv_mergePending : mergePending.Inv := by
  refine ⟨⟨?_, ⟨?_, ?_, forall_mem_of_all ?_, ?_⟩, ⟨?_, ?_, ?_, ?_, ?_, ?_, ?_, ?_, ?_, ?_, ?_, ?_, forall_mem_of_all ?_, ?_,
    ?_, ?_⟩⟩, ⟨?_, ?_, ?_⟩, ⟨?_, ?_, ?_, ?_⟩, fun sp => ?_, fun sp => ?_⟩
  all_goals first | decide +kernel | (cases sp <;> decide +kernel)

theorem step_mergePending : step mergePending = .next (afterStep mergePending)
    ∧ (afterStep mergePending).treeV = true := ⟨step_after _, by decide +kernel⟩

theorem witness_StepKeepsStageInvariants :
    mergePending.BuildInv ∧ step mergePending = .next (afterStep mergePending) :=
  ⟨inv_mergePending.build, step_mergePending.1⟩

theorem witness_StepKeepsInvariant : mergePending.Inv ∧ step mergePending = .next (afterStep mergePending) :=
  ⟨inv_mergePending, step_mergePending.1⟩

theorem witness_StepKeepsMemoriesCanonical :
    mergePending.MemoriesCanonical ∧ step mergePending = .next (afterStep mergePending) :=
  ⟨inv_mergePending.canonical, step_mergePending.1⟩

theorem witness_CommandsDirectlyAfterReset (r : Reg) : (fresh tiny).readReg r = resetValue tiny r := by
  cases r <;> decide +kernel

/-- A prefix code of three words, another than the one `GENCODES` gives to `[1, 2, 3, 3]`. -/
def threeWords : Nat → List Bool
  | 0 => [false]
  | 1 => [true, false]
  | _ => [true, true]

/-- The counts of `[1, 2, 3, 3]` are 1, 1, 2; joining 1 with 1 and 2 with 2 gives the length 6. -/
theorem witness_EncodedLengthIsLeast :
    tiny.valid = true ∧ Completes .build (withText (fresh tiny) [1, 2, 3, 3]) (built [1, 2, 3, 3])
      ∧ Completes .gencodes (built [1, 2, 3, 3]) (coded [1, 2, 3, 3])
      ∧ (coded [1, 2, 3, 3]).nsym.toNat = 3
      ∧ (∀ i, i < 3 → threeWords i ≠ [])
      ∧ (∀ i j, i < 3 → j < 3 → i ≠ j → ¬ (threeWords i <+: threeWords j))
      ∧ ((coded [1, 2, 3, 3]).readSeq .ftcnt 3).map BitVec.toNat = [1, 1, 2]
      ∧ AnyTieBreak [1, 1, 2] (0 + (2 + 2) + (1 + 1)) := by
  refine ⟨by decide, completes_after (by decide +kernel), completes_after (by decide +kernel), by decide +kernel,
    by decide, fun i j hi hj => ?_, by decide +kernel,
    .join (List.Perm.refl _) (by decide) (by decide) (.join (List.Perm.refl _) (by decide) (by decide) (.done _))⟩
  interval_cases i <;> interval_cases j <;> decide

/-- The encoded length of `[1, 2, 3, 3]` is 6 bits (codes of 2, 2, 1 bits on counts 1, 1, 2). -/
theorem test_coded_length : (coded [1, 2, 3, 3]).codedLength = 6 := by decide +kernel

end Sys2Proof.Tests
end

section
/-! PROOFS. The invariant of spec/10_state.md R57 (O51): what it reads of the state, how each command that changes
what it reads keeps it, and the step. `PQINIT` and `MERGE` share one stronger predicate, `State.Building`. -/

namespace Sys2Proof.Machine

/-! ### What the invariant reads -/

/-- What the frequency table's own facts (`State.TableInv`) read of the state. -/
structure TableView where
  params : Params
  resets : Nat
  freqV : Bool
  nsym : Word
  ftsym : Memory
  ftcnt : Memory

/-- The table's view of a state. -/
def State.tableView (s : State) : TableView :=
  { params := s.params, resets := s.resets, freqV := s.freqV, nsym := s.nsym, ftsym := s.ftsym, ftcnt := s.ftcnt }

/-- What the whole invariant (`State.BuildInv`) reads of the state. -/
structure BuildView where
  table : TableView
  pqV : Bool
  codesV : Bool
  nnodes : Word
  root : Word
  pqn : Word
  ncodes : Word
  node : Memory
  pq : Memory

/-- The invariant's view of a state. -/
def State.buildView (s : State) : BuildView :=
  { table := s.tableView, pqV := s.pqV, codesV := s.codesV, nnodes := s.nnodes, root := s.root, pqn := s.pqn,
    ncodes := s.ncodes, node := s.node, pq := s.pq }

/-- A state with the same table meets the table's facts too. -/
theorem State.TableInv.of_tableView {s t : State} (h : s.TableInv) (hv : t.tableView = s.tableView) : t.TableInv := by
  cases s
  cases t
  simp only [State.tableView, TableView.mk.injEq] at hv
  obtain ⟨rfl, rfl, rfl, rfl, rfl, rfl⟩ := hv
  exact { h with }

theorem State.regs_of_tableView {s t : State} (hv : t.tableView = s.tableView) :
    t.params = s.params ∧ t.freqV = s.freqV ∧ t.nsym = s.nsym :=
  ⟨congrArg TableView.params hv, congrArg TableView.freqV hv, congrArg TableView.nsym hv⟩

theorem State.countSum_of_tableView {s t : State} (hv : t.tableView = s.tableView) : t.countSum = s.countSum := by
  cases s
  cases t
  simp only [State.tableView, TableView.mk.injEq] at hv
  obtain ⟨rfl, rfl, rfl, rfl, rfl, rfl⟩ := hv
  rfl

/-- A state with the same view meets the invariant too. -/
theorem State.BuildInv.of_buildView {s t : State} (h : s.BuildInv) (hv : t.buildView = s.buildView) : t.BuildInv := by
  cases s
  cases t
  simp only [State.buildView, State.tableView, BuildView.mk.injEq, TableView.mk.injEq] at hv
  obtain ⟨⟨rfl, rfl, rfl, rfl, rfl, rfl⟩, rfl, rfl, rfl, rfl, rfl, rfl, rfl, rfl⟩ := hv
  exact ⟨h.params_valid, { h.table with }, { h.stage with }⟩

/-- The memories the invariant reads: the table, the tree and the queue. -/
def Space.inBuildView (sp : Space) : Bool := sp == .ftsym || sp == .ftcnt || sp == .node || sp == .pq

theorem State.buildView_setMemory (s : State) {sp : Space} (m : Memory) (h : sp.inBuildView = false) :
    (s.setMemory sp m).buildView = s.buildView := by
  cases sp <;> first | rfl | cases h

@[simp] theorem State.buildView_setOperandReg (s : State) (r : Reg) (d : Word) :
    (s.setOperandReg r d).buildView = s.buildView := by
  cases r <;> rfl

theorem State.buildView_writeSeq (s : State) {sp : Space} (b : Nat) (vs : List Word) (h : sp.inBuildView = false) :
    (s.writeSeq sp b vs).buildView = s.buildView := by
  obtain ⟨m, hm⟩ := s.writeSeq_eq_setMemory sp b vs
  rw [hm, State.buildView_setMemory _ _ h]

theorem State.buildView_writeCode (s : State) (i : Nat) (p : List Bool) :
    (s.writeCode i p).buildView = s.buildView := by
  rw [State.writeCode, State.buildView_writeSeq _ _ _ rfl]
  exact s.buildView_setMemory _ rfl

theorem State.buildView_writePathCodes (s : State) (n : Nat) : (s.writePathCodes n).buildView = s.buildView := by
  induction n with
  | zero => rfl
  | succ n ih => rw [State.writePathCodes_succ, State.buildView_writeCode, ih]

/-! ### Nothing built -/

/-- No table, no queue, no codebook, every register of the tree builder at its reset value (R58). -/
structure State.NothingBuilt (s : State) : Prop where
  freqV : s.freqV = false
  pqV : s.pqV = false
  codesV : s.codesV = false
  nsym : s.nsym = 0#32
  nnodes : s.nnodes = 0#32
  root : s.root = nullIndex
  pqn : s.pqn = 0#32
  ncodes : s.ncodes = 0#32

theorem State.queue_of_pqn_zero {s : State} (h : s.pqn = 0#32) : s.queue = [] :=
  List.eq_nil_of_length_eq_zero (by simp [h])

/-- A state whose queue is not valid meets R57 as soon as its tree registers and codebook are empty (R57 (a) to (f)). -/
theorem State.stageInv_of_no_queue {s : State} (hpq : s.pqV = false) (hc : s.codesV = false)
    (hn : s.nnodes = 0#32) (hr : s.root = nullIndex) (hq : s.pqn = 0#32) (hnc : s.ncodes = 0#32)
    (ht : s.freqV = false → s.nsym = 0#32) : s.StageInv where
  queue_needs_table := by simp [hpq]
  codes_need_tree := by simp [hc]
  no_queue _ := ⟨hq, hn, hr⟩
  node_count := by simp [hpq]
  queue_nonempty := by simp [hpq]
  queue_empty := by simp [hpq]
  root_iff := by simp [hpq, hr]
  root_value := by simp [hpq]
  no_codes _ := hnc
  all_codes := by simp [hc]
  no_table := ht
  freq_sum := by simp [hpq]
  queue_below := by simp [State.queue_of_pqn_zero hq]
  queue_sorted := by simp [State.queue_of_pqn_zero hq]
  leaves_exist := by simp [hpq]
  kinds := by simp [hpq]

/-- With nothing built R57 holds, whatever the memories hold. -/
theorem State.NothingBuilt.buildInv {s : State} (h : s.NothingBuilt) (hp : s.params.valid = true) : s.BuildInv where
  params_valid := hp
  table :=
    { bound := by simp [h.nsym]
      ascending := by simp [h.nsym, State.readSeq]
      positive := by simp [h.nsym, State.readSeq]
      total := by simp [h.nsym, State.readSeq, State.countSum] }
  stage := State.stageInv_of_no_queue h.pqV h.codesV h.nnodes h.root h.pqn h.ncodes (fun _ => h.nsym)

theorem State.reset_nothingBuilt : State.reset.NothingBuilt := ⟨rfl, rfl, rfl, rfl, rfl, rfl, rfl, rfl⟩

theorem State.resetRegisters_nothingBuilt (s : State) : s.resetRegisters.NothingBuilt :=
  ⟨rfl, rfl, rfl, rfl, rfl, rfl, rfl, rfl⟩

theorem State.applyReset_nothingBuilt (s : State) : s.applyReset.NothingBuilt :=
  ⟨rfl, rfl, rfl, rfl, rfl, rfl, rfl, rfl⟩

/-! ### Bounds -/

/-- No number of symbols, nodes or characters comes near 2^32 (R5). -/
theorem Params.bounds {p : Params} (h : p.valid = true) : p.nsymMax ≤ 16384 ∧ p.textMax ≤ 2 ^ 28 := by
  simp only [Params.valid, Params.nsymMaxOk, Params.textMaxOk, Bool.and_eq_true, decide_eq_true_eq] at h
  omega

/-! ### FREQ -/

/-- The distinct symbols of the text in `TEXT` (R125). -/
def State.textSymbols (s : State) : List Word := distinctSymbols s.textSeq

/-- How often each of them occurs (R125). -/
def State.textCounts (s : State) : List Word := s.textSymbols.map (fun x => BitVec.ofNat 32 (s.textSeq.count x))

/-- The state `FREQ` leaves (R125). -/
def State.counted (s : State) : State :=
  { (s.writeSeq .ftsym 0 s.textSymbols).writeSeq .ftcnt 0 s.textCounts with
    nsym := BitVec.ofNat 32 s.textSymbols.length
    freqV := true, pqV := false, codesV := false
    pqn := 0#32, nnodes := 0#32, root := nullIndex, ncodes := 0#32 }

/-- `FREQ` completes when the text fits `TEXT` and its symbols fit the table (R125). -/
theorem freqBody_ok_iff {s t : State} :
    freqBody s = .ok t ↔
      s.tlen.toNat ≤ s.params.textMax ∧ s.textSymbols.length ≤ s.params.nsymMax ∧ t = s.counted := by
  have hbody : freqBody s = if s.params.textMax < s.tlen.toNat then .error (.badParam .tlen)
    else if s.params.nsymMax < s.textSymbols.length then .error (.capacity .symbols) else .ok s.counted := rfl
  rw [hbody]
  split_ifs with htext hsyms
  · simp [htext]
  · simp [hsyms]
  · simp [Nat.not_lt.mp htext, Nat.not_lt.mp hsyms, eq_comm (a := t)]

@[simp] theorem State.length_textSeq (s : State) : s.textSeq.length = s.tlen.toNat := by simp [State.textSeq]

@[simp] theorem State.length_textCounts (s : State) : s.textCounts.length = s.textSymbols.length := by
  simp [State.textCounts]

/-- The symbols of the text fit `SYMW`. -/
theorem State.truncTo_textSymbols (s : State) : s.textSymbols.map (truncTo s.params.symW) = s.textSymbols := by
  have hfits : ∀ x ∈ s.textSymbols, truncTo s.params.symW x = x := by
    intro x hx
    obtain ⟨i, -, rfl⟩ := State.mem_readSeq.mp (mem_distinctSymbols.mp hx)
    exact s.truncTo_readElem .text i
  rw [List.map_congr_left hfits, List.map_id']

/-- The count of a symbol is a 32-bit number. -/
theorem State.toNat_count (s : State) (x : Word) :
    (BitVec.ofNat 32 (s.textSeq.count x)).toNat = s.textSeq.count x := by
  rw [BitVec.toNat_ofNat, Nat.mod_eq_of_lt]
  calc s.textSeq.count x ≤ s.textSeq.length := List.count_le_length
    _ = s.tlen.toNat := s.length_textSeq
    _ < 2 ^ 32 := s.tlen.isLt

/-- The counts add up to the length of the text. -/
theorem State.sum_textCounts (s : State) : (s.textCounts.map BitVec.toNat).sum = s.tlen.toNat := by
  calc (s.textCounts.map BitVec.toNat).sum
      = (s.textSymbols.map (fun x => s.textSeq.count x)).sum := by
        simp only [State.textCounts, List.map_map, Function.comp_def, State.toNat_count]
    _ = (s.textSeq.dedup.map (fun x => s.textSeq.count x)).sum :=
        ((perm_distinctSymbols s.textSeq).map _).sum_eq
    _ = s.tlen.toNat := by rw [List.sum_map_count_dedup_eq_length, State.length_textSeq]

theorem State.counted_ftsym (s : State) : s.counted.readSeq .ftsym s.textSymbols.length = s.textSymbols := by
  have hframe : s.counted.readSeq .ftsym s.textSymbols.length
      = (s.writeSeq .ftsym 0 s.textSymbols).readSeq .ftsym s.textSymbols.length :=
    State.readSeq_congr fun i _ =>
      State.readElem_writeSeq_other (s.writeSeq .ftsym 0 s.textSymbols) (sp := .ftcnt) (by simp)
  rw [hframe, s.readSeq_writeSeq .ftsym _ s.params.symW (fun _ => rfl), State.truncTo_textSymbols]

theorem State.counted_ftcnt (s : State) : s.counted.readSeq .ftcnt s.textSymbols.length = s.textCounts := by
  have h := (s.writeSeq .ftsym 0 s.textSymbols).readSeq_writeSeq .ftcnt s.textCounts 32 (fun _ => rfl)
  rw [State.length_textCounts] at h
  calc s.counted.readSeq .ftcnt s.textSymbols.length = s.textCounts.map (truncTo 32) := h
    _ = s.textCounts := by rw [funext truncTo_32, List.map_id']

/-- `FREQ` leaves a frequency table (R125), and nothing built on it (R57 (b), (e)). -/
theorem State.BuildInv.after_freq {s t : State} (h : s.BuildInv) (hb : freqBody s = .ok t) : t.BuildInv := by
  obtain ⟨htext, hsyms, rfl⟩ := freqBody_ok_iff.mp hb
  have hp : s.counted.params = s.params := by simp [State.counted]
  have hlen : s.counted.nsym.toNat = s.textSymbols.length := by
    have := Params.bounds h.params_valid
    simp only [State.counted, BitVec.toNat_ofNat]
    omega
  refine ⟨hp ▸ h.params_valid, ⟨?_, ?_, ?_, ?_⟩,
    State.stageInv_of_no_queue rfl rfl rfl rfl rfl rfl (fun hf => nomatch hf)⟩
  · rw [hlen, hp]; exact hsyms
  · rw [hlen, State.counted_ftsym]; exact sorted_distinctSymbols _
  · rw [hlen, State.counted_ftcnt]
    intro c hc
    obtain ⟨x, hx, rfl⟩ := List.mem_map.mp hc
    rw [State.toNat_count]
    exact List.count_pos_iff.mpr (mem_distinctSymbols.mp hx)
  · rw [State.countSum, hlen, State.counted_ftcnt, State.sum_textCounts, hp]
    exact htext

/-! ### While a tree is built -/

/-- What `PQINIT` and every `MERGE` leave (R127, R129): R57 (c), (g), (h) for a valid queue, no codebook, `ROOT` taken
from the queue, and the node made last still in the queue. -/
structure State.Building (s : State) : Prop where
  freqV : s.freqV = true
  pqV : s.pqV = true
  codesV : s.codesV = false
  ncodes : s.ncodes = 0#32
  node_count : s.pqn.toNat + s.nnodes.toNat = 2 * s.nsym.toNat
  queue_nonempty : 1 ≤ s.nsym.toNat → 1 ≤ s.pqn.toNat
  root : s.root = s.rootFromQueue
  newest_queued : 1 ≤ s.nsym.toNat → ∃ j ∈ s.queue, j.toNat + 1 = s.nnodes.toNat
  freq_sum : s.freqSum s.queue = s.countSum
  queue_below : ∀ j ∈ s.queue, j.toNat < s.nnodes.toNat
  queue_sorted : s.queue.Pairwise (fun i j => s.keyBefore i j = true)
  leaves_exist : s.nsym.toNat ≤ s.nnodes.toNat
  kinds : ∀ n, n < s.nnodes.toNat → (s.nodeInternal n = false ↔ n < s.nsym.toNat)

/-- A queue of one entry is `PQ[0]`. -/
theorem State.queue_of_pqn_one {s : State} (h : s.pqn = 1#32) : s.queue = [s.readElem .pq 0] := by
  have hlen := s.length_queue
  rw [s.queue_cons (by simp [h]), h] at hlen
  rw [s.queue_cons (by simp [h]), List.cons.injEq]
  exact ⟨rfl, List.eq_nil_of_length_eq_zero (by simpa using hlen)⟩

/-- With one entry left the queue holds the node made last (R57 (d)). -/
theorem State.Building.root_eq {s : State} (h : s.Building) (h1 : s.pqn = 1#32) :
    s.root = s.readElem .pq 0 ∧ s.root.toNat + 1 = s.nnodes.toNat := by
  have hroot : s.root = s.readElem .pq 0 := by rw [h.root, State.rootFromQueue, if_pos h1]
  have hone : s.pqn.toNat = 1 := by rw [h1]; rfl
  have hcount := h.node_count
  obtain ⟨j, hj, hnew⟩ := h.newest_queued (by omega)
  rw [State.queue_of_pqn_one h1, List.mem_singleton] at hj
  exact ⟨hroot, by rw [hroot, ← hj, hnew]⟩

/-- Building a tree keeps R57. -/
theorem State.Building.stageInv {s : State} (h : s.Building) : s.StageInv where
  queue_needs_table _ := h.freqV
  codes_need_tree := by simp [h.codesV]
  no_queue := by simp [h.pqV]
  node_count _ := h.node_count
  queue_nonempty _ := h.queue_nonempty
  queue_empty _ h0 := by
    have hzero : s.nsym.toNat = 0 := by rw [h0]; rfl
    have hcount := h.node_count
    exact BitVec.eq_of_toNat_eq (show s.pqn.toNat = 0 by omega)
  root_iff := by
    constructor
    · intro hr
      refine ⟨h.pqV, by_contra fun hne => hr ?_⟩
      rw [h.root, State.rootFromQueue, if_neg hne]
    · rintro ⟨-, h1⟩ hnull
      have hlast := (h.root_eq h1).2
      have hmax : s.root.toNat = 2 ^ 32 - 1 := by rw [hnull]; rfl
      have hlt := s.nnodes.isLt
      omega
  root_value _ h1 := by
    obtain ⟨hroot, hlast⟩ := h.root_eq h1
    have hone : s.pqn.toNat = 1 := by rw [h1]; rfl
    have hcount := h.node_count
    exact ⟨hroot, hlast, by omega⟩
  no_codes _ := h.ncodes
  all_codes := by simp [h.codesV]
  no_table := by simp [h.freqV]
  freq_sum _ := h.freq_sum
  queue_below := h.queue_below
  queue_sorted := h.queue_sorted
  leaves_exist _ := h.leaves_exist
  kinds _ := h.kinds

/-! ### Sums of frequencies -/

theorem State.freqSum_cons (s : State) (j : Word) (q : List Word) :
    s.freqSum (j :: q) = (s.nodeFreq j.toNat).toNat + s.freqSum q := by
  simp [State.freqSum]

theorem State.freqSum_perm (s : State) {q q' : List Word} (h : q.Perm q') : s.freqSum q = s.freqSum q' :=
  (h.map _).sum_eq

theorem State.freqSum_congr {s t : State} {q : List Word}
    (h : ∀ j ∈ q, t.nodeFreq j.toNat = s.nodeFreq j.toNat) : t.freqSum q = s.freqSum q := by
  unfold State.freqSum
  rw [List.map_congr_left (fun j hj => congrArg BitVec.toNat (h j hj))]

/-! ### The registers the tree builder sets -/

/-- `ROOT` taken from the queue, the end of `PQINIT` and `MERGE` (R33). -/
def State.loadRoot (s : State) : State := { s with root := s.rootFromQueue }

/-- `NNODES` set. -/
def State.withNnodes (s : State) (k : Word) : State := { s with nnodes := k }

/-- The queue emptied, as `PQINIT` begins (R127). -/
def State.emptyQueue (s : State) : State := { s with pqn := 0#32 }

/-- The queue marked valid and the codebook dropped, as `PQINIT` ends (R127). -/
def State.markQueued (s : State) : State := { s with pqV := true, codesV := false, ncodes := 0#32 }

@[simp] theorem State.loadRoot_tableView (s : State) : s.loadRoot.tableView = s.tableView := rfl
@[simp] theorem State.loadRoot_pqV (s : State) : s.loadRoot.pqV = s.pqV := rfl
@[simp] theorem State.loadRoot_codesV (s : State) : s.loadRoot.codesV = s.codesV := rfl
@[simp] theorem State.loadRoot_ncodes (s : State) : s.loadRoot.ncodes = s.ncodes := rfl
@[simp] theorem State.loadRoot_nnodes (s : State) : s.loadRoot.nnodes = s.nnodes := rfl
@[simp] theorem State.loadRoot_pqn (s : State) : s.loadRoot.pqn = s.pqn := rfl
@[simp] theorem State.loadRoot_queue (s : State) : s.loadRoot.queue = s.queue := rfl
theorem State.loadRoot_root (s : State) : s.loadRoot.root = s.loadRoot.rootFromQueue := rfl
@[simp] theorem State.loadRoot_readNode (s : State) (n : Nat) : s.loadRoot.readNode n = s.readNode n := rfl
@[simp] theorem State.loadRoot_keyBefore (s : State) (i j : Word) : s.loadRoot.keyBefore i j = s.keyBefore i j := rfl

@[simp] theorem State.withNnodes_tableView (s : State) (k : Word) : (s.withNnodes k).tableView = s.tableView := rfl
@[simp] theorem State.withNnodes_pqV (s : State) (k : Word) : (s.withNnodes k).pqV = s.pqV := rfl
@[simp] theorem State.withNnodes_codesV (s : State) (k : Word) : (s.withNnodes k).codesV = s.codesV := rfl
@[simp] theorem State.withNnodes_ncodes (s : State) (k : Word) : (s.withNnodes k).ncodes = s.ncodes := rfl
@[simp] theorem State.withNnodes_nnodes (s : State) (k : Word) : (s.withNnodes k).nnodes = k := rfl
@[simp] theorem State.withNnodes_pqn (s : State) (k : Word) : (s.withNnodes k).pqn = s.pqn := rfl
@[simp] theorem State.withNnodes_queue (s : State) (k : Word) : (s.withNnodes k).queue = s.queue := rfl
@[simp] theorem State.withNnodes_readNode (s : State) (k : Word) (n : Nat) :
    (s.withNnodes k).readNode n = s.readNode n := rfl

@[simp] theorem State.emptyQueue_tableView (s : State) : s.emptyQueue.tableView = s.tableView := rfl
@[simp] theorem State.emptyQueue_pqn (s : State) : s.emptyQueue.pqn = 0#32 := rfl
@[simp] theorem State.emptyQueue_readElem (s : State) (sp : Space) (i : Nat) :
    s.emptyQueue.readElem sp i = s.readElem sp i := State.readElem_congr rfl rfl (by cases sp <;> rfl) i

@[simp] theorem State.markQueued_tableView (s : State) : s.markQueued.tableView = s.tableView := rfl
@[simp] theorem State.markQueued_nnodes (s : State) : s.markQueued.nnodes = s.nnodes := rfl
@[simp] theorem State.markQueued_pqn (s : State) : s.markQueued.pqn = s.pqn := rfl
@[simp] theorem State.markQueued_queue (s : State) : s.markQueued.queue = s.queue := rfl
@[simp] theorem State.markQueued_pqV (s : State) : s.markQueued.pqV = true := rfl
@[simp] theorem State.markQueued_codesV (s : State) : s.markQueued.codesV = false := rfl
@[simp] theorem State.markQueued_ncodes (s : State) : s.markQueued.ncodes = 0#32 := rfl
@[simp] theorem State.markQueued_readNode (s : State) (n : Nat) : s.markQueued.readNode n = s.readNode n := rfl
@[simp] theorem State.markQueued_keyBefore (s : State) (i j : Word) :
    s.markQueued.keyBefore i j = s.keyBefore i j := rfl

/-! ### The table under writes of the queue and of nodes -/

/-- A write to any memory but those of the table leaves the table alone. -/
theorem State.tableView_writeSeq (s : State) {sp : Space} (b : Nat) (vs : List Word) (h₁ : sp ≠ .ftsym)
    (h₂ : sp ≠ .ftcnt) : (s.writeSeq sp b vs).tableView = s.tableView := by
  obtain ⟨m, hm⟩ := s.writeSeq_eq_setMemory sp b vs
  rw [hm]
  cases sp <;> first | rfl | contradiction

@[simp] theorem State.tableView_setQueue (s : State) (q : List Word) : (s.setQueue q).tableView = s.tableView :=
  s.tableView_writeSeq (sp := .pq) 0 q (by decide) (by decide)

@[simp] theorem State.tableView_pqInsert (s : State) (i : Word) : (s.pqInsert i).tableView = s.tableView :=
  s.tableView_setQueue _

@[simp] theorem State.tableView_writeNode (s : State) (n : Nat) (x : Node) :
    (s.writeNode n x).tableView = s.tableView :=
  s.tableView_writeSeq (sp := .node) _ _ (by decide) (by decide)

@[simp] theorem State.tableView_writeLeaves (s : State) (n : Nat) : (s.writeLeaves n).tableView = s.tableView := by
  induction n with
  | zero => rfl
  | succ n ih => rw [State.writeLeaves_succ, State.tableView_writeNode, ih]

@[simp] theorem State.tableView_insertLeaves (s : State) (n : Nat) : (s.insertLeaves n).tableView = s.tableView := by
  induction n with
  | zero => rfl
  | succ n ih => rw [State.insertLeaves_succ, State.tableView_pqInsert, ih]

/-! ### PQINIT -/

@[simp] theorem State.writeLeaves_pqn (s : State) (n : Nat) : (s.writeLeaves n).pqn = s.pqn := by
  induction n with
  | zero => rfl
  | succ n ih => rw [State.writeLeaves_succ, State.writeNode_pqn, ih]

@[simp] theorem State.insertLeaves_nnodes (s : State) (n : Nat) : (s.insertLeaves n).nnodes = s.nnodes := by
  induction n with
  | zero => rfl
  | succ n ih => rw [State.insertLeaves_succ, State.pqInsert_nnodes, ih]

/-- The leaves written, the queue still empty (R127). -/
def State.withLeaves (s : State) : State := (s.emptyQueue.writeLeaves s.nsym.toNat).withNnodes s.nsym

/-- The state `PQINIT` leaves, but for `W_EMPTY` (R127). -/
def State.queued (s : State) : State := (s.withLeaves.insertLeaves s.nsym.toNat).loadRoot.markQueued

theorem pqinitBody_ok_iff {w : Word} {s t : State} :
    pqinitBody w s = .ok t ↔ s.freqV = true ∧ t = s.queued.warnEmpty := by
  have hbody : pqinitBody w s = if !s.freqV then .error (.badSequence w) else .ok s.queued.warnEmpty := rfl
  rw [hbody]
  cases hf : s.freqV with
  | false => simp
  | true => simp [eq_comm (a := t)]

/-- `PQINIT` leaves the table alone (R127). -/
@[simp] theorem State.tableView_queued (s : State) : s.queued.tableView = s.tableView := by
  simp [State.queued, State.withLeaves]

@[simp] theorem State.queued_nnodes (s : State) : s.queued.nnodes = s.nsym := by
  simp [State.queued, State.withLeaves]

/-- The nodes `PQINIT` leaves are the leaves of the table (R127). -/
theorem State.readNode_queued (s : State) {i : Nat} (h : i < s.nsym.toNat) :
    s.queued.readNode i = leafNode (s.readElem .ftsym i) (s.readElem .ftcnt i) := by
  simp [State.queued, State.withLeaves, State.readNode_writeLeaves _ h]

/-- The queue `PQINIT` leaves holds every leaf once, in key order (R127). -/
theorem State.queue_queued (s : State) :
    s.queued.queue.Perm ((List.range s.nsym.toNat).map (BitVec.ofNat 32))
      ∧ s.queued.queue.Pairwise (fun i j => s.queued.keyBefore i j = true)
      ∧ s.queued.pqn.toNat = s.nsym.toNat := by
  have hempty : s.withLeaves.pqn = 0#32 := by simp [State.withLeaves]
  have hload := s.withLeaves.queue_insertLeaves hempty s.nsym.isLt
  simpa [State.queued] using hload

/-- The entries of the loaded queue are the numbers of the leaves. -/
theorem State.mem_queue_queued {s : State} {j : Word} : j ∈ s.queued.queue ↔ j.toNat < s.nsym.toNat := by
  have hn := s.nsym.isLt
  rw [s.queue_queued.1.mem_iff, List.mem_map]
  constructor
  · rintro ⟨i, hi, rfl⟩
    rw [List.mem_range] at hi
    rw [BitVec.toNat_ofNat]
    omega
  · exact fun h => ⟨j.toNat, List.mem_range.mpr h, BitVec.ofNat_toNat _ _ |>.trans (by simp)⟩

/-- The queued frequencies are the counts of the table (R57 (g)). -/
theorem State.freqSum_queued (s : State) : s.queued.freqSum s.queued.queue = s.countSum := by
  have hn := s.nsym.isLt
  rw [State.freqSum_perm _ s.queue_queued.1]
  unfold State.freqSum State.countSum State.readSeq
  rw [List.map_map, List.map_map]
  refine congrArg List.sum (List.map_congr_left fun i hi => ?_)
  rw [List.mem_range] at hi
  have hfreq : s.queued.nodeFreq i = s.readElem .ftcnt i := congrArg Node.freq (s.readNode_queued hi)
  have hi' : (BitVec.ofNat 32 i).toNat = i := by rw [BitVec.toNat_ofNat]; omega
  simp only [Function.comp_apply, hi', hfreq]

/-- `PQINIT` begins the building of a tree (R127). -/
theorem State.queued_building {s : State} (hf : s.freqV = true) : s.queued.Building := by
  have htable := s.tableView_queued
  obtain ⟨-, hfreq, hn⟩ := State.regs_of_tableView htable
  have hnodes := s.queued_nnodes
  obtain ⟨-, hsorted, hlen⟩ := s.queue_queued
  exact
    { freqV := hfreq.trans hf
      pqV := State.markQueued_pqV _
      codesV := State.markQueued_codesV _
      ncodes := State.markQueued_ncodes _
      node_count := by rw [hlen, hnodes, hn]; omega
      queue_nonempty := by rw [hlen, hn]; exact id
      root := rfl
      newest_queued := by
        rw [hn, hnodes]
        intro h1
        have hlt := s.nsym.isLt
        have hlast : (BitVec.ofNat 32 (s.nsym.toNat - 1)).toNat = s.nsym.toNat - 1 := by
          rw [BitVec.toNat_ofNat]; omega
        exact ⟨BitVec.ofNat 32 (s.nsym.toNat - 1), State.mem_queue_queued.mpr (by omega), by omega⟩
      freq_sum := by rw [State.freqSum_queued, State.countSum_of_tableView htable]
      queue_below := fun j hj => by rw [hnodes]; exact State.mem_queue_queued.mp hj
      queue_sorted := hsorted
      leaves_exist := by rw [hn, hnodes]
      kinds := by
        rw [hn, hnodes]
        intro i hi
        have hleaf : s.queued.nodeInternal i = false := congrArg Node.internal (s.readNode_queued hi)
        simp [hleaf, hi] }

/-- `PQINIT` keeps the invariant. -/
theorem State.BuildInv.after_pqinit {w : Word} {s t : State} (h : s.BuildInv) (hb : pqinitBody w s = .ok t) :
    t.BuildInv := by
  obtain ⟨hf, rfl⟩ := pqinitBody_ok_iff.mp hb
  obtain ⟨hp, -, -⟩ := State.regs_of_tableView s.tableView_queued
  have hq : s.queued.BuildInv :=
    ⟨hp ▸ h.params_valid, h.table.of_tableView s.tableView_queued, (State.queued_building hf).stageInv⟩
  exact hq.of_buildView rfl

/-! ### MERGE -/

/-- `a` and `b` taken from the queue, which leaves `q`, and the new node over them written (R129). -/
def State.joining (s : State) (a b : Word) (q : List Word) : State :=
  (((s.setQueue (b :: q)).setQueue q).writeNode s.nnodes.toNat
    (internalNode (s.nodeFreq a.toNat + s.nodeFreq b.toNat) a b)).withNnodes (s.nnodes + 1#32)

/-- The state `MERGE` leaves when it takes `a` and `b` from the queue `a :: b :: q` (R129). -/
def State.joined (s : State) (a b : Word) (q : List Word) : State := ((s.joining a b q).pqInsert s.nnodes).loadRoot

/-- Everything a `MERGE` that completes does (R129). -/
theorem mergeBody_ok_cases {w : Word} {s t : State} (h : mergeBody w s = .ok t) :
    s.pqV = true ∧ ∃ a b q, s.queue = a :: b :: q ∧ t = s.joined a b q := by
  have hbody : mergeBody w s = if !(s.pqV && 2 ≤ s.pqn.toNat) then .error (.badSequence w) else
      .ok (((s.pqPop.2.pqPop.2.writeNode s.nnodes.toNat
        (internalNode (s.nodeFreq s.pqPop.1.toNat + s.nodeFreq s.pqPop.2.pqPop.1.toNat) s.pqPop.1
          s.pqPop.2.pqPop.1)).withNnodes (s.nnodes + 1#32)).pqInsert s.nnodes).loadRoot := rfl
  rw [hbody] at h
  split at h
  · cases h
  · rename_i hc
    simp only [Bool.not_eq_true', Bool.not_eq_false, Bool.and_eq_true, decide_eq_true_eq] at hc
    obtain ⟨hv, h2⟩ := hc
    have hlen := s.length_queue
    match hq : s.queue with
    | [] => rw [hq, List.length_nil] at hlen; omega
    | [a] => rw [hq, List.length_singleton] at hlen; omega
    | a :: b :: q =>
      obtain ⟨ha, hrest, hqrest⟩ := s.pqPop_cons hq
      obtain ⟨hb, hrest', -⟩ := s.pqPop.2.pqPop_cons hqrest
      rw [hb, hrest', ha, hrest] at h
      exact ⟨hv, a, b, q, rfl, (Except.ok.inj h).symm⟩

/-- `MERGE` leaves the table alone (R129). -/
@[simp] theorem State.tableView_joined (s : State) (a b : Word) (q : List Word) :
    (s.joined a b q).tableView = s.tableView := by simp [State.joined, State.joining]

/-- Of the flags and counters of the tree builder, `MERGE` writes `NNODES` and `PQN` only (R129). -/
theorem State.joined_frame (s : State) (a b : Word) (q : List Word) :
    (s.joined a b q).pqV = s.pqV ∧ (s.joined a b q).codesV = s.codesV ∧ (s.joined a b q).ncodes = s.ncodes
      ∧ (s.joined a b q).nnodes = s.nnodes + 1#32 := by
  simp [State.joined, State.joining]

/-- The nodes after `MERGE`: the new one, and the others as they were (R129). -/
theorem State.readNode_joined (s : State) (a b : Word) (q : List Word) (n : Nat) :
    (s.joined a b q).readNode n =
      if n = s.nnodes.toNat then internalNode (s.nodeFreq a.toNat + s.nodeFreq b.toNat) a b else s.readNode n := by
  rw [State.joined, State.loadRoot_readNode, State.readNode_pqInsert, State.joining, State.withNnodes_readNode,
    State.readNode_merge _ _ _ (by simp [truncTo, internalNode]), State.readNode_setQueue, State.readNode_setQueue]

/-- The frequency of the new node is the sum of the two it joins; the others are as they were (R129). -/
theorem State.nodeFreq_joined (s : State) (a b : Word) (q : List Word) (n : Nat) :
    (s.joined a b q).nodeFreq n =
      if n = s.nnodes.toNat then s.nodeFreq a.toNat + s.nodeFreq b.toNat else s.nodeFreq n := by
  have h := congrArg Node.freq (s.readNode_joined a b q n)
  rw [apply_ite Node.freq] at h
  exact h

theorem State.nodeInternal_joined (s : State) (a b : Word) (q : List Word) (n : Nat) :
    (s.joined a b q).nodeInternal n = if n = s.nnodes.toNat then true else s.nodeInternal n := by
  have h := congrArg Node.internal (s.readNode_joined a b q n)
  rw [apply_ite Node.internal] at h
  exact h

@[simp] theorem State.queue_writeNode (s : State) (n : Nat) (x : Node) : (s.writeNode n x).queue = s.queue := by
  unfold State.queue
  rw [State.writeNode_pqn]
  exact State.readSeq_congr fun _ _ => s.readElem_writeNode_other (by simp)

/-- The queue before the new node enters it (R129). -/
theorem State.queue_joining (s : State) (a b : Word) {q : List Word} (h : q.length < 2 ^ 32) :
    (s.joining a b q).queue = q := by
  rw [State.joining, State.withNnodes_queue, State.queue_writeNode, State.queue_setQueue _ h]

/-- The queue after `MERGE`: the new node in place of the two it joins, in key order (R129). -/
theorem State.queue_joined (s : State) (a b : Word) {q : List Word} (hlen : q.length + 1 < 2 ^ 32)
    (hnew : s.nnodes ∉ q) (hs : q.Pairwise (fun i j => s.keyBefore i j = true)) :
    (s.joined a b q).queue.Perm (s.nnodes :: q)
      ∧ (s.joined a b q).queue.Pairwise (fun i j => (s.joined a b q).keyBefore i j = true)
      ∧ (s.joined a b q).pqn.toNat = q.length + 1 := by
  have hq := s.queue_joining a b (q := q) (by omega)
  have hpqn : (s.joining a b q).pqn.toNat = q.length := by rw [← State.length_queue, hq]
  have hroom : (s.joining a b q).pqn.toNat + 1 < 2 ^ 32 := by omega
  have hkey : ∀ i j, (s.joined a b q).keyBefore i j = (s.joining a b q).keyBefore i j :=
    fun i j => by rw [State.joined, State.loadRoot_keyBefore, State.keyBefore_pqInsert]
  have hold : ∀ j ∈ q, (s.joined a b q).nodeFreq j.toNat = s.nodeFreq j.toNat := by
    intro j hj
    rw [State.nodeFreq_joined, if_neg (fun hc => hnew ((BitVec.eq_of_toNat_eq hc : j = s.nnodes) ▸ hj))]
  have hsorted : (s.joining a b q).queue.Pairwise (fun i j => (s.joining a b q).keyBefore i j = true) := by
    rw [hq]
    refine hs.imp_of_mem fun {i j} hi hj hij => ?_
    rw [← hkey, State.keyBefore_congr (hold i hi) (hold j hj)]
    exact hij
  refine ⟨?_, ?_, ?_⟩
  · have hperm := State.perm_pqInsert _ s.nnodes hroom
    rw [hq] at hperm
    rw [State.joined, State.loadRoot_queue]
    exact hperm
  · have hins := State.sorted_pqInsert _ s.nnodes hroom (by rwa [hq]) hsorted
    simp only [State.joined, State.loadRoot_queue, State.loadRoot_keyBefore]
    exact hins
  · rw [State.joined, State.loadRoot_pqn, State.pqn_pqInsert _ _ hroom, hpqn]

/-- `MERGE` joins two nodes, so that the sum of the queued frequencies stays (R57 (g)). -/
theorem State.freqSum_joined (s : State) {a b : Word} {q : List Word} (hnew : s.nnodes ∉ q)
    (hfit : s.freqSum (a :: b :: q) < 2 ^ 32) (hperm : (s.joined a b q).queue.Perm (s.nnodes :: q)) :
    (s.joined a b q).freqSum (s.joined a b q).queue = s.freqSum (a :: b :: q) := by
  rw [State.freqSum_cons, State.freqSum_cons] at hfit ⊢
  have hrest : (s.joined a b q).freqSum q = s.freqSum q := by
    refine State.freqSum_congr fun j hj => ?_
    rw [State.nodeFreq_joined, if_neg (fun hc => hnew ((BitVec.eq_of_toNat_eq hc : j = s.nnodes) ▸ hj))]
  rw [State.freqSum_perm _ hperm, State.freqSum_cons, hrest, State.nodeFreq_joined, if_pos rfl, BitVec.toNat_add]
  omega

/-- While two nodes are queued there is no codebook (R57 (a)). -/
theorem State.StageInv.codesV_eq_false {s : State} (h : s.StageInv) (hv : s.pqV = true) (h2 : 2 ≤ s.pqn.toNat) :
    s.codesV = false := by
  by_contra hc
  rcases (h.codes_need_tree (by simpa using hc)).2 with h1 | h0
  · simp [h1] at h2
  · simp [h.queue_empty hv h0] at h2

/-- `MERGE` goes on with the building of a tree: the counts keep in step (R57 (c)), the frequencies keep their sum (g),
and the new node is the greatest of the queue's entries (h). -/
theorem State.BuildInv.joined_building {s : State} (h : s.BuildInv) (hv : s.pqV = true) {a b : Word} {q : List Word}
    (hq : s.queue = a :: b :: q) : (s.joined a b q).Building := by
  obtain ⟨hpq, hcodes, hncodes, hnodes⟩ := s.joined_frame a b q
  have htable := s.tableView_joined a b q
  obtain ⟨-, hfreq, hn⟩ := State.regs_of_tableView htable
  obtain ⟨hsymMax, htextMax⟩ := Params.bounds h.params_valid
  have hlen : q.length + 2 = s.pqn.toNat := by rw [← State.length_queue, hq]; rfl
  have hcount := h.stage.node_count hv
  have hbound := h.table.bound
  have hbelow : ∀ j ∈ a :: b :: q, j.toNat < s.nnodes.toNat := hq ▸ h.stage.queue_below
  have hnew : s.nnodes ∉ q := fun hc => lt_irrefl _ (hbelow _ (by simp [hc]))
  have hsum : s.freqSum (a :: b :: q) = s.countSum := hq ▸ h.stage.freq_sum hv
  have htotal := h.table.total
  have hsorted := h.stage.queue_sorted
  rw [hq, List.pairwise_cons, List.pairwise_cons] at hsorted
  have hk : (s.nnodes + 1#32).toNat = s.nnodes.toNat + 1 := by
    rw [BitVec.toNat_add, show (1#32).toNat = 1 from rfl]
    omega
  obtain ⟨hperm, hsorted', hpqn⟩ := s.queue_joined a b (by omega) hnew hsorted.2.2
  have hleaves := h.stage.leaves_exist hv
  have hno := h.stage.codesV_eq_false hv (by omega)
  exact
    { freqV := hfreq.trans (h.stage.queue_needs_table hv)
      pqV := hpq.trans hv
      codesV := hcodes.trans hno
      ncodes := hncodes.trans (h.stage.no_codes hno)
      node_count := by rw [hpqn, hnodes, hk, hn]; omega
      queue_nonempty := fun _ => by omega
      root := State.loadRoot_root _
      newest_queued := fun _ => ⟨s.nnodes, hperm.mem_iff.mpr (by simp), by rw [hnodes, hk]⟩
      freq_sum := by
        rw [s.freqSum_joined hnew (by omega) hperm, hsum, State.countSum_of_tableView htable]
      queue_below := by
        intro j hj
        rw [hnodes, hk]
        rcases List.mem_cons.mp (hperm.mem_iff.mp hj) with rfl | hj
        · omega
        · have := hbelow j (by simp [hj]); omega
      queue_sorted := hsorted'
      leaves_exist := by rw [hn, hnodes, hk]; omega
      kinds := by
        intro n hlt
        rw [hnodes, hk] at hlt
        rw [hn, State.nodeInternal_joined]
        split
        · simp only [Bool.true_eq_false, false_iff]; omega
        · exact h.stage.kinds hv n (by omega) }

/-- `MERGE` keeps the invariant. -/
theorem State.BuildInv.after_merge {w : Word} {s t : State} (h : s.BuildInv) (hb : mergeBody w s = .ok t) :
    t.BuildInv := by
  obtain ⟨hv, a, b, q, hq, rfl⟩ := mergeBody_ok_cases hb
  have htable := s.tableView_joined a b q
  obtain ⟨hp, -, -⟩ := State.regs_of_tableView htable
  exact ⟨hp ▸ h.params_valid, h.table.of_tableView htable, (h.joined_building hv hq).stageInv⟩

/-! ### BUILD -/

/-- Rounds of `MERGE` keep the invariant. -/
theorem State.BuildInv.after_mergeLoop {w : Word} {rounds : Nat} {s t : State} (h : s.BuildInv)
    (hb : mergeLoop w rounds s = .ok t) : t.BuildInv := by
  induction rounds generalizing s with
  | zero => cases hb; exact h
  | succ rounds ih =>
    unfold mergeLoop at hb
    split at hb
    · split at hb
      · rename_i u hu
        exact ih (h.after_merge hu) hb
      · cases hb
    · cases hb; exact h

/-- `BUILD` keeps the invariant: it is `FREQ`, `PQINIT` and rounds of `MERGE` (R131). -/
theorem State.BuildInv.after_build {w : Word} {s t : State} (h : s.BuildInv) (hb : buildBody w s = .ok t) :
    t.BuildInv := by
  unfold buildBody at hb
  split at hb
  · cases hb
  · rename_i counted hcounted
    split at hb
    · cases hb
    · rename_i loaded hloaded
      exact ((h.after_freq hcounted).after_pqinit hloaded).after_mergeLoop hb

/-! ### GENCODES -/

/-- A codebook of `NSYM` codes may become valid as soon as the tree is complete or there is nothing to encode
(R57 (a), (e)). -/
theorem State.BuildInv.setCodes {s : State} (h : s.BuildInv) {n : Word} (hn : n = s.nsym)
    (htree : (s.treeV || s.noTree) = true) : ({ s with codesV := true, ncodes := n } : State).BuildInv := by
  have hready : s.pqV = true ∧ (s.pqn = 1#32 ∨ s.nsym = 0#32) := by
    simp only [State.treeV, State.noTree, ← Bool.and_or_distrib_left, Bool.and_eq_true, Bool.or_eq_true,
      beq_iff_eq] at htree
    exact htree
  exact ⟨h.params_valid, { h.table with },
    { h.stage with
      codes_need_tree := fun _ => hready
      no_codes := fun hc => nomatch hc
      all_codes := fun _ => hn }⟩

/-- A complete tree whose root is a leaf has one symbol (R57 (d), R48). -/
theorem State.StageInv.nsym_of_leaf_root {s : State} (h : s.StageInv) (ht : s.treeV = true)
    (hleaf : s.nodeInternal s.root.toNat = false) : s.nsym = 1#32 := by
  simp only [State.treeV, Bool.and_eq_true, beq_iff_eq] at ht
  obtain ⟨-, hlast, htwice⟩ := h.root_value ht.1 ht.2
  have hroot := (h.kinds ht.1 _ (by omega)).mp hleaf
  exact BitVec.eq_of_toNat_eq (show s.nsym.toNat = 1 by omega)

/-- Setting the registers of the codebook after writes that the invariant does not read. -/
theorem State.BuildInv.setCodes_of_buildView {s u : State} (h : s.BuildInv) (hv : u.buildView = s.buildView) {n : Word}
    (hn : n = s.nsym) (htree : (s.treeV || s.noTree) = true) :
    ({ u with codesV := true, ncodes := n } : State).BuildInv :=
  (h.setCodes hn htree).of_buildView (congrArg (fun v : BuildView => { v with codesV := true, ncodes := n }) hv)

/-- `GENCODES` keeps the invariant. -/
theorem State.BuildInv.after_gencodes {w : Word} {s t : State} (h : s.BuildInv) (hb : gencodesBody w s = .ok t) :
    t.BuildInv := by
  have hempty := s.buildView_writeSeq (sp := .cblen) 0 (List.replicate s.params.nsymMax 0#32) rfl
  unfold gencodesBody at hb
  split at hb
  · cases hb
  · rename_i hready
    rw [Bool.not_eq_true', Bool.not_eq_false] at hready
    dsimp only at hb
    split at hb
    · rename_i hnone
      simp only [State.noTree, Bool.and_eq_true, beq_iff_eq] at hnone
      cases hb
      exact h.setCodes_of_buildView hempty hnone.2.symm hready
    · rename_i hsome
      split at hb
      · rename_i hleaf
        cases hb
        have htree : s.treeV = true := by simpa [hsome] using hready
        exact h.setCodes_of_buildView ((State.buildView_writeCode _ _ _).trans hempty)
          (h.stage.nsym_of_leaf_root htree (by simpa using hleaf)).symm hready
      · cases hb
        exact h.setCodes_of_buildView ((State.buildView_writePathCodes _ _).trans hempty) rfl hready

/-! ### Commands that leave the tree builder alone -/

theorem State.buildView_warnUnknown (s : State) (n : Nat) : (s.warnUnknown n).buildView = s.buildView := rfl

theorem encodeBody_buildView {w : Word} {s t : State} (hb : encodeBody w s = .ok t) : t.buildView = s.buildView := by
  unfold encodeBody at hb
  split at hb
  · cases hb
  · split at hb
    · cases hb
    · dsimp only at hb
      split at hb
      · cases hb
      · cases hb
        exact (State.buildView_warnUnknown _ _).trans (s.buildView_writeSeq (sp := .enc) 0 _ rfl)

theorem decodeBody_buildView {w : Word} {src : Bool} {s t : State} (hb : decodeBody w src s = .ok t) :
    t.buildView = s.buildView := by
  unfold decodeBody at hb
  split at hb
  · cases hb
  · split at hb
    · cases hb
    · split at hb
      · split at hb
        · cases hb
        · cases hb; rfl
      · split at hb
        · cases hb
        · cases hb
          exact s.buildView_writeSeq (sp := .dec) 0 _ rfl

theorem permuteBody_buildView {s t : State} (hb : permuteBody s = .ok t) : t.buildView = s.buildView := by
  unfold permuteBody at hb
  dsimp only at hb
  split at hb
  · cases hb
  · split at hb
    · cases hb
    · split at hb
      · cases hb
      · cases hb
        exact s.buildView_writeSeq (sp := .perm) 0 _ rfl

theorem invertBody_buildView {trim : Bool} {s t : State} (hb : invertBody trim s = .ok t) :
    t.buildView = s.buildView := by
  unfold invertBody at hb
  dsimp only at hb
  split at hb
  · cases hb
  · split at hb
    · cases hb
    · split at hb
      · cases hb
      · split at hb
        · cases hb
        · cases hb
          exact s.buildView_writeSeq (sp := .inv) 0 _ rfl

/-! ### The step -/

/-- Every command that completes keeps the invariant. -/
theorem State.BuildInv.after_commandBody {i : Instr} {s t : State} (h : s.BuildInv) (hb : commandBody i s = .ok t) :
    t.BuildInv := by
  cases i with
  | nop => cases hb; exact h
  | clear => cases hb; exact s.resetRegisters_nothingBuilt.buildInv h.params_valid
  | freq => exact h.after_freq hb
  | pqinit => exact h.after_pqinit hb
  | merge => exact h.after_merge hb
  | build => exact h.after_build hb
  | gencodes => exact h.after_gencodes hb
  | encode => exact h.of_buildView (encodeBody_buildView hb)
  | decode src => exact h.of_buildView (decodeBody_buildView hb)
  | permute => exact h.of_buildView (permuteBody_buildView hb)
  | invert trim => exact h.of_buildView (invertBody_buildView hb)

/-- A command word keeps the invariant, whether its command completes, fails or does not exist (R57). -/
theorem State.BuildInv.after_issueCommand {w : Word} {s t : State} (h : s.BuildInv) (hs : issueCommand w s = .next t) :
    t.BuildInv := by
  rcases issueCommand_cases hs with ⟨i, -, hexec⟩ | ⟨-, rfl⟩
  · rcases exec_cases hexec with ⟨u, hu, rfl⟩ | ⟨e, -, rfl⟩
    · exact (h.after_commandBody hu).of_buildView rfl
    · exact h.of_buildView rfl
  · exact h.of_buildView rfl

/-- No memory the host may write is read by the invariant (20_memory.md R73). -/
theorem Space.inBuildView_of_hostWritable {sp : Space} (h : sp.hostWritable = true) : sp.inBuildView = false := by
  cases sp <;> first | rfl | cases h

/-- Every host write keeps the invariant (R57). -/
theorem State.BuildInv.after_hostWrite {a d : Word} {s t : State} (h : s.BuildInv) (hs : hostWrite a d s = .next t) :
    t.BuildInv := by
  rcases hostWrite_cases hs with rfl | ⟨r, -, -, rfl⟩ | ⟨r, -, -, rfl⟩ | ⟨r, -, -, hcmd⟩ | ⟨sp, i, -, hw, rfl⟩
  · exact h.of_buildView rfl
  · exact h.of_buildView (s.buildView_setOperandReg r d)
  · exact h.of_buildView rfl
  · exact h.after_issueCommand hcmd
  · exact h.of_buildView (s.buildView_setMemory _ (Space.inBuildView_of_hostWritable hw))

/-- Every host input keeps the invariant (R57). -/
theorem State.BuildInv.after_serveInput {x : HostInput} {s t : State} (h : s.BuildInv) (hs : serveInput x s = .next t) :
    t.BuildInv := by
  cases x with
  | write a d => exact h.after_hostWrite hs
  | read a =>
    cases hs
    rcases s.hostRead_cases a with ⟨hsame, -⟩ | ⟨hrejected, -⟩
    · rw [hsame]; exact h.of_buildView rfl
    · rw [hrejected]; exact h.of_buildView rfl
  | reset => cases hs; exact s.applyReset_nothingBuilt.buildInv h.params_valid

/-- Settles O51: the reset state has nothing built, and each host input keeps the invariant, by cases on the input and
on the command it issues. -/
theorem stepKeepsStageInvariants : Obligations.StepKeepsStageInvariants := by
  refine ⟨State.reset_nothingBuilt.buildInv (by decide), fun s t h hstep => ?_⟩
  rcases step_cases hstep with ⟨-, rfl⟩ | ⟨x, rest, -, hserve⟩
  · exact h
  · exact (h.of_buildView (t := { s with inbox := rest }) rfl).after_serveInput hserve

end Sys2Proof.Machine
end

section
/-! PROOFS. The host port (spec/20_memory.md): what the target of an address says about its space and index, what a step
that serves a read or a write does, rejected accesses (O43) and the reads of `PQ` (O49). -/

namespace Sys2Proof.Machine

/-! ### What the target of an address says about the address -/

/-- Register numbers are unique (10_state.md R22). -/
theorem Reg.number_injective : Function.Injective Reg.number := fun r r' h => by
  have h' : some r = some r' := by rw [← r.ofNumber?_number, h, r'.ofNumber?_number]
  exact Option.some.inj h'

/-- Memory space numbers are unique (R73). -/
theorem Space.number_injective : Function.Injective Space.number := fun sp sp' h => by
  have h' : some sp = some sp' := by rw [← sp.ofNumber?_number, h, sp'.ofNumber?_number]
  exact Option.some.inj h'

/-- The spaces of memories are neither that of the registers nor reserved (R73). -/
theorem Space.number_bounds (sp : Space) : 1 ≤ sp.number ∧ sp.number < 0xC := by
  cases sp <;> decide

/-- The spaces the host may write (R73). -/
theorem Space.number_of_hostWritable {sp : Space} (h : sp.hostWritable = true) :
    sp.number = 0x1 ∨ sp.number = 0x8 ∨ sp.number = 0x9 ∨ sp.number = 0xA := by
  cases sp <;> revert h <;> decide

/-- An address that names a register is its number in space 0 (R73). -/
theorem address_of_targetOf_register {p : Params} {a : Word} {r : Reg} (h : targetOf p a = some (.register r)) :
    addressSpace a = 0 ∧ addressIndex a = r.number := by
  unfold targetOf at h
  split at h
  · rename_i hspace
    obtain ⟨r', hr', hrr⟩ := Option.map_eq_some_iff.mp h
    cases hrr
    exact ⟨hspace, (Reg.number_of_ofNumber? hr').symm⟩
  · split at h
    · cases h
    · split at h <;> simp at h

/-- An address that names an element has the element's space and index (R71, R73). -/
theorem address_of_targetOf_element {p : Params} {a : Word} {sp : Space} {i : Nat}
    (h : targetOf p a = some (.element sp i)) : addressSpace a = sp.number ∧ addressIndex a = i := by
  unfold targetOf at h
  split at h
  · obtain ⟨r, -, hr⟩ := Option.map_eq_some_iff.mp h
    cases hr
  · split at h
    · cases h
    · rename_i sp' hsp
      split at h
      · cases h
        exact ⟨(Space.number_of_ofNumber? hsp).symm, rfl⟩
      · cases h

/-- When an element exists (R73, R74). -/
theorem elemExists_iff {p : Params} {sp : Space} {i : Nat} :
    elemExists p sp i = true ↔ i < elemDepth p sp ∧ (sp = .node → i % 8 < 5) := by
  by_cases hsp : sp = .node <;> simp [elemExists, hsp]

/-! ### Addresses with nothing behind them -/

/-- Nothing is in a reserved space (R73). -/
theorem targetOf_of_reserved_space {p : Params} {a : Word} (h : 0xC ≤ addressSpace a) : targetOf p a = none := by
  match ht : targetOf p a with
  | none => rfl
  | some (.register r) =>
    have hspace := (address_of_targetOf_register ht).1
    omega
  | some (.element sp i) =>
    have hspace := (address_of_targetOf_element ht).1
    have hbounds := sp.number_bounds
    omega

/-- Nothing is at a reserved register number (10_state.md R22). -/
theorem targetOf_of_reserved_register {p : Params} {a : Word} (hspace : addressSpace a = 0)
    (hr : ∀ r : Reg, r.number ≠ addressIndex a) : targetOf p a = none := by
  match ht : targetOf p a with
  | none => rfl
  | some (.register r) => exact absurd (address_of_targetOf_register ht).2.symm (hr r)
  | some (.element sp i) =>
    have hspace' := (address_of_targetOf_element ht).1
    have hbounds := sp.number_bounds
    omega

/-- Nothing is in the space of a memory at an index where it has no element (R73, R74). -/
theorem targetOf_of_absent_element {p : Params} {a : Word} {sp : Space} (hsp : sp.number = addressSpace a)
    (habsent : elemExists p sp (addressIndex a) = false) : targetOf p a = none := by
  match ht : targetOf p a with
  | none => rfl
  | some (.register r) =>
    have hspace := (address_of_targetOf_register ht).1
    have hbounds := sp.number_bounds
    omega
  | some (.element sp' i) =>
    obtain ⟨hspace, rfl⟩ := address_of_targetOf_element ht
    obtain rfl : sp = sp' := Space.number_injective (hsp.trans hspace)
    rw [elemExists_of_targetOf ht] at habsent
    cases habsent

/-! ### Steps that serve a host access -/

/-- Serving a read of an address with nothing behind it (R76). -/
theorem step_read_of_targetOf_none {s : State} {a : Word} {rest : List HostInput} (hin : s.inbox = .read a :: rest)
    (ht : targetOf s.params a = none) :
    step s = .next { s with inbox := rest, accErr := true, reads := s.reads ++ [0#32] } := by
  rw [step_of_inbox hin]
  simp only [serveInput, State.hostRead, ht, State.rejectAccess]

/-- Serving a read of an element (R72, R84). -/
theorem step_read_of_targetOf_element {s : State} {a : Word} {sp : Space} {i : Nat} {rest : List HostInput}
    (hin : s.inbox = .read a :: rest) (ht : targetOf s.params a = some (.element sp i)) :
    step s = .next { s with inbox := rest, reads := s.reads ++ [s.hostElem sp i] } := by
  rw [step_of_inbox hin]
  simp only [serveInput, State.hostRead, ht]
  rfl

/-- Serving a write that is rejected (R76): nothing is behind its address, or a read-only register or element. -/
theorem step_write_of_rejected {s : State} {a d : Word} {rest : List HostInput} (hin : s.inbox = .write a d :: rest)
    (hreg : ∀ r, targetOf s.params a = some (.register r) → r.access = .ro)
    (helem : ∀ sp i, targetOf s.params a = some (.element sp i) → sp.hostWritable = false) :
    step s = .next { s with inbox := rest, accErr := true } := by
  rw [step_of_inbox hin]
  match ht : targetOf s.params a with
  | none => simp only [serveInput, hostWrite, ht, State.rejectAccess]
  | some (.register r) => simp only [serveInput, hostWrite, ht, hostWriteReg, hreg r ht, State.rejectAccess]
  | some (.element sp i) =>
    simp [serveInput, hostWrite, ht, State.hostWriteElem, helem sp i ht, State.rejectAccess]

/-! ### Rejected accesses -/

/-- Settles O43: an address of the first kinds names nothing, and one of the last two names nothing or something
read-only, since register and space numbers are unique. -/
theorem rejectedAccessSetsOnlyAccerr : Obligations.RejectedAccessSetsOnlyAccerr := by
  rintro s a d _ _ rest rfl rfl
  refine ⟨fun hnothing => ?_, fun hreadOnly hin => step_write_of_rejected hin (fun r ht => ?_) (fun sp i ht => ?_)⟩
  · have ht : targetOf s.params a = none := by
      rcases hnothing with hspace | ⟨hspace, hr⟩ | ⟨sp, hsp, hindex⟩
      · exact targetOf_of_reserved_space hspace
      · exact targetOf_of_reserved_register hspace hr
      · refine targetOf_of_absent_element hsp (Bool.eq_false_iff.mpr fun he => ?_)
        obtain ⟨hdepth, hfield⟩ := elemExists_iff.mp he
        rcases hindex with hbeyond | ⟨hnode, habsent⟩
        · exact absurd hdepth (Nat.not_lt.mpr hbeyond)
        · exact absurd (hfield hnode) (Nat.not_lt.mpr habsent)
    exact ⟨fun hin => step_write_of_rejected hin (by simp [ht]) (by simp [ht]),
      fun hin => step_read_of_targetOf_none hin ht⟩
  · obtain ⟨hspace, hindex⟩ := address_of_targetOf_register ht
    rcases hreadOnly with ⟨-, r', hr', hro⟩ | ⟨hne, -⟩
    · obtain rfl : r' = r := Reg.number_injective (hr'.trans hindex)
      exact hro
    · exact absurd hspace hne
  · have hspace : a.toNat / 2 ^ 28 = sp.number := (address_of_targetOf_element ht).1
    refine Bool.eq_false_iff.mpr fun hwritable => ?_
    have hnumber := Space.number_of_hostWritable hwritable
    omega

/-! ### Reads of the queue -/

/-- The host's view of the queue below `PQN` (R84). -/
theorem State.hostElem_pq_of_lt {s : State} {k : Nat} (h : k < s.pqn.toNat) : s.hostElem .pq k = s.readElem .pq k :=
  if_neg fun hnull => Nat.not_le.mpr h hnull.2

/-- The host's view of the queue from `PQN` on (R84). -/
theorem State.hostElem_pq_of_le {s : State} {k : Nat} (h : s.pqn.toNat ≤ k) : s.hostElem .pq k = nullIndex :=
  if_pos ⟨rfl, h⟩

/-- Settles O49: below the depth the address names the queue's entry, which the host's view cuts at `PQN`; at and beyond
the depth it names nothing. -/
theorem queueReadsNullBeyondItsEnd : Obligations.QueueReadsNullBeyondItsEnd := by
  intro s k rest hk hin
  have ha : (BitVec.ofNat 32 (0x5 * 2 ^ 28 + k)).toNat = Space.pq.number * 2 ^ 28 + k := by
    rw [BitVec.toNat_ofNat, Space.number]
    omega
  have hentry (hdepth : k < s.params.nsymMax) :
      step s = .next { s with inbox := rest, reads := s.reads ++ [s.hostElem .pq k] } :=
    step_read_of_targetOf_element hin
      (targetOf_of_toNat_element hk (elemExists_iff.mpr ⟨hdepth, nofun⟩) ha)
  refine ⟨fun hqueue hdepth => ?_, fun hend hdepth => ?_, fun hbeyond => ?_⟩
  · rw [hentry hdepth, State.hostElem_pq_of_lt hqueue]
  · rw [hentry hdepth, State.hostElem_pq_of_le hend]
    rfl
  · have hspace : Space.pq.number = addressSpace (BitVec.ofNat 32 (0x5 * 2 ^ 28 + k)) := by
      rw [addressSpace, ha]
      omega
    have hindex : addressIndex (BitVec.ofNat 32 (0x5 * 2 ^ 28 + k)) = k := by
      rw [addressIndex, ha]
      omega
    refine step_read_of_targetOf_none hin (targetOf_of_absent_element hspace (Bool.eq_false_iff.mpr fun he => ?_))
    rw [hindex] at he
    exact absurd (elemExists_iff.mp he).1 (Nat.not_lt.mpr hbeyond)

end Sys2Proof.Machine
end

section
/-! PROOFS. The fields of a command word and what the decoder accepts (spec/30_encoding.md R100 to R105), and the step
that issues an illegal word (O5). -/

namespace Sys2Proof

/-! ### What the decoder accepts -/

/-- The fields hold every bit of the word (R100). -/
@[simp] theorem packFields_fieldsOf (w : Word) : packFields (fieldsOf w) = w := by
  refine BitVec.eq_of_getLsbD_eq fun k hk => ?_
  simp only [packFields, fieldsOf, BitVec.getLsbD_append, BitVec.getLsbD_extractLsb', BitVec.getLsbD_ofBool]
  by_cases hopc : k < 8
  · simp [hopc, show k < 9 by omega]
  · by_cases hflg : k = 8
    · simp [hflg]
    · simp [show ¬ k < 9 by omega, show k - 9 < 23 by omega, show 9 + (k - 9) = k by omega]

/-- The opcode and the flag that select a command are its own, where an opcode of format F takes the flag and one of
format Z has none (R102, R104). -/
theorem fields_of_commandOf {opc : BitVec 8} {flg : Bool} {i : Instr} (h : commandOf opc flg = some i) :
    opcodeOf i = opc ∧ flagOf i = (flg && isFormatF opc) := by
  unfold commandOf at h
  repeat' split at h
  all_goals cases h
  all_goals
    subst opc
    simp [opcodeOf, flagOf, isFormatF]

/-- The decoder accepts exactly the fields that pass the three tests of R105. -/
theorem decodeFields_ok_iff {f : CommandFields} {i : Instr} :
    decodeFields f = .ok i ↔
      f.rsv = 0#23 ∧ commandOf f.opc f.flg = some i ∧ (f.flg = true → isFormatF f.opc = true) := by
  unfold decodeFields
  by_cases hrsv : f.rsv = 0#23
  · cases hcmd : commandOf f.opc f.flg with
    | none => simp [hrsv]
    | some j => cases hflg : f.flg <;> cases hfmt : isFormatF f.opc <;> simp [hrsv]
  · simp [hrsv]

/-- Decoding drops no bit of the word: a word that decodes is the word of its command. -/
theorem encode_of_decode {w : Word} {i : Instr} (h : decode w = .ok i) : encode i = w := by
  obtain ⟨hrsv, hcmd, hflg⟩ := decodeFields_ok_iff.mp h
  obtain ⟨hopc, hflag⟩ := fields_of_commandOf hcmd
  have hflag' : flagOf i = (fieldsOf w).flg := by
    rw [hflag, Bool.and_eq_left_iff_imp]
    exact hflg
  rw [encode, hopc, hflag', ← hrsv]
  exact packFields_fieldsOf w

end Sys2Proof

namespace Sys2Proof.Machine

/-- The word of each command is one of the thirteen (R104). -/
theorem encode_mem_legalWords (i : Instr) : encode i ∈ legalWords := by
  cases i with
  | decode src => cases src <;> decide
  | invert trim => cases trim <;> decide
  | nop | clear | freq | pqinit | merge | build | gencodes | encode | permute => decide

/-- Only legal words decode (R105, R106). -/
theorem mem_legalWords_of_decode {w : Word} {i : Instr} (h : decode w = .ok i) : w ∈ legalWords :=
  encode_of_decode h ▸ encode_mem_legalWords i

/-! ### The issue of a word -/

/-- A write to `CMD`, register 5, issues the word (10_state.md R22, R25). -/
theorem step_write_cmd {s : State} {w : Word} {rest : List HostInput}
    (hin : s.inbox = .write 0x00000005#32 w :: rest) : step s = issueCommand w { s with inbox := rest } := by
  have ht : targetOf s.params 0x00000005#32 = some (.register .cmd) := targetOf_of_toNat_register rfl
  rw [step_of_inbox hin]
  simp only [serveInput, hostWrite, ht]
  rfl

/-- The issue of a word that is not legal (R106). -/
theorem issueCommand_of_not_mem_legalWords {w : Word} (h : w ∉ legalWords) (s : State) :
    issueCommand w s = .next (s.raise (.badCommand w)) := by
  unfold issueCommand
  cases hd : decode w with
  | ok i => exact absurd (mem_legalWords_of_decode hd) h
  | error e => rfl

/-- Settles O5: the write issues the word, and a word that decodes is the encoding of its command, hence legal, so that
an illegal word raises `BAD_COMMAND`. -/
theorem illegalWordFailsWithBadCommand : Obligations.IllegalWordFailsWithBadCommand := by
  intro s w rest hillegal hin
  rw [step_write_cmd hin, issueCommand_of_not_mem_legalWords hillegal]
  rfl

end Sys2Proof.Machine
end

section
/-! PROOFS. The commands of the tree builder that have an effect of their own, `FREQ`, `PQINIT` and `MERGE`
(spec/40_tree_builder.md R125, R127, R129; O12, O14, O15): first what each operation they are made of leaves unchanged,
then the state each of them leaves. -/

namespace Sys2Proof.Machine

/-! ### Frames -/

@[simp] theorem State.readReg_setMemory (s : State) (sp : Space) (m : Memory) (r : Reg) :
    (s.setMemory sp m).readReg r = s.readReg r := by cases sp <;> rfl

@[simp] theorem State.flag_setMemory (s : State) (sp : Space) (m : Memory) (f : Flag) :
    (s.setMemory sp m).flag f = s.flag f := by cases sp <;> rfl

section
variable {regs : List Reg} {flags : List Flag} {touched : Space → Nat → Prop}

theorem Framed.refl (s : State) : Framed s s regs flags touched :=
  ⟨rfl, rfl, rfl, rfl, fun _ _ _ => rfl, fun _ _ => rfl, fun _ _ _ => rfl⟩

/-- What two steps leave unchanged, both of them do. -/
theorem Framed.trans {s t u : State} (h : Framed s t regs flags touched) (h' : Framed t u regs flags touched) :
    Framed s u regs flags touched where
  params := h'.params.trans h.params
  inbox := h'.inbox.trans h.inbox
  reads := h'.reads.trans h.reads
  resets := h'.resets.trans h.resets
  regs r hs hr := (h'.regs r hs hr).trans (h.regs r hs hr)
  flags f hf := (h'.flags f hf).trans (h.flags f hf)
  elems sp i hi := (h'.elems sp i hi).trans (h.elems sp i hi)

/-- A wider frame: more may change. -/
theorem Framed.mono {regs' : List Reg} {flags' : List Flag} {touched' : Space → Nat → Prop} {s t : State}
    (h : Framed s t regs flags touched) (hregs : regs ⊆ regs') (hflags : flags ⊆ flags')
    (htouched : ∀ sp i, touched sp i → touched' sp i) : Framed s t regs' flags' touched' where
  params := h.params
  inbox := h.inbox
  reads := h.reads
  resets := h.resets
  regs r hs hr := h.regs r hs (fun hc => hr (hregs hc))
  flags f hf := h.flags f (fun hc => hf (hflags hc))
  elems sp i hi := h.elems sp i (fun hc => hi (htouched sp i hc))

/-- A new contents of one memory leaves every register and flag alone, and the elements that read the same. -/
theorem Framed.setMemory (s : State) (sp : Space) (m : Memory)
    (h : ∀ i, ¬ touched sp i → (s.setMemory sp m).readElem sp i = s.readElem sp i) :
    Framed s (s.setMemory sp m) regs flags touched where
  params := s.setMemory_params sp m
  inbox := s.setMemory_inbox sp m
  reads := s.setMemory_reads sp m
  resets := s.setMemory_resets sp m
  regs r _ _ := s.readReg_setMemory sp m r
  flags f _ := s.flag_setMemory sp m f
  elems sp' i hi := by
    by_cases hsp : sp' = sp
    · subst hsp
      exact h i hi
    · exact State.readElem_congr (by simp) (by simp) (s.memory_setMemory_other m hsp) i

/-- Writing a sequence touches the elements it is written to. -/
theorem Framed.writeSeq (s : State) (sp : Space) (b : Nat) (vs : List Word)
    (h : ∀ i, b ≤ i → i < b + vs.length → touched sp i) : Framed s (s.writeSeq sp b vs) regs flags touched := by
  have helems : ∀ i, ¬ touched sp i → (s.writeSeq sp b vs).readElem sp i = s.readElem sp i := fun i hi =>
    s.readElem_writeSeq_other fun _ => by
      by_contra hin
      exact hi (h i (by omega) (by omega))
  obtain ⟨m, hm⟩ := s.writeSeq_eq_setMemory sp b vs
  rw [hm] at helems ⊢
  exact .setMemory s sp m helems

/-- Writing a node touches its five fields (10_state.md R48). -/
theorem Framed.writeNode (s : State) (n : Nat) (x : Node)
    (h : ∀ i, 8 * n ≤ i → i < 8 * n + 5 → touched .node i) : Framed s (s.writeNode n x) regs flags touched :=
  .writeSeq s .node _ _ h

/-- Writing the leaves touches the fields of the nodes below `n` (R127). -/
theorem Framed.writeLeaves (s : State) (n : Nat) (h : ∀ i, i < 8 * n → i % 8 < 5 → touched .node i) :
    Framed s (s.writeLeaves n) regs flags touched := by
  have helems : ∀ i, ¬ touched .node i → (s.writeLeaves n).readElem .node i = s.readElem .node i := fun i hi =>
    s.readElem_writeLeaves_other fun _ => by
      by_contra hin
      exact hi (h i (by omega) (by omega))
  obtain ⟨m, hm⟩ := s.writeLeaves_eq_setMemory n
  rw [hm] at helems ⊢
  exact .setMemory s .node m helems

/-- An update of registers and flags leaves every element alone. -/
theorem Framed.of_memories {s t : State} (hparams : t.params = s.params) (hinbox : t.inbox = s.inbox)
    (hreads : t.reads = s.reads) (hresets : t.resets = s.resets) (hmem : ∀ sp, t.memory sp = s.memory sp)
    (hregs : ∀ r, r ≠ .status → r ∉ regs → t.readReg r = s.readReg r)
    (hflags : ∀ f, f ∉ flags → t.flag f = s.flag f) : Framed s t regs flags touched :=
  ⟨hparams, hinbox, hreads, hresets, hregs, hflags, fun sp i _ => State.readElem_congr hparams hresets (hmem sp) i⟩

theorem Framed.withPqn (s : State) (n : Word) (h : .pqn ∈ regs) :
    Framed s { s with pqn := n } regs flags touched :=
  .of_memories rfl rfl rfl rfl (fun _ => rfl) (fun r hs hr => by
    cases r with
    | pqn => exact absurd h hr
    | status => exact absurd rfl hs
    | _ => rfl) (fun f _ => by cases f <;> rfl)

/-- Writing the queue touches `PQN` and the entries it is written to. -/
theorem Framed.setQueue (s : State) (q : List Word) (hr : .pqn ∈ regs) (h : ∀ i, i < q.length → touched .pq i) :
    Framed s (s.setQueue q) regs flags touched :=
  (Framed.writeSeq s .pq 0 q fun i _ hi => h i (by omega)).trans (.withPqn _ _ hr)

/-- An insertion touches `PQN` and the entries of the longer queue (R121). -/
theorem Framed.pqInsert (s : State) (j : Word) (hr : .pqn ∈ regs) (h : ∀ i, i < s.pqn.toNat + 1 → touched .pq i) :
    Framed s (s.pqInsert j) regs flags touched := by
  refine .setQueue s _ hr fun i hi => h i ?_
  simp only [List.length_append, List.length_cons, List.length_take, List.length_drop, State.length_queue] at hi
  omega

/-- Loading `n` leaves into the empty queue touches `PQN` and the first `n` entries (R127). -/
theorem Framed.insertLeaves (s : State) (hq : s.pqn = 0#32) {n : Nat} (hn : n < 2 ^ 32) (hr : .pqn ∈ regs)
    (h : ∀ i, i < n → touched .pq i) : Framed s (s.insertLeaves n) regs flags touched := by
  induction n with
  | zero => exact .refl s
  | succ n ih =>
    have hpqn := (s.queue_insertLeaves hq (n := n) (by omega)).2.2
    rw [State.insertLeaves_succ]
    exact (ih (by omega) fun i hi => h i (by omega)).trans
      (.pqInsert _ _ hr fun i hi => h i (by omega))

theorem Framed.withNnodes (s : State) (k : Word) (h : .nnodes ∈ regs) :
    Framed s (s.withNnodes k) regs flags touched :=
  .of_memories rfl rfl rfl rfl (fun _ => rfl) (fun r hs hr => by
    cases r with
    | nnodes => exact absurd h hr
    | status => exact absurd rfl hs
    | _ => rfl) (fun f _ => by cases f <;> rfl)

theorem Framed.loadRoot (s : State) (h : .root ∈ regs) :
    Framed s s.loadRoot regs flags touched :=
  .of_memories rfl rfl rfl rfl (fun _ => rfl) (fun r hs hr => by
    cases r with
    | root => exact absurd h hr
    | status => exact absurd rfl hs
    | _ => rfl) (fun f _ => by cases f <;> rfl)

theorem Framed.markQueued (s : State) (hr : .ncodes ∈ regs) (hq : .pqV ∈ flags) (hc : .codesV ∈ flags) :
    Framed s s.markQueued regs flags touched :=
  .of_memories rfl rfl rfl rfl (fun _ => rfl) (fun r hs hr' => by
    cases r with
    | ncodes => exact absurd hr hr'
    | status => exact absurd rfl hs
    | _ => rfl) (fun f hf => by
    cases f with
    | pqV => exact absurd hq hf
    | codesV => exact absurd hc hf
    | _ => rfl)

theorem Framed.warnEmpty (s : State) (h : .wEmpty ∈ flags) : Framed s s.warnEmpty regs flags touched :=
  .of_memories rfl rfl rfl rfl (fun _ => rfl) (fun r hs _ => by
    cases r with
    | status => exact absurd rfl hs
    | _ => rfl) (fun f hf => by
    cases f with
    | wEmpty => exact absurd h hf
    | _ => rfl)

/-- A command that completes writes `ERR` and `ERRINFO` (30_encoding.md R105). -/
theorem Framed.complete (s : State) (he : .err ∈ regs) (hi : .errinfo ∈ regs) :
    Framed s s.complete regs flags touched :=
  .of_memories rfl rfl rfl rfl (fun _ => rfl) (fun r hs hr => by
    cases r with
    | err => exact absurd he hr
    | errinfo => exact absurd hi hr
    | status => exact absurd rfl hs
    | _ => rfl) (fun f _ => by cases f <;> rfl)

end

/-! ### Reading the tree and the queue after the updates that end a command -/

@[simp] theorem State.queue_complete (s : State) : s.complete.queue = s.queue := rfl
@[simp] theorem State.readNode_complete (s : State) (n : Nat) : s.complete.readNode n = s.readNode n := rfl
@[simp] theorem State.keyBefore_complete (s : State) (i j : Word) : s.complete.keyBefore i j = s.keyBefore i j := rfl
@[simp] theorem State.queue_warnEmpty (s : State) : s.warnEmpty.queue = s.queue := rfl
@[simp] theorem State.readNode_warnEmpty (s : State) (n : Nat) : s.warnEmpty.readNode n = s.readNode n := rfl
@[simp] theorem State.keyBefore_warnEmpty (s : State) (i j : Word) : s.warnEmpty.keyBefore i j = s.keyBefore i j := rfl

/-! ### FREQ -/

/-- The first check of `FREQ`: the text fits `TEXT` (R125). -/
theorem freqBody_error_of_text {s : State} (h : s.params.textMax < s.tlen.toNat) :
    freqBody s = .error (.badParam .tlen) := if_pos h

/-- The second check of `FREQ`: the distinct symbols fit the table (R125). -/
theorem freqBody_error_of_symbols {s : State} (htext : s.tlen.toNat ≤ s.params.textMax)
    (hsyms : s.params.nsymMax < s.textSymbols.length) : freqBody s = .error (.capacity .symbols) :=
  (if_neg (Nat.not_lt.mpr htext)).trans (if_pos hsyms)

theorem State.length_textSymbols (s : State) : s.textSymbols.length = s.textSeq.dedup.length :=
  length_distinctSymbols s.textSeq

/-- `NSYM` holds the number of distinct symbols whatever `NSYM_MAX` is: a text has no more of them than `TLEN` says. -/
theorem State.counted_nsym (s : State) : s.counted.nsym.toNat = s.textSymbols.length := by
  refine (BitVec.toNat_ofNat _ _).trans (Nat.mod_eq_of_lt ?_)
  calc s.textSymbols.length = s.textSeq.dedup.length := s.length_textSymbols
    _ ≤ s.textSeq.length := (List.dedup_sublist _).length_le
    _ = s.tlen.toNat := s.length_textSeq
    _ < 2 ^ 32 := s.tlen.isLt

/-- Each count of the table is the count of its own symbol (R125). -/
theorem State.counted_count (s : State) {i : Nat} (h : i < s.textSymbols.length) :
    (s.counted.readElem .ftcnt i).toNat = s.textSeq.count (s.counted.readElem .ftsym i) := by
  have hmap : s.counted.readSeq .ftcnt s.textSymbols.length
      = (s.counted.readSeq .ftsym s.textSymbols.length).map (fun x => BitVec.ofNat 32 (s.textSeq.count x)) := by
    rw [State.counted_ftcnt, State.counted_ftsym]
    rfl
  unfold State.readSeq at hmap
  rw [List.map_map, List.map_inj_left] at hmap
  rw [hmap i (List.mem_range.mpr h)]
  exact s.toNat_count _

/-- `FREQ` writes the table's entries, the registers of the tree builder and three flags (R125). -/
theorem State.counted_framed (s : State) :
    Framed s s.counted [.err, .errinfo, .nsym, .pqn, .nnodes, .root, .ncodes] [.freqV, .pqV, .codesV]
      (fun sp i => (sp = .ftsym ∨ sp = .ftcnt) ∧ i < s.textSymbols.length) := by
  refine Framed.trans (t := (s.writeSeq .ftsym 0 s.textSymbols).writeSeq .ftcnt 0 s.textCounts)
    (.trans (.writeSeq s .ftsym 0 _ fun i _ hi => ⟨.inl rfl, by omega⟩)
      (.writeSeq _ .ftcnt 0 _ fun i _ hi => ⟨.inr rfl, ?_⟩))
    (.of_memories rfl rfl rfl rfl (fun _ => rfl) (fun r hs hr => ?_) (fun f hf => ?_))
  · rw [State.length_textCounts] at hi
    omega
  · cases r with
    | nsym | pqn | nnodes | root | ncodes => simp at hr
    | status => exact absurd rfl hs
    | _ => rfl
  · cases f with
    | freqV | pqV | codesV => simp at hf
    | _ => rfl

/-- Settles O12: the two checks are the branches of the body, and the table is the list of distinct symbols, which is
ascending, with the count of each. -/
theorem freqBuildsFrequencyTable : Obligations.FreqBuildsFrequencyTable := by
  refine ⟨by decide, fun s => ?_⟩
  rw [← s.length_textSymbols]
  refine ⟨fun htext => failsWith_of_error (i := .freq) (freqBody_error_of_text htext),
    fun htext hsyms => failsWith_of_error (i := .freq) (freqBody_error_of_symbols htext hsyms),
    fun htext hsyms => ?_⟩
  have hbody : freqBody s = .ok s.counted := freqBody_ok_iff.mpr ⟨htext, hsyms, rfl⟩
  have hn := s.counted_nsym
  have htable : s.counted.complete.readSeq .ftsym s.counted.nsym.toNat = s.textSymbols := by
    rw [hn]
    exact (State.readSeq_congr fun i _ => State.readElem_complete _ _ i).trans s.counted_ftsym
  refine ⟨s.counted.complete, completes_iff.mpr ⟨_, hbody, rfl⟩, ?_⟩
  simp only [State.complete_nsym, State.readElem_complete, htable]
  refine ⟨hn, sorted_distinctSymbols _, fun x => mem_distinctSymbols,
    fun i hi => s.counted_count (hn ▸ hi), rfl, rfl, rfl, rfl, rfl, rfl, rfl, rfl, rfl, ?_⟩
  rw [hn]
  exact s.counted_framed.trans (.complete _ (by simp) (by simp))

/-! ### PQINIT -/

theorem encode_pqinit : encode .pqinit = 0x00000011#32 := by decide

/-- Without a frequency table `PQINIT` fails, recording its word (R127). -/
theorem pqinit_fails {s : State} (h : s.freqV = false) : FailsWith .pqinit s 4#32 0x00000011#32 := by
  have hbody : commandBody .pqinit s = .error (.badSequence (encode .pqinit)) := if_pos (by simp [h])
  rw [← encode_pqinit]
  exact failsWith_of_error hbody

/-- `PQINIT` loads as many entries as there are symbols (R127). -/
theorem State.queued_pqn (s : State) : s.queued.pqn = s.nsym := BitVec.eq_of_toNat_eq s.queue_queued.2.2

/-- A table of one symbol gives a finished tree, its root the one leaf (R127, 10_state.md R33). -/
theorem State.queued_root (s : State) : s.queued.root = if s.nsym = 1#32 then 0#32 else nullIndex := by
  have hroot : s.queued.root = if s.queued.pqn = 1#32 then s.queued.readElem .pq 0 else nullIndex := rfl
  rw [hroot, State.queued_pqn]
  split
  · rename_i h1
    have hqueue := State.queue_of_pqn_one (s.queued_pqn.trans h1)
    have hleaf : s.queued.readElem .pq 0 ∈ s.queued.queue := by rw [hqueue]; exact List.mem_singleton_self _
    rw [State.mem_queue_queued, h1] at hleaf
    exact BitVec.eq_of_toNat_eq (Nat.lt_one_iff.mp hleaf)
  · rfl

/-- `PQINIT` writes the leaves, the queue's entries, the registers of the tree and, but for its warning, two flags
(R127). -/
theorem State.queued_framed (s : State) :
    Framed s s.queued [.nnodes, .pqn, .root, .ncodes] [.pqV, .codesV]
      (fun sp i => (sp = .node ∧ i < 8 * s.nsym.toNat ∧ i % 8 < 5) ∨ (sp = .pq ∧ i < s.nsym.toNat)) := by
  have hempty : s.withLeaves.pqn = 0#32 := by simp [State.withLeaves]
  refine .trans (t := s.withLeaves) ?leaves (.trans (t := s.withLeaves.insertLeaves s.nsym.toNat) ?entries
    (.trans (.loadRoot _ (by simp)) (.markQueued _ (by simp) (by simp) (by simp))))
  case leaves =>
    exact .trans (.trans (.withPqn s 0#32 (by simp)) (.writeLeaves _ _ fun i hi hf => .inl ⟨rfl, hi, hf⟩))
      (.withNnodes _ _ (by simp))
  case entries => exact .insertLeaves _ hempty s.nsym.isLt (by simp) fun i hi => .inr ⟨rfl, hi⟩

/-- Settles O14: the body writes the leaves and then inserts each into the queue, which stays in key order. -/
theorem pqinitLoadsLeavesInKeyOrder : Obligations.PqinitLoadsLeavesInKeyOrder := by
  refine ⟨by decide, fun s => ⟨pqinit_fails, fun hf => ?_⟩⟩
  have hbody : pqinitBody (encode .pqinit) s = .ok s.queued.warnEmpty := pqinitBody_ok_iff.mpr ⟨hf, rfl⟩
  obtain ⟨hperm, hsorted, -⟩ := s.queue_queued
  obtain ⟨-, -, hnsym⟩ := State.regs_of_tableView s.tableView_queued
  have hframe := s.queued_framed
  have hpqV : s.queued.pqV = true := State.markQueued_pqV _
  have hempty : s.queued.wEmpty = s.wEmpty := hframe.flags .wEmpty (by simp)
  refine ⟨s.queued.warnEmpty.complete, completes_iff.mpr ⟨_, hbody, rfl⟩, ?_⟩
  simp only [State.queue_complete, State.queue_warnEmpty, State.readNode_complete, State.readNode_warnEmpty,
    State.keyBefore_complete, State.keyBefore_warnEmpty]
  refine ⟨fun i hi => s.readNode_queued hi, s.queued_nnodes, s.queued_pqn, hperm, hsorted, s.queued_root, hpqV, rfl,
    rfl, ?_, ?_, ?_, ?_⟩
  · simp [hempty, hnsym]
  · simp [State.treeV, hpqV, State.queued_pqn]
  · simp [State.noTree, hpqV, hnsym]
  · exact .trans (.trans (hframe.mono (by simp) (by simp) fun _ _ => id) (.warnEmpty _ (by simp)))
      (.complete _ (by simp) (by simp))

/-! ### MERGE -/

theorem State.getElem_queue (s : State) (k : Nat) (h : k < s.queue.length) : s.queue[k] = s.readElem .pq k :=
  s.getElem_readSeq .pq _ k h

theorem encode_merge : encode .merge = 0x00000012#32 := by decide

/-- Without two queued entries `MERGE` fails, recording its word (R129). -/
theorem merge_fails {s : State} (h : s.pqV = false ∨ s.pqn.toNat < 2) : FailsWith .merge s 4#32 0x00000012#32 := by
  have hbody : commandBody .merge s = .error (.badSequence (encode .merge)) := mergeBody_error_iff.mpr ⟨h, rfl⟩
  rw [← encode_merge]
  exact failsWith_of_error hbody

/-- A `MERGE` that finds two entries completes (R129). -/
theorem mergeBody_ok {w : Word} {s : State} (hv : s.pqV = true) (h2 : 2 ≤ s.pqn.toNat) :
    ∃ a b q, s.queue = a :: b :: q ∧ mergeBody w s = .ok (s.joined a b q) := by
  cases hm : mergeBody w s with
  | error e =>
    rcases (mergeBody_error_iff.mp hm).1 with hc | hc
    · simp [hv] at hc
    · omega
  | ok t =>
    obtain ⟨-, a, b, q, hq, rfl⟩ := mergeBody_ok_cases hm
    exact ⟨a, b, q, hq, rfl⟩

/-- `MERGE` writes the new node, the entries of the shorter queue and the registers of the tree (R129). -/
theorem State.joined_framed (s : State) (a b : Word) {q : List Word} (h : q.length < 2 ^ 32) :
    Framed s (s.joined a b q) [.err, .errinfo, .nnodes, .pqn, .root] []
      (fun sp i => (sp = .node ∧ 8 * s.nnodes.toNat ≤ i ∧ i < 8 * s.nnodes.toNat + 5)
        ∨ (sp = .pq ∧ i < q.length + 1)) := by
  have hpqn : (s.joining a b q).pqn.toNat = q.length := by rw [← State.length_queue, s.queue_joining a b h]
  refine .trans (t := (s.setQueue (b :: q)).setQueue q) ?popped (.trans (t := s.joining a b q) ?node ?queued)
  case popped =>
    exact .trans (.setQueue s (b :: q) (by simp) fun i hi => .inr ⟨rfl, hi⟩)
      (.setQueue _ _ (by simp) fun i hi => .inr ⟨rfl, by omega⟩)
  case node => exact .trans (.writeNode _ _ _ fun i h1 h2 => .inl ⟨rfl, h1, h2⟩) (.withNnodes _ _ (by simp))
  case queued =>
    exact .trans (.pqInsert _ s.nnodes (by simp) fun i hi => .inr ⟨rfl, by omega⟩) (.loadRoot _ (by simp))

/-- While a tree is built `NNODES` counts on without wrapping (R5, R57 (c)). -/
theorem State.BuildInv.toNat_nnodes_succ {s : State} (h : s.BuildInv) (hv : s.pqV = true) :
    (s.nnodes + 1#32).toNat = s.nnodes.toNat + 1 := by
  have hcount := h.stage.node_count hv
  have hbound := h.table.bound
  have hmax := (Params.bounds h.params_valid).1
  rw [BitVec.toNat_add, show (1#32).toNat = 1 from rfl]
  omega

/-- The frequencies of two queued nodes add up without wrapping (R5, R57 (g)). -/
theorem State.BuildInv.toNat_freq_add {s : State} (h : s.BuildInv) (hv : s.pqV = true) {a b : Word} {q : List Word}
    (hq : s.queue = a :: b :: q) : (s.nodeFreq a.toNat + s.nodeFreq b.toNat).toNat
      = (s.nodeFreq a.toNat).toNat + (s.nodeFreq b.toNat).toNat := by
  have hsum := h.stage.freq_sum hv
  rw [hq, State.freqSum_cons, State.freqSum_cons] at hsum
  have htotal := h.table.total
  have hmax := (Params.bounds h.params_valid).2
  rw [BitVec.toNat_add]
  omega

/-- Settles O15: R57 says that the queue is sorted, so that the two entries popped have the least keys, and bounds the
counts and sums, so that none wraps. -/
theorem mergeJoinsTwoLeastNodes : Obligations.MergeJoinsTwoLeastNodes := by
  refine ⟨by decide, fun s => merge_fails, fun s h hv h2 => ?_⟩
  obtain ⟨a, b, q, hq, hbody⟩ := mergeBody_ok (w := encode .merge) hv h2
  have hbuilding := h.joined_building hv hq
  obtain ⟨-, -, -, hnodes⟩ := s.joined_frame a b q
  have hlen : q.length + 2 = s.pqn.toNat := by rw [← State.length_queue, hq]; rfl
  have hpqnLt := s.pqn.isLt
  have ha : a = s.readElem .pq 0 := by rw [← s.getElem_queue 0 (by simp [hq])]; simp [hq]
  have hb : b = s.readElem .pq 1 := by rw [← s.getElem_queue 1 (by simp [hq])]; simp [hq]
  have hsorted := h.stage.queue_sorted
  rw [hq, List.pairwise_cons, List.pairwise_cons] at hsorted
  obtain ⟨hfirst, hsecond, hrest⟩ := hsorted
  have hnew : s.nnodes ∉ q := fun hc => lt_irrefl _ (h.stage.queue_below s.nnodes (by simp [hq, hc]))
  obtain ⟨hperm, -, hpqn⟩ := s.queue_joined a b (by omega) hnew hrest
  have hnode : (s.joined a b q).readNode s.nnodes.toNat
      = internalNode (s.nodeFreq a.toNat + s.nodeFreq b.toNat) a b := (s.readNode_joined a b q _).trans (if_pos rfl)
  have hdrop : s.queue.drop 2 = q := by rw [hq]; rfl
  refine ⟨(s.joined a b q).complete, a, b, completes_iff.mpr ⟨_, hbody, rfl⟩, ha, hb, hfirst b (by simp), ?_⟩
  simp only [State.queue_complete, State.readNode_complete, State.keyBefore_complete, State.complete_nnodes,
    State.complete_pqn, State.complete_root, State.readElem_complete, hdrop, hnode, hnodes, hpqn]
  refine ⟨hsecond, rfl, rfl, h.toNat_freq_add hv hq, rfl, rfl, h.toNat_nnodes_succ hv, by omega, hperm,
    hbuilding.queue_sorted, hbuilding.root, ?_⟩
  exact (s.joined_framed a b (by omega)).trans (.complete _ (by simp) (by simp))

end Sys2Proof.Machine
end

section
/-! PROOFS. The codebook of spec/41_codebook.md R153 (O22). First the walks in a finished tree, then what `GENCODES`
leaves in `CBLEN` and `CBBIT`, which is the codebook part of the invariant (`State.CodebookInv`), then R153 for every
state that meets the invariant and holds a codebook. -/

namespace Sys2Proof.Machine

/-- A number below a register's value is the number of a word. -/
theorem toNat_ofNat_of_lt_toNat {k : Nat} {n : Word} (h : k < n.toNat) : (BitVec.ofNat 32 k).toNat = k := by
  rw [BitVec.toNat_ofNat]
  omega

/-! ### Children -/

/-- The child of node `k` that path bit `b` leads to: 0 = left, 1 = right (R150). -/
def State.child (s : State) (k : Nat) (b : Bool) : Word := if b then s.nodeRight k else s.nodeLeft k

@[simp] theorem State.child_false (s : State) (k : Nat) : s.child k false = s.nodeLeft k := rfl
@[simp] theorem State.child_true (s : State) (k : Nat) : s.child k true = s.nodeRight k := rfl

/-- A walk of one step more. -/
theorem State.walk_snoc_iff {s : State} {x y : Word} {p : List Bool} {b : Bool} :
    s.walk x (p ++ [b]) = some y ↔
      ∃ k, s.walk x p = some k ∧ s.nodeInternal k.toNat = true ∧ s.child k.toNat b = y := by
  simp only [State.walk_append, Option.bind_eq_some_iff, State.walk_cons, State.walk_nil, Option.ite_none_right_eq_some,
    Option.some.injEq, State.child]

/-- The places a child can have: an internal node and a side of it. -/
def State.childPlaces (s : State) : List (Nat × Bool) :=
  (List.range' s.nsym.toNat (s.nnodes.toNat - s.nsym.toNat)).product [false, true]

theorem State.mem_childPlaces {s : State} {k : Nat} {b : Bool} :
    (k, b) ∈ s.childPlaces ↔ s.nsym.toNat ≤ k ∧ k < s.nnodes.toNat := by
  have hside : b ∈ [false, true] := by cases b <;> simp
  simp only [State.childPlaces, List.pair_mem_product, List.mem_range'_1, hside, and_true]
  omega

theorem State.childList_eq_map (s : State) : s.childList = s.childPlaces.map (fun e => (s.child e.1 e.2).toNat) := by
  simp [State.childList, State.childPlaces, List.product, List.map_flatMap]

theorem State.mem_childList {s : State} {x : Nat} :
    x ∈ s.childList ↔ ∃ k b, (s.nsym.toNat ≤ k ∧ k < s.nnodes.toNat) ∧ (s.child k b).toNat = x := by
  simp only [State.childList_eq_map, List.mem_map, Prod.exists, State.mem_childPlaces]

/-- An internal node is newer than its children (10_state.md R48). -/
theorem State.TreeInv.child_lt {s : State} (h : s.TreeInv) (hv : s.pqV = true) {k : Nat} (hk : s.nsym.toNat ≤ k)
    (hlt : k < s.nnodes.toNat) (b : Bool) : (s.child k b).toNat < k := by
  obtain ⟨-, -, hleft, hright, -⟩ := h.internals hv k hk hlt
  cases b with
  | false => exact hleft
  | true => exact hright

/-- A node is the child of at most one internal node, and on one side of it only (40_tree_builder.md R133). -/
theorem State.TreeInv.child_inj {s : State} (h : s.TreeInv) (hv : s.pqV = true) {k k' : Nat} {b b' : Bool}
    (hk : s.nsym.toNat ≤ k ∧ k < s.nnodes.toNat) (hk' : s.nsym.toNat ≤ k' ∧ k' < s.nnodes.toNat)
    (heq : (s.child k b).toNat = (s.child k' b').toNat) : k = k' ∧ b = b' := by
  have hnodup : s.childList.Nodup := ((h.owned_once hv).nodup_iff.mpr List.nodup_range).of_append_right
  rw [State.childList_eq_map] at hnodup
  exact Prod.mk.inj (List.inj_on_of_nodup_map hnodup (State.mem_childPlaces.mpr hk) (State.mem_childPlaces.mpr hk') heq)

/-! ### Walks in a finished tree -/

/-- A finished tree: the facts of 40_tree_builder.md R133 that walks need. -/
structure State.FinishedTree (s : State) : Prop where
  pqV : s.pqV = true
  root_last : s.root.toNat + 1 = s.nnodes.toNat
  root_twice : s.root.toNat + 2 = 2 * s.nsym.toNat
  internal_iff : ∀ n, n < s.nnodes.toNat → (s.nodeInternal n = true ↔ s.nsym.toNat ≤ n)
  child_lt : ∀ k b, s.nsym.toNat ≤ k → k < s.nnodes.toNat → (s.child k b).toNat < k
  parent : ∀ n, n < s.root.toNat → ∃ k b, (s.nsym.toNat ≤ k ∧ k < s.nnodes.toNat) ∧ (s.child k b).toNat = n
  child_inj : ∀ k k' b b', s.nsym.toNat ≤ k ∧ k < s.nnodes.toNat → s.nsym.toNat ≤ k' ∧ k' < s.nnodes.toNat →
    (s.child k b).toNat = (s.child k' b').toNat → k = k' ∧ b = b'

/-- When `TREE_V` is 1 the invariant says that the tree is finished. -/
theorem State.TreeInv.finished {s : State} (h : s.TreeInv) (hs : s.StageInv) (ht : s.treeV = true) :
    s.FinishedTree := by
  simp only [State.treeV, Bool.and_eq_true, beq_iff_eq] at ht
  obtain ⟨hv, h1⟩ := ht
  obtain ⟨hroot, hlast, htwice⟩ := hs.root_value hv h1
  refine ⟨hv, hlast, htwice, fun n hn => ?_, fun k b hk hlt => h.child_lt hv hk hlt b, fun n hn => ?_,
    fun k k' b b' => h.child_inj hv⟩
  · rw [← not_iff_not, Bool.not_eq_true, not_le]
    exact hs.kinds hv n hn
  · have howned := (h.owned_once hv).mem_iff.mpr (List.mem_range.mpr (show n < s.nnodes.toNat by omega))
    rw [State.queue_of_pqn_one h1, ← hroot] at howned
    have hother : n ≠ s.root.toNat := by omega
    exact State.mem_childList.mp (by simpa [hother] using howned)

section
variable {s : State} (h : s.FinishedTree)
include h

theorem State.FinishedTree.root_lt : s.root.toNat < s.nnodes.toNat := h.root_last ▸ Nat.lt_succ_self _

/-- The leaves are among the nodes (10_state.md R48). -/
theorem State.FinishedTree.nsym_le : s.nsym.toNat ≤ s.nnodes.toNat := by
  have hlast := h.root_last
  have htwice := h.root_twice
  omega

/-- A walk passes through internal nodes of falling index, so their number bounds its length (R153 (a)). -/
theorem State.FinishedTree.walk_bounds {x y : Word} {p : List Bool} (hx : x.toNat < s.nnodes.toNat)
    (hw : s.walk x p = some y) : y.toNat ≤ x.toNat ∧ p.length ≤ x.toNat + 1 - s.nsym.toNat := by
  induction p generalizing x with
  | nil =>
    obtain rfl : x = y := by simpa using hw
    simp
  | cons b p ih =>
    have hinternal := State.internal_of_walk hw (by simp)
    have hge := (h.internal_iff _ hx).mp hinternal
    have hlt := h.child_lt x.toNat b hge hx
    rw [State.walk_cons, if_pos hinternal] at hw
    obtain ⟨hle, hlen⟩ := ih (x := s.child x.toNat b) (by omega) hw
    rw [List.length_cons]
    omega

/-- A walk from the root has at most `NSYM` - 1 steps (R153 (a)). -/
theorem State.FinishedTree.length_le {y : Word} {p : List Bool} (hw : s.walk s.root p = some y) :
    p.length ≤ s.nsym.toNat - 1 := by
  have htwice := h.root_twice
  obtain ⟨-, hlen⟩ := h.walk_bounds h.root_lt hw
  omega

/-- A step of a walk from the root leaves an internal node of the tree. -/
theorem State.FinishedTree.walk_snoc {y : Word} {p : List Bool} {b : Bool} (hw : s.walk s.root (p ++ [b]) = some y) :
    ∃ k : Word, s.walk s.root p = some k ∧ (s.nsym.toNat ≤ k.toNat ∧ k.toNat < s.nnodes.toNat)
      ∧ s.child k.toNat b = y := by
  obtain ⟨k, hk, hinternal, hchild⟩ := State.walk_snoc_iff.mp hw
  obtain ⟨hle, -⟩ := h.walk_bounds h.root_lt hk
  have hlt := hle.trans_lt h.root_lt
  exact ⟨k, hk, ⟨(h.internal_iff _ hlt).mp hinternal, hlt⟩, hchild⟩

/-- Only the empty walk leads from the root back to the root. -/
theorem State.FinishedTree.eq_nil_of_walk_root {p : List Bool} (hw : s.walk s.root p = some s.root) : p = [] := by
  induction p using List.reverseRecOn with
  | nil => rfl
  | append_singleton p b _ =>
    obtain ⟨k, hk, ⟨hge, hlt⟩, hchild⟩ := h.walk_snoc hw
    have hdown := h.child_lt k.toNat b hge hlt
    have hlast := h.root_last
    rw [hchild] at hdown
    omega

/-- Every node is reached from the root along one path only: its last step is the one from its one parent. -/
theorem State.FinishedTree.walk_unique {y : Word} {p q : List Bool} (hp : s.walk s.root p = some y)
    (hq : s.walk s.root q = some y) : p = q := by
  induction p using List.reverseRecOn generalizing q y with
  | nil =>
    obtain rfl : s.root = y := by simpa using hp
    exact (h.eq_nil_of_walk_root hq).symm
  | append_singleton p b ih =>
    obtain rfl | ⟨q, c, rfl⟩ := q.eq_nil_or_concat'
    · obtain rfl : s.root = y := by simpa using hq
      exact h.eq_nil_of_walk_root hp
    · obtain ⟨k, hk, hkin, hchild⟩ := h.walk_snoc hp
      obtain ⟨k', hk', hkin', hchild'⟩ := h.walk_snoc hq
      obtain ⟨hkk, rfl⟩ := h.child_inj _ _ _ _ hkin hkin' (by rw [hchild, hchild'])
      rw [BitVec.eq_of_toNat_eq hkk] at hk
      rw [ih hk hk']

/-- Every node is reached from the root: its parent has a larger index. -/
theorem State.FinishedTree.exists_walk {y : Word} (hy : y.toNat < s.nnodes.toNat) :
    ∃ p, s.walk s.root p = some y := by
  have hlast := h.root_last
  induction hd : s.nnodes.toNat - y.toNat using Nat.strong_induction_on generalizing y with
  | _ d ih =>
    by_cases hroot : y = s.root
    · exact ⟨[], by rw [hroot]; rfl⟩
    · have hne : y.toNat ≠ s.root.toNat := fun hc => hroot (BitVec.eq_of_toNat_eq hc)
      obtain ⟨k, b, hk, hchild⟩ := h.parent y.toNat (by omega)
      have hlt := h.child_lt k b hk.1 hk.2
      have hword := toNat_ofNat_of_lt_toNat hk.2
      obtain ⟨p, hp⟩ := ih (s.nnodes.toNat - k) (by omega) (y := BitVec.ofNat 32 k) (by omega) (by rw [hword])
      refine ⟨p ++ [b], State.walk_snoc_iff.mpr ⟨_, hp, ?_, ?_⟩⟩
      · rw [hword]; exact (h.internal_iff k hk.2).mpr hk.1
      · rw [hword]; exact BitVec.eq_of_toNat_eq hchild

/-- No other leaf's path begins with the path to a leaf: nothing goes on from a leaf (R153 (b)). -/
theorem State.FinishedTree.leaf_eq_of_prefix {x y : Word} {p q : List Bool} (hx : x.toNat < s.nsym.toNat)
    (hp : s.walk s.root p = some x) (hq : s.walk s.root q = some y) (hpq : p <+: q) : x = y := by
  obtain ⟨r, rfl⟩ := hpq
  rw [State.walk_append, hp, Option.bind_some] at hq
  have hleaf : s.nodeInternal x.toNat ≠ true := fun hc =>
    hx.not_ge ((h.internal_iff x.toNat (hx.trans_le h.nsym_le)).mp hc)
  have hr : r = [] := by
    by_contra hne
    exact hleaf (State.internal_of_walk hq hne)
  simpa [hr] using hq

/-- With two leaves or more no leaf is the root, so its path has a step (R153 (a)). -/
theorem State.FinishedTree.one_le_length {x : Word} {p : List Bool} (h2 : 2 ≤ s.nsym.toNat)
    (hx : x.toNat < s.nsym.toNat) (hp : s.walk s.root p = some x) : 1 ≤ p.length := by
  have htwice := h.root_twice
  cases p with
  | nil =>
    obtain rfl : s.root = x := by simpa using hp
    omega
  | cons b p => simp

end

/-! ### What GENCODES writes -/

/-- The empty codebook `GENCODES` starts from (R155). -/
def State.emptyCodes (s : State) : State := s.writeSeq .cblen 0 (List.replicate s.params.nsymMax 0#32)

/-- The registers and the flag that make a codebook of `n` entries valid. -/
def State.withCodes (s : State) (n : Word) : State := { s with ncodes := n, codesV := true }

@[simp] theorem State.withCodes_codesV (s : State) (n : Word) : (s.withCodes n).codesV = true := rfl
@[simp] theorem State.withCodes_ncodes (s : State) (n : Word) : (s.withCodes n).ncodes = n := rfl
@[simp] theorem State.withCodes_nsym (s : State) (n : Word) : (s.withCodes n).nsym = s.nsym := rfl
@[simp] theorem State.withCodes_root (s : State) (n : Word) : (s.withCodes n).root = s.root := rfl
@[simp] theorem State.withCodes_params (s : State) (n : Word) : (s.withCodes n).params = s.params := rfl
@[simp] theorem State.withCodes_readElem (s : State) (n : Word) (sp : Space) (i : Nat) :
    (s.withCodes n).readElem sp i = s.readElem sp i := by
  cases sp <;> rfl
@[simp] theorem State.withCodes_codeBits (s : State) (n : Word) (i : Nat) :
    (s.withCodes n).codeBits i = s.codeBits i := by simp [State.codeBits, State.readBit]

/-- Everything `GENCODES` can do when it completes (R151, R152, R156). -/
theorem gencodesBody_ok_cases {w : Word} {s t : State} (h : gencodesBody w s = .ok t) :
    (s.noTree = true ∧ t = s.emptyCodes.withCodes 0#32)
    ∨ (s.treeV = true ∧ s.nodeInternal s.root.toNat = false ∧ t = (s.emptyCodes.writeCode 0 [false]).withCodes 1#32)
    ∨ (s.treeV = true ∧ s.nodeInternal s.root.toNat = true
        ∧ t = (s.emptyCodes.writePathCodes s.nsym.toNat).withCodes s.nsym) := by
  unfold gencodesBody at h
  split at h
  · cases h
  · rename_i hready
    dsimp only at h
    split at h
    · rename_i hnone
      exact .inl ⟨hnone, (Except.ok.inj h).symm⟩
    · rename_i hsome
      have htree : s.treeV = true := by simpa [hsome] using hready
      split at h
      · rename_i hleaf
        exact .inr (.inl ⟨htree, by simpa using hleaf, (Except.ok.inj h).symm⟩)
      · rename_i hinternal
        exact .inr (.inr ⟨htree, by simpa using hinternal, (Except.ok.inj h).symm⟩)

@[simp] theorem State.emptyCodes_params (s : State) : s.emptyCodes.params = s.params := State.writeSeq_params _ _ _ _
@[simp] theorem State.emptyCodes_nsym (s : State) : s.emptyCodes.nsym = s.nsym := State.writeSeq_nsym _ _ _ _
@[simp] theorem State.emptyCodes_nnodes (s : State) : s.emptyCodes.nnodes = s.nnodes := State.writeSeq_nnodes _ _ _ _
@[simp] theorem State.emptyCodes_root (s : State) : s.emptyCodes.root = s.root := State.writeSeq_root _ _ _ _

@[simp] theorem State.readNode_emptyCodes (s : State) (n : Nat) : s.emptyCodes.readNode n = s.readNode n :=
  State.readNode_congr fun _ _ => s.readElem_writeSeq_other (by simp)

theorem State.cblen_emptyCodes (s : State) {i : Nat} (h : i < s.params.nsymMax) :
    s.emptyCodes.readElem .cblen i = 0#32 := by
  have hsame := s.readElem_writeSeq_same .cblen 0 (vs := List.replicate s.params.nsymMax 0#32) (k := i) (by simpa using h)
  simpa [State.emptyCodes] using hsame

theorem State.buildView_emptyCodes (s : State) : s.emptyCodes.buildView = s.buildView := s.buildView_writeSeq 0 _ rfl

@[simp] theorem State.writePathCodes_params (s : State) (n : Nat) : (s.writePathCodes n).params = s.params :=
  congrArg (fun v : BuildView => v.table.params) (s.buildView_writePathCodes n)

/-- The lengths `writePathCodes` leaves: of the entries from `n` on, the ones before. -/
theorem State.cblen_writePathCodes_of_le (s : State) {n i : Nat} (h : n ≤ i) :
    (s.writePathCodes n).readElem .cblen i = s.readElem .cblen i := by
  induction n with
  | zero => rfl
  | succ n ih => rw [State.writePathCodes_succ, State.cblen_writeCode, if_neg (by omega), ih (by omega)]

/-- Codes no longer than `CODE_MAX` do not overlap in `CBBIT`, so each is read back as it was written (R50, R151). -/
theorem State.codeBits_writePathCodes (s : State) (hmax : s.params.codeMax < 2 ^ 32) {n : Nat}
    (hlen : ∀ i, i < n → (s.pathBits i).length ≤ s.params.codeMax) {i : Nat} (hi : i < n) :
    (s.writePathCodes n).codeBits i = s.pathBits i := by
  induction n with
  | zero => omega
  | succ n ih =>
    have hn := hlen n (by omega)
    rw [State.writePathCodes_succ]
    by_cases hin : i = n
    · subst hin
      exact State.codeBits_writeCode_same _ _ (by omega)
    · have hearlier := ih (fun k hk => hlen k (by omega)) (by omega)
      have hlength : ((s.writePathCodes n).readElem .cblen i).toNat ≤ s.params.codeMax := by
        rw [← State.length_codeBits, hearlier]
        exact hlen i hi
      rw [State.codeBits_writeCode_other _ hin (by simpa using hn) (by simpa using hlength), hearlier]

/-- The path bits of a node lead to it, if some path of at most `NNODES` steps does (R150). -/
theorem State.walk_pathBits {s : State} {i : Nat} {p : List Bool} (hp : s.walk s.root p = some (BitVec.ofNat 32 i))
    (hlen : p.length ≤ s.nnodes.toNat) : s.walk s.root (s.pathBits i) = some (BitVec.ofNat 32 i) := by
  obtain ⟨q, hq⟩ := Option.isSome_iff_exists.mp (State.findPath_of_walk hp hlen)
  obtain ⟨hwalk, -⟩ := State.walk_of_findPath hq
  rwa [State.pathBits, hq]

/-- The path bits found after the codebook was emptied lead to their leaf in the tree (R150, R151). -/
theorem State.FinishedTree.walk_pathBits_emptyCodes {s : State} (h : s.FinishedTree) {i : Nat} (hi : i < s.nsym.toNat) :
    s.walk s.root (s.emptyCodes.pathBits i) = some (BitVec.ofNat 32 i) := by
  have hword := toNat_ofNat_of_lt_toNat hi
  obtain ⟨p, hp⟩ := h.exists_walk (y := BitVec.ofNat 32 i) (by rw [hword]; exact hi.trans_le h.nsym_le)
  have hlen := h.length_le hp
  have hle := h.nsym_le
  have hsame := State.walk_congr (t := s.emptyCodes) s.readNode_emptyCodes
  have hfound := State.walk_pathBits (s := s.emptyCodes) (i := i) (p := p)
    (by rw [hsame, State.emptyCodes_root, hp]) (by rw [State.emptyCodes_nnodes]; omega)
  rwa [hsame, State.emptyCodes_root] at hfound

/-! ### GENCODES makes the codebook of the tree -/

theorem Params.one_le_codeMax (p : Params) : 1 ≤ p.codeMax := le_max_left _ _

theorem Params.codeMax_lt {p : Params} (h : p.valid = true) : p.codeMax < 2 ^ 32 := by
  have hmax := (Params.bounds h).1
  rw [Params.codeMax]
  omega

/-- The empty codebook (R156). -/
theorem State.codebookInv_of_noTree {s : State} (hn : s.noTree = true) : (s.emptyCodes.withCodes 0#32).CodebookInv := by
  simp only [State.noTree, Bool.and_eq_true, beq_iff_eq] at hn
  have hnsym : s.nsym = 0#32 := hn.2
  constructor
  case lengths => intro _ i hi; simp at hi
  case unused => intro _ i _ hmax; exact (State.withCodes_readElem _ _ _ _).trans (s.cblen_emptyCodes (by simpa using hmax))
  case one_leaf => intro _ h1; simp [hnsym] at h1
  case paths => intro _ h2; simp [hnsym] at h2

/-- The codebook of one leaf is the code "0" (R152). -/
theorem State.codebookInv_of_leaf {s : State} (h1 : s.nsym = 1#32) :
    ((s.emptyCodes.writeCode 0 [false]).withCodes 1#32).CodebookInv := by
  have hnsym : (s.emptyCodes.writeCode 0 [false]).nsym = s.nsym :=
    (congrArg (fun v : BuildView => v.table.nsym) (s.emptyCodes.buildView_writeCode 0 [false])).trans s.emptyCodes_nsym
  constructor
  case lengths =>
    intro _ i hi
    obtain rfl : i = 0 := by simpa using hi
    simpa [State.cblen_writeCode] using Params.one_le_codeMax s.params
  case unused =>
    intro _ i hi hmax
    have hne : i ≠ 0 := by rintro rfl; simp at hi
    simpa [State.cblen_writeCode, hne] using s.cblen_emptyCodes (by simpa using hmax)
  case one_leaf =>
    intro _ _
    rw [State.withCodes_codeBits]
    exact State.codeBits_writeCode_same _ 0 (by simp)
  case paths => intro _ h2; simp [hnsym, h1] at h2

/-- The codebook of a tree of two leaves or more is its path bits (R151). -/
theorem State.FinishedTree.codebookInv {s : State} (h : s.FinishedTree) (hb : s.BuildInv) (h2 : 2 ≤ s.nsym.toNat) :
    ((s.emptyCodes.writePathCodes s.nsym.toNat).withCodes s.nsym).CodebookInv := by
  have hview := (s.emptyCodes.buildView_writePathCodes s.nsym.toNat).trans s.buildView_emptyCodes
  have hnsym : (s.emptyCodes.writePathCodes s.nsym.toNat).nsym = s.nsym :=
    congrArg (fun v : BuildView => v.table.nsym) hview
  have hroot : (s.emptyCodes.writePathCodes s.nsym.toNat).root = s.root := congrArg BuildView.root hview
  have hlen : ∀ i, i < s.nsym.toNat → (s.emptyCodes.pathBits i).length ≤ s.params.codeMax := by
    intro i hi
    have hle := h.length_le (h.walk_pathBits_emptyCodes hi)
    have hbound := hb.table.bound
    rw [Params.codeMax]
    omega
  have hcode : ∀ i, i < s.nsym.toNat →
      (s.emptyCodes.writePathCodes s.nsym.toNat).codeBits i = s.emptyCodes.pathBits i := fun i hi =>
    State.codeBits_writePathCodes _ (by simpa using Params.codeMax_lt hb.params_valid) (by simpa using hlen) hi
  constructor
  case lengths =>
    intro _ i hi
    have hi : i < s.nsym.toNat := hi
    have hword : (BitVec.ofNat 32 i).toNat < s.nsym.toNat := by rwa [toNat_ofNat_of_lt_toNat hi]
    rw [← State.length_codeBits, State.withCodes_codeBits, hcode i hi]
    exact ⟨h.one_le_length h2 hword (h.walk_pathBits_emptyCodes hi), by simpa using hlen i hi⟩
  case unused =>
    intro _ i hi hmax
    rw [State.withCodes_readElem, State.cblen_writePathCodes_of_le _ (by simpa using hi)]
    exact s.cblen_emptyCodes (by simpa using hmax)
  case one_leaf => intro _ h1; simp [hnsym] at h1; simp [h1] at h2
  case paths =>
    intro _ _ i hi
    have hin : i < s.nsym.toNat := by simpa [hnsym] using hi
    rw [State.walk_congr (s := s) (t := (s.emptyCodes.writePathCodes s.nsym.toNat).withCodes s.nsym) fun n => ?nodes,
      State.withCodes_root, hroot, State.withCodes_codeBits, hcode i hin]
    · exact h.walk_pathBits_emptyCodes hin
    case nodes =>
      exact (State.readNode_congr fun f _ => State.withCodes_readElem _ _ _ _).trans
        ((State.readNode_writePathCodes _ _ _).trans (s.readNode_emptyCodes n))

/-- `GENCODES` leaves the codebook of the tree (R151, R152, R155, R156). -/
theorem State.BuildInv.codebook_after_gencodes {w : Word} {s t : State} (hb : s.BuildInv) (ht : s.TreeInv)
    (h : gencodesBody w s = .ok t) : t.CodebookInv := by
  rcases gencodesBody_ok_cases h with ⟨hnone, rfl⟩ | ⟨htree, hleaf, rfl⟩ | ⟨htree, hinternal, rfl⟩
  · exact State.codebookInv_of_noTree hnone
  · exact State.codebookInv_of_leaf (hb.stage.nsym_of_leaf_root htree hleaf)
  · have hfin := ht.finished hb.stage htree
    have htwice := hfin.root_twice
    have hroot := (hfin.internal_iff s.root.toNat hfin.root_lt).mp hinternal
    exact hfin.codebookInv hb (by omega)

/-- Setting the registers of the codebook after writes that the tree is not in keeps the tree. -/
theorem State.TreeInv.withCodes_of_buildView {s u : State} (h : s.TreeInv) (hv : u.buildView = s.buildView) (n : Word) :
    (u.withCodes n).TreeInv := by
  cases s
  cases u
  simp only [State.buildView, State.tableView, BuildView.mk.injEq, TableView.mk.injEq] at hv
  obtain ⟨⟨rfl, rfl, rfl, rfl, rfl, rfl⟩, rfl, rfl, rfl, rfl, rfl, rfl, rfl, rfl⟩ := hv
  exact { h with }

/-- `GENCODES` writes nothing but the codebook and its registers. -/
theorem gencodesBody_eq_withCodes {w : Word} {s t : State} (h : gencodesBody w s = .ok t) :
    ∃ (u : State) (n : Word), u.buildView = s.buildView ∧ t = u.withCodes n := by
  rcases gencodesBody_ok_cases h with ⟨-, rfl⟩ | ⟨-, -, rfl⟩ | ⟨-, -, rfl⟩
  · exact ⟨_, _, s.buildView_emptyCodes, rfl⟩
  · exact ⟨_, _, (State.buildView_writeCode _ _ _).trans s.buildView_emptyCodes, rfl⟩
  · exact ⟨_, _, (State.buildView_writePathCodes _ _).trans s.buildView_emptyCodes, rfl⟩

/-! ### R153, of every state with a codebook -/

/-- A state with a codebook of one entry at least: `CODES_V` is 1, and the tree and its codes meet the invariant. -/
structure State.Coded (s : State) : Prop where
  codesV : s.codesV = true
  nonempty : 1 ≤ s.nsym.toNat
  build : s.BuildInv
  tree : s.TreeInv
  codebook : s.CodebookInv

section
variable {s : State} (h : s.Coded)
include h

theorem State.Coded.ncodes_eq : s.ncodes = s.nsym := h.build.stage.all_codes h.codesV

/-- A codebook with an entry is that of a finished tree (R57 (a)). -/
theorem State.Coded.finished : s.FinishedTree := by
  obtain ⟨hv, hpqn⟩ := h.build.stage.codes_need_tree h.codesV
  have hnonempty := h.nonempty
  have h1 : s.pqn = 1#32 := hpqn.resolve_right fun hc => by simp [hc] at hnonempty
  exact h.tree.finished h.build.stage (by simp [State.treeV, hv, h1])

/-- Either there is one code, "0", or the codes are the paths to the leaves (R151, R152). -/
theorem State.Coded.one_leaf_or_paths :
    (s.nsym.toNat = 1 ∧ s.codeBits 0 = [false])
    ∨ (2 ≤ s.nsym.toNat ∧ ∀ i, i < s.nsym.toNat → s.walk s.root (s.codeBits i) = some (BitVec.ofNat 32 i)) := by
  have hnonempty := h.nonempty
  by_cases h1 : s.nsym = 1#32
  · exact .inl ⟨by rw [h1]; rfl, h.codebook.one_leaf h.codesV h1⟩
  · have hne : s.nsym.toNat ≠ 1 := fun hc => h1 (BitVec.eq_of_toNat_eq hc)
    exact .inr ⟨by omega, h.codebook.paths h.codesV (by omega)⟩

/-- R153 (a), the bound by the number of symbols. -/
theorem State.Coded.length_le {i : Nat} (hi : i < s.nsym.toNat) :
    (s.codeBits i).length ≤ max 1 (s.nsym.toNat - 1) := by
  rcases h.one_leaf_or_paths with ⟨h1, hcode⟩ | ⟨-, hpaths⟩
  · obtain rfl : i = 0 := by omega
    rw [hcode]
    exact le_max_left _ _
  · exact (h.finished.length_le (hpaths i hi)).trans (le_max_right _ _)

/-- R153 (b): a code that begins with an entry's code is that entry's. -/
theorem State.Coded.eq_of_prefix {i j : Nat} (hi : i < s.nsym.toNat) (hj : j < s.nsym.toNat)
    (hij : s.codeBits i <+: s.codeBits j) : i = j := by
  rcases h.one_leaf_or_paths with ⟨h1, -⟩ | ⟨-, hpaths⟩
  · omega
  · have hword := toNat_ofNat_of_lt_toNat hi
    have heq := h.finished.leaf_eq_of_prefix (by rwa [hword]) (hpaths i hi) (hpaths j hj) hij
    rw [← hword, heq, toNat_ofNat_of_lt_toNat hj]

/-- A leaf's code is its parent's path and one bit more. -/
theorem State.Coded.codeBits_child {k : Word} {p : List Bool} (hk : s.nsym.toNat ≤ k.toNat)
    (hlt : k.toNat < s.nnodes.toNat) (hp : s.walk s.root p = some k) (b : Bool)
    (hleaf : (s.child k.toNat b).toNat < s.nsym.toNat) : s.codeBits (s.child k.toNat b).toNat = p ++ [b] := by
  have hfin := h.finished
  rcases h.one_leaf_or_paths with ⟨h1, -⟩ | ⟨-, hpaths⟩
  · have hlast := hfin.root_last
    have htwice := hfin.root_twice
    omega
  · have hcode := hpaths _ hleaf
    rw [BitVec.ofNat_toNat, BitVec.setWidth_eq] at hcode
    exact hfin.walk_unique hcode
      (State.walk_snoc_iff.mpr ⟨k, hp, (hfin.internal_iff _ hlt).mpr hk, rfl⟩)

/-- R153 (e): sibling leaves have their parent's path in common and differ in the last bit. -/
theorem State.Coded.sibling_codes {k : Nat} (hk : s.nsym.toNat ≤ k) (hlt : k < s.nnodes.toNat)
    (hleft : (s.nodeLeft k).toNat < s.nsym.toNat) (hright : (s.nodeRight k).toNat < s.nsym.toNat) :
    ∃ p, s.codeBits (s.nodeLeft k).toNat = p ++ [false] ∧ s.codeBits (s.nodeRight k).toNat = p ++ [true] := by
  obtain ⟨k, rfl⟩ : ∃ x : Word, x.toNat = k := ⟨_, toNat_ofNat_of_lt_toNat hlt⟩
  obtain ⟨p, hp⟩ := h.finished.exists_walk hlt
  exact ⟨p, h.codeBits_child hk hlt hp false hleft, h.codeBits_child hk hlt hp true hright⟩

end

/-- The end of a command keeps the codebook. -/
theorem State.CodebookInv.complete {s : State} (h : s.CodebookInv) : s.complete.CodebookInv :=
  { h with
    paths := fun hv h2 i hi => (State.walk_congr s.readNode_complete _ _).trans (h.paths hv h2 i hi) }

/-- A completed `GENCODES` leaves a codebook for the same table. -/
theorem coded_of_gencodes {s t : State} (h : s.Inv) (hn : 1 ≤ s.nsym.toNat) (hc : Completes .gencodes s t) :
    t.Coded ∧ t.nsym = s.nsym ∧ t.params = s.params := by
  obtain ⟨u, hbody, rfl⟩ := completes_iff.mp hc
  have hbuild := h.build.after_gencodes hbody
  have hcodes := h.build.codebook_after_gencodes h.tree hbody
  obtain ⟨v, n, hview, rfl⟩ := gencodesBody_eq_withCodes hbody
  have htree := h.tree.withCodes_of_buildView hview n
  obtain ⟨hparams, -, hnsym⟩ := State.regs_of_tableView (congrArg BuildView.table hview)
  exact ⟨⟨rfl, hn.trans_eq (congrArg _ hnsym.symm), hbuild.of_buildView rfl, { htree with }, hcodes.complete⟩, hnsym,
    hparams⟩

/-- Settles O22: `GENCODES` leaves a codebook that meets the invariant, which says that the codes are the paths to the
leaves of the tree (or, for one leaf, the code "0"). -/
theorem codebookIsPrefixFree : Obligations.CodebookIsPrefixFree := by
  intro s t hs hn hc
  obtain ⟨h, hnsym, hparams⟩ := coded_of_gencodes hs hn hc
  rw [h.ncodes_eq, ← hnsym, ← hparams]
  refine ⟨rfl, fun i hi => ?lengths, fun i j hi hj hne hij => hne (h.eq_of_prefix hi hj hij),
    fun i j hi hj heq => h.eq_of_prefix hi hj (heq ▸ List.prefix_refl _), h.build.table.ascending,
    fun k hk hlt hleft hright => h.sibling_codes hk hlt hleft hright⟩
  case lengths =>
    obtain ⟨hpos, hmax⟩ := h.codebook.lengths h.codesV i (by rwa [h.ncodes_eq])
    rw [← State.length_codeBits] at hpos hmax
    exact ⟨hpos, h.length_le hi, hmax⟩

end Sys2Proof.Machine
end

section
/-! PROOFS. `ENCODE` (spec/42_encode_decode.md R160, R161; O23, O24): the search of the codebook, then the state `ENCODE`
leaves and what it writes. -/

namespace Sys2Proof.Machine

/-- The bit memories and `DEC` are far smaller than 2^32 (R5). -/
theorem Params.buffer_bounds {p : Params} (h : p.valid = true) : p.bitsMax ≤ 2 ^ 28 ∧ p.decMax ≤ 2 ^ 28 := by
  simp only [Params.valid, Params.bitsMaxOk, Params.decMaxOk, Bool.and_eq_true, decide_eq_true_eq] at h
  omega

@[simp] theorem State.readSeq_complete (s : State) (sp : Space) (n : Nat) :
    s.complete.readSeq sp n = s.readSeq sp n := State.readSeq_congr fun i _ => s.readElem_complete sp i

@[simp] theorem State.readBits_complete (s : State) (sp : Space) (n : Nat) :
    s.complete.readBits sp n = s.readBits sp n :=
  State.readBits_congr fun i _ => State.readBit_congr (s.readElem_complete sp i)

/-! ### lookup -/

/-- An entry that is found is in the codebook and is the symbol's (R160). -/
theorem State.lookup_sound {s : State} {x : Word} {i : Nat} (h : s.lookup x = some i) :
    i < s.ncodes.toNat ∧ s.readElem .ftsym i = x := by
  obtain ⟨hsym, hmem, -⟩ := List.find?_range_eq_some.mp h
  exact ⟨List.mem_range.mp hmem, beq_iff_eq.mp hsym⟩

theorem State.lookup_eq_none_iff {s : State} {x : Word} :
    s.lookup x = none ↔ ∀ i, i < s.ncodes.toNat → s.readElem .ftsym i ≠ x := by
  simp [State.lookup]

/-- The symbols of the table are different ones (10_state.md R47). -/
theorem State.TableInv.ftsym_inj {s : State} (h : s.TableInv) {i j : Nat} (hi : i < s.nsym.toNat)
    (hj : j < s.nsym.toNat) (heq : s.readElem .ftsym i = s.readElem .ftsym j) : i = j := by
  have hnodup : (s.readSeq .ftsym s.nsym.toNat).Nodup := h.ascending.imp BitVec.ne_of_lt
  exact (hnodup.getElem_inj_iff (hi := by simpa using hi) (hj := by simpa using hj)).mp (by simpa using heq)

/-- The codebook has no more entries than the table (R57 (e)). -/
theorem State.StageInv.ncodes_le {s : State} (h : s.StageInv) : s.ncodes.toNat ≤ s.nsym.toNat := by
  cases hv : s.codesV with
  | false => simp [h.no_codes hv]
  | true => rw [h.all_codes hv]

/-- `lookup` finds the entry of every symbol that has one, since no two entries have the same symbol (R160). -/
theorem State.BuildInv.lookup_eq_some_iff {s : State} (h : s.BuildInv) {x : Word} {i : Nat} :
    s.lookup x = some i ↔ i < s.ncodes.toNat ∧ s.readElem .ftsym i = x := by
  refine ⟨State.lookup_sound, fun ⟨hi, hsym⟩ => ?_⟩
  cases hfound : s.lookup x with
  | none => exact absurd hsym (State.lookup_eq_none_iff.mp hfound i hi)
  | some j =>
    obtain ⟨hj, hsym'⟩ := State.lookup_sound hfound
    have hle := h.stage.ncodes_le
    rw [h.table.ftsym_inj (hj.trans_le hle) (hi.trans_le hle) (hsym'.trans hsym.symm)]

/-- Settles O24: the table's symbols ascend strictly, so the first entry with a symbol is the only one. -/
theorem lookupFindsTheEntry : Obligations.LookupFindsTheEntry :=
  fun _ _ h => ⟨fun _ => h.build.lookup_eq_some_iff, State.lookup_eq_none_iff⟩

/-! ### The text, symbol by symbol -/

/-- Each symbol of the text contributes its code, or nothing (R161). -/
theorem State.encodedBits_eq_flatMap (s : State) :
    s.encodedBits = s.textSeq.flatMap (fun x => (s.lookup x).elim [] s.codeBits) := by
  unfold State.encodedBits
  induction s.textSeq with
  | nil => rfl
  | cons x l ih => cases hx : s.lookup x <;> simp [hx, ih]

theorem State.skippedCount_le (s : State) : s.skippedCount ≤ s.tlen.toNat :=
  List.countP_le_length.trans_eq s.length_textSeq

/-! ### The state ENCODE leaves -/

/-- `ENCLEN` and `SKIPCNT` set. -/
def State.withEnclen (s : State) (len skipped : Nat) : State :=
  { s with enclen := BitVec.ofNat 32 len, skipcnt := BitVec.ofNat 32 skipped }

@[simp] theorem State.readElem_withEnclen (s : State) (len skipped : Nat) (sp : Space) (i : Nat) :
    (s.withEnclen len skipped).readElem sp i = s.readElem sp i :=
  State.readElem_congr rfl rfl (by cases sp <;> rfl) i

/-- The state `ENCODE` leaves, but for `ERR` and `ERRINFO` (R161). -/
def State.encoded (s : State) : State :=
  ((s.writeSeq .enc 0 (s.encodedBits.map bitWord)).withEnclen s.encodedBits.length s.skippedCount).warnUnknown
    s.skippedCount

/-- `ENCODE` completes when there is a codebook and the text and its code fit (R161). -/
theorem encodeBody_ok_iff {w : Word} {s t : State} :
    encodeBody w s = .ok t ↔ s.codesV = true ∧ s.tlen.toNat ≤ s.params.textMax
      ∧ s.encodedBits.length ≤ s.params.bitsMax ∧ t = s.encoded := by
  have hbody : encodeBody w s = if !s.codesV then .error (.badSequence w)
    else if s.params.textMax < s.tlen.toNat then .error (.badParam .tlen)
    else if s.params.bitsMax < s.encodedBits.length then .error (.capacity .encBits) else .ok s.encoded := rfl
  rw [hbody]
  split_ifs with hcodes htext hbits
  · have hc : s.codesV = false := by simpa using hcodes
    simp [hc]
  · simp [htext]
  · simp [hbits]
  · have hc : s.codesV = true := by simpa using hcodes
    simp [hc, Nat.not_lt.mp htext, Nat.not_lt.mp hbits, eq_comm (a := t)]

theorem encodeBody_error_of_no_codes {w : Word} {s : State} (h : s.codesV = false) :
    encodeBody w s = .error (.badSequence w) := if_pos (by simp [h])

theorem encodeBody_error_of_text {w : Word} {s : State} (hc : s.codesV = true)
    (htext : s.params.textMax < s.tlen.toNat) : encodeBody w s = .error (.badParam .tlen) := by
  simp [encodeBody, hc, htext]

theorem encodeBody_error_of_bits {w : Word} {s : State} (hc : s.codesV = true)
    (htext : s.tlen.toNat ≤ s.params.textMax) (hbits : s.params.bitsMax < s.encodedBits.length) :
    encodeBody w s = .error (.capacity .encBits) := by
  simp [encodeBody, hc, Nat.not_lt.mpr htext, hbits]

@[simp] theorem State.readElem_encoded (s : State) (sp : Space) (i : Nat) :
    s.encoded.readElem sp i = (s.writeSeq .enc 0 (s.encodedBits.map bitWord)).readElem sp i := by
  rw [State.encoded, State.readElem_warnUnknown, State.readElem_withEnclen]

theorem State.encoded_enclen {s : State} (hp : s.params.valid = true)
    (hbits : s.encodedBits.length ≤ s.params.bitsMax) : s.encoded.enclen.toNat = s.encodedBits.length := by
  have hmax := (Params.buffer_bounds hp).1
  have henclen : s.encoded.enclen = BitVec.ofNat 32 s.encodedBits.length := rfl
  rw [henclen, BitVec.toNat_ofNat]
  omega

theorem State.encoded_skipcnt (s : State) : s.encoded.skipcnt.toNat = s.skippedCount := by
  have hskip : s.encoded.skipcnt = BitVec.ofNat 32 s.skippedCount := rfl
  rw [hskip, BitVec.toNat_ofNat, Nat.mod_eq_of_lt (s.skippedCount_le.trans_lt s.tlen.isLt)]

theorem State.encoded_wUnknown (s : State) :
    s.encoded.wUnknown = (s.wUnknown || decide (0 < s.skippedCount)) := by
  simp [State.encoded, State.warnUnknown, State.withEnclen]

/-- `ENC` holds the codes (R161). -/
theorem State.readBits_encoded (s : State) : s.encoded.readBits .enc s.encodedBits.length = s.encodedBits :=
  (State.readBits_congr fun i _ => State.readBit_congr (s.readElem_encoded .enc i)).trans
    (s.readBits_writeSeq_bits .enc s.encodedBits fun _ => rfl)

theorem Framed.warnUnknown {regs : List Reg} {flags : List Flag} {touched : Space → Nat → Prop} (s : State) (n : Nat)
    (h : .wUnknown ∈ flags) : Framed s (s.warnUnknown n) regs flags touched :=
  .of_memories rfl rfl rfl rfl (fun _ => rfl) (fun r hs _ => by
    cases r with
    | status => exact absurd rfl hs
    | _ => rfl) (fun f hf => by
    cases f with
    | wUnknown => exact absurd h hf
    | _ => rfl)

theorem Framed.withEnclen {regs : List Reg} {flags : List Flag} {touched : Space → Nat → Prop} (s : State)
    (len skipped : Nat) (hlen : .enclen ∈ regs) (hskip : .skipcnt ∈ regs) :
    Framed s (s.withEnclen len skipped) regs flags touched :=
  .of_memories rfl rfl rfl rfl (fun _ => rfl) (fun r hs hr => by
    cases r with
    | enclen => exact absurd hlen hr
    | skipcnt => exact absurd hskip hr
    | status => exact absurd rfl hs
    | _ => rfl) (fun f _ => by cases f <;> rfl)

/-- `ENCODE` writes the bits of the code, two registers and its warning (R161). -/
theorem State.encoded_framed (s : State) :
    Framed s s.encoded [.enclen, .skipcnt] [.wUnknown] (fun sp i => sp = .enc ∧ i < s.encodedBits.length) :=
  .trans (.writeSeq s .enc 0 _ fun i _ hi => ⟨rfl, by simpa using hi⟩)
    (.trans (.withEnclen _ _ _ (by simp) (by simp)) (.warnUnknown _ _ (by simp)))

@[simp] theorem State.encoded_params (s : State) : s.encoded.params = s.params := s.encoded_framed.params
@[simp] theorem State.encoded_pqV (s : State) : s.encoded.pqV = s.pqV := s.encoded_framed.flags .pqV (by simp)
@[simp] theorem State.encoded_nsym (s : State) : s.encoded.nsym = s.nsym :=
  s.encoded_framed.regs .nsym (by simp) (by simp)
@[simp] theorem State.encoded_pqn (s : State) : s.encoded.pqn = s.pqn := s.encoded_framed.regs .pqn (by simp) (by simp)
@[simp] theorem State.encoded_root (s : State) : s.encoded.root = s.root :=
  s.encoded_framed.regs .root (by simp) (by simp)

theorem encode_encode : encode .encode = 0x00000015#32 := by decide

/-- Settles O23: the three checks are the branches of the body, and what it writes is read back. -/
theorem encodeConcatenatesCodes : Obligations.EncodeConcatenatesCodes := by
  refine ⟨by decide, fun s out skipped hp hout hskipped => ?_⟩
  obtain rfl : out = s.encodedBits := by
    rw [hout, State.encodedBits_eq_flatMap]
    refine List.flatMap_congr fun x _ => ?_
    unfold State.lookup
    cases (List.range s.ncodes.toNat).find? (fun i => s.readElem .ftsym i == x) <;> rfl
  obtain rfl : skipped = s.skippedCount := hskipped
  rw [← encode_encode]
  refine ⟨fun hc => failsWith_of_error (i := .encode) (encodeBody_error_of_no_codes hc),
    fun hc htext => failsWith_of_error (i := .encode) (encodeBody_error_of_text hc htext),
    fun hc htext hbits => failsWith_of_error (i := .encode) (encodeBody_error_of_bits hc htext hbits),
    fun hc htext hbits => ?_⟩
  have hlen : s.encoded.complete.enclen.toNat = s.encodedBits.length := State.encoded_enclen hp hbits
  refine ⟨s.encoded.complete, completes_iff.mpr ⟨_, encodeBody_ok_iff.mpr ⟨hc, htext, hbits, rfl⟩, rfl⟩, hlen, ?_,
    s.encoded_skipcnt, s.encoded_wUnknown, ?_⟩
  · rw [hlen, State.readBits_complete, State.readBits_encoded]
  · exact .trans (s.encoded_framed.mono (by simp) (by simp) fun _ _ => id) (.complete _ (by simp) (by simp))

end Sys2Proof.Machine
end

section
/-! PROOFS. `DECODE` (spec/42_encode_decode.md R165 to R168; O26, O27, O30): its checks, what it writes, the scan with a
one-leaf tree, and the scan of the codes of a codebook, which gives the round trip. -/

namespace Sys2Proof.Machine

/-! ### The source of the bits -/

/-- `SRC` as the length register it selects (R165). -/
theorem State.sourceLen_eq (s : State) (src : Bool) :
    s.sourceLen src = (if src then s.invlen else s.enclen).toNat := by cases src <;> rfl

/-- `SRC` as the bit sequence it selects (R165). -/
theorem State.sourceBits_eq (s : State) (src : Bool) :
    s.sourceBits src
      = s.readBits (if src then .inv else .enc) (if src then s.invlen else s.enclen).toNat := by cases src <;> rfl

theorem encode_decode_src (src : Bool) :
    encode (.decode src) = if src then 0x00000116#32 else 0x00000016#32 := by cases src <;> decide

theorem number_sourceLenReg (src : Bool) :
    BitVec.ofNat 32 (sourceLenReg src).number = if src then 0x25#32 else 0x16#32 := by cases src <;> rfl

/-! ### The state DECODE leaves -/

/-- `DECLEN` set. -/
def State.withDeclen (s : State) (len : Nat) : State := { s with declen := BitVec.ofNat 32 len }

@[simp] theorem State.readElem_withDeclen (s : State) (len : Nat) (sp : Space) (i : Nat) :
    (s.withDeclen len).readElem sp i = s.readElem sp i :=
  State.readElem_congr rfl rfl (by cases sp <;> rfl) i

theorem Framed.withDeclen {regs : List Reg} {flags : List Flag} {touched : Space → Nat → Prop} (s : State) (len : Nat)
    (h : .declen ∈ regs) : Framed s (s.withDeclen len) regs flags touched :=
  .of_memories rfl rfl rfl rfl (fun _ => rfl) (fun r hs hr => by
    cases r with
    | declen => exact absurd h hr
    | status => exact absurd rfl hs
    | _ => rfl) (fun f _ => by cases f <;> rfl)

/-- The state `DECODE` leaves when it emits `out`, but for `ERR` and `ERRINFO` (R165). -/
def State.decoded (s : State) (out : List Word) : State := (s.writeSeq .dec 0 out).withDeclen out.length

/-- `DECODE` writes `DECLEN` and as many elements of `DEC` (R165). -/
theorem State.decoded_framed (s : State) (out : List Word) :
    Framed s (s.decoded out) [.declen] [] (fun sp i => sp = .dec ∧ i < out.length) :=
  .trans (.writeSeq s .dec 0 _ fun i _ hi => ⟨rfl, by simpa using hi⟩) (.withDeclen _ _ (by simp))

/-- Symbols of `SYMW` bits are read back from `DEC` as they were emitted. -/
theorem State.readSeq_decoded (s : State) {out : List Word} (h : ∀ x ∈ out, truncTo s.params.symW x = x) :
    (s.decoded out).readSeq .dec out.length = out :=
  calc (s.decoded out).readSeq .dec out.length
      = (s.writeSeq .dec 0 out).readSeq .dec out.length := State.readSeq_congr fun i _ => State.readElem_withDeclen _ _ .dec i
    _ = out.map (truncTo s.params.symW) := s.readSeq_writeSeq .dec out s.params.symW fun _ => rfl
    _ = out := by rw [List.map_congr_left h, List.map_id']

/-- A `DECODE` that emits `out`, no more than `DEC` holds, completes with `out` in `DEC` and nothing else written. -/
theorem decode_completes {s : State} {src : Bool} {out : List Word} (hp : s.params.valid = true)
    (hbody : decodeBody (encode (.decode src)) src s = .ok (s.decoded out)) (hlen : out.length ≤ s.params.decMax)
    (hsyms : ∀ x ∈ out, truncTo s.params.symW x = x) :
    ∃ t, Completes (.decode src) s t ∧ t.declen.toNat = out.length ∧ t.readSeq .dec t.declen.toNat = out
      ∧ Framed s t [.err, .errinfo, .declen] [] (fun sp i => sp = .dec ∧ i < out.length) := by
  have hmax := (Params.buffer_bounds hp).2
  have hdeclen : (s.decoded out).complete.declen.toNat = out.length := by
    have hreg : (s.decoded out).complete.declen = BitVec.ofNat 32 out.length := rfl
    rw [hreg, BitVec.toNat_ofNat]
    omega
  refine ⟨(s.decoded out).complete, completes_iff.mpr ⟨_, hbody, rfl⟩, hdeclen, ?_, ?_⟩
  · rw [hdeclen, State.readSeq_complete, s.readSeq_decoded hsyms]
  · exact .trans ((s.decoded_framed out).mono (by simp) (by simp) fun _ _ => id) (.complete _ (by simp) (by simp))

/-! ### The checks -/

theorem decodeBody_error_of_no_build {w : Word} {src : Bool} {s : State} (ht : s.treeV = false)
    (hn : s.noTree = false) : decodeBody w src s = .error (.badSequence w) := if_pos (by simp [ht, hn])

theorem decodeBody_error_of_length {w : Word} {src : Bool} {s : State} (h : s.treeV = true ∨ s.noTree = true)
    (hlen : s.params.bitsMax < s.sourceLen src) : decodeBody w src s = .error (.badParam (sourceLenReg src)) := by
  rcases h with h | h <;> simp [decodeBody, h, hlen]

/-- With no tree only the empty sequence is decoded, to nothing (R167). -/
theorem decodeBody_of_noTree {w : Word} {src : Bool} {s : State} (hn : s.noTree = true)
    (hlen : s.sourceLen src ≤ s.params.bitsMax) :
    decodeBody w src s = if s.sourceLen src = 0 then .ok (s.decoded []) else .error (.badSequence w) := by
  simp [decodeBody, hn, Nat.not_lt.mpr hlen, State.decoded, State.withDeclen]

/-- With a tree the scan decides (R165). -/
theorem decodeBody_of_tree {w : Word} {src : Bool} {s : State} (ht : s.treeV = true) (hn : s.noTree = false)
    (hlen : s.sourceLen src ≤ s.params.bitsMax) :
    decodeBody w src s = (s.scan (s.sourceBits src) 0 s.root 0 []).map s.decoded := by
  simp only [decodeBody, ht, hn, Bool.or_false, Bool.not_true, Bool.false_eq_true, if_false, if_neg (Nat.not_lt.mpr hlen)]
  cases s.scan (s.sourceBits src) 0 s.root 0 [] <;> rfl

/-- Settles O26: the checks before the scan are branches of the body, and so is decoding with no tree. -/
theorem decodeChecksAndNoTree : Obligations.DecodeChecksAndNoTree := by
  refine ⟨by decide, by decide, fun s src w info len hw hinfo hlen => ?_⟩
  have hlength : len.toNat = s.sourceLen src := by rw [hlen, State.sourceLen_eq]
  have hzero_iff : len = 0#32 ↔ s.sourceLen src = 0 := by rw [← BitVec.toNat_inj, hlength]; rfl
  rw [hw, ← encode_decode_src, hinfo, ← number_sourceLenReg, ne_eq, hzero_iff, hlength]
  refine ⟨fun ht hn => failsWith_of_error (i := .decode src) (decodeBody_error_of_no_build ht hn),
    fun h hbits => failsWith_of_error (i := .decode src) (decodeBody_error_of_length h hbits),
    fun hn hbits hne => failsWith_of_error (i := .decode src) ((decodeBody_of_noTree hn hbits).trans (if_neg hne)),
    fun hn hzero => ?_⟩
  have hbody : decodeBody (encode (.decode src)) src s = .ok (s.decoded []) :=
    (decodeBody_of_noTree hn (by simp [hzero])).trans (if_pos hzero)
  refine ⟨(s.decoded []).complete, completes_iff.mpr ⟨_, hbody, rfl⟩, rfl, ?_⟩
  exact .trans ((s.decoded_framed []).mono (by simp) (by simp) fun _ _ hi => absurd hi.2 (Nat.not_lt_zero _))
    (.complete _ (by simp) (by simp))

/-! ### One leaf -/

/-- A node's symbol is `SYMW` bits wide. -/
theorem State.truncTo_nodeSym (s : State) (n : Nat) : truncTo s.params.symW (s.nodeSym n) = s.nodeSym n := by
  have hfits := s.truncTo_readElem .node (8 * n + 1)
  rwa [elemWidth_sym] at hfits

/-- With a one-leaf tree each 0 bit emits the one symbol, while `DEC` has room (R166). -/
theorem State.scan_zeros_leaf (s : State) (hr : s.nodeInternal s.root.toNat = false) (n : Nat) (bits : List Bool)
    (k : Nat) (cur : Word) (start : Nat) (out : List Word) (hroom : out.length + n ≤ s.params.decMax) :
    s.scan (List.replicate n false ++ bits) k cur start out
      = s.scan bits (k + n) cur start (out ++ List.replicate n (s.nodeSym s.root.toNat)) := by
  induction n generalizing k out with
  | zero => simp
  | succ n ih =>
    rw [List.replicate_succ, List.cons_append, s.scan_cons_leaf hr, if_neg (by simp), s.emit_ok (by omega)]
    refine (ih (k + 1) _ (by simp; omega)).trans ?_
    rw [Nat.add_right_comm, Nat.add_assoc, List.append_assoc, List.singleton_append, ← List.replicate_succ]

/-- Settles O27: the scan emits one symbol for each 0 bit, and stops at a 1 bit or when `DEC` is full. -/
theorem decodeWithOneLeaf : Obligations.DecodeWithOneLeaf := by
  intro s src bits hp hbits ht hn hleaf hmax
  rw [← State.sourceBits_eq] at hbits
  have hlen : s.sourceLen src ≤ s.params.bitsMax := by simpa [hbits, State.sourceBits] using hmax
  have hbody := decodeBody_of_tree (w := encode (.decode src)) ht hn hlen
  rw [← hbits] at hbody
  have hzeros := fun n rest => s.scan_zeros_leaf hleaf n rest 0 s.root 0 []
  simp only [List.length_nil, Nat.zero_add, List.nil_append] at hzeros
  refine ⟨fun hall hdec => ?all_zeros, fun k rest hone hdec => ?a_one, fun rest hmany => ?too_many⟩
  case all_zeros =>
    have hscan := hzeros bits.length [] hdec
    rw [List.append_nil, ← hall, State.scan_nil, if_pos rfl] at hscan
    rw [hscan] at hbody
    have hdone := decode_completes hp hbody (by simpa using hdec)
      fun x hx => by rw [List.eq_of_mem_replicate hx, State.truncTo_nodeSym]
    simpa using hdone
  case a_one =>
    rw [hone, hzeros k _ hdec, s.scan_cons_leaf hleaf, if_pos rfl] at hbody
    exact failsWith_of_error (i := .decode src) hbody
  case too_many =>
    rw [hmany, List.replicate_succ', List.append_assoc, hzeros _ _ le_rfl, List.singleton_append,
      s.scan_cons_leaf hleaf, if_neg (by simp), s.emit_full (by simp)] at hbody
    exact failsWith_of_error (i := .decode src) hbody

/-! ### The scan of the codes of a codebook -/

/-- The scan reads the tree alone. -/
theorem State.scan_congr {s t : State} (hp : t.params = s.params) (hr : t.root = s.root)
    (hn : ∀ n, t.readNode n = s.readNode n) (bits : List Bool) (k : Nat) (cur : Word) (start : Nat) (out : List Word) :
    t.scan bits k cur start out = s.scan bits k cur start out := by
  have hinternal : ∀ n, t.nodeInternal n = s.nodeInternal n := fun n => congrArg Node.internal (hn n)
  have hsym : ∀ n, t.nodeSym n = s.nodeSym n := fun n => congrArg Node.sym (hn n)
  have hleft : ∀ n, t.nodeLeft n = s.nodeLeft n := fun n => congrArg Node.left (hn n)
  have hright : ∀ n, t.nodeRight n = s.nodeRight n := fun n => congrArg Node.right (hn n)
  induction bits generalizing k cur start out with
  | nil => rw [State.scan_nil, State.scan_nil, hr]
  | cons b bits ih => simp only [State.scan, State.emit, hp, hr, hinternal, hsym, hleft, hright, ih]

section
variable {s : State} (h : s.Coded)
include h

/-- A leaf has the symbol of its table entry (10_state.md R48). -/
theorem State.Coded.nodeSym_leaf {i : Nat} (hi : i < s.nsym.toNat) :
    s.nodeInternal i = false ∧ s.nodeSym i = s.readElem .ftsym i := by
  have hleaf := h.tree.leaves h.finished.pqV i hi
  exact ⟨congrArg Node.internal hleaf, congrArg Node.sym hleaf⟩

/-- From the root the scan of an entry's code emits the entry's symbol and comes back to the root (R165, R166). -/
theorem State.Coded.scan_code {i : Nat} (hi : i < s.nsym.toNat) {out : List Word} (hroom : out.length < s.params.decMax)
    (k start : Nat) : ∃ k' start', ∀ bits, s.scan (s.codeBits i ++ bits) k s.root start out
      = s.scan bits k' s.root start' (out ++ [s.readElem .ftsym i]) := by
  obtain ⟨hleaf, hsym⟩ := h.nodeSym_leaf hi
  have htwice := h.finished.root_twice
  rcases h.one_leaf_or_paths with ⟨h1, hcode⟩ | ⟨h2, hpaths⟩
  · obtain rfl : i = 0 := by omega
    have hroot : s.root.toNat = 0 := by omega
    refine ⟨k + 1, start, fun bits => ?_⟩
    rw [hcode, List.singleton_append, s.scan_cons_leaf (by rw [hroot, hleaf]), if_neg (by simp), hroot, hsym,
      s.emit_ok hroom]
  · have hword := toNat_ofNat_of_lt_toNat hi
    have hinternal := (h.finished.internal_iff _ h.finished.root_lt).mpr (by omega)
    have hpos := h.finished.one_le_length h2 (by rwa [hword]) (hpaths i hi)
    refine ⟨k + (s.codeBits i).length, k + (s.codeBits i).length, fun bits => ?_⟩
    rw [s.scan_word hinternal (hpaths i hi) (List.ne_nil_of_length_pos hpos) (by rw [hword, hleaf]), hword, hsym,
      s.emit_ok hroom]

/-- The scan of a sequence of codes emits their symbols (R168). -/
theorem State.Coded.scan_codes {entries : List Nat} (hentries : ∀ i ∈ entries, i < s.nsym.toNat) (k start : Nat)
    {out : List Word} (hroom : out.length + entries.length ≤ s.params.decMax) :
    s.scan (entries.flatMap s.codeBits) k s.root start out = .ok (out ++ entries.map (s.readElem .ftsym)) := by
  induction entries generalizing k start out with
  | nil => simp [State.scan_nil]
  | cons i entries ih =>
    rw [List.length_cons] at hroom
    obtain ⟨k', start', hstep⟩ := h.scan_code (hentries i (by simp)) (out := out) (by omega) k start
    rw [List.flatMap_cons, hstep, ih (fun j hj => hentries j (by simp [hj])) k' start' (by simp; omega)]
    simp

end

/-! ### The round trip -/

/-- The symbols of the text that have a codebook entry, in the order of the text (R168). -/
def State.knownText (s : State) : List Word := s.textSeq.filter (fun x => (s.lookup x).isSome)

/-- They are the symbols of the entries whose codes `ENCODE` writes. -/
theorem State.knownText_eq_map (s : State) :
    s.knownText = (s.textSeq.filterMap s.lookup).map (s.readElem .ftsym) := by
  unfold State.knownText
  induction s.textSeq with
  | nil => rfl
  | cons x l ih =>
    cases hx : s.lookup x with
    | none => simpa [hx] using ih
    | some i => simpa [hx, (State.lookup_sound hx).2] using ih

/-- A symbol of the text is skipped or known (R161). -/
theorem State.length_knownText_add (s : State) : s.knownText.length + s.skippedCount = s.tlen.toNat := by
  rw [← s.length_textSeq, State.knownText, State.skippedCount, ← List.countP_eq_length_filter,
    List.length_eq_countP_add_countP (fun x => (s.lookup x).isSome)]
  exact congrArg _ (List.countP_congr fun x _ => by simp)

theorem State.knownText_of_skippedCount_zero {s : State} (h : s.skippedCount = 0) : s.knownText = s.textSeq := by
  have hlen : s.knownText.length = s.textSeq.length := by simpa [h] using s.length_knownText_add
  exact List.filter_sublist.eq_of_length hlen

theorem State.truncTo_knownText {s : State} {x : Word} (hx : x ∈ s.knownText) : truncTo s.params.symW x = x := by
  obtain ⟨i, -, rfl⟩ := State.mem_readSeq.mp (List.mem_of_mem_filter hx)
  exact s.truncTo_readElem .text i

/-- `ENCODE` leaves alone what the scan reads. -/
theorem State.scan_encoded (s : State) (bits : List Bool) (k : Nat) (cur : Word) (start : Nat) (out : List Word) :
    s.encoded.complete.scan bits k cur start out = s.scan bits k cur start out :=
  State.scan_congr (by simp) (by simp)
    (fun n => (State.readNode_complete _ n).trans
      (State.readNode_congr fun _ _ => s.encoded_framed.elems .node _ (by simp))) bits k cur start out

/-- After `ENCODE` the body of `DECODE` answers the known symbols of the text: with no tree there are none, and otherwise
the scan gives back the symbols of the entries (R168). -/
theorem State.Inv.decodeBody_encoded {s : State} {w : Word} (h : s.Inv) (hc : s.codesV = true)
    (hbits : s.encodedBits.length ≤ s.params.bitsMax) (hroom : s.knownText.length ≤ s.params.decMax) :
    decodeBody w false s.encoded.complete = .ok (s.encoded.complete.decoded s.knownText) := by
  obtain ⟨hv, hpqn⟩ := h.build.stage.codes_need_tree hc
  have hncodes := h.build.stage.all_codes hc
  have hentries : ∀ i ∈ s.textSeq.filterMap s.lookup, i < s.nsym.toNat := fun i hi => by
    obtain ⟨x, -, hx⟩ := List.mem_filterMap.mp hi
    exact hncodes ▸ (State.lookup_sound hx).1
  have hlen : s.encoded.complete.sourceLen false = s.encodedBits.length := State.encoded_enclen h.build.params_valid hbits
  have hmax : s.encoded.complete.sourceLen false ≤ s.encoded.complete.params.bitsMax := by simpa [hlen] using hbits
  by_cases h0 : s.nsym = 0#32
  · have hnone : s.textSeq.filterMap s.lookup = [] :=
      List.eq_nil_iff_forall_not_mem.mpr fun i hi => by simpa [h0] using hentries i hi
    rw [decodeBody_of_noTree (by simp [State.noTree, hv, h0]) hmax, hlen, State.knownText_eq_map, hnone]
    simp [State.encodedBits, hnone]
  · have hcoded : s.Coded :=
      ⟨hc, Nat.one_le_iff_ne_zero.mpr fun hz => h0 (BitVec.eq_of_toNat_eq hz), h.build, h.tree, h.codebook⟩
    have hsource : s.encoded.complete.sourceBits false = s.encodedBits := by
      rw [State.sourceBits, hlen, State.readBits_complete]
      exact s.readBits_encoded
    have hroot : s.encoded.complete.root = s.root := by simp
    rw [decodeBody_of_tree (by simp [State.treeV, hv, hpqn.resolve_right h0]) (by simp [State.noTree, h0]) hmax, hsource,
      hroot, State.scan_encoded, State.encodedBits,
      hcoded.scan_codes hentries 0 0 (by simpa [State.knownText_eq_map] using hroom), List.nil_append,
      ← State.knownText_eq_map]
    rfl

/-- Settles O30: `DECODE` scans the codes `ENCODE` wrote, and each gives back the symbol it was looked up for. -/
theorem encodeDecodeRoundTrip : Obligations.EncodeDecodeRoundTrip := by
  intro s t h hc hencode hdec
  obtain ⟨u, hbody, rfl⟩ := completes_iff.mp hencode
  obtain ⟨-, -, hbits, rfl⟩ := encodeBody_ok_iff.mp hbody
  have hskip : s.encoded.complete.skipcnt.toNat = s.skippedCount := s.encoded_skipcnt
  have hparams : s.encoded.complete.params = s.params := s.encoded_framed.params
  have hlen := s.length_knownText_add
  rw [hskip] at hdec ⊢
  obtain ⟨u, hu, hdeclen, hread, -⟩ := decode_completes (by rw [hparams]; exact h.build.params_valid)
    (h.decodeBody_encoded hc hbits (by omega)) (by rw [hparams]; omega)
    (by rw [hparams]; exact fun _ => State.truncTo_knownText)
  refine ⟨u, hu, by omega, hread, fun hzero => hread.trans (State.knownText_of_skippedCount_zero ?_)⟩
  rw [← hskip, hzero]
  rfl

end Sys2Proof.Machine
end

section
/-! PROOFS. The columnar transposer (spec/43_transposer.md; O31, O33, O34, O35): the two position maps, cell by cell;
then for each of `PERMUTE` and `INVERT` when it completes, the state it leaves and how it fails; then the round trip. -/

namespace Sys2Proof.Machine

/-! ### The position maps -/

/-- Every position of a matrix is the row-major position of a cell (R180). -/
theorem exists_cell {rows cols p : Nat} (h : p < rows * cols) : ∃ r c, r < rows ∧ c < cols ∧ r * cols + c = p := by
  have hcols : 0 < cols := Nat.pos_of_mul_pos_left (Nat.zero_lt_of_lt h)
  exact ⟨p / cols, p % cols, (Nat.div_lt_iff_lt_mul hcols).mpr h, Nat.mod_lt p hcols, Nat.div_add_mod' p cols⟩

/-- A cell's row-major position is one of the matrix (R180). -/
theorem cell_lt {rows cols r c : Nat} (hr : r < rows) (hc : c < cols) : r * cols + c < rows * cols := by
  have hrow : (r + 1) * cols ≤ rows * cols := Nat.mul_le_mul_right cols hr
  rw [Nat.add_mul, Nat.one_mul] at hrow
  omega

theorem toColumnMajor_lt {rows cols p : Nat} (h : p < rows * cols) : toColumnMajor rows cols p < rows * cols := by
  obtain ⟨r, c, hr, hc, rfl⟩ := exists_cell h
  rw [toColumnMajor_cell hc, Nat.mul_comm rows]
  exact cell_lt hc hr

theorem toRowMajor_toColumnMajor {rows cols p : Nat} (h : p < rows * cols) :
    toRowMajor rows cols (toColumnMajor rows cols p) = p := by
  obtain ⟨r, c, hr, hc, rfl⟩ := exists_cell h
  rw [toColumnMajor_cell hc, toRowMajor_cell hr]

/-- τ is σ of the matrix with rows and columns exchanged (R189). -/
theorem toRowMajor_eq_toColumnMajor (rows cols : Nat) : toRowMajor rows cols = toColumnMajor cols rows := rfl

theorem toRowMajor_lt {rows cols q : Nat} (h : q < rows * cols) : toRowMajor rows cols q < rows * cols := by
  rw [toRowMajor_eq_toColumnMajor, Nat.mul_comm rows]
  exact toColumnMajor_lt (Nat.mul_comm rows cols ▸ h)

theorem toColumnMajor_toRowMajor {rows cols q : Nat} (h : q < rows * cols) :
    toColumnMajor rows cols (toRowMajor rows cols q) = q := by
  rw [toRowMajor_eq_toColumnMajor rows, ← toRowMajor_eq_toColumnMajor cols]
  exact toRowMajor_toColumnMajor (Nat.mul_comm rows cols ▸ h)

/-- The last position is the cell in the last row and column, and it stays the last (R189). -/
theorem toColumnMajor_last {rows cols : Nat} (hr : 1 ≤ rows) (hc : 1 ≤ cols) :
    toColumnMajor rows cols (rows * cols - 1) = rows * cols - 1 := by
  obtain ⟨r, rfl⟩ := Nat.exists_eq_add_of_le' hr
  obtain ⟨c, rfl⟩ := Nat.exists_eq_add_of_le' hc
  have hlast : ∀ m n : Nat, (m + 1) * (n + 1) - 1 = m * (n + 1) + n := fun m n => by
    rw [Nat.add_mul, Nat.one_mul]
    rfl
  rw [hlast r c, toColumnMajor_cell (Nat.lt_succ_self c), ← hlast c r, Nat.mul_comm, hlast r c]

/-! ### When PERMUTE completes -/

/-- The number of rows `PERMUTE` lays the input out in (R181). -/
def State.permRows (s : State) : Nat := ceilDiv s.enclen.toNat s.cols.toNat

/-- The three checks of `PERMUTE` pass (R181). -/
structure State.Permutable (s : State) : Prop where
  cols_pos : 1 ≤ s.cols.toNat
  len_le : s.enclen.toNat ≤ s.params.bitsMax
  cells_le : s.permRows * s.cols.toNat ≤ s.params.bitsMax

/-- The four result registers of `PERMUTE` set (R181). -/
def State.withMatrix (s : State) (rows cols len : Nat) : State :=
  { s with
    permlen := BitVec.ofNat 32 (rows * cols), rows := BitVec.ofNat 32 rows
    padlen := BitVec.ofNat 32 (rows * cols - len), origlen := BitVec.ofNat 32 len }

/-- The state `PERMUTE` leaves, but for `ERR` and `ERRINFO` (R181). -/
def State.permuted (s : State) : State :=
  (s.writeSeq .perm 0 ((s.permutedBits s.permRows s.cols.toNat).map bitWord)).withMatrix s.permRows s.cols.toNat
    s.enclen.toNat

/-- The body of `PERMUTE` as its checks in their order (R181). -/
theorem permuteBody_eq (s : State) : permuteBody s =
    if s.cols.toNat < 1 then .error (.badParam .cols)
    else if s.params.bitsMax < s.enclen.toNat then .error (.badParam .enclen)
    else if s.params.bitsMax < s.permRows * s.cols.toNat then .error (.capacity .permBits) else .ok s.permuted := rfl

theorem permuteBody_ok_iff {s t : State} : permuteBody s = .ok t ↔ s.Permutable ∧ t = s.permuted := by
  rw [permuteBody_eq]
  split_ifs with hcols hlen hcells
  · exact ⟨nofun, fun h => absurd h.1.cols_pos (Nat.not_le.mpr hcols)⟩
  · exact ⟨nofun, fun h => absurd h.1.len_le (Nat.not_le.mpr hlen)⟩
  · exact ⟨nofun, fun h => absurd h.1.cells_le (Nat.not_le.mpr hcells)⟩
  · have hperm : s.Permutable := ⟨Nat.not_lt.mp hcols, Nat.not_lt.mp hlen, Nat.not_lt.mp hcells⟩
    simp [hperm, eq_comm (a := t)]

theorem completes_permute_iff {s t : State} : Completes .permute s t ↔ s.Permutable ∧ t = s.permuted.complete := by
  simp only [completes_iff, commandBody, permuteBody_ok_iff, and_assoc, exists_and_left, exists_eq_left]

theorem permuteBody_error_of_cols {s : State} (h : s.cols.toNat = 0) : permuteBody s = .error (.badParam .cols) := by
  simp [permuteBody_eq, h]

theorem permuteBody_error_of_len {s : State} (hcols : 1 ≤ s.cols.toNat) (h : s.params.bitsMax < s.enclen.toNat) :
    permuteBody s = .error (.badParam .enclen) := by
  rw [permuteBody_eq, if_neg (Nat.not_lt.mpr hcols), if_pos h]

theorem permuteBody_error_of_cells {s : State} (hcols : 1 ≤ s.cols.toNat) (hlen : s.enclen.toNat ≤ s.params.bitsMax)
    (h : s.params.bitsMax < s.permRows * s.cols.toNat) : permuteBody s = .error (.capacity .permBits) := by
  rw [permuteBody_eq, if_neg (Nat.not_lt.mpr hcols), if_neg (Nat.not_lt.mpr hlen), if_pos h]

/-! ### The state PERMUTE leaves -/

@[simp] theorem State.readBit_complete (s : State) (sp : Space) (i : Nat) :
    s.complete.readBit sp i = s.readBit sp i := State.readBit_congr (s.readElem_complete sp i)

@[simp] theorem State.readElem_withMatrix (s : State) (rows cols len : Nat) (sp : Space) (i : Nat) :
    (s.withMatrix rows cols len).readElem sp i = s.readElem sp i :=
  State.readElem_congr rfl rfl (by cases sp <;> rfl) i

theorem Framed.withMatrix {flags : List Flag} {touched : Space → Nat → Prop} (s : State) (rows cols len : Nat) :
    Framed s (s.withMatrix rows cols len) [.permlen, .rows, .padlen, .origlen] flags touched :=
  .of_memories rfl rfl rfl rfl (fun _ => rfl) (fun r hs hr => by
    cases r with
    | permlen | rows | padlen | origlen => exact absurd (by simp) hr
    | status => exact absurd rfl hs
    | _ => rfl) (fun f _ => by cases f <;> rfl)

/-- `PERMUTE` writes as many cells of `PERM` as the matrix has, and four registers (R181). -/
theorem State.permuted_framed (s : State) :
    Framed s s.permuted [.permlen, .rows, .padlen, .origlen] []
      (fun sp i => sp = .perm ∧ i < s.permRows * s.cols.toNat) :=
  .trans (.writeSeq s .perm 0 _ fun i _ hi => ⟨rfl, by simpa using hi⟩) (.withMatrix _ _ _ _)

@[simp] theorem State.permuted_params (s : State) : s.permuted.params = s.params := s.permuted_framed.params
@[simp] theorem State.permuted_cols (s : State) : s.permuted.cols = s.cols :=
  s.permuted_framed.regs .cols (by simp) (by simp)
@[simp] theorem State.permuted_origlen (s : State) : s.permuted.origlen = s.enclen := BitVec.ofNat_toNat 32 s.enclen

/-- Cell (r, c) of the padded input stands in `PERM` at its column-major position (R180, R181). -/
theorem State.readBit_permuted (s : State) {r c : Nat} (hr : r < s.permRows) (hc : c < s.cols.toNat) :
    s.permuted.readBit .perm (c * s.permRows + r) = s.paddedBit (r * s.cols.toNat + c) := by
  have hlt : c * s.permRows + r < (s.permutedBits s.permRows s.cols.toNat).length := by
    rw [State.length_permutedBits, Nat.mul_comm s.permRows]
    exact cell_lt hc hr
  have hwritten := s.readBit_writeSeq_bits .perm 0 rfl hlt
  rw [Nat.zero_add, s.getElem_permutedBits _ _ _ hlt, toRowMajor_cell hr] at hwritten
  exact (State.readBit_congr (State.readElem_withMatrix _ _ _ _ _ _)).trans hwritten

section
variable {s : State} (h : s.Permutable)
include h

/-- The input fits its matrix (R181). -/
theorem State.Permutable.len_le_cells : s.enclen.toNat ≤ s.permRows * s.cols.toNat := le_ceilDiv_mul h.cols_pos

variable (hp : s.params.valid = true)
include hp

/-- The number of cells of the matrix fits a register (R5). -/
theorem State.Permutable.cells_lt : s.permRows * s.cols.toNat < 2 ^ 32 := by
  have hmax := (Params.buffer_bounds hp).1
  have hcells := h.cells_le
  omega

theorem State.Permutable.permuted_permlen : s.permuted.permlen.toNat = s.permRows * s.cols.toNat :=
  (BitVec.toNat_ofNat _ _).trans (Nat.mod_eq_of_lt (h.cells_lt hp))

theorem State.Permutable.permuted_rows : s.permuted.rows.toNat = s.permRows :=
  (BitVec.toNat_ofNat _ _).trans
    (Nat.mod_eq_of_lt ((Nat.le_mul_of_pos_right _ h.cols_pos).trans_lt (h.cells_lt hp)))

theorem State.Permutable.permuted_padlen :
    s.permuted.padlen.toNat = s.permRows * s.cols.toNat - s.enclen.toNat :=
  (BitVec.toNat_ofNat _ _).trans (Nat.mod_eq_of_lt ((Nat.sub_le _ _).trans_lt (h.cells_lt hp)))

end

/-- Settles O31: the checks are the branches of the body, and each cell of the padded input is read back from its
column-major position. -/
theorem permuteReadsOutColumns : Obligations.PermuteReadsOutColumns := by
  refine ⟨by decide, fun s C L R N hp hC hL hR hN => ?_⟩
  subst hC hL
  obtain rfl : R = s.permRows := hR
  subst hN
  refine ⟨fun hcols => failsWith_of_error (i := .permute) (permuteBody_error_of_cols hcols),
    fun hcols hlen => failsWith_of_error (i := .permute) (permuteBody_error_of_len hcols hlen),
    fun hcols hlen hcells => failsWith_of_error (i := .permute) (permuteBody_error_of_cells hcols hlen hcells),
    fun hcols hlen hcells => ?_⟩
  have h : s.Permutable := ⟨hcols, hlen, hcells⟩
  refine ⟨s.permuted.complete, completes_permute_iff.mpr ⟨h, rfl⟩, fun r c hr hc => ?_, h.permuted_permlen hp,
    h.permuted_rows hp, h.permuted_padlen hp, congrArg BitVec.toNat s.permuted_origlen, ?_⟩
  · rw [State.readBit_complete, s.readBit_permuted hr hc]
    rfl
  · exact .trans (s.permuted_framed.mono (by simp) (by simp) fun _ _ => id) (.complete _ (by simp) (by simp))

/-! ### When INVERT completes -/

/-- The checks of `INVERT` pass (R185). -/
structure State.Invertible (s : State) (trim : Bool) : Prop where
  cols_pos : 1 ≤ s.cols.toNat
  len_le : s.permlen.toNat ≤ s.params.bitsMax
  shape : s.permlen.toNat = s.rows.toNat * s.cols.toNat
  trim_le : trim = true → s.origlen.toNat ≤ s.permlen.toNat

/-- `INVLEN` set. -/
def State.withInvlen (s : State) (len : Word) : State := { s with invlen := len }

/-- The state `INVERT` leaves, but for `ERR` and `ERRINFO` (R185). -/
def State.inverted (s : State) (trim : Bool) : State :=
  (s.writeSeq .inv 0 ((s.invertedBits s.rows.toNat s.cols.toNat).map bitWord)).withInvlen
    (if trim then s.origlen else s.permlen)

/-- The body of `INVERT` as its checks in their order (R185). -/
theorem invertBody_eq (trim : Bool) (s : State) : invertBody trim s =
    if s.cols.toNat < 1 then .error (.badParam .cols)
    else if s.params.bitsMax < s.permlen.toNat then .error (.badParam .permlen)
    else if s.permlen.toNat ≠ s.rows.toNat * s.cols.toNat then .error (.shapeMismatch s.permlen)
    else if trim && s.permlen.toNat < s.origlen.toNat then .error (.badParam .origlen) else .ok (s.inverted trim) := rfl

theorem invertBody_ok_iff {trim : Bool} {s t : State} :
    invertBody trim s = .ok t ↔ s.Invertible trim ∧ t = s.inverted trim := by
  rw [invertBody_eq]
  split_ifs with hcols hlen hshape htrim
  · exact ⟨nofun, fun h => absurd h.1.cols_pos (Nat.not_le.mpr hcols)⟩
  · exact ⟨nofun, fun h => absurd h.1.len_le (Nat.not_le.mpr hlen)⟩
  · exact ⟨nofun, fun h => absurd h.1.shape hshape⟩
  · rw [Bool.and_eq_true, decide_eq_true_eq] at htrim
    exact ⟨nofun, fun h => absurd (h.1.trim_le htrim.1) (Nat.not_le.mpr htrim.2)⟩
  · have hinv : s.Invertible trim :=
      ⟨Nat.not_lt.mp hcols, Nat.not_lt.mp hlen, not_ne_iff.mp hshape, fun ht => by simpa [ht] using htrim⟩
    simp [hinv, eq_comm (a := t)]

theorem completes_invert_iff {trim : Bool} {s t : State} :
    Completes (.invert trim) s t ↔ s.Invertible trim ∧ t = (s.inverted trim).complete := by
  simp only [completes_iff, commandBody, invertBody_ok_iff, and_assoc, exists_and_left, exists_eq_left]

theorem invertBody_error_of_cols {trim : Bool} {s : State} (h : s.cols.toNat = 0) :
    invertBody trim s = .error (.badParam .cols) := by
  simp [invertBody_eq, h]

theorem invertBody_error_of_len {trim : Bool} {s : State} (hcols : 1 ≤ s.cols.toNat)
    (h : s.params.bitsMax < s.permlen.toNat) : invertBody trim s = .error (.badParam .permlen) := by
  rw [invertBody_eq, if_neg (Nat.not_lt.mpr hcols), if_pos h]

theorem invertBody_error_of_shape {trim : Bool} {s : State} (hcols : 1 ≤ s.cols.toNat)
    (hlen : s.permlen.toNat ≤ s.params.bitsMax) (h : s.permlen.toNat ≠ s.rows.toNat * s.cols.toNat) :
    invertBody trim s = .error (.shapeMismatch s.permlen) := by
  rw [invertBody_eq, if_neg (Nat.not_lt.mpr hcols), if_neg (Nat.not_lt.mpr hlen), if_pos h]

theorem invertBody_error_of_trim {s : State} (hcols : 1 ≤ s.cols.toNat) (hlen : s.permlen.toNat ≤ s.params.bitsMax)
    (hshape : s.permlen.toNat = s.rows.toNat * s.cols.toNat) (h : s.permlen.toNat < s.origlen.toNat) :
    invertBody true s = .error (.badParam .origlen) := by
  rw [invertBody_eq, if_neg (Nat.not_lt.mpr hcols), if_neg (Nat.not_lt.mpr hlen), if_neg (not_not.mpr hshape),
    if_pos (by simpa using h)]

/-! ### The state INVERT leaves -/

@[simp] theorem State.readElem_withInvlen (s : State) (len : Word) (sp : Space) (i : Nat) :
    (s.withInvlen len).readElem sp i = s.readElem sp i :=
  State.readElem_congr rfl rfl (by cases sp <;> rfl) i

theorem Framed.withInvlen {flags : List Flag} {touched : Space → Nat → Prop} (s : State) (len : Word) :
    Framed s (s.withInvlen len) [.invlen] flags touched :=
  .of_memories rfl rfl rfl rfl (fun _ => rfl) (fun r hs hr => by
    cases r with
    | invlen => exact absurd (by simp) hr
    | status => exact absurd rfl hs
    | _ => rfl) (fun f _ => by cases f <;> rfl)

/-- `INVERT` writes every cell of the matrix to `INV`, with `TRIM` or without, and `INVLEN` (R185). -/
theorem State.inverted_framed (s : State) (trim : Bool) :
    Framed s (s.inverted trim) [.invlen] [] (fun sp i => sp = .inv ∧ i < s.rows.toNat * s.cols.toNat) :=
  .trans (.writeSeq s .inv 0 _ fun i _ hi => ⟨rfl, by simpa using hi⟩) (.withInvlen _ _)

/-- Each cell of `INV` holds the bit of `PERM` at its column-major position (R185). -/
theorem State.readBit_inverted (s : State) (trim : Bool) {p : Nat} (hp : p < s.rows.toNat * s.cols.toNat) :
    (s.inverted trim).readBit .inv p = s.readBit .perm (toColumnMajor s.rows.toNat s.cols.toNat p) := by
  have hlt : p < (s.invertedBits s.rows.toNat s.cols.toNat).length := by rwa [State.length_invertedBits]
  have hwritten := s.readBit_writeSeq_bits .inv 0 rfl hlt
  rw [Nat.zero_add, s.getElem_invertedBits _ _ _ hlt] at hwritten
  exact (State.readBit_congr (State.readElem_withInvlen _ _ _ _)).trans hwritten

/-- Settles O33: the checks are the branches of the body, and each cell is read back from its row-major position. -/
theorem invertReadsOutRows : Obligations.InvertReadsOutRows := by
  refine ⟨by decide, by decide, fun s trim C R N hC hR hN => ?_⟩
  subst hC hR hN
  refine ⟨fun hcols => failsWith_of_error (i := .invert trim) (invertBody_error_of_cols hcols),
    fun hcols hlen => failsWith_of_error (i := .invert trim) (invertBody_error_of_len hcols hlen),
    fun hcols hlen hshape => failsWith_of_error (i := .invert trim) (invertBody_error_of_shape hcols hlen hshape),
    fun hcols hlen hshape ht horig => ?trim_too_long, fun hcols hlen hshape htrim => ?completes⟩
  case trim_too_long =>
    subst ht
    exact failsWith_of_error (i := .invert true) (invertBody_error_of_trim hcols hlen hshape horig)
  case completes =>
    refine ⟨(s.inverted trim).complete, completes_invert_iff.mpr ⟨⟨hcols, hlen, hshape, htrim⟩, rfl⟩,
      fun r c hr hc => ?_, rfl, ?_⟩
    · rw [State.readBit_complete, s.readBit_inverted trim (cell_lt hr hc), toColumnMajor_cell hc]
    · rw [hshape]
      exact .trans ((s.inverted_framed trim).mono (by simp) (by simp) fun _ _ => id) (.complete _ (by simp) (by simp))

/-! ### The round trip -/

/-- After `PERMUTE` the checks of `INVERT` pass, with `TRIM` and without (R187). -/
theorem State.Permutable.invertible_permuted {s : State} (h : s.Permutable) (hp : s.params.valid = true) (trim : Bool) :
    s.permuted.complete.Invertible trim where
  cols_pos := by simpa using h.cols_pos
  len_le := by simpa [h.permuted_permlen hp] using h.cells_le
  shape := by simp [h.permuted_permlen hp, h.permuted_rows hp]
  trim_le _ := by simpa [h.permuted_permlen hp] using h.len_le_cells

/-- `INVERT` after `PERMUTE` writes the padded input back, bit by bit: σ and then τ move nothing (R187, R189). -/
theorem State.Permutable.readBit_inverted_permuted {s : State} (h : s.Permutable) (hp : s.params.valid = true)
    (trim : Bool) {p : Nat} (hlt : p < s.permRows * s.cols.toNat) :
    (s.permuted.complete.inverted trim).readBit .inv p = s.paddedBit p := by
  have hrows : s.permuted.complete.rows.toNat = s.permRows := h.permuted_rows hp
  have hcols : s.permuted.complete.cols.toNat = s.cols.toNat := by simp
  rw [State.readBit_inverted _ _ (by rwa [hrows, hcols]), hrows, hcols, State.readBit_complete]
  obtain ⟨r, c, hr, hc, rfl⟩ := exists_cell hlt
  rw [toColumnMajor_cell hc, s.readBit_permuted hr hc]

/-- The padded input is the input and then filler bits 0 (R181). -/
theorem State.map_paddedBit_range (s : State) {n : Nat} (h : s.enclen.toNat ≤ n) :
    (List.range n).map s.paddedBit
      = s.readBits .enc s.enclen.toNat ++ List.replicate (n - s.enclen.toNat) false := by
  refine List.ext_getElem (by simp [h]) fun p _ _ => ?_
  by_cases hp : p < s.enclen.toNat <;> simp [State.paddedBit, hp, List.getElem_append]

/-- Settles O34: the checks of `INVERT` pass after `PERMUTE`, and it writes back the padded input, of which `TRIM` keeps
the first `ENCLEN` bits. -/
theorem permuteInvertRoundTrip : Obligations.PermuteInvertRoundTrip := by
  intro s t hp hperm
  obtain ⟨h, rfl⟩ := completes_permute_iff.mp hperm
  have hreadback : ∀ trim n, n ≤ s.permRows * s.cols.toNat →
      (s.permuted.complete.inverted trim).complete.readBits .inv n = (List.range n).map s.paddedBit := by
    intro trim n hn
    rw [State.readBits_complete]
    exact List.map_congr_left fun p hmem =>
      h.readBit_inverted_permuted hp trim ((List.mem_range.mp hmem).trans_le hn)
  have hcompletes := fun trim => completes_invert_iff.mpr ⟨h.invertible_permuted hp trim, rfl⟩
  refine ⟨⟨_, hcompletes true, s.permuted_origlen, ?trimmed⟩, ⟨_, hcompletes false, rfl, ?padded⟩⟩
  case trimmed =>
    have hinvlen : (s.permuted.complete.inverted true).complete.invlen = s.enclen := s.permuted_origlen
    rw [hinvlen, hreadback true _ h.len_le_cells, s.map_paddedBit_range le_rfl]
    simp
  case padded =>
    have hinvlen : (s.permuted.complete.inverted false).complete.invlen.toNat = s.permRows * s.cols.toNat :=
      h.permuted_permlen hp
    have hpadlen : s.permuted.complete.padlen.toNat = s.permRows * s.cols.toNat - s.enclen.toNat :=
      h.permuted_padlen hp
    rw [hinvlen, hpadlen, hreadback false _ le_rfl, s.map_paddedBit_range h.len_le_cells]

/-- Settles O35: a position is a cell, and both maps are known on cells; τ is σ with rows and columns exchanged. -/
theorem positionMapsAreInverse : Obligations.PositionMapsAreInverse := by
  intro R C hC hR
  refine ⟨fun p hp => ⟨toColumnMajor_lt hp, toRowMajor_toColumnMajor hp⟩,
    fun q hq => ⟨toRowMajor_lt hq, toColumnMajor_toRowMajor hq⟩, by simp [toColumnMajor],
    toColumnMajor_last hR hC, fun s t hperm hp hrows hcols p hlt => ?permute,
    fun s t trim hinv hrows hcols q hq => ?invert⟩
  case permute =>
    obtain ⟨h, rfl⟩ := completes_permute_iff.mp hperm
    obtain rfl : s.permRows = R := (h.permuted_rows hp).symm.trans hrows
    subst hcols
    obtain ⟨r, c, hr, hc, rfl⟩ := exists_cell (hlt.trans_le h.len_le_cells)
    rw [toColumnMajor_cell hc, State.readBit_complete, s.readBit_permuted hr hc, State.paddedBit, decide_eq_true hlt,
      Bool.true_and]
  case invert =>
    obtain ⟨-, rfl⟩ := completes_invert_iff.mp hinv
    subst hrows hcols
    rw [State.readBit_complete, s.readBit_inverted trim (toRowMajor_lt hq), toColumnMajor_toRowMajor hq]

end Sys2Proof.Machine
end

section
/-! PROOFS. The system commands, `NOP` and `CLEAR` (spec/44_system_commands.md R200, R201; O10, O11): what the reset of
the registers leaves, and that no other command clears a flag that only `CLEAR` may clear. -/

namespace Sys2Proof.Machine

/-! ### NOP -/

/-- Settles O10: the body of `NOP` is the state itself, so that all that is left is how a command ends. -/
theorem nopOnlyClearsErr : Obligations.NopOnlyClearsErr :=
  ⟨by decide, fun s => exec_eq_finish .nop s⟩

/-! ### The reset of the registers -/

theorem State.readReg_resetRegisters (s : State) (r : Reg) : s.resetRegisters.readReg r = resetValue s.params r := by
  cases r <;> rfl

theorem State.flag_resetRegisters (s : State) (f : Flag) : s.resetRegisters.flag f = false := by
  cases f <;> rfl

/-- `CLEAR` writes every register but the constants, every flag, and no element (R201). -/
theorem State.resetRegisters_framed (s : State) :
    Framed s s.resetRegisters (.err :: .errinfo :: writtenRegs .clear) (writtenFlags .clear) noElem :=
  .of_memories rfl rfl rfl rfl (fun sp => by cases sp <;> rfl)
    (fun r hs hr => by
      cases r with
      | id | cap0 | cap1 | cap2 | cap3 | cmd => rfl
      | status => exact absurd rfl hs
      | _ => simp [writtenRegs] at hr)
    (fun f hf => by cases f <;> simp [writtenFlags] at hf)

/-- The registers `CLEAR` resets include `ERR` and `ERRINFO`. -/
theorem completes_clear (s : State) : Completes .clear s s.resetRegisters :=
  completes_iff.mpr ⟨s.resetRegisters, rfl, rfl⟩

/-! ### Flags that only CLEAR clears -/

/-- `FREQ_V` and the three sticky bits (10_state.md R26). -/
def lastingFlags : List Flag := [.freqV, .wEmpty, .wUnknown, .accErr]

/-- From `s` to `t` no lasting flag is cleared. -/
def State.KeepsLasting (s t : State) : Prop := ∀ f ∈ lastingFlags, s.flag f = true → t.flag f = true

theorem State.KeepsLasting.refl (s : State) : s.KeepsLasting s := fun _ _ h => h

theorem State.KeepsLasting.trans {s t u : State} (h : s.KeepsLasting t) (h' : t.KeepsLasting u) : s.KeepsLasting u :=
  fun f hf hs => h' f hf (h f hf hs)

/-- A lasting flag outside the frame stays as it is. -/
theorem Framed.keepsLasting {s t : State} {regs : List Reg} {flags : List Flag} {touched : Space → Nat → Prop}
    (h : Framed s t regs flags touched) (hset : ∀ f ∈ flags, f ∈ lastingFlags → s.flag f = true → t.flag f = true) :
    s.KeepsLasting t := by
  intro f hlasting hs
  by_cases hf : f ∈ flags
  · exact hset f hf hlasting hs
  · rw [h.flags f hf, hs]

/-- A frame without a lasting flag clears none. -/
theorem Framed.keepsLasting_of_disjoint {s t : State} {regs : List Reg} {flags : List Flag}
    {touched : Space → Nat → Prop} (h : Framed s t regs flags touched) (hd : flags.Disjoint lastingFlags) :
    s.KeepsLasting t :=
  h.keepsLasting fun _ hf hlasting => absurd hlasting (hd hf)

theorem State.keepsLasting_complete (s : State) : s.KeepsLasting s.complete :=
  have hframe : Framed s s.complete [.err, .errinfo] [] noElem := .complete s (by simp) (by simp)
  hframe.keepsLasting_of_disjoint (by simp)

/-- A command that fails clears no flag (60_exceptions.md R214). -/
theorem State.keepsLasting_raise (s : State) (e : CmdError) : s.KeepsLasting (s.raise e) :=
  fun f _ hs => by cases f <;> exact hs

/-- `PQINIT` only ever sets `W_EMPTY` (40_tree_builder.md R127). -/
theorem State.keepsLasting_warnEmpty (s : State) : s.KeepsLasting s.warnEmpty :=
  have hframe : Framed s s.warnEmpty [] [.wEmpty] noElem := .warnEmpty s (by simp)
  hframe.keepsLasting fun f hf _ hs => by
    obtain rfl := List.mem_singleton.mp hf
    exact Bool.or_eq_true_iff.mpr (.inl hs)

/-! ### The tree builder -/

/-- `FREQ` sets `FREQ_V` (40_tree_builder.md R125). -/
theorem State.keepsLasting_counted (s : State) : s.KeepsLasting s.counted :=
  s.counted_framed.keepsLasting fun f hf hlasting _ => by
    cases f with
    | freqV => rfl
    | pqV | codesV => simp [lastingFlags] at hlasting
    | wEmpty | wUnknown | accErr => simp at hf

theorem freqBody_keepsLasting {s t : State} (h : freqBody s = .ok t) : s.KeepsLasting t := by
  obtain ⟨-, -, rfl⟩ := freqBody_ok_iff.mp h
  exact s.keepsLasting_counted

theorem pqinitBody_keepsLasting {w : Word} {s t : State} (h : pqinitBody w s = .ok t) : s.KeepsLasting t := by
  obtain ⟨-, rfl⟩ := pqinitBody_ok_iff.mp h
  exact (s.queued_framed.keepsLasting_of_disjoint (by simp [lastingFlags])).trans s.queued.keepsLasting_warnEmpty

theorem mergeBody_keepsLasting {w : Word} {s t : State} (h : mergeBody w s = .ok t) : s.KeepsLasting t := by
  obtain ⟨-, a, b, q, hq, rfl⟩ := mergeBody_ok_cases h
  have hlen : q.length + 2 = s.pqn.toNat := by rw [← State.length_queue, hq]; rfl
  have hlt := s.pqn.isLt
  exact (s.joined_framed a b (by omega)).keepsLasting_of_disjoint (by simp)

theorem mergeLoop_keepsLasting {w : Word} {rounds : Nat} {s t : State} (h : mergeLoop w rounds s = .ok t) :
    s.KeepsLasting t := by
  induction rounds generalizing s with
  | zero => cases h; exact .refl _
  | succ rounds ih =>
    unfold mergeLoop at h
    split at h
    · split at h
      · rename_i u hu
        exact (mergeBody_keepsLasting hu).trans (ih h)
      · cases h
    · cases h; exact .refl _

/-- `BUILD` is `FREQ`, `PQINIT` and rounds of `MERGE` (40_tree_builder.md R131). -/
theorem buildBody_keepsLasting {w : Word} {s t : State} (h : buildBody w s = .ok t) : s.KeepsLasting t := by
  unfold buildBody at h
  split at h
  · cases h
  · rename_i counted hcounted
    split at h
    · cases h
    · rename_i loaded hloaded
      exact ((freqBody_keepsLasting hcounted).trans (pqinitBody_keepsLasting hloaded)).trans (mergeLoop_keepsLasting h)

/-! ### The codebook and the codec -/

section
variable {regs : List Reg} {flags : List Flag}

/-- Writing a code touches the codebook's two memories (41_codebook.md R151). -/
theorem Framed.writeCode (s : State) (i : Nat) (p : List Bool) :
    Framed s (s.writeCode i p) regs flags (fun sp _ => sp ∈ writtenSpaces .gencodes) :=
  .trans (.writeSeq s .cblen i [BitVec.ofNat 32 p.length] fun _ _ _ => by simp [writtenSpaces])
    (.writeSeq _ .cbbit _ _ fun _ _ _ => by simp [writtenSpaces])

theorem Framed.writePathCodes (s : State) (n : Nat) :
    Framed s (s.writePathCodes n) regs flags (fun sp _ => sp ∈ writtenSpaces .gencodes) := by
  induction n with
  | zero => exact .refl s
  | succ n ih => rw [State.writePathCodes_succ]; exact ih.trans (.writeCode _ _ _)

theorem Framed.emptyCodes (s : State) :
    Framed s s.emptyCodes regs flags (fun sp _ => sp ∈ writtenSpaces .gencodes) :=
  .writeSeq s .cblen 0 _ fun _ _ _ => by simp [writtenSpaces]

end

theorem Framed.withCodes {touched : Space → Nat → Prop} (s : State) (n : Word) :
    Framed s (s.withCodes n) (writtenRegs .gencodes) (writtenFlags .gencodes) touched :=
  .of_memories rfl rfl rfl rfl (fun _ => rfl) (fun r hs hr => by
    cases r with
    | ncodes => simp [writtenRegs] at hr
    | status => exact absurd rfl hs
    | _ => rfl) (fun f hf => by
    cases f with
    | codesV => simp [writtenFlags] at hf
    | _ => rfl)

/-- `GENCODES` writes the codebook, its register and its flag (41_codebook.md R151). -/
theorem gencodesBody_framed {w : Word} {s t : State} (h : gencodesBody w s = .ok t) :
    Framed s t (writtenRegs .gencodes) (writtenFlags .gencodes) (fun sp _ => sp ∈ writtenSpaces .gencodes) := by
  rcases gencodesBody_ok_cases h with ⟨-, rfl⟩ | ⟨-, -, rfl⟩ | ⟨-, -, rfl⟩
  · exact .trans (.emptyCodes s) (.withCodes _ _)
  · exact .trans (.emptyCodes s) (.trans (.writeCode _ _ _) (.withCodes _ _))
  · exact .trans (.emptyCodes s) (.trans (.writePathCodes _ _) (.withCodes _ _))

/-- `ENCODE` only ever sets `W_UNKNOWN` (42_encode_decode.md R161). -/
theorem State.keepsLasting_encoded (s : State) : s.KeepsLasting s.encoded :=
  s.encoded_framed.keepsLasting fun f hf _ hs => by
    obtain rfl := List.mem_singleton.mp hf
    exact s.encoded_wUnknown.trans (Bool.or_eq_true_iff.mpr (.inl hs))

/-- Everything `DECODE` can do when it completes: some symbols go to `DEC`, none of them when there is
no tree (42_encode_decode.md R165, R167). -/
theorem decodeBody_ok_cases {w : Word} {src : Bool} {s t : State} (h : decodeBody w src s = .ok t) :
    ∃ out, t = s.decoded out := by
  unfold decodeBody at h
  split at h
  · cases h
  · split at h
    · cases h
    · split at h
      · split at h
        · cases h
        · exact ⟨[], (Except.ok.inj h).symm⟩
      · split at h
        · cases h
        · rename_i out _
          exact ⟨out, (Except.ok.inj h).symm⟩

/-! ### CLEAR -/

/-- Every body but that of `CLEAR` keeps the lasting flags. -/
theorem commandBody_keepsLasting {i : Instr} {s t : State} (hi : i ≠ .clear) (h : commandBody i s = .ok t) :
    s.KeepsLasting t := by
  cases i with
  | nop => cases h; exact .refl s
  | clear => exact absurd rfl hi
  | freq => exact freqBody_keepsLasting h
  | pqinit => exact pqinitBody_keepsLasting h
  | merge => exact mergeBody_keepsLasting h
  | build => exact buildBody_keepsLasting h
  | gencodes => exact (gencodesBody_framed h).keepsLasting_of_disjoint (by simp [writtenFlags, lastingFlags])
  | encode =>
    obtain ⟨-, -, -, rfl⟩ := encodeBody_ok_iff.mp h
    exact s.keepsLasting_encoded
  | decode src =>
    obtain ⟨out, rfl⟩ := decodeBody_ok_cases h
    exact (s.decoded_framed out).keepsLasting_of_disjoint (by simp)
  | permute =>
    obtain ⟨-, rfl⟩ := permuteBody_ok_iff.mp h
    exact s.permuted_framed.keepsLasting_of_disjoint (by simp)
  | invert trim =>
    obtain ⟨-, rfl⟩ := invertBody_ok_iff.mp h
    exact (s.inverted_framed trim).keepsLasting_of_disjoint (by simp)

/-- No command but `CLEAR` clears `FREQ_V` or a sticky bit, whether it completes or fails (R201). -/
theorem exec_keepsLasting {i : Instr} {s t : State} (hi : i ≠ .clear) (h : exec i s = .next t) : s.KeepsLasting t := by
  rcases exec_cases h with ⟨u, hu, rfl⟩ | ⟨e, -, rfl⟩
  · exact (commandBody_keepsLasting hi hu).trans u.keepsLasting_complete
  · exact s.keepsLasting_raise e

/-- Settles O11: `CLEAR` leaves the state with its registers reset, whose queue is empty; every other command keeps each
lasting flag, by cases on the command. -/
theorem clearResetsRegistersKeepsCells : Obligations.ClearResetsRegistersKeepsCells := by
  refine ⟨by decide, fun s => ?clears, fun i s t hi hexec => ?others_keep⟩
  case clears =>
    exact ⟨s.resetRegisters, completes_clear s, s.readReg_resetRegisters, s.flag_resetRegisters,
      s.readElem_resetRegisters, fun i => State.hostElem_pq_of_le (Nat.zero_le i), s.resetRegisters_framed⟩
  case others_keep =>
    have hkeeps := exec_keepsLasting hi hexec
    exact ⟨hkeeps .freqV (by simp [lastingFlags]), hkeeps .wEmpty (by simp [lastingFlags]),
      hkeeps .wUnknown (by simp [lastingFlags]), hkeeps .accErr (by simp [lastingFlags])⟩

end Sys2Proof.Machine
end

section
/-! PROOFS. Failures of commands (spec/60_exceptions.md R214; O36): a command that leaves `ERR` other than 0 is one whose
body raised, and what it raised is all that it leaves. -/

namespace Sys2Proof.Machine

/-- A command that leaves `ERR` ≠ 0 has raised: completion leaves it 0 (10_state.md R12). -/
theorem exec_eq_raise_of_err {i : Instr} {s t : State} (h : exec i s = .next t) (herr : t.err ≠ 0#32) :
    ∃ e, commandBody i s = .error e ∧ t = s.raise e := by
  rcases exec_cases h with ⟨u, -, rfl⟩ | hraised
  · exact absurd u.complete_err herr
  · exact hraised

/-- Settles O36: the state a failed command leaves is that of `raise`, whose two writes are to `ERR` and `ERRINFO`. -/
theorem failureChangesOnlyErr : Obligations.FailureChangesOnlyErr := by
  intro i s t hexec herr
  obtain ⟨e, -, rfl⟩ := exec_eq_raise_of_err hexec herr
  rfl

end Sys2Proof.Machine
end

section
/-! PROOFS. The state after reset (spec/70_reset_and_hazards.md R241; O7): resetting its registers leaves it as it is, so
that what is known of reset registers holds of it, in every instance. -/

namespace Sys2Proof.Machine

/-- With nothing built R57 holds in every instance, its parameters within the bounds of R5 or not. -/
theorem State.NothingBuilt.stageInv {s : State} (h : s.NothingBuilt) : s.StageInv :=
  State.stageInv_of_no_queue h.pqV h.codesV h.nnodes h.root h.pqn h.ncodes (fun _ => h.nsym)

/-- After reset every register but the constants is at its reset value already (R58, R241). -/
theorem State.resetRegisters_reset (p : Params) :
    State.resetRegisters { State.reset with params := p } = { State.reset with params := p } := rfl

/-- Settles O7: the state after reset is one whose registers have been reset, where nothing is built; the default instance
has the constants of 10_state.md R24. -/
theorem resetRegistersAndInvariants : Obligations.ResetRegistersAndInvariants := by
  refine ⟨fun p s hs => ?every_instance, ?default_cap0, ?default_cap1, ?default_cap2, ?default_cap3⟩
  case every_instance =>
    have hreset : s.resetRegisters = s := by rw [hs, State.resetRegisters_reset]
    have hparams : s.params = p := by rw [hs]
    rw [← hreset, ← hparams]
    exact ⟨s.readReg_resetRegisters, s.resetRegisters_nothingBuilt.stageInv⟩
  case default_cap0 | default_cap1 | default_cap2 | default_cap3 => decide

end Sys2Proof.Machine
end

section
/-! PROOFS. What every command leaves unchanged, and how it can fail (spec/10_state.md R45, spec/60_exceptions.md R211 to
R213, spec/70_reset_and_hazards.md R245; O37, O38, O39, O40). -/

namespace Sys2Proof.Machine

/-! ### The rounds of BUILD -/

/-- What a round of `MERGE` keeps, all of them do. -/
theorem mergeLoop_induction {P : State → Prop} {w : Word} {rounds : Nat} {s t : State}
    (hround : ∀ u a b q, P u → u.pqV = true → u.queue = a :: b :: q → P (u.joined a b q)) (hs : P s)
    (h : mergeLoop w rounds s = .ok t) : P t := by
  induction rounds generalizing s with
  | zero => cases h; exact hs
  | succ rounds ih =>
    unfold mergeLoop at h
    split at h
    · split at h
      · rename_i u hu
        obtain ⟨hv, a, b, q, hq, rfl⟩ := mergeBody_ok_cases hu
        exact ih (hround s a b q hs hv hq) h
      · cases h
    · cases h; exact hs

/-- The state from which `BUILD` merges: the table made and the queue loaded (R131). -/
def State.toMerge (s : State) : State := s.counted.queued.warnEmpty

/-- `BUILD` is `FREQ`, and when that completes rounds of `MERGE` after `PQINIT` (R131). -/
theorem buildBody_eq (w : Word) (s : State) : buildBody w s =
    match freqBody s with
    | .error e => .error e
    | .ok _ => mergeLoop w s.textSymbols.length s.toMerge := by
  unfold buildBody
  cases hf : freqBody s with
  | error e => rfl
  | ok u =>
    obtain ⟨-, -, rfl⟩ := freqBody_ok_iff.mp hf
    have hload : pqinitBody w s.counted = .ok s.toMerge := pqinitBody_ok_iff.mpr ⟨rfl, rfl⟩
    have hpqn : s.toMerge.pqn.toNat = s.textSymbols.length := by
      rw [State.toMerge, State.warnEmpty_pqn, State.queued_pqn, State.counted_nsym]
    simp only [hload, hpqn]

theorem buildBody_ok_iff {w : Word} {s t : State} : buildBody w s = .ok t ↔
    s.tlen.toNat ≤ s.params.textMax ∧ s.textSymbols.length ≤ s.params.nsymMax
      ∧ mergeLoop w s.textSymbols.length s.toMerge = .ok t := by
  rw [buildBody_eq]
  cases hf : freqBody s with
  | error e =>
    refine ⟨nofun, fun ⟨htext, hsyms, _⟩ => ?_⟩
    cases hf.symm.trans (freqBody_ok_iff.mpr ⟨htext, hsyms, rfl⟩)
  | ok u =>
    obtain ⟨htext, hsyms, -⟩ := freqBody_ok_iff.mp hf
    exact ⟨fun h => ⟨htext, hsyms, h⟩, fun h => h.2.2⟩

/-- `BUILD` fails only as `FREQ` does: its queue is valid, so that no round fails (R131). -/
theorem buildBody_error_iff {w : Word} {s : State} {e : CmdError} :
    buildBody w s = .error e ↔ freqBody s = .error e := by
  rw [buildBody_eq]
  cases hf : freqBody s with
  | error e' => simp
  | ok u =>
    obtain ⟨t, ht⟩ := mergeLoop_ok w s.textSymbols.length s.toMerge rfl
    simp [ht]

/-- What `FREQ` with `PQINIT` establishes and a round of `MERGE` keeps holds after `BUILD` (R131). -/
theorem buildBody_induction {P : State → Prop} {w : Word} {s t : State} (hstart : P s.toMerge)
    (hround : ∀ u a b q, P u → u.pqV = true → u.queue = a :: b :: q → P (u.joined a b q))
    (h : buildBody w s = .ok t) : P t :=
  mergeLoop_induction hround hstart (buildBody_ok_iff.mp h).2.2

/-! ### The frame of every command -/

/-- A queue of two entries or more and its rest are shorter than 2^32. -/
theorem State.length_lt_of_queue {s : State} {a b : Word} {q : List Word} (h : s.queue = a :: b :: q) :
    q.length + 1 < 2 ^ 32 := by
  have hlen : q.length + 2 = s.pqn.toNat := by rw [← State.length_queue, h]; rfl
  have hlt := s.pqn.isLt
  omega

/-- A failure writes `ERR` and `ERRINFO` (60_exceptions.md R214). -/
theorem Framed.raise {regs : List Reg} {flags : List Flag} {touched : Space → Nat → Prop} (s : State) (e : CmdError)
    (he : .err ∈ regs) (hi : .errinfo ∈ regs) : Framed s (s.raise e) regs flags touched :=
  .of_memories rfl rfl rfl rfl (fun _ => rfl) (fun r hs hr => by
    cases r with
    | err => exact absurd he hr
    | errinfo => exact absurd hi hr
    | status => exact absurd rfl hs
    | _ => rfl) (fun f _ => by cases f <;> rfl)

theorem mem_writtenRegs_of_builder {i : Instr} (h : i = .freq ∨ i = .pqinit ∨ i = .merge) :
    writtenRegs i ⊆ writtenRegs .build ∧ writtenFlags i ⊆ writtenFlags .build
      ∧ writtenSpaces i ⊆ writtenSpaces .build := by
  rcases h with rfl | rfl | rfl <;> decide

/-- What a command may write (10_state.md R45), `ERR` and `ERRINFO` among it. -/
abbrev FramedBy (i : Instr) (s t : State) : Prop :=
  Framed s t (.err :: .errinfo :: writtenRegs i) (writtenFlags i) (fun sp _ => sp ∈ writtenSpaces i)

theorem State.counted_framedBy (s : State) : FramedBy .freq s s.counted :=
  s.counted_framed.mono (by decide) (by decide) fun sp _ hi => by
    rcases hi.1 with rfl | rfl <;> decide

theorem State.queued_framedBy (s : State) : FramedBy .pqinit s s.queued.warnEmpty :=
  .trans (s.queued_framed.mono (by decide) (by decide) fun sp _ hi => by
    rcases hi with ⟨rfl, -⟩ | ⟨rfl, -⟩ <;> decide) (.warnEmpty _ (by decide))

theorem State.joined_framedBy {s : State} {a b : Word} {q : List Word} (h : s.queue = a :: b :: q) :
    FramedBy .merge s (s.joined a b q) :=
  (s.joined_framed a b (Nat.lt_of_succ_lt (State.length_lt_of_queue h))).mono (by decide) (by decide) fun sp _ hi => by
    rcases hi with ⟨rfl, -⟩ | ⟨rfl, -⟩ <;> decide

/-- A part of `BUILD` writes no more than `BUILD` may. -/
theorem FramedBy.build {i : Instr} {s t : State} (h : FramedBy i s t) (hi : i = .freq ∨ i = .pqinit ∨ i = .merge) :
    FramedBy .build s t := by
  obtain ⟨hregs, hflags, hspaces⟩ := mem_writtenRegs_of_builder hi
  exact h.mono (List.cons_subset_cons _ (List.cons_subset_cons _ hregs)) hflags fun _ _ hsp => hspaces hsp

/-- Every command that completes writes only what the table of 10_state.md R45 lists. -/
theorem commandBody_framed {i : Instr} {s t : State} (h : commandBody i s = .ok t) : FramedBy i s t := by
  cases i with
  | nop => cases h; exact .refl s
  | clear => cases h; exact s.resetRegisters_framed.mono (List.Subset.refl _) (List.Subset.refl _) nofun
  | freq =>
    obtain ⟨-, -, rfl⟩ := freqBody_ok_iff.mp h
    exact s.counted_framedBy
  | pqinit =>
    obtain ⟨-, rfl⟩ := pqinitBody_ok_iff.mp h
    exact s.queued_framedBy
  | merge =>
    obtain ⟨-, a, b, q, hq, rfl⟩ := mergeBody_ok_cases h
    exact State.joined_framedBy hq
  | build =>
    exact buildBody_induction (P := FramedBy .build s)
      ((s.counted_framedBy.build (by simp)).trans (s.counted.queued_framedBy.build (by simp)))
      (fun u a b q hu _ hq => hu.trans ((State.joined_framedBy hq).build (by simp))) h
  | gencodes =>
    exact (gencodesBody_framed h).mono (by decide) (List.Subset.refl _) fun _ _ => id
  | encode =>
    obtain ⟨-, -, -, rfl⟩ := encodeBody_ok_iff.mp h
    exact s.encoded_framed.mono (by decide) (by decide) fun sp _ hi => by rw [hi.1]; decide
  | decode src =>
    obtain ⟨out, rfl⟩ := decodeBody_ok_cases h
    exact (s.decoded_framed out).mono (by simp [writtenRegs]) (by simp) fun sp _ hi => by simp [hi.1, writtenSpaces]
  | permute =>
    obtain ⟨-, rfl⟩ := permuteBody_ok_iff.mp h
    exact s.permuted_framed.mono (by decide) (by decide) fun sp _ hi => by rw [hi.1]; decide
  | invert trim =>
    obtain ⟨-, rfl⟩ := invertBody_ok_iff.mp h
    exact (s.inverted_framed trim).mono (by simp [writtenRegs]) (by simp) fun sp _ hi => by simp [hi.1, writtenSpaces]

theorem exec_framed {i : Instr} {s t : State} (h : exec i s = .next t) : FramedBy i s t := by
  rcases exec_cases h with ⟨u, hu, rfl⟩ | ⟨e, -, rfl⟩
  · exact (commandBody_framed hu).trans (.complete u (by simp) (by simp))
  · exact .raise s e (by simp) (by simp)

/-- Settles O39: the frame of each command's body, and the two registers its end writes. -/
theorem commandsWriteOnlyTheirState : Obligations.CommandsWriteOnlyTheirState :=
  fun _ _ _ => exec_framed

/-! ### Warnings -/

/-- After `PQINIT` the warning `W_EMPTY` is set if it was, or if there is no symbol (R127). -/
theorem State.queued_wEmpty (s : State) :
    s.queued.warnEmpty.wEmpty = (s.wEmpty || s.queued.warnEmpty.nsym == 0#32) := by
  have hframe : s.queued.wEmpty = s.wEmpty := s.queued_framed.flags .wEmpty (by simp)
  rw [State.warnEmpty_wEmpty, hframe, State.warnEmpty_nsym]

/-- The rounds of `BUILD` write neither the warning nor `NSYM` (R129). -/
theorem buildBody_wEmpty {w : Word} {s t : State} (h : buildBody w s = .ok t) :
    t.wEmpty = (s.wEmpty || t.nsym == 0#32) := by
  refine buildBody_induction (P := fun u => u.wEmpty = (s.wEmpty || u.nsym == 0#32)) ?start ?round h
  case start =>
    have hcounted : s.counted.wEmpty = s.wEmpty := s.counted_framed.flags .wEmpty (by simp)
    exact hcounted ▸ s.counted.queued_wEmpty
  case round =>
    intro u a b q hu _ hq
    have hframe := State.joined_framedBy hq
    have hwarn : (u.joined a b q).wEmpty = u.wEmpty := hframe.flags .wEmpty (by decide)
    have hnsym : (u.joined a b q).nsym = u.nsym := hframe.regs .nsym (by decide) (by decide)
    rw [hwarn, hnsym, hu]

/-- What `PQINIT` and `BUILD` do to `W_EMPTY` (60_exceptions.md R212). -/
theorem commandBody_wEmpty {i : Instr} {s t : State} (hi : i = .pqinit ∨ i = .build) (h : commandBody i s = .ok t) :
    t.wEmpty = (s.wEmpty || t.nsym == 0#32) := by
  rcases hi with rfl | rfl
  · obtain ⟨-, rfl⟩ := pqinitBody_ok_iff.mp h
    exact s.queued_wEmpty
  · exact buildBody_wEmpty h

/-- What `ENCODE` does to `W_UNKNOWN` (60_exceptions.md R212). -/
theorem State.encoded_wUnknown_iff (s : State) :
    s.encoded.wUnknown = true ↔ s.wUnknown = true ∨ s.encoded.skipcnt ≠ 0#32 := by
  rw [State.encoded_wUnknown, Bool.or_eq_true, decide_eq_true_eq, ← s.encoded_skipcnt, Nat.pos_iff_ne_zero, ne_eq, ne_eq,
    ← BitVec.toNat_inj]
  rfl

theorem wEmpty_mem_writtenFlags {i : Instr} (hi : i ≠ .clear) (h : .wEmpty ∈ writtenFlags i) :
    i = .pqinit ∨ i = .build := by
  cases i <;> simp_all [writtenFlags]

theorem wUnknown_mem_writtenFlags {i : Instr} (hi : i ≠ .clear) (h : .wUnknown ∈ writtenFlags i) : i = .encode := by
  cases i <;> simp_all [writtenFlags]

theorem accErr_not_mem_writtenFlags {i : Instr} (hi : i ≠ .clear) : .accErr ∉ writtenFlags i := by
  cases i <;> simp_all [writtenFlags]

/-- Settles O38: a warning outside the frame of a command stays, and of the commands that may write one it is known what
they write; a failed command writes none. -/
theorem warningsAreSticky : Obligations.WarningsAreSticky := by
  intro i s t hexec hi
  have hkeeps := exec_keepsLasting hi hexec
  have hframe := exec_framed hexec
  refine ⟨hkeeps .wEmpty (by simp [lastingFlags]), hkeeps .wUnknown (by simp [lastingFlags]),
    hframe.flags .accErr (accErr_not_mem_writtenFlags hi), ?_⟩
  rcases exec_cases hexec with ⟨u, hu, rfl⟩ | ⟨e, -, rfl⟩
  case inr =>
    refine ⟨fun _ h => absurd h (by simp), fun h0 h1 => ?_, fun _ h => absurd h (by simp), fun h0 h1 => ?_⟩
    · rw [State.raise_wEmpty, h0] at h1; cases h1
    · rw [State.raise_wUnknown, h0] at h1; cases h1
  case inl =>
    simp only [State.complete_wEmpty, State.complete_nsym, State.complete_wUnknown, State.complete_skipcnt,
      State.complete_err, true_and, forall_const]
    refine ⟨fun hb hn => ?empty_set, fun h0 h1 => ?empty_only, fun he hskip => ?unknown_set, fun h0 h1 => ?unknown_only⟩
    case empty_set => rw [commandBody_wEmpty hb hu, hn]; simp
    case empty_only =>
      have hb : i = .pqinit ∨ i = .build := wEmpty_mem_writtenFlags hi (by
        by_contra hc
        have hsame : u.wEmpty = s.wEmpty := (commandBody_framed hu).flags .wEmpty hc
        rw [hsame, h0] at h1; cases h1)
      rw [commandBody_wEmpty hb hu, h0] at h1
      exact ⟨hb, by simpa using h1⟩
    case unknown_set =>
      subst he
      obtain ⟨-, -, -, rfl⟩ := encodeBody_ok_iff.mp hu
      exact s.encoded_wUnknown_iff.mpr (.inr hskip)
    case unknown_only =>
      have he : i = .encode := wUnknown_mem_writtenFlags hi (by
        by_contra hc
        have hsame : u.wUnknown = s.wUnknown := (commandBody_framed hu).flags .wUnknown hc
        rw [hsame, h0] at h1; cases h1)
      subst he
      obtain ⟨-, -, -, rfl⟩ := encodeBody_ok_iff.mp hu
      exact ⟨rfl, (s.encoded_wUnknown_iff.mp h1).resolve_left (by simp [h0])⟩

/-! ### What the tree builder invalidates -/

/-- After `BUILD` the queue is valid, and there is no codebook (R131, R245). -/
theorem buildBody_flags {w : Word} {s t : State} (h : buildBody w s = .ok t) :
    t.freqV = true ∧ t.pqV = true ∧ t.codesV = false ∧ t.ncodes = 0#32 := by
  refine buildBody_induction (P := fun u => u.freqV = true ∧ u.pqV = true ∧ u.codesV = false ∧ u.ncodes = 0#32) ?start
    ?round h
  case start => exact ⟨(State.regs_of_tableView s.counted.tableView_queued).2.1, rfl, rfl, rfl⟩
  case round =>
    rintro u a b q ⟨hfreq, hv, hcodes, hncodes⟩ _ -
    obtain ⟨hpqV, hcodesV, hncodes', -⟩ := u.joined_frame a b q
    obtain ⟨-, hfreqV, -⟩ := State.regs_of_tableView (u.tableView_joined a b q)
    exact ⟨hfreqV.trans hfreq, hpqV.trans hv, hcodesV.trans hcodes, hncodes'.trans hncodes⟩

/-- Settles O40: the flags each builder leaves; two queued nodes exclude a codebook (10_state.md R57 (a)); a failure
writes no flag. -/
theorem buildersInvalidateDerivedState : Obligations.BuildersInvalidateDerivedState := by
  intro s t
  refine ⟨fun hc => ?freq, fun hc => ?build, fun hc => ?pqinit, fun hs hc => ?merge, fun i hexec herr => ?failed⟩
  case freq =>
    obtain ⟨u, hu, rfl⟩ := completes_iff.mp hc
    obtain ⟨-, -, rfl⟩ := freqBody_ok_iff.mp hu
    exact ⟨rfl, rfl, rfl, rfl, rfl⟩
  case build =>
    obtain ⟨u, hu, rfl⟩ := completes_iff.mp hc
    obtain ⟨-, -, hcodes, hncodes⟩ := buildBody_flags hu
    exact ⟨hcodes, hncodes⟩
  case pqinit =>
    obtain ⟨u, hu, rfl⟩ := completes_iff.mp hc
    obtain ⟨-, rfl⟩ := pqinitBody_ok_iff.mp hu
    exact ⟨rfl, rfl⟩
  case merge =>
    obtain ⟨u, hu, rfl⟩ := completes_iff.mp hc
    obtain ⟨hv, a, b, q, hq, rfl⟩ := mergeBody_ok_cases hu
    have hno := hs.codesV_eq_false hv (by rw [← State.length_queue, hq]; simp)
    exact ⟨hno, (s.joined_frame a b q).2.1.trans hno⟩
  case failed =>
    obtain ⟨e, -, rfl⟩ := exec_eq_raise_of_err hexec herr
    exact ⟨rfl, rfl, rfl, rfl, rfl⟩

/-! ### How each command can fail -/

theorem freqBody_error_cases {s : State} {e : CmdError} (h : freqBody s = .error e) :
    e = .badParam .tlen ∨ e = .capacity .symbols := by
  unfold freqBody at h
  dsimp only at h
  split_ifs at h <;> cases h
  · exact .inl rfl
  · exact .inr rfl

theorem pqinitBody_error_cases {w : Word} {s : State} {e : CmdError} (h : pqinitBody w s = .error e) :
    e = .badSequence w := by
  unfold pqinitBody at h
  dsimp only at h
  split_ifs at h
  exact (Except.error.inj h).symm

theorem gencodesBody_error_cases {w : Word} {s : State} {e : CmdError} (h : gencodesBody w s = .error e) :
    e = .badSequence w := by
  unfold gencodesBody at h
  dsimp only at h
  split_ifs at h
  exact (Except.error.inj h).symm

theorem encodeBody_error_cases {w : Word} {s : State} {e : CmdError} (h : encodeBody w s = .error e) :
    e = .badSequence w ∨ e = .badParam .tlen ∨ e = .capacity .encBits := by
  unfold encodeBody at h
  dsimp only at h
  split_ifs at h <;> cases h <;> simp

theorem permuteBody_error_cases {s : State} {e : CmdError} (h : permuteBody s = .error e) :
    e = .badParam .cols ∨ e = .badParam .enclen ∨ e = .capacity .permBits := by
  rw [permuteBody_eq] at h
  split_ifs at h <;> cases h <;> simp

theorem invertBody_error_cases {trim : Bool} {s : State} {e : CmdError} (h : invertBody trim s = .error e) :
    e = .badParam .cols ∨ e = .badParam .permlen ∨ e = .shapeMismatch s.permlen
      ∨ (trim = true ∧ e = .badParam .origlen) := by
  rw [invertBody_eq] at h
  split_ifs at h with _ _ _ htrim <;> cases h
  · simp
  · simp
  · simp
  · rw [Bool.and_eq_true] at htrim
    simp [htrim.1]

theorem State.emit_cases {s : State} {out : List Word} {x : Word} :
    (s.emit out x = .ok (out ++ [x]) ∧ (out ++ [x]).length ≤ s.params.decMax)
      ∨ s.emit out x = .error (.capacity .decSymbols) := by
  rcases Nat.lt_or_ge out.length s.params.decMax with hroom | hfull
  · exact .inl ⟨s.emit_ok hroom, by simpa using hroom⟩
  · exact .inr (s.emit_full hfull)

/-- Everything one bit of the scan can do: fail on it, or for want of room, or go on with the cursor at the root or the
word begun no later than at this bit, and with as many symbols at most as `DEC` holds (R165, R166). -/
theorem State.scan_cons_cases {s : State} {b : Bool} {bits : List Bool} {k : Nat} {cur : Word} {start : Nat}
    {out : List Word} {r : Except CmdError (List Word)} (hstart : start ≤ k) (hcur : cur = s.root ∨ start < k)
    (hroom : out.length ≤ s.params.decMax) (h : s.scan (b :: bits) k cur start out = r) :
    (b = true ∧ r = .error (.invalidBit k)) ∨ r = .error (.capacity .decSymbols)
    ∨ ∃ cur' start' out', start' ≤ k + 1 ∧ (cur' = s.root ∨ start' < k + 1) ∧ out'.length ≤ s.params.decMax
        ∧ s.scan bits (k + 1) cur' start' out' = r := by
  cases hr : s.nodeInternal s.root.toNat with
  | false =>
    rw [s.scan_cons_leaf hr] at h
    cases b with
    | true => exact .inl ⟨rfl, h.symm⟩
    | false =>
      rcases s.emit_cases (out := out) (x := s.nodeSym s.root.toNat) with ⟨he, hlen⟩ | he <;> rw [he] at h
      · exact .inr (.inr ⟨cur, start, _, by omega, hcur.imp id (by omega), hlen, h⟩)
      · exact .inr (.inl h.symm)
  | true =>
    rw [s.scan_cons hr _ _ _ _ _ _ _ rfl] at h
    generalize (if b then s.nodeRight cur.toNat else s.nodeLeft cur.toNat) = child at h
    by_cases hchild : s.nodeInternal child.toNat = true
    · rw [if_pos hchild] at h
      exact .inr (.inr ⟨child, start, out, by omega, .inr (by omega), hroom, h⟩)
    · rw [if_neg hchild] at h
      rcases s.emit_cases (out := out) (x := s.nodeSym child.toNat) with ⟨he, hlen⟩ | he <;> rw [he] at h
      · exact .inr (.inr ⟨s.root, k + 1, _, le_rfl, .inl rfl, hlen, h⟩)
      · exact .inr (.inl h.symm)

/-- How the scan can end (R165, R166): with symbols that fit `DEC`; with the index where an unfinished code word began, an
earlier bit since the cursor has left the root; for want of room; or with the index of a 1 bit. -/
theorem State.scan_cases {s : State} {bits : List Bool} {k : Nat} {cur : Word} {start : Nat} {out : List Word}
    {r : Except CmdError (List Word)} (hstart : start ≤ k) (hcur : cur = s.root ∨ start < k)
    (hroom : out.length ≤ s.params.decMax) (h : s.scan bits k cur start out = r) :
    (∃ out', r = .ok out' ∧ out'.length ≤ s.params.decMax)
    ∨ (∃ b, r = .error (.incompleteCode b) ∧ b < k + bits.length) ∨ r = .error (.capacity .decSymbols)
    ∨ ∃ j, bits[j]? = some true ∧ r = .error (.invalidBit (k + j)) := by
  induction bits generalizing k cur start out with
  | nil =>
    rw [State.scan_nil] at h
    split at h
    · exact .inl ⟨out, h.symm, hroom⟩
    · rename_i hne
      exact .inr (.inl ⟨start, h.symm, hcur.resolve_left hne⟩)
  | cons b bits ih =>
    rcases State.scan_cons_cases hstart hcur hroom h with
      ⟨rfl, he⟩ | he | ⟨cur', start', out', hstart', hcur', hroom', hscan⟩
    · exact .inr (.inr (.inr ⟨0, rfl, he⟩))
    · exact .inr (.inr (.inl he))
    · rcases ih hstart' hcur' hroom' hscan with hok | ⟨b', he, hlt⟩ | hcap | ⟨j, hj, he⟩
      · exact .inl hok
      · exact .inr (.inl ⟨b', he, by rw [List.length_cons]; omega⟩)
      · exact .inr (.inr (.inl hcap))
      · exact .inr (.inr (.inr ⟨j + 1, by simpa using hj, by rw [he, Nat.add_right_comm, Nat.add_assoc]⟩))

theorem State.getElem?_sourceBits {s : State} {src : Bool} {j : Nat} (h : (s.sourceBits src)[j]? = some true) :
    j < s.sourceLen src ∧ s.readBit (if src then .inv else .enc) j = true := by
  obtain ⟨hj, hbit⟩ := List.getElem?_eq_some_iff.mp h
  rw [State.sourceBits, State.length_readBits] at hj
  cases src <;> exact ⟨hj, by simpa [State.sourceBits, sourceSpace] using hbit⟩

/-- How `DECODE` can fail (R165 to R167). -/
theorem decodeBody_error_cases {w : Word} {src : Bool} {s : State} {e : CmdError} (h : decodeBody w src s = .error e) :
    e = .badSequence w ∨ e = .badParam (sourceLenReg src) ∨ e = .capacity .decSymbols
    ∨ (∃ b, e = .incompleteCode b ∧ b < s.sourceLen src)
    ∨ (∃ j, e = .invalidBit j ∧ j < s.sourceLen src ∧ s.readBit (if src then .inv else .enc) j = true) := by
  unfold decodeBody at h
  split_ifs at h
  · cases h; exact .inl rfl
  · cases h; exact .inr (.inl rfl)
  · cases h; exact .inl rfl
  · cases hscan : s.scan (s.sourceBits src) 0 s.root 0 [] with
    | ok out => rw [hscan] at h; cases h
    | error e' =>
      rw [hscan] at h
      cases h
      rcases State.scan_cases le_rfl (.inl rfl) (Nat.zero_le _) hscan with ⟨_, hok, -⟩ | ⟨b, hb, hlt⟩ | hcap | ⟨j, hj, he⟩
      · cases hok
      · exact .inr (.inr (.inr (.inl ⟨b, Except.error.inj hb, by simpa [State.sourceBits] using hlt⟩)))
      · exact .inr (.inr (.inl (Except.error.inj hcap)))
      · rw [Nat.zero_add] at he
        exact .inr (.inr (.inr (.inr ⟨j, Except.error.inj he, State.getElem?_sourceBits hj⟩)))

theorem State.sourceLen_lt (s : State) (src : Bool) : s.sourceLen src < 2 ^ 32 := BitVec.isLt _

/-- Settles O37: a completed command leaves 0 in both registers, and of a failed one it is known what its body raises. -/
theorem errorCodesPerCommand : Obligations.ErrorCodesPerCommand := by
  intro i s t hexec
  rcases exec_cases hexec with ⟨u, -, rfl⟩ | ⟨e, he, rfl⟩
  · exact .inl ⟨rfl, rfl⟩
  right
  simp only [State.raise_err, State.raise_errinfo]
  cases i with
  | nop | clear => cases he
  | freq =>
    rcases freqBody_error_cases he with rfl | rfl <;>
      simp [CmdError.code, CmdError.info, Reg.number, CapacityLimit.number]
  | pqinit => cases pqinitBody_error_cases he; simp [CmdError.code, CmdError.info]
  | merge => cases (mergeBody_error_iff.mp he).2; simp [CmdError.code, CmdError.info]
  | build =>
    rcases freqBody_error_cases (buildBody_error_iff.mp he) with rfl | rfl <;>
      simp [CmdError.code, CmdError.info, Reg.number, CapacityLimit.number]
  | gencodes => cases gencodesBody_error_cases he; simp [CmdError.code, CmdError.info]
  | encode =>
    rcases encodeBody_error_cases he with rfl | rfl | rfl <;>
      simp [CmdError.code, CmdError.info, Reg.number, CapacityLimit.number]
  | permute =>
    rcases permuteBody_error_cases he with rfl | rfl | rfl <;>
      simp [CmdError.code, CmdError.info, Reg.number, CapacityLimit.number]
  | invert trim =>
    rcases invertBody_error_cases he with rfl | rfl | rfl | ⟨rfl, rfl⟩ <;> simp [CmdError.code, CmdError.info, Reg.number]
  | decode src =>
    have hlen := s.sourceLen_lt src
    have hfit : ∀ b, b < s.sourceLen src → (BitVec.ofNat 32 b).toNat = b := fun b hb => by
      rw [BitVec.toNat_ofNat]; omega
    rcases decodeBody_error_cases he with rfl | rfl | rfl | ⟨b, rfl, hb⟩ | ⟨j, rfl, hj, hbit⟩
    · simp [CmdError.code, CmdError.info]
    · cases src <;> simp [CmdError.code, CmdError.info, sourceLenReg, Reg.number]
    · simp [CmdError.code, CmdError.info, CapacityLimit.number]
    · exact .inl ⟨rfl, src, rfl, (hfit b hb).trans_lt hb⟩
    · refine .inr (.inr (.inr (.inr (.inr ⟨rfl, src, rfl, (hfit j hj).trans_lt hj, ?_⟩))))
      rw [CmdError.info, hfit j hj]
      exact hbit

end Sys2Proof.Machine
end

section
/-! PROOFS. The cells each command writes, and the whole invariant (O8, O52, O53): where a command writes and in which form,
the tree while it is built, the codebook under writes elsewhere, and the step. -/

namespace Sys2Proof.Machine

/-! ### Writes of cells -/

/-- From `s` to `t` cells are written where `touched` says and nowhere else, in the memories' canonical form. -/
structure State.Writes (s t : State) (touched : Space → Nat → Prop) : Prop where
  params : t.params = s.params
  canonical : s.MemoriesCanonical → t.MemoriesCanonical
  cells : ∀ sp, ∀ c ∈ t.memory sp, c ∈ s.memory sp ∨ touched sp c.1

section
variable {touched : Space → Nat → Prop}

theorem State.Writes.refl (s : State) : s.Writes s touched := ⟨rfl, id, fun _ _ => .inl⟩

theorem State.Writes.trans {s t u : State} (h : s.Writes t touched) (h' : t.Writes u touched) : s.Writes u touched where
  params := h'.params.trans h.params
  canonical hs := h'.canonical (h.canonical hs)
  cells sp _ hc := (h'.cells sp _ hc).elim (h.cells sp _) .inr

theorem State.Writes.mono {touched' : Space → Nat → Prop} {s t : State} (h : s.Writes t touched)
    (hsub : ∀ sp i, touched sp i → touched' sp i) : s.Writes t touched' :=
  ⟨h.params, h.canonical, fun sp c hc => (h.cells sp c hc).imp id (hsub sp c.1)⟩

/-- An update of registers and flags writes no cell. -/
theorem State.Writes.of_memories {s t : State} (hp : t.params = s.params) (hm : ∀ sp, t.memory sp = s.memory sp) :
    s.Writes t touched :=
  ⟨hp, fun h => h.congr hp hm, fun sp _ hc => .inl (hm sp ▸ hc)⟩

theorem State.Writes.loadRoot (s : State) : s.Writes s.loadRoot touched :=
  .of_memories rfl fun sp => by cases sp <;> rfl

theorem State.Writes.markQueued (s : State) : s.Writes s.markQueued touched :=
  .of_memories rfl fun sp => by cases sp <;> rfl

theorem State.Writes.withNnodes (s : State) (k : Word) : s.Writes (s.withNnodes k) touched :=
  .of_memories rfl fun sp => by cases sp <;> rfl

theorem State.Writes.warnEmpty (s : State) : s.Writes s.warnEmpty touched := .of_memories rfl s.warnEmpty_memory

theorem State.Writes.complete (s : State) : s.Writes s.complete touched := .of_memories rfl s.complete_memory

theorem State.Writes.writeSeq (s : State) (sp : Space) (b : Nat) (vs : List Word)
    (h : ∀ i, b ≤ i → i < b + vs.length → touched sp i) : s.Writes (s.writeSeq sp b vs) touched where
  params := s.writeSeq_params sp b vs
  canonical hs := hs.writeSeq sp b vs
  cells _ _ hc := (State.mem_memory_writeSeq hc).imp id (by rintro ⟨rfl, h1, h2, -⟩; exact h _ h1 h2)

theorem State.Writes.writeNode (s : State) (n : Nat) (x : Node) (h : ∀ i, 8 * n ≤ i → i < 8 * n + 5 → touched .node i) :
    s.Writes (s.writeNode n x) touched := .writeSeq s .node _ _ h

theorem State.Writes.writeLeaves (s : State) (n : Nat) (h : ∀ i, i < 8 * n → i % 8 < 5 → touched .node i) :
    s.Writes (s.writeLeaves n) touched := by
  induction n with
  | zero => exact .refl s
  | succ n ih =>
    rw [State.writeLeaves_succ]
    exact (ih fun i hi hf => h i (by omega) hf).trans (.writeNode _ n _ fun i h1 h2 => h i (by omega) (by omega))

theorem State.Writes.setQueue (s : State) (q : List Word) (h : ∀ i, i < q.length → touched .pq i) :
    s.Writes (s.setQueue q) touched :=
  .trans (.writeSeq s .pq 0 q fun i _ hi => h i (by omega)) (.of_memories rfl fun sp => by cases sp <;> rfl)

theorem State.Writes.pqInsert (s : State) (j : Word) (h : ∀ i, i < s.pqn.toNat + 1 → touched .pq i) :
    s.Writes (s.pqInsert j) touched := by
  refine .setQueue s _ fun i hi => h i ?_
  simp only [List.length_append, List.length_cons, List.length_take, List.length_drop, State.length_queue] at hi
  omega

theorem State.Writes.insertLeaves (s : State) (hq : s.pqn = 0#32) {n : Nat} (hn : n < 2 ^ 32)
    (h : ∀ i, i < n → touched .pq i) : s.Writes (s.insertLeaves n) touched := by
  induction n with
  | zero => exact .refl s
  | succ n ih =>
    have hpqn := (s.queue_insertLeaves hq (n := n) (by omega)).2.2
    rw [State.insertLeaves_succ]
    exact (ih (by omega) fun i hi => h i (by omega)).trans (.pqInsert _ _ fun i hi => h i (by omega))

end

/-! ### Where each command writes -/

theorem State.counted_writes (s : State) :
    s.Writes s.counted (fun sp i => (sp = .ftsym ∨ sp = .ftcnt) ∧ i < s.textSymbols.length) :=
  .trans (.writeSeq s .ftsym 0 s.textSymbols fun i _ hi => ⟨.inl rfl, by omega⟩)
    (.trans (.writeSeq _ .ftcnt 0 s.textCounts fun i _ hi => ⟨.inr rfl, by rwa [State.length_textCounts, Nat.zero_add] at hi⟩)
      (.of_memories rfl fun sp => by cases sp <;> rfl))

/-- The cells `PQINIT` writes (R127). -/
def State.loadCell (s : State) (sp : Space) (i : Nat) : Prop :=
  (sp = .node ∧ i < 8 * s.nsym.toNat ∧ i % 8 < 5) ∨ (sp = .pq ∧ i < s.nsym.toNat)

theorem State.queued_writes (s : State) : s.Writes s.queued.warnEmpty s.loadCell := by
  have hempty : s.withLeaves.pqn = 0#32 := by simp [State.withLeaves]
  have hstart : s.Writes s.emptyQueue s.loadCell := .of_memories rfl fun sp => by cases sp <;> rfl
  have hleaves : s.emptyQueue.Writes (s.emptyQueue.writeLeaves s.nsym.toNat) s.loadCell :=
    .writeLeaves _ _ fun i hi hf => .inl ⟨rfl, hi, hf⟩
  have hload : s.withLeaves.Writes (s.withLeaves.insertLeaves s.nsym.toNat) s.loadCell :=
    .insertLeaves _ hempty s.nsym.isLt fun i hi => .inr ⟨rfl, hi⟩
  have hend : (s.withLeaves.insertLeaves s.nsym.toNat).Writes s.queued s.loadCell :=
    .trans (.loadRoot _) (.markQueued _)
  exact (hstart.trans (hleaves.trans (.withNnodes _ _))).trans (hload.trans (hend.trans (.warnEmpty _)))

theorem State.joined_writes {s : State} {a b : Word} {q : List Word} (h : s.queue = a :: b :: q) :
    s.Writes (s.joined a b q) (fun sp i => (sp = .node ∧ 8 * s.nnodes.toNat ≤ i ∧ i < 8 * s.nnodes.toNat + 5)
      ∨ (sp = .pq ∧ i < q.length + 1)) := by
  have hpqn : (s.joining a b q).pqn.toNat = q.length := by
    rw [← State.length_queue, s.queue_joining a b (Nat.lt_of_succ_lt (State.length_lt_of_queue h))]
  refine .trans (t := (s.setQueue (b :: q)).setQueue q) ?popped (.trans (t := s.joining a b q) ?node ?queued)
  case popped =>
    exact .trans (.setQueue s (b :: q) fun i hi => .inr ⟨rfl, by simpa using hi⟩)
      (.setQueue _ _ fun i hi => .inr ⟨rfl, by omega⟩)
  case node =>
    exact .trans (.writeNode _ _ _ fun i h1 h2 => .inl ⟨rfl, h1, h2⟩) (.withNnodes _ _)
  case queued =>
    exact .trans (.pqInsert _ s.nnodes fun i hi => .inr ⟨rfl, by omega⟩) (.loadRoot _)

/-- The cells of the first `n` entries of the codebook, when the codes are as long as the path bits (10_state.md R50). -/
def State.codeCell (s : State) (n : Nat) (sp : Space) (i : Nat) : Prop :=
  (sp = .cblen ∧ i < n)
    ∨ (sp = .cbbit ∧ ∃ e j, e < n ∧ j < (s.pathBits e).length ∧ i = e * s.params.codeMax + j)

theorem State.codeCell_of_le {s : State} {m n : Nat} (h : m ≤ n) {sp : Space} {i : Nat} (hc : s.codeCell m sp i) :
    s.codeCell n sp i := by
  rcases hc with ⟨hsp, hi⟩ | ⟨hsp, e, j, he, hj, hi⟩
  · exact .inl ⟨hsp, by omega⟩
  · exact .inr ⟨hsp, e, j, by omega, hj, hi⟩

theorem State.Writes.writeCode {touched : Space → Nat → Prop} (s : State) (i : Nat) (p : List Bool)
    (hlen : touched .cblen i) (hbits : ∀ j, j < p.length → touched .cbbit (i * s.params.codeMax + j)) :
    s.Writes (s.writeCode i p) touched := by
  refine .trans (.writeSeq s .cblen i [BitVec.ofNat 32 p.length] fun k h1 h2 => ?_)
    (.writeSeq _ .cbbit (i * s.params.codeMax) (p.map bitWord) fun k h1 h2 => ?_)
  · obtain rfl : k = i := by rw [List.length_singleton] at h2; omega
    exact hlen
  · rw [List.length_map] at h2
    obtain ⟨j, rfl⟩ := Nat.exists_eq_add_of_le h1
    exact hbits j (by omega)

theorem State.Writes.writePathCodes (s : State) (n : Nat) : s.Writes (s.writePathCodes n) (s.codeCell n) := by
  induction n with
  | zero => exact .refl s
  | succ n ih =>
    rw [State.writePathCodes_succ]
    refine .trans (ih.mono fun _ _ => State.codeCell_of_le (Nat.le_succ n)) (.writeCode _ n _ ?_ fun j hj => ?_)
    · exact .inl ⟨rfl, Nat.lt_succ_self n⟩
    · rw [State.writePathCodes_params]
      exact .inr ⟨rfl, n, j, Nat.lt_succ_self n, hj, rfl⟩

theorem State.emptyCodes_writes (s : State) :
    s.Writes s.emptyCodes (fun sp i => sp = .cblen ∧ i < s.params.nsymMax) :=
  .writeSeq s .cblen 0 _ fun i _ hi => ⟨rfl, by simpa using hi⟩

/-- Where `GENCODES` writes (41_codebook.md R151, R152, R155). -/
theorem gencodesBody_writes {w : Word} {s t : State} (h : gencodesBody w s = .ok t) :
    s.Writes t (fun sp i => (sp = .cblen ∧ i < s.params.nsymMax) ∨ (sp = .cblen ∧ i = 0) ∨ (sp = .cbbit ∧ i = 0)
      ∨ (s.treeV = true ∧ s.nodeInternal s.root.toNat = true ∧ s.emptyCodes.codeCell s.nsym.toNat sp i)) := by
  have hempty := s.emptyCodes_writes
  have hcodes : ∀ {touched} (u : State) n, u.Writes (u.withCodes n) touched :=
    fun u n => .of_memories rfl fun sp => by cases sp <;> rfl
  rcases gencodesBody_ok_cases h with ⟨-, rfl⟩ | ⟨-, -, rfl⟩ | ⟨htree, hinternal, rfl⟩
  · exact (hempty.mono fun _ _ => .inl).trans (hcodes _ _)
  · refine (hempty.mono fun _ _ => .inl).trans (.trans (.writeCode _ 0 [false] (.inr (.inl ⟨rfl, rfl⟩)) ?_) (hcodes _ _))
    intro j hj
    rw [List.length_singleton] at hj
    exact .inr (.inr (.inl ⟨rfl, by omega⟩))
  · refine (hempty.mono fun _ _ => .inl).trans (.trans (.mono (.writePathCodes _ _) ?_) (hcodes _ _))
    exact fun sp i hc => .inr (.inr (.inr ⟨htree, hinternal, hc⟩))

theorem State.encoded_writes (s : State) :
    s.Writes s.encoded (fun sp i => sp = .enc ∧ i < s.encodedBits.length) :=
  .trans (.writeSeq s .enc 0 _ fun i _ hi => ⟨rfl, by simpa using hi⟩) (.of_memories rfl fun sp => by cases sp <;> rfl)

theorem State.decoded_writes (s : State) (out : List Word) :
    s.Writes (s.decoded out) (fun sp i => sp = .dec ∧ i < out.length) :=
  .trans (.writeSeq s .dec 0 _ fun i _ hi => ⟨rfl, by simpa using hi⟩) (.of_memories rfl fun sp => by cases sp <;> rfl)

theorem State.permuted_writes (s : State) :
    s.Writes s.permuted (fun sp i => sp = .perm ∧ i < s.permRows * s.cols.toNat) :=
  .trans (.writeSeq s .perm 0 _ fun i _ hi => ⟨rfl, by simpa using hi⟩) (.of_memories rfl fun sp => by cases sp <;> rfl)

theorem State.inverted_writes (s : State) (trim : Bool) :
    s.Writes (s.inverted trim) (fun sp i => sp = .inv ∧ i < s.rows.toNat * s.cols.toNat) :=
  .trans (.writeSeq s .inv 0 _ fun i _ hi => ⟨rfl, by simpa using hi⟩) (.of_memories rfl fun sp => by cases sp <;> rfl)

/-! ### The canonical form -/

/-- Any element at all. -/
def anyElem : Space → Nat → Prop := fun _ _ => True

theorem State.Writes.anyElem {touched : Space → Nat → Prop} {s t : State} (h : s.Writes t touched) :
    s.Writes t anyElem := h.mono fun _ _ _ => trivial

/-- Every command writes in canonical form. -/
theorem commandBody_writes {i : Instr} {s t : State} (h : commandBody i s = .ok t) : s.Writes t anyElem := by
  cases i with
  | nop => cases h; exact .refl s
  | clear => cases h; exact .of_memories rfl fun sp => by cases sp <;> rfl
  | freq =>
    obtain ⟨-, -, rfl⟩ := freqBody_ok_iff.mp h
    exact s.counted_writes.anyElem
  | pqinit =>
    obtain ⟨-, rfl⟩ := pqinitBody_ok_iff.mp h
    exact s.queued_writes.anyElem
  | merge =>
    obtain ⟨-, a, b, q, hq, rfl⟩ := mergeBody_ok_cases h
    exact (State.joined_writes hq).anyElem
  | build =>
    exact buildBody_induction (P := fun u => s.Writes u anyElem)
      (s.counted_writes.anyElem.trans s.counted.queued_writes.anyElem)
      (fun u a b q hu _ hq => hu.trans (State.joined_writes hq).anyElem) h
  | gencodes => exact (gencodesBody_writes h).anyElem
  | encode =>
    obtain ⟨-, -, -, rfl⟩ := encodeBody_ok_iff.mp h
    exact s.encoded_writes.anyElem
  | decode src =>
    obtain ⟨out, rfl⟩ := decodeBody_ok_cases h
    exact (s.decoded_writes out).anyElem
  | permute =>
    obtain ⟨-, rfl⟩ := permuteBody_ok_iff.mp h
    exact s.permuted_writes.anyElem
  | invert trim =>
    obtain ⟨-, rfl⟩ := invertBody_ok_iff.mp h
    exact (s.inverted_writes trim).anyElem

theorem issueCommand_writes {w : Word} {s t : State} (h : issueCommand w s = .next t) : s.Writes t anyElem := by
  rcases issueCommand_cases h with ⟨i, -, hexec⟩ | ⟨-, rfl⟩
  · rcases exec_cases hexec with ⟨u, hu, rfl⟩ | ⟨e, -, rfl⟩
    · exact (commandBody_writes hu).trans (.complete u)
    · exact .of_memories rfl (s.raise_memory e)
  · exact .of_memories rfl (s.raise_memory _)

theorem hostWrite_writes {a d : Word} {s t : State} (h : hostWrite a d s = .next t) : s.Writes t anyElem := by
  rcases hostWrite_cases h with rfl | ⟨r, -, -, rfl⟩ | ⟨r, -, -, rfl⟩ | ⟨r, -, -, hcmd⟩ | ⟨sp, i, -, -, rfl⟩
  · exact .of_memories rfl s.rejectAccess_memory
  · exact .of_memories (s.setOperandReg_params r d) (s.setOperandReg_memory r d)
  · exact .of_memories rfl (s.clearSticky_memory d)
  · exact issueCommand_writes hcmd
  · exact .writeSeq s sp i [d] fun _ _ _ => trivial

/-- Settles O53: every command and every host write writes in canonical form, a read writes nothing, and the reset input
leaves the memories empty. -/
theorem stepKeepsMemoriesCanonical : Obligations.StepKeepsMemoriesCanonical := by
  intro s t hs hstep
  rcases step_cases hstep with ⟨-, rfl⟩ | ⟨x, rest, -, hserve⟩
  · exact ⟨hs, rfl⟩
  have hstart : s.Writes { s with inbox := rest } anyElem := .of_memories rfl fun sp => by cases sp <;> rfl
  suffices hserved : ({ s with inbox := rest } : State).MemoriesCanonical →
      t.MemoriesCanonical ∧ t.params = s.params from hserved (hstart.canonical hs)
  intro hs'
  cases x with
  | write a d =>
    have hw := hostWrite_writes hserve
    exact ⟨hw.canonical hs', hw.params⟩
  | read a =>
    cases hserve
    rcases State.hostRead_cases { s with inbox := rest } a with ⟨hsame, -⟩ | ⟨hrejected, -⟩
    · rw [hsame]
      exact ⟨hs'.congr rfl fun sp => by cases sp <;> rfl, rfl⟩
    · rw [hrejected]
      exact ⟨hs'.congr rfl fun sp => by cases sp <;> rfl, rfl⟩
  | reset =>
    cases hserve
    exact ⟨fun sp => by simp [Memory.wf], rfl⟩

end Sys2Proof.Machine
end

section
/-! PROOFS. The whole invariant (O8, O52): the tree while it is built, the codebook under writes elsewhere, the cells that
exist, and the step. -/

namespace Sys2Proof.Machine

/-! ### The tree while it is built -/

/-- The tree reads no more of the state than R57 does. -/
theorem State.TreeInv.of_buildView {s t : State} (h : s.TreeInv) (hv : t.buildView = s.buildView) : t.TreeInv := by
  cases s
  cases t
  simp only [State.buildView, State.tableView, BuildView.mk.injEq, TableView.mk.injEq] at hv
  obtain ⟨⟨rfl, rfl, rfl, rfl, rfl, rfl⟩, rfl, rfl, rfl, rfl, rfl, rfl, rfl, rfl⟩ := hv
  exact { h with }

/-- Without a queue there is no tree to speak of. -/
theorem State.treeInv_of_no_queue {s : State} (h : s.pqV = false) : s.TreeInv :=
  ⟨by simp [h], by simp [h], by simp [h]⟩

/-- The children of the nodes made before, and those of the newest. -/
theorem State.childList_succ {s : State} {n : Nat} (hn : n + 1 = s.nnodes.toNat) (hle : s.nsym.toNat ≤ n) :
    s.childList = (List.range' s.nsym.toNat (n - s.nsym.toNat)).flatMap
        (fun k => [(s.nodeLeft k).toNat, (s.nodeRight k).toNat])
      ++ [(s.nodeLeft n).toNat, (s.nodeRight n).toNat] := by
  have hrange : s.nnodes.toNat - s.nsym.toNat = n - s.nsym.toNat + 1 := by omega
  rw [State.childList, hrange, List.range'_concat, List.flatMap_append, Nat.one_mul, Nat.add_sub_cancel' hle]
  simp

/-- `PQINIT` leaves the leaves of the table, all of them queued (R127). -/
theorem State.queued_treeInv (s : State) : s.queued.TreeInv := by
  obtain ⟨-, -, hn⟩ := State.regs_of_tableView s.tableView_queued
  have htable : ∀ sp i, sp = .ftsym ∨ sp = .ftcnt → s.queued.readElem sp i = s.readElem sp i :=
    fun sp i hsp => s.queued_framed.elems sp i (by rcases hsp with rfl | rfl <;> simp)
  have hchildren : s.queued.childList = [] := by simp [State.childList, State.queued_nnodes, hn]
  refine ⟨fun _ i hi => ?_, fun _ k h1 h2 => ?_, fun _ => ?_⟩
  · rw [htable _ _ (.inl rfl), htable _ _ (.inr rfl)]
    exact s.readNode_queued (hn ▸ hi)
  · rw [State.queued_nnodes] at h2
    rw [hn] at h1
    omega
  · rw [hchildren, List.append_nil, State.queued_nnodes]
    refine (s.queue_queued.1.map BitVec.toNat).trans (.of_eq ?_)
    rw [List.map_map]
    refine (List.map_congr_left fun i hi => ?_).trans (List.map_id' _)
    exact toNat_ofNat_of_lt_toNat (List.mem_range.mp hi)

/-- The nodes made before are as they were after `MERGE` (R129). -/
theorem State.readNode_joined_of_lt (s : State) (a b : Word) (q : List Word) {n : Nat} (h : n < s.nnodes.toNat) :
    (s.joined a b q).readNode n = s.readNode n := by
  rw [State.readNode_joined, if_neg (by omega)]

theorem State.keyBefore_joined_of_lt (s : State) (a b : Word) (q : List Word) {i j : Word}
    (hi : i.toNat < s.nnodes.toNat) (hj : j.toNat < s.nnodes.toNat) :
    (s.joined a b q).keyBefore i j = s.keyBefore i j :=
  State.keyBefore_congr (congrArg Node.freq (s.readNode_joined_of_lt a b q hi))
    (congrArg Node.freq (s.readNode_joined_of_lt a b q hj))

/-- The newest node after `MERGE` (R129). -/
theorem State.readNode_joined_newest (s : State) (a b : Word) (q : List Word) :
    (s.joined a b q).readNode s.nnodes.toNat = internalNode (s.nodeFreq a.toNat + s.nodeFreq b.toNat) a b :=
  (s.readNode_joined a b q _).trans (if_pos rfl)

theorem State.BuildInv.toNat_nnodes_joined {s : State} (hb : s.BuildInv) (hv : s.pqV = true) (a b : Word)
    (q : List Word) : (s.joined a b q).nnodes.toNat = s.nnodes.toNat + 1 := by
  obtain ⟨-, -, -, hnodes⟩ := s.joined_frame a b q
  rw [hnodes, hb.toNat_nnodes_succ hv]

/-- `MERGE` makes the two nodes it takes children (R129). -/
theorem State.BuildInv.childList_joined {s : State} (hb : s.BuildInv) (hv : s.pqV = true) (a b : Word)
    (q : List Word) : (s.joined a b q).childList = s.childList ++ [a.toNat, b.toNat] := by
  obtain ⟨-, -, hn⟩ := State.regs_of_tableView (s.tableView_joined a b q)
  have hnewest := s.readNode_joined_newest a b q
  have hleft : (s.joined a b q).nodeLeft s.nnodes.toNat = a := congrArg Node.left hnewest
  have hright : (s.joined a b q).nodeRight s.nnodes.toNat = b := congrArg Node.right hnewest
  have hleaves := hb.stage.leaves_exist hv
  have hold : (List.range' s.nsym.toNat (s.nnodes.toNat - s.nsym.toNat)).flatMap
      (fun k => [((s.joined a b q).nodeLeft k).toNat, ((s.joined a b q).nodeRight k).toNat]) = s.childList := by
    refine List.flatMap_congr fun k hk => ?_
    obtain ⟨-, hlt⟩ := List.mem_range'_1.mp hk
    have hnode := s.readNode_joined_of_lt a b q (n := k) (by omega)
    rw [show (s.joined a b q).nodeLeft k = s.nodeLeft k from congrArg Node.left hnode,
      show (s.joined a b q).nodeRight k = s.nodeRight k from congrArg Node.right hnode]
  rw [State.childList_succ (hb.toNat_nnodes_joined hv a b q).symm (hn ▸ hleaves), hleft, hright, hn, hold]

section
variable {s : State} (hb : s.BuildInv) (hv : s.pqV = true) {a b : Word} {q : List Word} (hq : s.queue = a :: b :: q)
include hb hq

theorem State.BuildInv.queue_lt {j : Word} (hj : j ∈ a :: b :: q) : j.toNat < s.nnodes.toNat :=
  hb.stage.queue_below j (hq ▸ hj)

/-- The queue after `MERGE`, up to its order (R129). -/
theorem State.BuildInv.perm_queue_joined : (s.joined a b q).queue.Perm (s.nnodes :: q) := by
  have hsorted := hb.stage.queue_sorted
  rw [hq, List.pairwise_cons, List.pairwise_cons] at hsorted
  have hnew : s.nnodes ∉ q := fun hc => lt_irrefl _ (hb.queue_lt hq (by simp [hc]))
  exact (s.queue_joined a b (State.length_lt_of_queue hq) hnew hsorted.2.2).1

include hv

/-- After `MERGE` every node but the newest, which is queued, is where it was or a child of the newest (R130). -/
theorem State.BuildInv.owned_joined
    (howned : (s.queue.map BitVec.toNat ++ s.childList).Perm (List.range s.nnodes.toNat)) :
    ((s.joined a b q).queue.map BitVec.toNat ++ (s.joined a b q).childList).Perm
      (List.range (s.joined a b q).nnodes.toNat) := by
  rw [hq] at howned
  rw [hb.childList_joined hv a b q, hb.toNat_nnodes_joined hv a b q, List.range_succ]
  have htaken : ((s.nnodes :: q).map BitVec.toNat ++ (s.childList ++ [a.toNat, b.toNat])).Perm
      (s.nnodes.toNat :: ((a :: b :: q).map BitVec.toNat ++ s.childList)) := by
    simp only [List.map_cons, List.cons_append]
    refine .cons _ ?_
    rw [← List.append_assoc]
    exact List.perm_append_comm (l₂ := [a.toNat, b.toNat])
  exact (((hb.perm_queue_joined hq).map _).append_right _).trans
    (htaken.trans ((howned.cons _).trans (List.perm_append_singleton _ _).symm))

/-- The internal nodes after `MERGE`: the ones made before, and the new one over the two least (R48, R129). -/
theorem State.BuildInv.internals_joined (h : s.TreeInv) {k : Nat} (hge : s.nsym.toNat ≤ k)
    (hlt : k < (s.joined a b q).nnodes.toNat) :
    (s.joined a b q).nodeInternal k = true ∧ (s.joined a b q).nodeSym k = 0#32
      ∧ ((s.joined a b q).nodeLeft k).toNat < k ∧ ((s.joined a b q).nodeRight k).toNat < k
      ∧ ((s.joined a b q).nodeFreq k).toNat = ((s.joined a b q).nodeFreq ((s.joined a b q).nodeLeft k).toNat).toNat
          + ((s.joined a b q).nodeFreq ((s.joined a b q).nodeRight k).toNat).toNat
      ∧ (s.joined a b q).keyBefore ((s.joined a b q).nodeLeft k) ((s.joined a b q).nodeRight k) = true := by
  have hfreq : ∀ n, n < s.nnodes.toNat → (s.joined a b q).nodeFreq n = s.nodeFreq n :=
    fun n hn => congrArg Node.freq (s.readNode_joined_of_lt a b q hn)
  rw [hb.toNat_nnodes_joined hv a b q] at hlt
  rcases Nat.lt_succ_iff_lt_or_eq.mp hlt with hlt | rfl
  · have hnode := s.readNode_joined_of_lt a b q hlt
    have hl : (s.joined a b q).nodeLeft k = s.nodeLeft k := congrArg Node.left hnode
    have hr : (s.joined a b q).nodeRight k = s.nodeRight k := congrArg Node.right hnode
    obtain ⟨hint, hsym, hlk, hrk, hsum, hkey⟩ := h.internals hv k hge hlt
    rw [hl, hr, hfreq k hlt, hfreq _ (hlk.trans hlt), hfreq _ (hrk.trans hlt),
      s.keyBefore_joined_of_lt a b q (hlk.trans hlt) (hrk.trans hlt)]
    exact ⟨(congrArg Node.internal hnode).trans hint, (congrArg Node.sym hnode).trans hsym, hlk, hrk, hsum, hkey⟩
  · have ha := hb.queue_lt hq (j := a) (by simp)
    have hb' := hb.queue_lt hq (j := b) (by simp)
    have hsorted := hb.stage.queue_sorted
    rw [hq, List.pairwise_cons] at hsorted
    have hnewest := s.readNode_joined_newest a b q
    have hl : (s.joined a b q).nodeLeft s.nnodes.toNat = a := congrArg Node.left hnewest
    have hr : (s.joined a b q).nodeRight s.nnodes.toNat = b := congrArg Node.right hnewest
    have hsum : (s.joined a b q).nodeFreq s.nnodes.toNat = s.nodeFreq a.toNat + s.nodeFreq b.toNat :=
      congrArg Node.freq hnewest
    rw [hl, hr, hsum, hfreq _ ha, hfreq _ hb', s.keyBefore_joined_of_lt a b q ha hb']
    exact ⟨congrArg Node.internal hnewest, congrArg Node.sym hnewest, ha, hb', hb.toNat_freq_add hv hq,
      hsorted.1 b (by simp)⟩

/-- `MERGE` goes on with the building of the tree (R129, R130). -/
theorem State.BuildInv.joined_treeInv (h : s.TreeInv) : (s.joined a b q).TreeInv := by
  obtain ⟨-, -, hn⟩ := State.regs_of_tableView (s.tableView_joined a b q)
  have hframe := s.joined_framed a b (Nat.lt_of_succ_lt (State.length_lt_of_queue hq))
  refine ⟨fun _ i hi => ?_, fun _ k hge hlt => hb.internals_joined hv hq h (hn ▸ hge) hlt,
    fun _ => hb.owned_joined hv hq (h.owned_once hv)⟩
  rw [hn] at hi
  rw [s.readNode_joined_of_lt a b q (hi.trans_le (hb.stage.leaves_exist hv)), h.leaves hv i hi,
    hframe.elems .ftsym i (by simp), hframe.elems .ftcnt i (by simp)]

end

/-- Every command that completes keeps the tree. -/
theorem State.BuildInv.treeInv_after_commandBody {i : Instr} {s t : State} (hb : s.BuildInv) (h : s.TreeInv)
    (hi : i ≠ .build) (ht : commandBody i s = .ok t) : t.TreeInv := by
  cases i with
  | nop => cases ht; exact h
  | clear => cases ht; exact State.treeInv_of_no_queue rfl
  | freq =>
    obtain ⟨-, -, rfl⟩ := freqBody_ok_iff.mp ht
    exact State.treeInv_of_no_queue rfl
  | pqinit =>
    obtain ⟨-, rfl⟩ := pqinitBody_ok_iff.mp ht
    exact s.queued_treeInv.of_buildView rfl
  | merge =>
    obtain ⟨hv, a, b, q, hq, rfl⟩ := mergeBody_ok_cases ht
    exact hb.joined_treeInv hv hq h
  | build => exact absurd rfl hi
  | gencodes =>
    obtain ⟨u, n, hview, rfl⟩ := gencodesBody_eq_withCodes ht
    exact h.withCodes_of_buildView hview n
  | encode => exact h.of_buildView (encodeBody_buildView ht)
  | decode src => exact h.of_buildView (decodeBody_buildView ht)
  | permute => exact h.of_buildView (permuteBody_buildView ht)
  | invert trim => exact h.of_buildView (invertBody_buildView ht)

/-! ### The codebook -/

/-- Without a codebook there is nothing to say of it. -/
theorem State.codebookInv_of_no_codes {s : State} (h : s.codesV = false) : s.CodebookInv :=
  ⟨by simp [h], by simp [h], by simp [h], by simp [h]⟩

/-- What the invariant reads beside the codebook's own memories includes the flag, the counters and the nodes. -/
theorem State.regs_of_buildView {s t : State} (hv : t.buildView = s.buildView) :
    t.params = s.params ∧ t.codesV = s.codesV ∧ t.ncodes = s.ncodes ∧ t.nsym = s.nsym ∧ t.root = s.root :=
  ⟨congrArg (fun v : BuildView => v.table.params) hv, congrArg BuildView.codesV hv, congrArg BuildView.ncodes hv,
    congrArg (fun v : BuildView => v.table.nsym) hv, congrArg BuildView.root hv⟩

theorem State.readNode_of_buildView {s t : State} (hv : t.buildView = s.buildView) (n : Nat) :
    t.readNode n = s.readNode n :=
  State.readNode_congr fun _ _ => State.readElem_congr (sp := .node) (State.regs_of_buildView hv).1
    (congrArg (fun v : BuildView => v.table.resets) hv) (congrArg BuildView.node hv) _

/-- The codebook is the same when it reads the same and belongs to the same tree. -/
theorem State.CodebookInv.of_buildView {s t : State} (h : s.CodebookInv) (hv : t.buildView = s.buildView)
    (hlen : ∀ i, t.readElem .cblen i = s.readElem .cblen i) (hbit : ∀ i, t.readElem .cbbit i = s.readElem .cbbit i) :
    t.CodebookInv := by
  obtain ⟨hp, hcodes, hncodes, hnsym, hroot⟩ := State.regs_of_buildView hv
  have hcode : ∀ i, t.codeBits i = s.codeBits i := fun i => by simp [State.codeBits, State.readBit, hlen, hbit, hp]
  constructor
  case lengths => rw [hcodes, hncodes, hp]; simpa only [hlen] using h.lengths
  case unused => rw [hcodes, hncodes, hp]; simpa only [hlen] using h.unused
  case one_leaf => rw [hcodes, hnsym, hcode]; exact h.one_leaf
  case paths =>
    rw [hcodes, hnsym, hroot]
    intro hc h2 i hi
    rw [State.walk_congr (State.readNode_of_buildView hv), hcode, h.paths hc h2 i hi]

/-- Every command that completes keeps the codebook, makes it, or drops it (R245). -/
theorem State.BuildInv.codebookInv_after_commandBody {i : Instr} {s t : State} (hb : s.BuildInv) (ht : s.TreeInv)
    (h : s.CodebookInv) (hi : i ≠ .build) (hbody : commandBody i s = .ok t) : t.CodebookInv := by
  have hframe := commandBody_framed hbody
  cases i with
  | nop => cases hbody; exact h
  | clear => cases hbody; exact State.codebookInv_of_no_codes rfl
  | freq =>
    obtain ⟨-, -, rfl⟩ := freqBody_ok_iff.mp hbody
    exact State.codebookInv_of_no_codes rfl
  | pqinit =>
    obtain ⟨-, rfl⟩ := pqinitBody_ok_iff.mp hbody
    exact State.codebookInv_of_no_codes rfl
  | merge =>
    obtain ⟨hv, a, b, q, hq, rfl⟩ := mergeBody_ok_cases hbody
    exact State.codebookInv_of_no_codes (hb.joined_building hv hq).codesV
  | build => exact absurd rfl hi
  | gencodes => exact hb.codebook_after_gencodes ht hbody
  | encode =>
    exact h.of_buildView (encodeBody_buildView hbody) (fun k => hframe.elems .cblen k (by simp [writtenSpaces]))
      (fun k => hframe.elems .cbbit k (by simp [writtenSpaces]))
  | decode src =>
    exact h.of_buildView (decodeBody_buildView hbody) (fun k => hframe.elems .cblen k (by simp [writtenSpaces]))
      (fun k => hframe.elems .cbbit k (by simp [writtenSpaces]))
  | permute =>
    exact h.of_buildView (permuteBody_buildView hbody) (fun k => hframe.elems .cblen k (by simp [writtenSpaces]))
      (fun k => hframe.elems .cbbit k (by simp [writtenSpaces]))
  | invert trim =>
    exact h.of_buildView (invertBody_buildView hbody) (fun k => hframe.elems .cblen k (by simp [writtenSpaces]))
      (fun k => hframe.elems .cbbit k (by simp [writtenSpaces]))

/-! ### The cells that exist -/

/-- Writes of elements that exist. -/
theorem State.Writes.cellsExist {touched : Space → Nat → Prop} {s t : State} (h : s.Writes t touched)
    (hs : s.CellsExist) (hexist : ∀ sp i, touched sp i → elemExists s.params sp i = true) : t.CellsExist := by
  intro sp c hc
  rw [h.params]
  exact (h.cells sp c hc).elim (hs sp c) (hexist sp c.1)

/-- When `DECODE` completes, what it emits fits `DEC` (R165). -/
theorem decodeBody_ok_length {w : Word} {src : Bool} {s t : State} (h : decodeBody w src s = .ok t) :
    ∃ out, t = s.decoded out ∧ out.length ≤ s.params.decMax := by
  unfold decodeBody at h
  split_ifs at h
  · exact ⟨[], (Except.ok.inj h).symm, Nat.zero_le _⟩
  · cases hscan : s.scan (s.sourceBits src) 0 s.root 0 [] with
    | error e => rw [hscan] at h; cases h
    | ok out =>
      rw [hscan] at h
      rcases State.scan_cases le_rfl (.inl rfl) (Nat.zero_le _) hscan with ⟨_, hout, hlen⟩ | ⟨b, hb, -⟩ | hcap | ⟨j, -, he⟩
      · exact ⟨out, (Except.ok.inj h).symm, Except.ok.inj hout ▸ hlen⟩
      · cases hb
      · cases hcap
      · cases he

/-- The depths of the memories, as far as the parameters' bounds decide them (R5, 20_memory.md R73). -/
theorem Params.one_le_nsymMax {p : Params} (h : p.valid = true) : 1 ≤ p.nsymMax := by
  simp only [Params.valid, Params.nsymMaxOk, Bool.and_eq_true, decide_eq_true_eq] at h
  omega

/-- The fields of a node that exists, and its index (20_memory.md R74). -/
theorem elemExists_node {p : Params} {i n : Nat} (hn : n < p.nodeMax) (h1 : 8 * n ≤ i) (h2 : i < 8 * n + 5) :
    elemExists p .node i = true :=
  elemExists_iff.mpr ⟨by rw [elemDepth]; omega, fun _ => by omega⟩

/-- The cells of a code that is no longer than `CODE_MAX` (20_memory.md R74). -/
theorem elemExists_cbbit {p : Params} {e j : Nat} (he : e < p.nsymMax) (hj : j < p.codeMax) :
    elemExists p .cbbit (e * p.codeMax + j) = true := by
  refine elemExists_iff.mpr ⟨?_, nofun⟩
  rw [elemDepth]
  exact cell_lt he hj

/-- Path bits found after the codebook was emptied are no longer than `CODE_MAX` (41_codebook.md R153 (a)). -/
theorem State.FinishedTree.length_pathBits_le {s : State} (h : s.FinishedTree) (hb : s.BuildInv) {i : Nat}
    (hi : i < s.nsym.toNat) : (s.emptyCodes.pathBits i).length ≤ s.params.codeMax := by
  have hle := h.length_le (h.walk_pathBits_emptyCodes hi)
  have hbound := hb.table.bound
  rw [Params.codeMax]
  omega

/-- `GENCODES` writes elements that exist. -/
theorem State.BuildInv.cellsExist_after_gencodes {w : Word} {s t : State} (hb : s.BuildInv) (ht : s.TreeInv)
    (hs : s.CellsExist) (h : gencodesBody w s = .ok t) : t.CellsExist := by
  have h1 := Params.one_le_nsymMax hb.params_valid
  have hmax := Params.one_le_codeMax s.params
  refine (gencodesBody_writes h).cellsExist hs fun sp i hi => ?_
  rcases hi with ⟨rfl, hi⟩ | ⟨rfl, rfl⟩ | ⟨rfl, rfl⟩ | ⟨htree, -, ⟨rfl, hi⟩ | ⟨rfl, e, j, he, hj, rfl⟩⟩
  · exact elemExists_iff.mpr ⟨hi, nofun⟩
  · exact elemExists_iff.mpr ⟨h1, nofun⟩
  · simpa using elemExists_cbbit (e := 0) (j := 0) h1 hmax
  · exact elemExists_iff.mpr ⟨hi.trans_le hb.table.bound, nofun⟩
  · rw [State.emptyCodes_params]
    have hfin := ht.finished hb.stage htree
    exact elemExists_cbbit (he.trans_le hb.table.bound) (hj.trans_le (hfin.length_pathBits_le hb he))

/-- Every command writes elements that exist (20_memory.md R73, R74). -/
theorem State.BuildInv.cellsExist_after_commandBody {i : Instr} {s t : State} (hb : s.BuildInv) (ht : s.TreeInv)
    (hs : s.CellsExist) (hi : i ≠ .build) (h : commandBody i s = .ok t) : t.CellsExist := by
  have hbound := hb.table.bound
  cases i with
  | nop => cases h; exact hs
  | clear => cases h; exact fun sp c hc => hs sp c (by cases sp <;> exact hc)
  | freq =>
    obtain ⟨-, hsyms, rfl⟩ := freqBody_ok_iff.mp h
    refine s.counted_writes.cellsExist hs fun sp i ⟨hsp, hi⟩ => ?_
    rcases hsp with rfl | rfl <;> exact elemExists_iff.mpr ⟨hi.trans_le hsyms, nofun⟩
  | pqinit =>
    obtain ⟨-, rfl⟩ := pqinitBody_ok_iff.mp h
    refine s.queued_writes.cellsExist hs fun sp i hi => ?_
    rcases hi with ⟨rfl, hi, hf⟩ | ⟨rfl, hi⟩
    · exact elemExists_iff.mpr ⟨by rw [elemDepth, Params.nodeMax]; omega, fun _ => hf⟩
    · exact elemExists_iff.mpr ⟨hi.trans_le hbound, nofun⟩
  | merge =>
    obtain ⟨hv, a, b, q, hq, rfl⟩ := mergeBody_ok_cases h
    have hlen : q.length + 2 = s.pqn.toNat := by rw [← State.length_queue, hq]; rfl
    have hcount := hb.stage.node_count hv
    have hleaves := hb.stage.leaves_exist hv
    refine (State.joined_writes hq).cellsExist hs fun sp i hi => ?_
    rcases hi with ⟨rfl, h1, h2⟩ | ⟨rfl, hi⟩
    · exact elemExists_node (by rw [Params.nodeMax]; omega) h1 h2
    · exact elemExists_iff.mpr ⟨by rw [elemDepth]; omega, nofun⟩
  | build => exact absurd rfl hi
  | gencodes => exact hb.cellsExist_after_gencodes ht hs h
  | encode =>
    obtain ⟨-, -, hlen, rfl⟩ := encodeBody_ok_iff.mp h
    exact s.encoded_writes.cellsExist hs fun sp i ⟨hsp, hi⟩ =>
      hsp ▸ elemExists_iff.mpr ⟨hi.trans_le hlen, nofun⟩
  | decode src =>
    obtain ⟨out, rfl, hlen⟩ := decodeBody_ok_length h
    exact (s.decoded_writes out).cellsExist hs fun sp i ⟨hsp, hi⟩ =>
      hsp ▸ elemExists_iff.mpr ⟨hi.trans_le hlen, nofun⟩
  | permute =>
    obtain ⟨hperm, rfl⟩ := permuteBody_ok_iff.mp h
    exact s.permuted_writes.cellsExist hs fun sp i ⟨hsp, hi⟩ =>
      hsp ▸ elemExists_iff.mpr ⟨hi.trans_le hperm.cells_le, nofun⟩
  | invert trim =>
    obtain ⟨hinv, rfl⟩ := invertBody_ok_iff.mp h
    exact (s.inverted_writes trim).cellsExist hs fun sp i ⟨hsp, hi⟩ =>
      hsp ▸ elemExists_iff.mpr ⟨(hi.trans_eq hinv.shape.symm).trans_le hinv.len_le, nofun⟩

/-! ### The step -/

/-- Every command that completes keeps the whole invariant; `BUILD` is made of others that do (R131). -/
theorem State.Inv.after_commandBody {i : Instr} {s t : State} (h : s.Inv) (hbody : commandBody i s = .ok t) :
    t.Inv := by
  have hparts : ∀ {i : Instr} {s t : State}, i ≠ .build → s.Inv → commandBody i s = .ok t → t.Inv :=
    fun hi h hbody =>
      ⟨h.build.after_commandBody hbody, h.build.treeInv_after_commandBody h.tree hi hbody,
        h.build.codebookInv_after_commandBody h.tree h.codebook hi hbody, (commandBody_writes hbody).canonical h.canonical,
        h.build.cellsExist_after_commandBody h.tree h.cells hi hbody⟩
  by_cases hi : i = .build
  · subst hi
    obtain ⟨htext, hsyms, -⟩ := buildBody_ok_iff.mp hbody
    have hcounted : s.counted.Inv := hparts (i := .freq) nofun h (freqBody_ok_iff.mpr ⟨htext, hsyms, rfl⟩)
    have hloaded : s.toMerge.Inv := hparts (i := .pqinit) nofun hcounted (pqinitBody_ok_iff.mpr ⟨rfl, rfl⟩)
    refine buildBody_induction hloaded (fun u a b q hu hv hq => hparts (i := .merge) nofun hu ?_) hbody
    obtain ⟨a', b', q', hq', hmerge⟩ := mergeBody_ok (w := encode .merge) hv
      (by rw [← State.length_queue, hq]; simp)
    cases hq.symm.trans hq'
    exact hmerge
  · exact hparts hi h hbody

/-- The invariant reads the tree, the codebook and the memories, and no other register. -/
theorem State.Inv.of_memories {s t : State} (h : s.Inv) (hv : t.buildView = s.buildView)
    (hm : ∀ sp, t.memory sp = s.memory sp) : t.Inv := by
  have hp : t.params = s.params := (State.regs_of_buildView hv).1
  have hr : t.resets = s.resets := congrArg (fun v : BuildView => v.table.resets) hv
  have helem : ∀ sp i, t.readElem sp i = s.readElem sp i := fun sp => State.readElem_congr hp hr (hm sp)
  exact ⟨h.build.of_buildView hv, h.tree.of_buildView hv, h.codebook.of_buildView hv (helem .cblen) (helem .cbbit),
    h.canonical.congr hp hm, fun sp c hc => hp ▸ h.cells sp c (hm sp ▸ hc)⟩

/-- The host writes elements that exist, of memories the invariant asks nothing else of (20_memory.md R73). -/
theorem State.Inv.writeElem {s : State} (h : s.Inv) {sp : Space} {i : Nat} (d : Word) (hw : sp.hostWritable = true)
    (he : elemExists s.params sp i = true) : (s.writeElem sp i d).Inv := by
  have hv : (s.writeElem sp i d).buildView = s.buildView :=
    s.buildView_setMemory _ (Space.inBuildView_of_hostWritable hw)
  have hother : ∀ sp', sp'.hostWritable = false → ∀ k, (s.writeElem sp i d).readElem sp' k = s.readElem sp' k :=
    fun sp' hsp k => s.readElem_writeElem_other d fun hc => by rw [hc, hw] at hsp; cases hsp
  refine ⟨h.build.of_buildView hv, h.tree.of_buildView hv, h.codebook.of_buildView hv (hother .cblen rfl) (hother .cbbit rfl),
    h.canonical.writeElem sp i d, ?_⟩
  have hwrites : s.Writes (s.writeElem sp i d) (fun sp' i' => sp' = sp ∧ i' = i) :=
    .writeSeq s sp i [d] fun k h1 h2 => ⟨rfl, by rw [List.length_singleton] at h2; omega⟩
  exact hwrites.cellsExist h.cells fun sp' i' ⟨hsp, hi⟩ => by rw [hsp, hi]; exact he

theorem State.Inv.after_exec {i : Instr} {s t : State} (h : s.Inv) (hexec : exec i s = .next t) : t.Inv := by
  rcases exec_cases hexec with ⟨u, hu, rfl⟩ | ⟨e, -, rfl⟩
  · exact (h.after_commandBody hu).of_memories rfl u.complete_memory
  · exact h.of_memories rfl (s.raise_memory e)

theorem State.Inv.after_issueCommand {w : Word} {s t : State} (h : s.Inv) (hs : issueCommand w s = .next t) : t.Inv := by
  rcases issueCommand_cases hs with ⟨i, -, hexec⟩ | ⟨-, rfl⟩
  · exact h.after_exec hexec
  · exact h.of_memories rfl (s.raise_memory _)

theorem State.Inv.after_hostWrite {a d : Word} {s t : State} (h : s.Inv) (hs : hostWrite a d s = .next t) : t.Inv := by
  rcases hostWrite_cases hs with rfl | ⟨r, -, -, rfl⟩ | ⟨r, -, -, rfl⟩ | ⟨r, -, -, hcmd⟩ | ⟨sp, i, ht, hw, rfl⟩
  · exact h.of_memories rfl s.rejectAccess_memory
  · exact h.of_memories (s.buildView_setOperandReg r d) (s.setOperandReg_memory r d)
  · exact h.of_memories rfl (s.clearSticky_memory d)
  · exact h.after_issueCommand hcmd
  · exact h.writeElem d hw (elemExists_of_targetOf ht)

/-- With nothing built and no cell written the whole invariant holds. -/
theorem State.NothingBuilt.inv {s : State} (h : s.NothingBuilt) (hp : s.params.valid = true)
    (hm : ∀ sp, s.memory sp = []) : s.Inv :=
  ⟨h.buildInv hp, State.treeInv_of_no_queue h.pqV, State.codebookInv_of_no_codes h.codesV,
    fun sp => by simp [hm, Memory.wf], fun sp => by simp [hm]⟩

theorem State.Inv.after_serveInput {x : HostInput} {s t : State} (h : s.Inv) (hs : serveInput x s = .next t) : t.Inv := by
  cases x with
  | write a d => exact h.after_hostWrite hs
  | read a =>
    cases hs
    rcases s.hostRead_cases a with ⟨hsame, -⟩ | ⟨hrejected, -⟩
    · rw [hsame]; exact h.of_memories rfl fun sp => by cases sp <;> rfl
    · rw [hrejected]; exact h.of_memories rfl fun sp => by cases sp <;> rfl
  | reset => cases hs; exact s.applyReset_nothingBuilt.inv h.build.params_valid s.applyReset_memory

/-- Settles O8: the reset state has nothing built and no cell written. -/
theorem resetMeetsInvariant : Obligations.ResetMeetsInvariant :=
  State.reset_nothingBuilt.inv (by decide) fun sp => by cases sp <;> rfl

/-- Settles O52: each host input keeps the invariant, by cases on the input and on the command it issues. -/
theorem stepKeepsInvariant : Obligations.StepKeepsInvariant := by
  intro s t h hstep
  rcases step_cases hstep with ⟨-, rfl⟩ | ⟨x, rest, -, hserve⟩
  · exact h
  · exact (h.of_memories (t := { s with inbox := rest }) rfl fun sp => by cases sp <;> rfl).after_serveInput hserve

end Sys2Proof.Machine
end

section
/-! PROOFS. The encoding of commands (spec/30_encoding.md R100 to R105; O1 to O4, O6): the fields of a word as parts of its
number, and the three tests of the decoder, each with what makes it refuse. -/

namespace Sys2Proof

/-! ### The fields of a word -/

/-- Packing keeps the fields apart (R100). -/
@[simp] theorem fieldsOf_packFields (f : CommandFields) : fieldsOf (packFields f) = f := by
  obtain ⟨o, b, r⟩ := f
  simp only [fieldsOf, packFields, CommandFields.mk.injEq]
  refine ⟨BitVec.eq_of_getLsbD_eq fun k hk => ?opc, ?flg, BitVec.eq_of_getLsbD_eq fun k hk => ?rsv⟩
  case opc =>
    simp only [BitVec.getLsbD_extractLsb', BitVec.getLsbD_append, hk, Nat.zero_add, show k < 1 + 8 by omega,
      decide_true, Bool.true_and, if_true]
  case flg =>
    simp only [BitVec.getLsbD_append, BitVec.getLsbD_ofBool, show 8 < 1 + 8 by omega, show ¬ 8 < 8 by omega,
      if_true, if_false]
    simp
  case rsv =>
    simp only [BitVec.getLsbD_extractLsb', BitVec.getLsbD_append, hk, show ¬ 9 + k < 1 + 8 by omega,
      decide_true, Bool.true_and, if_false]
    rw [show 9 + k - (1 + 8) = k by omega]

theorem toNat_opc_fieldsOf (w : Word) : (fieldsOf w).opc.toNat = w.toNat % 2 ^ 8 := by
  simp [fieldsOf]

theorem rsv_fieldsOf_eq_zero_iff (w : Word) : (fieldsOf w).rsv = 0#23 ↔ w.toNat / 2 ^ 9 = 0 := by
  have hw := w.isLt
  rw [← BitVec.toNat_inj]
  simp only [fieldsOf, BitVec.extractLsb'_toNat, Nat.shiftRight_eq_div_pow]
  rw [Nat.mod_eq_of_lt (by omega)]
  rfl

/-- Once the reserved bits are 0, the flag is all that is above the opcode. -/
theorem flg_fieldsOf_iff {w : Word} (h : w.toNat / 2 ^ 9 = 0) : (fieldsOf w).flg = true ↔ w.toNat / 2 ^ 8 = 1 := by
  have hbit : (fieldsOf w).flg = w.toNat.testBit 8 := rfl
  rw [hbit, Nat.testBit_eq_decide_div_mod_eq, decide_eq_true_eq]
  omega

/-! ### The tests of the decoder -/

/-- The opcodes of format Z, those without a flag (R101, R104). -/
def zOpcodes : List Nat := [0x00, 0x01, 0x10, 0x11, 0x12, 0x13, 0x14, 0x15, 0x20]

/-- An opcode selects no command when it is none of the eleven (R104). -/
theorem commandOf_eq_none_iff {opc : BitVec 8} {flg : Bool} : commandOf opc flg = none ↔
    opc.toNat ∉ [0x00, 0x01, 0x10, 0x11, 0x12, 0x13, 0x14, 0x15, 0x16, 0x20, 0x21] := by
  constructor
  · intro hnone hmem
    rw [← BitVec.setWidth_eq opc, ← BitVec.ofNat_toNat] at hnone
    simp only [List.mem_cons, List.not_mem_nil, or_false] at hmem
    rcases hmem with h | h | h | h | h | h | h | h | h | h | h <;> (rw [h] at hnone; cases hnone)
  · intro h
    unfold commandOf
    repeat rw [if_neg (by rintro rfl; simp at h)]

/-- An opcode that selects a command is of format F or of format Z (R101, R102). -/
theorem isFormatF_eq_false_iff {opc : BitVec 8} {flg : Bool} (h : commandOf opc flg ≠ none) :
    isFormatF opc = false ↔ opc.toNat ∈ zOpcodes := by
  rw [ne_eq, commandOf_eq_none_iff, not_not] at h
  simp only [isFormatF, Bool.or_eq_false_iff, beq_eq_false_iff_ne, ne_eq, ← BitVec.toNat_inj]
  simp only [List.mem_cons, List.not_mem_nil, or_false] at h
  rcases h with h | h | h | h | h | h | h | h | h | h | h <;> simp [h, zOpcodes]

/-- Which fields each test refuses (R105). -/
theorem decodeFields_error_iff (f : CommandFields) :
    (decodeFields f = .error .reservedBits ↔ f.rsv ≠ 0#23)
    ∧ (decodeFields f = .error .unassignedOpcode ↔ f.rsv = 0#23 ∧ commandOf f.opc f.flg = none)
    ∧ (decodeFields f = .error .flagOnFormatZ ↔
        f.rsv = 0#23 ∧ commandOf f.opc f.flg ≠ none ∧ f.flg = true ∧ isFormatF f.opc = false) := by
  unfold decodeFields
  by_cases hrsv : f.rsv = 0#23
  · cases hcmd : commandOf f.opc f.flg with
    | none => simp [hrsv]
    | some i => cases hflg : f.flg <;> cases hfmt : isFormatF f.opc <;> simp [hrsv]
  · simp [hrsv]

end Sys2Proof

namespace Sys2Proof.Machine

/-- Settles O1: each word is evaluated. -/
theorem sampleWordsDecode : Obligations.SampleWordsDecode := by
  refine ⟨?_, ?_, ?_, ?_, ?_, ?_, ?_, ?_, ?_, ?_, ?_, ?_, ?_⟩ <;> decide

/-- The opcode and the flag of a command select it (R104). -/
theorem commandOf_opcodeOf (i : Instr) : commandOf (opcodeOf i) (flagOf i) = some i := by
  cases i <;> rfl

/-- Only commands of format F have a flag (R102). -/
theorem isFormatF_of_flagOf {i : Instr} (h : flagOf i = true) : isFormatF (opcodeOf i) = true := by
  cases i <;> first | rfl | cases h

/-- Settles O2: the fields of the word are those it was packed from, and they pass the three tests. -/
theorem decodeOfEncode : Obligations.DecodeOfEncode := by
  intro i _
  rw [decode, encode, fieldsOf_packFields, decodeFields_ok_iff]
  exact ⟨rfl, commandOf_opcodeOf i, isFormatF_of_flagOf⟩

/-- Each of the thirteen legal words encodes a command, so that it decodes (R104). -/
theorem exists_decode_of_mem_legalWords {w : Word} (h : w ∈ legalWords) : ∃ i, decode w = .ok i := by
  have hall : legalWords = [Instr.nop, .clear, .freq, .pqinit, .merge, .build, .gencodes, .encode, .decode false,
      .decode true, .permute, .invert false, .invert true].map encode := by decide
  rw [hall] at h
  obtain ⟨i, -, rfl⟩ := List.mem_map.mp h
  exact ⟨i, decodeOfEncode i (by cases i <;> rfl)⟩

/-- Settles O3: a word holds nothing but its fields. -/
theorem encodeOfDecode : Obligations.EncodeOfDecode :=
  fun _ i h => ⟨encode_of_decode h, by cases i <;> rfl⟩

/-- Settles O4: each test read as a condition on the word's number; what passes is the encoding of a command. -/
theorem decodeRejectsByTheThreeTests : Obligations.DecodeRejectsByTheThreeTests := by
  intro w
  obtain ⟨hreserved, hopcode, hflag⟩ := decodeFields_error_iff (fieldsOf w)
  rw [ne_eq, ← rsv_fieldsOf_eq_zero_iff w, ← toNat_opc_fieldsOf, ← commandOf_eq_none_iff (flg := (fieldsOf w).flg)]
  refine ⟨hreserved, hopcode, hflag.trans ?_, fun ⟨i, hi⟩ => mem_legalWords_of_decode hi, exists_decode_of_mem_legalWords⟩
  refine and_congr_right fun hrsv => ?_
  rw [← flg_fieldsOf_iff ((rsv_fieldsOf_eq_zero_iff w).mp hrsv)]
  constructor
  · exact fun ⟨hcmd, hflg, hfmt⟩ => ⟨hflg, (isFormatF_eq_false_iff hcmd).mp hfmt⟩
  · intro ⟨hflg, hz⟩
    have hcmd : commandOf (fieldsOf w).opc (fieldsOf w).flg ≠ none := by
      rw [ne_eq, commandOf_eq_none_iff, not_not]
      exact (show zOpcodes ⊆ _ by decide) hz
    exact ⟨hcmd, hflg, (isFormatF_eq_false_iff hcmd).mpr hz⟩

/-- Settles O6: the write issues the word, and the word decodes to `i`. -/
theorem stepRunsDecodedCommand : Obligations.StepRunsDecodedCommand := by
  intro s w i rest hin hd _
  rw [step_write_cmd hin, issueCommand, hd]

end Sys2Proof.Machine
end

section
/-! PROOFS. The host's view (spec/20_memory.md, spec/10_state.md R22, R26; O9, O42, O44 to O48, O50, O54): the map of
addresses, the bits of `STATUS`, what a step that serves a host input changes, and whole runs. -/

namespace Sys2Proof.Machine

/-! ### The map of addresses -/

/-- The rows of the table of 20_memory.md R73: an address of a memory has its space number as top digit. -/
theorem mem_memoryMap_iff {p : Params} {sp : Space} {base d : Nat} :
    (sp, base, d) ∈ memoryMap p ↔ base = sp.number * 2 ^ 28 ∧ d = elemDepth p sp := by
  cases sp <;> simp [memoryMap, Space.number, elemDepth, Params.nodeMax, Params.codeMax]

/-- The rows of the table of 10_state.md R22. -/
theorem mem_registerMap_iff {r : Reg} {n : Nat} {k : Access} :
    (r, n, k) ∈ registerMap ↔ n = r.number ∧ k = r.access := by
  cases r <;> simp [registerMap, Reg.number, Reg.access]

/-- Every index fits its field of the address (R71). -/
theorem elemDepth_le {p : Params} (h : p.valid = true) (sp : Space) : elemDepth p sp ≤ 2 ^ 28 := by
  obtain ⟨hsym, htext⟩ := Params.bounds h
  obtain ⟨hbits, hdec⟩ := Params.buffer_bounds h
  have hcodes : p.nsymMax * p.codeMax ≤ 16384 * 16384 := Nat.mul_le_mul hsym (by rw [Params.codeMax]; omega)
  cases sp with
  | text => exact htext
  | enc | perm | inv => exact hbits
  | dec => exact hdec
  | cbbit => exact hcodes
  | ftsym | ftcnt | pq | cblen | node => simp only [elemDepth, Params.nodeMax]; omega

/-- A sum of a space's first address and an index is an address (R71). -/
theorem toNat_address {sp : Space} {i : Nat} (hi : i < 2 ^ 28) :
    (BitVec.ofNat 32 (sp.number * 2 ^ 28 + i)).toNat = sp.number * 2 ^ 28 + i := by
  have hbounds := sp.number_bounds
  rw [BitVec.toNat_ofNat]
  omega

/-- An address is its space number and its index (R71). -/
theorem toNat_eq_of_parts (a : Word) : a.toNat = addressSpace a * 2 ^ 28 + addressIndex a :=
  (Nat.div_add_mod' a.toNat (2 ^ 28)).symm

/-- The address of an existing element names it (R71, R73). -/
theorem targetOf_address {p : Params} (hp : p.valid = true) {sp : Space} {i : Nat} (h : elemExists p sp i = true) :
    targetOf p (BitVec.ofNat 32 (sp.number * 2 ^ 28 + i)) = some (.element sp i) := by
  have hi : i < 2 ^ 28 := (elemExists_iff.mp h).1.trans_le (elemDepth_le hp sp)
  exact targetOf_of_toNat_element hi h (toNat_address hi)

theorem targetOf_regAddress (p : Params) (r : Reg) : targetOf p (BitVec.ofNat 32 r.number) = some (.register r) :=
  targetOf_of_toNat_register (by cases r <;> rfl)

/-- Settles O42: each row of the tables says what the model's functions say, and an address is its space and index. -/
theorem addressMapIsOneToOne : Obligations.AddressMapIsOneToOne := by
  intro p hp
  refine ⟨fun sp => ⟨_, _, mem_memoryMap_iff.mpr ⟨rfl, rfl⟩⟩, fun r => ⟨_, _, mem_registerMap_iff.mpr ⟨rfl, rfl⟩⟩,
    fun sp base d hrow => ?memory, fun r n k hrow => ?register, fun sp i => ?width⟩
  case memory =>
    obtain ⟨rfl, rfl⟩ := mem_memoryMap_iff.mp hrow
    refine ⟨by omega, rfl, fun i => ⟨elemExists_iff, fun he => ⟨rfl, targetOf_address hp he⟩, fun a ha => ?_⟩⟩
    obtain ⟨hspace, hindex⟩ := address_of_targetOf_element ha
    exact ⟨by rw [toNat_eq_of_parts, hspace, hindex], elemExists_of_targetOf ha⟩
  case register =>
    obtain ⟨rfl, rfl⟩ := mem_registerMap_iff.mp hrow
    refine ⟨rfl, rfl, rfl, targetOf_regAddress p r, fun a ha => ?_⟩
    obtain ⟨hspace, hindex⟩ := address_of_targetOf_register ha
    rw [toNat_eq_of_parts, hspace, hindex]
    omega
  case width =>
    cases sp with
    | node => simp only [elemWidth]; split_ifs <;> simp_all
    | _ => simp [elemWidth]

/-! ### The bits of STATUS -/

/-- A number's bit, when the number is a bit and twice another. -/
theorem testBit_bool_add_two_mul (b : Bool) (n k : Nat) :
    (b.toNat + 2 * n).testBit k = if k = 0 then b else n.testBit (k - 1) := by
  have hbit : b.toNat + 2 * n = Nat.bit b n := by rw [Nat.bit_val, Nat.add_comm]
  rw [hbit]
  cases k with
  | zero => exact Nat.testBit_bit_zero b n
  | succ k => exact Nat.testBit_bit_succ k b n

/-- The flags as a binary number, with the gap between bits 4 and 16 (10_state.md R26). -/
theorem State.statusWord_eq (s : State) : s.statusWord = BitVec.ofNat 32
    (s.freqV.toNat + 2 * (s.pqV.toNat + 2 * (s.treeV.toNat + 2 * (s.noTree.toNat + 2 * (s.codesV.toNat
      + 2 * (2 ^ 11 * (s.wEmpty.toNat + 2 * (s.wUnknown.toNat + 2 * (s.accErr.toNat + 2 * 0))))))))) :=
  congrArg (BitVec.ofNat 32) (by omega)

/-- Settles O47: the word is the binary number of the flags. -/
theorem statusBitsAtTheirPlaces : Obligations.StatusBitsAtTheirPlaces := by
  intro s k hk
  have hword : s.readReg .status = s.statusWord := rfl
  rw [hword, State.statusWord_eq, BitVec.getLsbD_ofNat, decide_eq_true hk, Bool.true_and]
  simp only [testBit_bool_add_two_mul, Nat.testBit_two_pow_mul, Nat.zero_testBit]
  interval_cases k <;> simp [State.treeV, State.noTree]

/-! ### Frames of host accesses -/

theorem Framed.setOperandReg {regs : List Reg} {flags : List Flag} {touched : Space → Nat → Prop} (s : State) (r : Reg)
    (d : Word) (h : r ∈ regs) : Framed s (s.setOperandReg r d) regs flags touched := by
  refine .of_memories (by simp) (by simp) (by simp) (by simp) (s.setOperandReg_memory r d) (fun r' hs hr' => ?_)
    (fun f _ => by cases f <;> simp [State.flag])
  have hne : r' ≠ r := fun hc => hr' (hc ▸ h)
  cases r <;> cases r' <;> first | rfl | exact absurd rfl hne

theorem Framed.clearSticky {regs : List Reg} {flags : List Flag} {touched : Space → Nat → Prop} (s : State) (d : Word)
    (he : .wEmpty ∈ flags) (hu : .wUnknown ∈ flags) (ha : .accErr ∈ flags) :
    Framed s (s.clearSticky d) regs flags touched :=
  .of_memories rfl rfl rfl rfl (s.clearSticky_memory d) (fun r hs _ => by
    cases r with
    | status => exact absurd rfl hs
    | _ => rfl) (fun f hf => by
    cases f with
    | wEmpty => exact absurd he hf
    | wUnknown => exact absurd hu hf
    | accErr => exact absurd ha hf
    | _ => rfl)

theorem Framed.rejectAccess {regs : List Reg} {flags : List Flag} {touched : Space → Nat → Prop} (s : State)
    (h : .accErr ∈ flags) : Framed s s.rejectAccess regs flags touched :=
  .of_memories rfl rfl rfl rfl s.rejectAccess_memory (fun r hs _ => by
    cases r with
    | status => exact absurd rfl hs
    | _ => rfl) (fun f hf => by
    cases f with
    | accErr => exact absurd h hf
    | _ => rfl)

theorem Framed.writeElem {regs : List Reg} {flags : List Flag} {touched : Space → Nat → Prop} (s : State) (sp : Space)
    (i : Nat) (d : Word) (h : touched sp i) : Framed s (s.writeElem sp i d) regs flags touched :=
  .writeSeq s sp i [d] fun k h1 h2 => by
    obtain rfl : k = i := by rw [List.length_singleton] at h2; omega
    exact h

/-! ### Steps that serve a host access -/

/-- Serving a write to a register (R75). -/
theorem step_write_of_targetOf_register {s : State} {a d : Word} {r : Reg} {rest : List HostInput}
    (hin : s.inbox = .write a d :: rest) (ht : targetOf s.params a = some (.register r)) :
    step s = hostWriteReg r d { s with inbox := rest } := by
  rw [step_of_inbox hin]
  simp only [serveInput, hostWrite, ht]

/-- Serving a write to an element the host may write (R72). -/
theorem step_write_of_targetOf_element {s : State} {a d : Word} {sp : Space} {i : Nat} {rest : List HostInput}
    (hin : s.inbox = .write a d :: rest) (ht : targetOf s.params a = some (.element sp i))
    (hw : sp.hostWritable = true) : step s = .next (State.writeElem { s with inbox := rest } sp i d) := by
  rw [step_of_inbox hin]
  simp only [serveInput, hostWrite, ht, State.hostWriteElem, hw, if_true]

/-- Serving a read of a register (R75). -/
theorem step_read_of_targetOf_register {s : State} {a : Word} {r : Reg} {rest : List HostInput}
    (hin : s.inbox = .read a :: rest) (ht : targetOf s.params a = some (.register r)) :
    step s = .next { s with inbox := rest, reads := s.reads ++ [s.readReg r] } := by
  rw [step_of_inbox hin]
  simp only [serveInput, State.hostRead, ht]
  cases r <;> rfl

/-- Settles O44: the address names the element, and the write keeps the low bits. -/
theorem hostWriteStoresOneElement : Obligations.HostWriteStoresOneElement := by
  intro s sp i d rest hp hsp hi hin
  have hw : sp.hostWritable = true := by rcases hsp with rfl | rfl | rfl | rfl <;> rfl
  have hnode : sp ≠ .node := by rcases hsp with rfl | rfl | rfl | rfl <;> nofun
  have ht := targetOf_address hp (elemExists_iff.mpr ⟨hi, fun hc => absurd hc hnode⟩)
  refine ⟨_, step_write_of_targetOf_element hin ht hw, ?_, .writeElem _ sp i d ⟨rfl, rfl⟩⟩
  rw [State.readElem_writeElem_same, truncTo_toNat]
  rcases hsp with rfl | rfl | rfl | rfl <;> simp

/-- Settles O45: an RW register is one the host sets. -/
theorem hostWriteSetsOperandRegister : Obligations.HostWriteSetsOperandRegister := by
  intro s r d rest hr hin
  have haccess : r.access = .rw ∧ ∀ u : State, (u.setOperandReg r d).readReg r = d := by
    simp only [List.mem_cons, List.not_mem_nil, or_false] at hr
    rcases hr with rfl | rfl | rfl | rfl | rfl | rfl | rfl <;> exact ⟨rfl, fun _ => rfl⟩
  have hstep := step_write_of_targetOf_register hin (targetOf_regAddress s.params r)
  rw [hostWriteReg, haccess.1] at hstep
  exact ⟨_, hstep, haccess.2 _, .setOperandReg _ r d (by simp)⟩

/-- Settles O46: `STATUS`, register 6, is the one whose writes clear flags. -/
theorem statusWriteClearsSticky : Obligations.StatusWriteClearsSticky := by
  intro s d rest hin
  have hstep := step_write_of_targetOf_register hin (targetOf_regAddress s.params .status)
  exact ⟨_, hstep, rfl, rfl, rfl, .clearSticky _ d (by simp) (by simp) (by simp)⟩

/-- The values of R75, register by register. -/
theorem registerValues_eq (s : State) :
    registerValues s = registerMap.map (fun row => (row.1.number, s.readReg row.1)) := by
  simp [registerValues, registerMap, Reg.number, State.readReg, State.statusWord, State.treeV, State.noTree]

/-- Settles O48: a read is served by the value of what its address names, or rejected. -/
theorem readsHaveNoSideEffect : Obligations.ReadsHaveNoSideEffect := by
  intro s a rest hin
  refine ⟨?any, fun n v hv ha => ?register, fun sp base d i hp hrow hi hnode ha => ?element⟩
  case any =>
    match ht : targetOf s.params a with
    | none => exact ⟨0#32, .inr ⟨rfl, step_read_of_targetOf_none hin ht⟩⟩
    | some (.register r) => exact ⟨_, .inl (step_read_of_targetOf_register hin ht)⟩
    | some (.element sp i) => exact ⟨_, .inl (step_read_of_targetOf_element hin ht)⟩
  case register =>
    rw [registerValues_eq] at hv
    obtain ⟨⟨r, n', k⟩, -, hrow⟩ := List.mem_map.mp hv
    cases hrow
    exact step_read_of_targetOf_register hin (ha ▸ targetOf_regAddress s.params r)
  case element =>
    obtain ⟨rfl, rfl⟩ := mem_memoryMap_iff.mp hrow
    exact step_read_of_targetOf_element hin (ha ▸ targetOf_address hp (elemExists_iff.mpr ⟨hi, hnode⟩))

/-- Only register 5, `CMD`, is write-only (10_state.md R22). -/
theorem address_of_targetOf_wo {p : Params} {a : Word} {r : Reg} (ht : targetOf p a = some (.register r))
    (hr : r.access = .wo) : a = 0x00000005#32 := by
  obtain ⟨hspace, hindex⟩ := address_of_targetOf_register ht
  have hcmd : r = .cmd := by cases r <;> first | rfl | cases hr
  refine BitVec.eq_of_toNat_eq ?_
  rw [toNat_eq_of_parts, hspace, hindex, hcmd]
  rfl

/-- Settles O50: what a write anywhere else can do is set an operand register, clear sticky flags, set `ACCERR`, or write
`TEXT`, `ENC`, `PERM` or `INV`. -/
theorem hostWritesKeepDerivedState : Obligations.HostWritesKeepDerivedState := by
  intro s t a d rest hin hcmd hstep
  rw [step_of_inbox hin] at hstep
  rcases hostWrite_cases hstep with rfl | ⟨r, -, hr, rfl⟩ | ⟨r, -, -, rfl⟩ | ⟨r, ht, hr, -⟩ | ⟨sp, i, -, hw, rfl⟩
  · refine ⟨rfl, rfl, rfl, rfl, rfl, fun r hr => ?_, fun sp _ => by cases sp <;> rfl⟩
    fin_cases hr <;> rfl
  · refine ⟨by simp, by simp, by simp, by simp, by simp, fun r' hr' => ?_,
      fun sp _ => (State.setOperandReg_memory _ r d sp).trans (by cases sp <;> rfl)⟩
    fin_cases hr' <;> simp [State.readReg]
  · refine ⟨rfl, rfl, rfl, rfl, rfl, fun r hr => ?_, fun sp _ => by cases sp <;> rfl⟩
    fin_cases hr <;> rfl
  · exact absurd (address_of_targetOf_wo ht hr) hcmd
  · refine ⟨by simp, by simp, by simp, by simp, by simp, fun r hr => ?_, fun sp' hsp' => ?_⟩
    · fin_cases hr <;> simp [State.readReg]
    · have hne : sp' ≠ sp := by
        rintro rfl
        fin_cases hsp' <;> cases hw
      exact (State.memory_writeElem_other _ i d hne).trans (by cases sp' <;> rfl)

/-! ### The reset input -/

/-- Settles O9: the reset input resets the registers, where nothing is built then, and empties the memories. -/
theorem resetInputFromAnyState : Obligations.ResetInputFromAnyState := by
  intro s rest hin
  refine ⟨_, step_of_inbox hin, fun r => ?_, State.applyReset_memory _, rfl, rfl, rfl,
    (State.applyReset_nothingBuilt _).stageInv⟩
  cases r <;> rfl

/-! ### Runs -/

/-- Whether an input is a read. -/
def HostInput.isRead : HostInput → Bool
  | .read _ => true
  | _ => false

/-- Serving an input takes no other, and a read records one value (R80, R252). -/
theorem serveInput_inbox_reads {x : HostInput} {s t : State} (h : serveInput x s = .next t) :
    t.inbox = s.inbox ∧ t.reads.length = s.reads.length + x.isRead.toNat := by
  have hframed : ∀ {regs flags touched}, Framed s t regs flags touched → x.isRead = false →
      t.inbox = s.inbox ∧ t.reads.length = s.reads.length + x.isRead.toNat :=
    fun hf hx => ⟨hf.inbox, by rw [hf.reads, hx]; rfl⟩
  cases x with
  | read a =>
    cases h
    refine ⟨?_, by simp [HostInput.isRead]⟩
    rcases s.hostRead_cases a with ⟨hsame, -⟩ | ⟨hrejected, -⟩
    · rw [hsame]
    · rw [hrejected]; rfl
  | reset => cases h; exact ⟨rfl, rfl⟩
  | write a d =>
    rcases hostWrite_cases h with rfl | ⟨r, -, -, rfl⟩ | ⟨r, -, -, rfl⟩ | ⟨r, -, -, hcmd⟩ | ⟨sp, i, -, -, rfl⟩
    · exact ⟨rfl, rfl⟩
    · exact hframed (.setOperandReg (regs := [r]) (flags := []) (touched := noElem) s r d (by simp)) rfl
    · exact ⟨rfl, rfl⟩
    · rcases issueCommand_cases hcmd with ⟨i, -, hexec⟩ | ⟨-, rfl⟩
      · exact hframed (exec_framed hexec) rfl
      · exact ⟨rfl, rfl⟩
    · exact ⟨by simp, by simp [HostInput.isRead]⟩

/-- A run goes on from the state its first step leaves. -/
theorem core_run_succ {M : Host.Core} {s u : M.State} (h : M.step s = .next u) (k : Nat) :
    M.run (k + 1) s = M.run k u := by
  rw [Host.Core.run, h]

/-- Each step takes one input, so that as many steps as inputs take them all (R252). -/
theorem exists_run {inputs : List HostInput} {s : State} (hin : s.inbox = inputs) :
    ∃ t, Sys2Proof.core.run inputs.length s = .next t ∧ t.inbox = []
      ∧ t.reads.length = s.reads.length + inputs.countP HostInput.isRead := by
  induction inputs generalizing s with
  | nil => exact ⟨s, rfl, hin, by simp⟩
  | cons x rest ih =>
    obtain ⟨u, hu⟩ := serveInput_next x { s with inbox := rest }
    obtain ⟨hinbox, hreads⟩ := serveInput_inbox_reads hu
    obtain ⟨t, hrun, hend, hcount⟩ := ih hinbox
    have hstep : Sys2Proof.core.step s = .next u := (step_of_inbox hin).trans hu
    refine ⟨t, (core_run_succ hstep rest.length).trans hrun, hend, ?_⟩
    rw [hcount, hreads, List.countP_cons]
    cases x.isRead
    · simp
    · simp; omega

/-- Settles O54: a run of as many steps as inputs takes them all. -/
theorem everyRunHasAnEndState : Obligations.EveryRunHasAnEndState := by
  intro s
  obtain ⟨t, hrun, hend, hcount⟩ := exists_run (s := s) rfl
  refine ⟨t, hrun, hend, hcount.trans (congrArg _ (List.countP_congr fun x _ => ?_))⟩
  cases x <;> exact Iff.rfl

end Sys2Proof.Machine
end

section
/-! PROOFS. The tree builder as a whole (spec/40_tree_builder.md R126, R131 to R133; spec/70_reset_and_hazards.md R243; O13,
O16, O17, O18, O55): the table of a permuted text, `BUILD` against its parts, what `BUILD` leaves, the finished tree, and
the commands directly after reset. -/

namespace Sys2Proof.Machine

/-! ### The table of a permuted text -/

/-- A list in strict order is determined by its members. -/
theorem eq_of_perm_of_strict {α : Type} {r : α → α → Prop} (hasymm : ∀ a b, r a b → ¬ r b a) {l l' : List α}
    (hp : l.Perm l') (hl : l.Pairwise r) (hl' : l'.Pairwise r) : l = l' :=
  List.Perm.eq_of_pairwise (fun a b _ _ hab hba => absurd hba (hasymm a b hab)) hl hl' hp

theorem distinctSymbols_perm {l l' : List Word} (h : l.Perm l') : distinctSymbols l = distinctSymbols l' :=
  eq_of_perm_of_strict (fun _ _ => BitVec.lt_asymm)
    ((List.perm_ext_iff_of_nodup (nodup_distinctSymbols l) (nodup_distinctSymbols l')).mpr fun x => by simp [h.mem_iff])
    (sorted_distinctSymbols l) (sorted_distinctSymbols l')

/-- Sequences are equal when their elements are. -/
theorem State.readSeq_eq_iff {s t : State} {sp : Space} {n : Nat} :
    t.readSeq sp n = s.readSeq sp n ↔ ∀ i, i < n → t.readElem sp i = s.readElem sp i := by
  simp [State.readSeq, List.map_inj_left]

/-- A command that leaves `ERR` 0 completes (10_state.md R12). -/
theorem completes_of_err {i : Instr} {s t : State} (h : exec i s = .next t) (herr : t.err = 0#32) :
    ∃ u, commandBody i s = .ok u ∧ t = u.complete :=
  (exec_cases h).resolve_right fun ⟨_, _, hraise⟩ => by simp [hraise] at herr

/-- Settles O13: the distinct symbols of the texts, in ascending order, and their counts are the same. -/
theorem freqIgnoresTextOrder : Obligations.FreqIgnoresTextOrder := by
  intro s s' t t' _ hperm hexec hexec' herr herr'
  obtain ⟨u, hbody, rfl⟩ := completes_of_err hexec herr
  obtain ⟨u', hbody', rfl⟩ := completes_of_err hexec' herr'
  obtain ⟨-, -, rfl⟩ := freqBody_ok_iff.mp hbody
  obtain ⟨-, -, rfl⟩ := freqBody_ok_iff.mp hbody'
  have hsyms : s'.textSymbols = s.textSymbols := (distinctSymbols_perm hperm).symm
  have hcounts : s'.textCounts = s.textCounts := by
    simp only [State.textCounts, hsyms, hperm.count_eq]
  have hnsym : s.counted.nsym = s'.counted.nsym := by
    rw [← BitVec.toNat_inj, State.counted_nsym, State.counted_nsym, hsyms]
  refine ⟨hnsym, fun i hi => ?_⟩
  rw [State.complete_nsym, State.counted_nsym] at hi
  have hftsym : s.counted.readSeq .ftsym s.textSymbols.length = s'.counted.readSeq .ftsym s.textSymbols.length := by
    rw [State.counted_ftsym, ← hsyms, State.counted_ftsym]
  have hftcnt : s.counted.readSeq .ftcnt s.textSymbols.length = s'.counted.readSeq .ftcnt s.textSymbols.length := by
    rw [State.counted_ftcnt, ← hcounts, ← hsyms, State.counted_ftcnt]
  simp only [State.readElem_complete]
  exact ⟨State.readSeq_eq_iff.mp hftsym i hi, State.readSeq_eq_iff.mp hftcnt i hi⟩

/-! ### The end of a command and the next command

`ERR` and `ERRINFO` are read by no command, so that clearing them between two commands changes nothing. -/

theorem State.complete_setMemory (s : State) (sp : Space) (m : Memory) :
    (s.setMemory sp m).complete = s.complete.setMemory sp m := by cases sp <;> rfl

theorem State.complete_writeSeq (s : State) (sp : Space) (b : Nat) (vs : List Word) :
    (s.writeSeq sp b vs).complete = s.complete.writeSeq sp b vs := by
  induction vs generalizing b with
  | nil => rfl
  | cons v vs ih =>
    rw [State.writeSeq_cons, State.writeSeq_cons, ← ih]
    simp [State.writeElem, State.complete_setMemory]

theorem State.complete_setQueue (s : State) (q : List Word) : (s.setQueue q).complete = s.complete.setQueue q := by
  simp only [State.setQueue, ← State.complete_writeSeq]
  rfl

theorem State.complete_pqInsert (s : State) (i : Word) : (s.pqInsert i).complete = s.complete.pqInsert i :=
  s.complete_setQueue _

theorem State.complete_writeNode (s : State) (n : Nat) (x : Node) :
    (s.writeNode n x).complete = s.complete.writeNode n x := s.complete_writeSeq .node _ _

theorem State.complete_writeLeaves (s : State) (n : Nat) : (s.writeLeaves n).complete = s.complete.writeLeaves n := by
  induction n with
  | zero => rfl
  | succ n ih => rw [State.writeLeaves_succ, State.writeLeaves_succ, State.complete_writeNode, ih, ← ih,
      State.readElem_complete, State.readElem_complete]

theorem State.complete_insertLeaves (s : State) (n : Nat) :
    (s.insertLeaves n).complete = s.complete.insertLeaves n := by
  induction n with
  | zero => rfl
  | succ n ih => rw [State.insertLeaves_succ, State.insertLeaves_succ, State.complete_pqInsert, ih]

theorem State.complete_loadRoot (s : State) : s.loadRoot.complete = s.complete.loadRoot := by
  simp [State.loadRoot, State.complete, State.rootFromQueue, State.readElem, State.memory]

/-- `PQINIT` after a completed command (R127). -/
theorem State.complete_queued (s : State) : s.queued.complete = s.complete.queued := by
  have hleaves : s.withLeaves.complete = s.complete.withLeaves :=
    congrArg (State.withNnodes · s.nsym) (s.emptyQueue.complete_writeLeaves s.nsym.toNat)
  calc s.queued.complete = (s.withLeaves.insertLeaves s.nsym.toNat).loadRoot.complete.markQueued := rfl
    _ = s.complete.queued := by
      rw [State.complete_loadRoot, State.complete_insertLeaves, hleaves]
      rfl

/-- `MERGE` after a completed command (R129). -/
theorem State.complete_joined (s : State) (a b : Word) (q : List Word) :
    (s.joined a b q).complete = s.complete.joined a b q := by
  have hjoining : (s.joining a b q).complete = s.complete.joining a b q := by
    have hnode := ((s.setQueue (b :: q)).setQueue q).complete_writeNode s.nnodes.toNat
      (internalNode (s.nodeFreq a.toNat + s.nodeFreq b.toNat) a b)
    rw [State.complete_setQueue, State.complete_setQueue] at hnode
    exact congrArg (State.withNnodes · (s.nnodes + 1#32)) hnode
  rw [State.joined, State.complete_loadRoot, State.complete_pqInsert, hjoining]
  rfl

/-! ### BUILD and its parts -/

theorem State.pqn_joined {s : State} {a b : Word} {q : List Word} (h : s.queue = a :: b :: q) :
    (s.joined a b q).pqn.toNat + 1 = s.pqn.toNat := by
  have hlt := State.length_lt_of_queue h
  have hpqn : (s.joining a b q).pqn.toNat = q.length := by rw [← State.length_queue, s.queue_joining a b (by omega)]
  rw [State.joined, State.loadRoot_pqn, State.pqn_pqInsert _ _ (by omega), hpqn, ← State.length_queue, h]
  rfl

theorem exec_of_body {i : Instr} {s u : State} (h : commandBody i s = .ok u) : exec i s = .next u.complete := by
  rw [exec_eq_finish, h]
  rfl

theorem runCommands_cons_of_exec {i : Instr} {is : List Instr} {s t : State} (h : exec i s = .next t) :
    runCommands (i :: is) s = runCommands is t := by
  rw [runCommands.eq_def]
  simp [h]

/-- The rounds of `BUILD` are as many `MERGE` commands as leave one queued node (R131). -/
theorem runCommands_merges (w : Word) {n : Nat} {s : State} (hv : s.pqV = true) (hn : s.pqn.toNat - 1 = n) :
    ∃ t, mergeLoop w s.pqn.toNat s = .ok t
      ∧ runCommands (List.replicate n .merge) s.complete = .next t.complete := by
  induction n generalizing s with
  | zero =>
    refine ⟨s, ?_, rfl⟩
    cases hp : s.pqn.toNat with
    | zero => rfl
    | succ m => rw [mergeLoop, if_neg (by omega)]
  | succ n ih =>
    have h2 : 2 ≤ s.pqn.toNat := by omega
    obtain ⟨a, b, q, hq, hbody⟩ := mergeBody_ok (w := w) hv h2
    obtain ⟨a', b', q', hq', hbody'⟩ := mergeBody_ok (w := encode .merge) (s := s.complete) hv h2
    cases hq.symm.trans hq'
    have hpqn := State.pqn_joined hq
    obtain ⟨t, hloop, hrun⟩ := ih (s := s.joined a b q) ((s.joined_frame a b q).1.trans hv) (by omega)
    refine ⟨t, ?_, ?_⟩
    · rw [← hpqn, mergeLoop, if_pos h2, hbody]
      exact hloop
    · have hexec : exec .merge s.complete = .next (s.joined a b q).complete := by
        rw [exec_of_body (i := .merge) hbody', ← State.complete_joined]
        rfl
      rw [List.replicate_succ, runCommands_cons_of_exec hexec]
      exact hrun

/-- Settles O16: the two checks are those of `FREQ`; and when they pass, the parts, issued one by one, differ from `BUILD`
only in clearing `ERR` and `ERRINFO` in between. -/
theorem buildIsFreqPqinitMerges : Obligations.BuildIsFreqPqinitMerges := by
  intro s
  rw [← s.length_textSymbols]
  refine ⟨fun htext => ?text, fun htext hsyms => ?symbols, fun htext hsyms => ?parts⟩
  case text =>
    exact failsWith_of_error (i := .build) (buildBody_error_iff.mpr (freqBody_error_of_text htext))
  case symbols =>
    exact failsWith_of_error (i := .build) (buildBody_error_iff.mpr (freqBody_error_of_symbols htext hsyms))
  case parts =>
    have hpqn : s.toMerge.pqn.toNat = s.textSymbols.length := by
      rw [State.toMerge, State.warnEmpty_pqn, State.queued_pqn, State.counted_nsym]
    obtain ⟨t, hloop, hrun⟩ := runCommands_merges (encode .build) (s := s.toMerge) rfl rfl
    rw [hpqn] at hloop hrun
    have hbuild : exec .build s = .next t.complete := exec_of_body (buildBody_ok_iff.mpr ⟨htext, hsyms, hloop⟩)
    have hfreq : exec .freq s = .next s.counted.complete := exec_of_body (freqBody_ok_iff.mpr ⟨htext, hsyms, rfl⟩)
    have hpqinit : exec .pqinit s.counted.complete = .next s.toMerge.complete := by
      have hbody : commandBody .pqinit s.counted.complete = .ok s.counted.complete.queued.warnEmpty :=
        pqinitBody_ok_iff.mpr ⟨rfl, rfl⟩
      rw [exec_of_body hbody, ← State.complete_queued]
      rfl
    rw [hbuild, List.cons_append, List.singleton_append, runCommands_cons_of_exec hfreq, runCommands_cons_of_exec hpqinit]
    exact hrun.symm

/-! ### What BUILD leaves -/

/-- The table `FREQ` leaves meets the table's facts, whatever the state was (R125). -/
theorem State.counted_tableInv {s : State} (htext : s.tlen.toNat ≤ s.params.textMax)
    (hsyms : s.textSymbols.length ≤ s.params.nsymMax) : s.counted.TableInv where
  bound := by rw [State.counted_nsym, s.counted_framed.params]; exact hsyms
  ascending := by rw [State.counted_nsym, State.counted_ftsym]; exact sorted_distinctSymbols _
  positive := by
    rw [State.counted_nsym, State.counted_ftcnt]
    intro c hc
    obtain ⟨x, hx, rfl⟩ := List.mem_map.mp hc
    rw [State.toNat_count]
    exact List.count_pos_iff.mpr (mem_distinctSymbols.mp hx)
  total := by
    rw [State.countSum, State.counted_nsym, State.counted_ftcnt, State.sum_textCounts, s.counted_framed.params]
    exact htext

theorem State.countSum_counted (s : State) : s.counted.countSum = s.tlen.toNat := by
  rw [State.countSum, State.counted_nsym, State.counted_ftcnt, State.sum_textCounts]

/-- The cells `BUILD` may write when the table has `nsym` symbols and there are `nnodes` nodes (R131). -/
def builtCell (nsym nnodes : Nat) (sp : Space) (i : Nat) : Prop :=
  ((sp = .ftsym ∨ sp = .ftcnt ∨ sp = .pq) ∧ i < nsym) ∨ (sp = .node ∧ i < 8 * nnodes ∧ i % 8 < 5)

/-- While `BUILD` runs, from `s`: the table is that of the text, and the tree over it is being built. -/
structure State.BuildingFrom (s u : State) : Prop where
  build : u.BuildInv
  tree : u.TreeInv
  table : u.tableView = s.counted.tableView
  frame : Framed s u [.err, .errinfo, .nsym, .nnodes, .root, .pqn, .ncodes] [.freqV, .pqV, .codesV, .wEmpty]
    (builtCell u.nsym.toNat u.nnodes.toNat)

/-- `FREQ` and `PQINIT` begin it (R125, R127). -/
theorem State.buildingFrom_toMerge {s : State} (hp : s.params.valid = true) (htext : s.tlen.toNat ≤ s.params.textMax)
    (hsyms : s.textSymbols.length ≤ s.params.nsymMax) : s.BuildingFrom s.toMerge := by
  have htable : s.toMerge.tableView = s.counted.tableView := s.counted.tableView_queued
  obtain ⟨-, -, hnsym⟩ := State.regs_of_tableView htable
  have hcounted : s.counted.BuildInv :=
    ⟨s.counted_framed.params ▸ hp, State.counted_tableInv htext hsyms,
      State.stageInv_of_no_queue rfl rfl rfl rfl rfl rfl nofun⟩
  refine ⟨hcounted.after_pqinit (w := 0#32) (pqinitBody_ok_iff.mpr ⟨rfl, rfl⟩), s.counted.queued_treeInv.of_buildView rfl,
    htable, ?_⟩
  have hnodes : s.toMerge.nnodes = s.counted.nsym := s.counted.queued_nnodes
  rw [hnsym, hnodes, State.counted_nsym]
  refine .trans (s.counted_framed.mono (by simp) (by simp) fun sp i ⟨hsp, hi⟩ => ?_)
    (.trans (s.counted.queued_framed.mono (by simp) (by simp) fun sp i hi => ?_) (.warnEmpty _ (by simp)))
  · exact .inl ⟨hsp.imp id .inl, hi⟩
  · rw [State.counted_nsym] at hi
    rcases hi with ⟨rfl, hi, hf⟩ | ⟨rfl, hi⟩
    · exact .inr ⟨rfl, hi, hf⟩
    · exact .inl ⟨.inr (.inr rfl), hi⟩

/-- A round of `MERGE` goes on with it (R129). -/
theorem State.BuildingFrom.joined {s u : State} (h : s.BuildingFrom u) (hv : u.pqV = true) {a b : Word} {q : List Word}
    (hq : u.queue = a :: b :: q) : s.BuildingFrom (u.joined a b q) := by
  have htable := u.tableView_joined a b q
  obtain ⟨hparams, -, hnsym⟩ := State.regs_of_tableView htable
  have hnodes := h.build.toNat_nnodes_joined hv a b q
  have hcount := h.build.stage.node_count hv
  have hleaves := h.build.stage.leaves_exist hv
  have hlen : q.length + 2 = u.pqn.toNat := by rw [← State.length_queue, hq]; rfl
  refine ⟨⟨hparams ▸ h.build.params_valid, h.build.table.of_tableView htable, (h.build.joined_building hv hq).stageInv⟩,
    h.build.joined_treeInv hv hq h.tree, htable.trans h.table, ?_⟩
  rw [hnsym, hnodes]
  refine .trans (h.frame.mono (List.Subset.refl _) (List.Subset.refl _) fun sp i hi => ?_)
    ((u.joined_framed a b (by have := u.pqn.isLt; omega)).mono (by simp) (by simp) fun sp i hi => ?_)
  · exact hi.imp id fun ⟨hsp, hlt, hf⟩ => ⟨hsp, by omega, hf⟩
  · rcases hi with ⟨rfl, h1, h2⟩ | ⟨rfl, hi⟩
    · exact .inr ⟨rfl, by omega, by omega⟩
    · exact .inl ⟨.inr (.inr rfl), by omega⟩

theorem buildBody_buildingFrom {w : Word} {s t : State} (hp : s.params.valid = true) (h : buildBody w s = .ok t) :
    s.BuildingFrom t := by
  obtain ⟨htext, hsyms, -⟩ := buildBody_ok_iff.mp h
  exact buildBody_induction (State.buildingFrom_toMerge hp htext hsyms) (fun u a b q hu hv hq => hu.joined hv hq) h

/-- As many rounds as entries leave one entry at most (R131). -/
theorem mergeLoop_pqn_le {w : Word} {rounds : Nat} {s t : State} (hn : s.pqn.toNat ≤ rounds + 1)
    (h : mergeLoop w rounds s = .ok t) : t.pqn.toNat ≤ 1 := by
  induction rounds generalizing s with
  | zero => cases h; exact hn
  | succ rounds ih =>
    unfold mergeLoop at h
    split at h
    · split at h
      · rename_i u hu
        obtain ⟨-, a, b, q, hq, rfl⟩ := mergeBody_ok_cases hu
        have hpqn := State.pqn_joined hq
        exact ih (by omega) h
      · cases h
    · cases h; omega

theorem buildBody_pqn_le {w : Word} {s t : State} (h : buildBody w s = .ok t) : t.pqn.toNat ≤ 1 := by
  obtain ⟨-, -, hloop⟩ := buildBody_ok_iff.mp h
  refine mergeLoop_pqn_le ?_ hloop
  rw [State.toMerge, State.warnEmpty_pqn, State.queued_pqn, State.counted_nsym]
  omega

/-- With one queued node its frequency is the sum of all counts (10_state.md R57 (g), R133). -/
theorem State.StageInv.nodeFreq_root {s : State} (h : s.StageInv) (ht : s.treeV = true) :
    (s.nodeFreq s.root.toNat).toNat = s.countSum := by
  simp only [State.treeV, Bool.and_eq_true, beq_iff_eq] at ht
  obtain ⟨hv, h1⟩ := ht
  have hsum := h.freq_sum hv
  rw [State.queue_of_pqn_one h1, ← (h.root_value hv h1).1] at hsum
  simpa [State.freqSum] using hsum

/-- A completed `BUILD` on a text that is not empty leaves one queued node (R131). -/
theorem State.BuildingFrom.pqn_eq_one {s t : State} {w : Word} (h : s.BuildingFrom t) (hb : buildBody w s = .ok t)
    (h1 : 1 ≤ t.nsym.toNat) : t.pqn = 1#32 := by
  have hle := buildBody_pqn_le hb
  have hge := h.build.stage.queue_nonempty (buildBody_flags hb).2.1 h1
  exact BitVec.eq_of_toNat_eq (show t.pqn.toNat = 1 by omega)

/-- Settles O17: the rounds end with one queued node, or with none when there is no symbol, and R57 says the rest. -/
theorem buildLeavesFinishedTree : Obligations.BuildLeavesFinishedTree := by
  refine ⟨by decide, fun s hp htext hsyms => ?_⟩
  rw [← s.length_textSymbols] at hsyms ⊢
  obtain ⟨t, hloop⟩ := mergeLoop_ok (encode .build) s.textSymbols.length s.toMerge rfl
  have hbody : buildBody (encode .build) s = .ok t := buildBody_ok_iff.mpr ⟨htext, hsyms, hloop⟩
  have hbuilt := buildBody_buildingFrom hp hbody
  obtain ⟨hfreq, hv, hcodes, hncodes⟩ := buildBody_flags hbody
  obtain ⟨-, -, hnsym⟩ := State.regs_of_tableView hbuilt.table
  have hwarn := buildBody_wEmpty hbody
  have hstage := hbuilt.build.stage
  refine ⟨t.complete, completes_iff.mpr ⟨t, hbody, rfl⟩, ?_⟩
  simp only [State.complete_nsym, State.complete_pqn, State.complete_nnodes, State.complete_root, State.complete_wEmpty]
  refine ⟨by rw [hnsym, State.counted_nsym], hfreq, hv, hcodes, hncodes, fun h1 => ?tree, fun h0 => ?no_tree,
    hbuilt.frame.trans (.complete t (by simp) (by simp))⟩
  case tree =>
    have hpqn := hbuilt.pqn_eq_one hbody h1
    have htree : t.treeV = true := by simp [State.treeV, hv, hpqn]
    obtain ⟨-, hlast, htwice⟩ := hstage.root_value hv hpqn
    have hne : t.nsym ≠ 0#32 := by rintro h0; simp [h0] at h1
    refine ⟨hpqn, by omega, by omega, htree, ?_, ?_, BitVec.eq_of_toNat_eq ?_⟩
    · simp [State.noTree, hne]
    · simp [hwarn, hne]
    · exact (hstage.nodeFreq_root htree).trans
        ((State.countSum_of_tableView hbuilt.table).trans s.countSum_counted)
  case no_tree =>
    have hpqn := hstage.queue_empty hv h0
    have hcount := hstage.node_count hv
    have hroot : t.root = nullIndex := by_contra fun hne => by simpa [hpqn] using (hstage.root_iff.mp hne).2
    refine ⟨hpqn, BitVec.eq_of_toNat_eq ?_, hroot, ?_, ?_, ?_⟩
    · simpa [hpqn, h0] using hcount
    · simp [State.noTree, hv, h0]
    · simp [State.treeV, hpqn]
    · simp [hwarn, h0]

/-! ### The finished tree -/

/-- Settles O18: the facts of a finished tree, in terms of left and right children. -/
theorem finishedTreeIsStrictBinary : Obligations.FinishedTreeIsStrictBinary := by
  intro s h ht hn
  have hfin := h.tree.finished h.build.stage ht
  have hlast := hfin.root_last
  have htwice := hfin.root_twice
  have hchild : ∀ k x, ((s.nodeLeft k).toNat = x ∨ (s.nodeRight k).toNat = x) ↔ ∃ b, (s.child k b).toNat = x := by
    simp
  refine ⟨by omega, by omega, h.build.stage.kinds hfin.pqV, h.build.stage.nodeFreq_root ht, fun x hx hne => ?parent,
    fun k hk hlt => ⟨hfin.child_lt k false hk hlt, hfin.child_lt k true hk hlt, fun heq => ?distinct⟩⟩
  case parent =>
    obtain ⟨k, b, hk, hkx⟩ := hfin.parent x (by omega)
    refine ⟨k, ⟨hk.1, hk.2, (hchild k x).mpr ⟨b, hkx⟩⟩, fun k' hge hlt hx' => ?_⟩
    obtain ⟨b', hk'x⟩ := (hchild k' x).mp hx'
    exact (hfin.child_inj k' k b' b ⟨hge, hlt⟩ hk (hk'x.trans hkx.symm)).1
  case distinct =>
    exact nomatch (hfin.child_inj k k false true ⟨hk, hlt⟩ ⟨hk, hlt⟩ (congrArg BitVec.toNat heq)).2

/-! ### Directly after reset -/

/-- `STATUS` tells all the stored flags (10_state.md R26). -/
theorem State.flag_of_status {s t : State} (h : t.readReg .status = s.readReg .status) (f : Flag) :
    t.flag f = s.flag f := by
  have hbit := fun k hk => (statusBitsAtTheirPlaces t k hk).symm.trans
    ((congrArg (BitVec.getLsbD · k) h).trans (statusBitsAtTheirPlaces s k hk))
  cases f with
  | freqV => exact hbit 0 (by omega)
  | pqV => exact hbit 1 (by omega)
  | codesV => exact hbit 4 (by omega)
  | wEmpty => exact hbit 16 (by omega)
  | wUnknown => exact hbit 17 (by omega)
  | accErr => exact hbit 18 (by omega)

/-- `STATUS` from the stored flags (R26). -/
theorem State.statusWord_of {s : State} {f q c e u a : Bool} (hf : s.freqV = f) (hq : s.pqV = q) (hc : s.codesV = c)
    (he : s.wEmpty = e) (hu : s.wUnknown = u) (ha : s.accErr = a) :
    s.readReg .status = BitVec.ofNat 32 (f.toNat + 2 * q.toNat + 4 * (q && s.pqn == 1#32).toNat
      + 8 * (q && s.nsym == 0#32).toNat + 16 * c.toNat + 2 ^ 16 * e.toNat + 2 ^ 17 * u.toNat + 2 ^ 18 * a.toNat) := by
  subst hf hq hc he hu ha
  rfl

/-- A state whose registers read as after reset is one whose registers have been reset (R243). -/
theorem State.resetRegisters_eq_of_readReg {s : State} (h : ∀ r, s.readReg r = resetValue s.params r) :
    s.resetRegisters = s := by
  have hflag : ∀ f, s.flag f = false := fun f =>
    (State.flag_of_status ((h .status).trans (s.readReg_resetRegisters .status).symm) f).trans (s.flag_resetRegisters f)
  have hregs := fun r => (s.readReg_resetRegisters r).trans (h r).symm
  unfold State.resetRegisters
  congr 1
  exacts [(hflag .freqV).symm, (hflag .pqV).symm, (hflag .codesV).symm, (hflag .wEmpty).symm, (hflag .wUnknown).symm,
    (hflag .accErr).symm, hregs .err, hregs .errinfo, hregs .tlen, hregs .nsym, hregs .nnodes, hregs .root, hregs .pqn,
    hregs .ncodes, hregs .enclen, hregs .skipcnt, hregs .declen, hregs .cols, hregs .rows, hregs .padlen,
    hregs .origlen, hregs .permlen, hregs .invlen]

/-- With no text there is no symbol. -/
theorem State.textSymbols_of_tlen_zero {s : State} (h : s.tlen = 0#32) : s.textSymbols = [] := by
  simp [State.textSymbols, State.textSeq, State.readSeq, h, distinctSymbols]

theorem encode_gencodes : encode .gencodes = 0x00000014#32 := by decide

theorem gencodesBody_error_of_no_build {w : Word} {s : State} (ht : s.treeV = false) (hn : s.noTree = false) :
    gencodesBody w s = .error (.badSequence w) := if_pos (by simp [ht, hn])

/-- Settles O55: with the registers reset, the text is empty and there is no table, no tree and no codebook, and `COLS` is
0. -/
theorem commandsDirectlyAfterReset : Obligations.CommandsDirectlyAfterReset := by
  intro s h
  have hs := State.resetRegisters_eq_of_readReg h
  have htlen : s.tlen = 0#32 := hs ▸ rfl
  have hfreqV : s.freqV = false := hs ▸ rfl
  have hpqV : s.pqV = false := hs ▸ rfl
  have hcodesV : s.codesV = false := hs ▸ rfl
  have hwEmpty : s.wEmpty = false := hs ▸ rfl
  have hwUnknown : s.wUnknown = false := hs ▸ rfl
  have haccErr : s.accErr = false := hs ▸ rfl
  have hcols : s.cols.toNat = 0 := hs ▸ rfl
  have htree : s.treeV = false := by simp [State.treeV, hpqV]
  have hno : s.noTree = false := by simp [State.noTree, hpqV]
  have hsyms := State.textSymbols_of_tlen_zero htlen
  have htext : s.tlen.toNat ≤ s.params.textMax := by simp [htlen]
  have hbound : s.textSymbols.length ≤ s.params.nsymMax := by simp [hsyms]
  have hnsym : s.counted.nsym = 0#32 := BitVec.eq_of_toNat_eq (by rw [State.counted_nsym, hsyms]; rfl)
  have hdecode : ∀ src, FailsWith (.decode src) s 4#32 (if src then 0x00000116#32 else 0x00000016#32) := fun src =>
    encode_decode_src src ▸ failsWith_of_error (i := .decode src) (decodeBody_error_of_no_build htree hno)
  refine ⟨⟨s.complete, completes_iff.mpr ⟨s, rfl, rfl⟩⟩, ⟨_, completes_clear s⟩, ?freq, ?build, pqinit_fails hfreqV,
    merge_fails (.inl hpqV), encode_gencodes ▸ failsWith_of_error (i := .gencodes) (gencodesBody_error_of_no_build htree hno),
    encode_encode ▸ failsWith_of_error (i := .encode) (encodeBody_error_of_no_codes hcodesV),
    hdecode false, hdecode true,
    failsWith_of_error (i := .permute) (permuteBody_error_of_cols hcols),
    failsWith_of_error (i := .invert false) (invertBody_error_of_cols hcols),
    failsWith_of_error (i := .invert true) (invertBody_error_of_cols hcols)⟩
  case freq =>
    refine ⟨s.counted.complete, completes_iff.mpr ⟨s.counted, freqBody_ok_iff.mpr ⟨htext, hbound, rfl⟩, rfl⟩, hnsym, ?_⟩
    have hflag := s.counted_framed.flags
    have hw1 : s.counted.wEmpty = false := (hflag .wEmpty (by simp)).trans hwEmpty
    have hw2 : s.counted.wUnknown = false := (hflag .wUnknown (by simp)).trans hwUnknown
    have hw3 : s.counted.accErr = false := (hflag .accErr (by simp)).trans haccErr
    exact State.statusWord_of rfl rfl rfl hw1 hw2 hw3
  case build =>
    have hbody : commandBody .build s = .ok s.toMerge :=
      buildBody_ok_iff.mpr ⟨htext, hbound, by rw [hsyms]; rfl⟩
    have hnsym' : s.toMerge.nsym = 0#32 := (State.regs_of_tableView s.counted.tableView_queued).2.2.trans hnsym
    have hpqn : s.toMerge.pqn = 0#32 := (State.queued_pqn _).trans hnsym
    have hflag := (commandBody_framed hbody).flags
    have hw1 : s.toMerge.wEmpty = true := (buildBody_wEmpty hbody).trans (by simp [hnsym'])
    have hw2 : s.toMerge.wUnknown = false := (hflag .wUnknown (by decide)).trans hwUnknown
    have hw3 : s.toMerge.accErr = false := (hflag .accErr (by decide)).trans haccErr
    obtain ⟨hf, hq, hc, -⟩ := buildBody_flags hbody
    refine ⟨s.toMerge.complete, completes_iff.mpr ⟨s.toMerge, hbody, rfl⟩, hnsym', ?_⟩
    refine (State.statusWord_of (s := s.toMerge.complete) hf hq hc hw1 hw2 hw3).trans ?_
    simp [hpqn, hnsym']

end Sys2Proof.Machine
end

section
/-! PROOFS. What `GENCODES` does (spec/41_codebook.md R150 to R156; O19, O20, O21): where it writes, the small trees, the path
bits, and the reference traversal of R154. -/

namespace Sys2Proof.Machine

/-! ### Where GENCODES writes -/

section
variable {regs : List Reg} {flags : List Flag} {touched : Space → Nat → Prop}

theorem Framed.emptyCodes_cells (s : State) (h : ∀ i, i < s.params.nsymMax → touched .cblen i) :
    Framed s s.emptyCodes regs flags touched :=
  .writeSeq s .cblen 0 _ fun i _ hi => h i (by simpa using hi)

theorem Framed.writeCode_cells (s : State) (i : Nat) (p : List Bool) (hlen : touched .cblen i)
    (hbits : ∀ j, j < p.length → touched .cbbit (i * s.params.codeMax + j)) :
    Framed s (s.writeCode i p) regs flags touched := by
  refine .trans (.writeSeq s .cblen i [BitVec.ofNat 32 p.length] fun k h1 h2 => ?_)
    (.writeSeq _ .cbbit (i * s.params.codeMax) (p.map bitWord) fun k h1 h2 => ?_)
  · obtain rfl : k = i := by rw [List.length_singleton] at h2; omega
    exact hlen
  · rw [List.length_map] at h2
    obtain ⟨j, rfl⟩ := Nat.exists_eq_add_of_le h1
    exact hbits j (by omega)

theorem Framed.writePathCodes_cells (s : State) (n : Nat) :
    Framed s (s.writePathCodes n) regs flags (s.codeCell n) := by
  induction n with
  | zero => exact .refl s
  | succ n ih =>
    rw [State.writePathCodes_succ]
    refine .trans (ih.mono (fun _ => id) (fun _ => id) fun _ _ => State.codeCell_of_le (Nat.le_succ n))
      (.writeCode_cells _ n _ (.inl ⟨rfl, Nat.lt_succ_self n⟩) fun j hj => ?_)
    rw [State.writePathCodes_params]
    exact .inr ⟨rfl, n, j, Nat.lt_succ_self n, hj, rfl⟩

end

/-! ### No tree, and one leaf -/

theorem gencodesBody_of_noTree {w : Word} {s : State} (h : s.noTree = true) :
    gencodesBody w s = .ok (s.emptyCodes.withCodes 0#32) := by
  simp [gencodesBody, h, State.emptyCodes, State.withCodes]

theorem gencodesBody_of_leaf {w : Word} {s : State} (ht : s.treeV = true) (hn : s.noTree = false)
    (hleaf : s.nodeInternal s.root.toNat = false) :
    gencodesBody w s = .ok ((s.emptyCodes.writeCode 0 [false]).withCodes 1#32) := by
  simp [gencodesBody, ht, hn, hleaf, State.emptyCodes, State.withCodes]

theorem gencodesBody_of_internal {w : Word} {s : State} (ht : s.treeV = true) (hn : s.noTree = false)
    (hinternal : s.nodeInternal s.root.toNat = true) :
    gencodesBody w s = .ok ((s.emptyCodes.writePathCodes s.nsym.toNat).withCodes s.nsym) := by
  simp [gencodesBody, ht, hn, hinternal, State.emptyCodes, State.withCodes]

@[simp] theorem State.codeBits_complete (s : State) (i : Nat) : s.complete.codeBits i = s.codeBits i := by
  simp [State.codeBits, State.readBit]

/-- The end of `GENCODES`, with the registers of the codebook set. -/
theorem Framed.complete_withCodes {s u : State} {touched : Space → Nat → Prop}
    (h : Framed s u [.err, .errinfo, .ncodes] [.codesV] touched) (n : Word) :
    Framed s (u.withCodes n).complete [.err, .errinfo, .ncodes] [.codesV] touched :=
  h.trans (.trans ((Framed.withCodes u n).mono (by decide) (by decide) fun _ _ => id) (.complete _ (by simp) (by simp)))

/-- Settles O19: the three branches of the body before the search for paths. -/
theorem gencodesFailsOrHandlesSmallTrees : Obligations.GencodesFailsOrHandlesSmallTrees := by
  intro s hp
  refine ⟨fun ht hn => ?fails, fun hn => ?no_tree, fun ht hn hleaf => ?one_leaf⟩
  case fails =>
    rw [← encode_gencodes]
    exact failsWith_of_error (i := .gencodes) (gencodesBody_error_of_no_build ht hn)
  case no_tree =>
    refine ⟨_, completes_iff.mpr ⟨_, gencodesBody_of_noTree hn, rfl⟩, rfl, rfl, fun i hi => ?_,
      (Framed.emptyCodes_cells s fun i hi => ⟨rfl, hi⟩).complete_withCodes _⟩
    rw [State.readElem_complete, State.withCodes_readElem, State.cblen_emptyCodes s hi]
  case one_leaf =>
    have hcode : (s.emptyCodes.writeCode 0 [false]).codeBits 0 = [false] :=
      State.codeBits_writeCode_same _ 0 (by simp)
    refine ⟨_, completes_iff.mpr ⟨_, gencodesBody_of_leaf ht hn hleaf, rfl⟩, rfl, rfl, ?_, ?_, ?_, fun i h1 hi => ?_,
      Framed.complete_withCodes (.trans (.emptyCodes_cells s fun i hi => .inl ⟨rfl, hi⟩) (.writeCode_cells _ 0 _
        (.inl ⟨rfl, Params.one_le_nsymMax hp⟩) fun j hj => .inr ⟨rfl, ?_⟩)) _⟩
    · simp [State.cblen_writeCode]
    · have hbit := (s.emptyCodes.writeElem .cblen 0 (BitVec.ofNat 32 1)).readElem_writeSeq_same .cbbit
        (0 * s.emptyCodes.params.codeMax) (vs := [bitWord false]) (k := 0) (by simp)
      rw [State.readElem_complete, State.withCodes_readElem]
      simpa [State.writeCode, bitWord] using hbit.trans (truncTo_one_bitWord false)
    · rw [State.codeBits_complete, State.withCodes_codeBits, hcode]
    · rw [State.readElem_complete, State.withCodes_readElem, State.cblen_writeCode, if_neg (by omega),
        State.cblen_emptyCodes s hi]
    · rw [List.length_singleton] at hj
      omega

/-! ### Path bits -/

/-- Settles O20: the codes are the path bits, found again in `CBBIT` as they were written, and they lead to the leaves. -/
theorem gencodesAssignsPathBits : Obligations.GencodesAssignsPathBits := by
  refine ⟨by decide, fun s h ht h2 => ?_⟩
  have hfin := h.tree.finished h.build.stage ht
  have htwice := hfin.root_twice
  have hno : s.noTree = false := by
    have hne : s.nsym ≠ 0#32 := by rintro h0; simp [h0] at h2
    simp [State.noTree, hne]
  have hinternal : s.nodeInternal s.root.toNat = true := (hfin.internal_iff _ hfin.root_lt).mpr (by omega)
  have hlen := fun i hi => hfin.length_pathBits_le h.build (i := i) hi
  have hcode : ∀ i, i < s.nsym.toNat →
      (s.emptyCodes.writePathCodes s.nsym.toNat).codeBits i = s.emptyCodes.pathBits i := fun i hi =>
    State.codeBits_writePathCodes _ (by simpa using Params.codeMax_lt h.build.params_valid) (by simpa using hlen) hi
  have hcblen : ∀ i, i < s.nsym.toNat →
      ((s.emptyCodes.writePathCodes s.nsym.toNat).readElem .cblen i).toNat = (s.emptyCodes.pathBits i).length :=
    fun i hi => by rw [← State.length_codeBits, hcode i hi]
  refine ⟨_, completes_iff.mpr ⟨_, gencodesBody_of_internal ht hno hinternal, rfl⟩, rfl, rfl, fun i hi => ?code,
    fun i hi hmax => ?unused, ?frame⟩
  case code =>
    have hwalk := hfin.walk_pathBits_emptyCodes hi
    have hword := toNat_ofNat_of_lt_toNat hi
    rw [State.readElem_complete, State.withCodes_readElem, hcblen i hi, State.codeBits_complete,
      State.withCodes_codeBits, hcode i hi]
    refine ⟨⟨hwalk, ?_⟩, hfin.one_le_length h2 (by rwa [hword]) hwalk, hfin.length_le hwalk⟩
    rw [hword, ← Bool.not_eq_true, hfin.internal_iff i (hi.trans_le hfin.nsym_le)]
    exact Nat.not_le.mpr hi
  case unused =>
    rw [State.readElem_complete, State.withCodes_readElem, State.cblen_writePathCodes_of_le _ hi,
      State.cblen_emptyCodes s hmax]
  case frame =>
    refine Framed.complete_withCodes (.trans (.emptyCodes_cells s fun i hi => .inl ⟨rfl, hi⟩)
      ((Framed.writePathCodes_cells _ _).mono (List.Subset.refl _) (List.Subset.refl _) fun sp i hi => ?_)) _
    rcases hi with ⟨rfl, hi⟩ | ⟨rfl, e, j, he, hj, hi⟩
    · exact .inl ⟨rfl, hi.trans_le h.build.table.bound⟩
    · refine .inr ⟨rfl, e, j, he, ?_, by simpa using hi⟩
      rwa [State.readElem_complete, State.withCodes_readElem, hcblen e he]

/-! ### The reference traversal -/

/-- `L` holds the leaves below `x`, each once, with their paths behind `p`, and the traversal meets them in this order
(41_codebook.md R154). -/
structure State.Traversed (s : State) (x : Word) (p : List Bool) (L : List (Word × List Bool)) : Prop where
  run : ∀ rounds stack, s.traverse (2 * L.length - 1 + rounds) ((x, p) :: stack)
    = (L ++ (s.traverse rounds stack).1, (s.traverse rounds stack).2)
  nonempty : 1 ≤ L.length
  mem : ∀ y q, (y, q) ∈ L ↔ ∃ r, q = p ++ r ∧ s.walk x r = some y ∧ s.nodeInternal y.toNat = false
  nodup : (L.map Prod.snd).Nodup

theorem State.traversed_leaf {s : State} {x : Word} (h : s.nodeInternal x.toNat = false) (p : List Bool) :
    s.Traversed x p [(x, p)] where
  run rounds stack := by
    rw [show 2 * [(x, p)].length - 1 + rounds = rounds + 1 by simp; omega, State.traverse]
    simp [h]
  nonempty := le_rfl
  mem y q := by
    rw [List.mem_singleton]
    constructor
    · rintro heq
      obtain ⟨rfl, rfl⟩ := Prod.mk.inj heq
      exact ⟨[], by simp, rfl, h⟩
    · rintro ⟨r, rfl, hwalk, -⟩
      have hr : r = [] := by
        by_contra hne
        simp [State.internal_of_walk hwalk hne] at h
      subst hr
      simpa using hwalk.symm
  nodup := List.nodup_singleton _

/-- The leaves below an internal node are those below its left child, then those below its right child. -/
theorem State.Traversed.append {s : State} {x : Word} {p : List Bool} {L R : List (Word × List Bool)}
    (hx : s.nodeInternal x.toNat = true) (hl : s.Traversed (s.child x.toNat false) (p ++ [false]) L)
    (hr : s.Traversed (s.child x.toNat true) (p ++ [true]) R) : s.Traversed x p (L ++ R) where
  run rounds stack := by
    have hlen := hl.nonempty
    have hlen' := hr.nonempty
    rw [show 2 * (L ++ R).length - 1 + rounds = 2 * L.length - 1 + (2 * R.length - 1 + rounds) + 1 by
      rw [List.length_append]; omega, State.traverse, if_pos hx]
    have hleft := hl.run (2 * R.length - 1 + rounds) ((s.child x.toNat true, p ++ [true]) :: stack)
    rw [hr.run rounds stack] at hleft
    simpa using hleft
  nonempty := by rw [List.length_append]; exact hl.nonempty.trans (Nat.le_add_right _ _)
  mem y q := by
    rw [List.mem_append, hl.mem, hr.mem]
    constructor
    · rintro (⟨r, rfl, hwalk, hleaf⟩ | ⟨r, rfl, hwalk, hleaf⟩)
      · exact ⟨false :: r, by simp, by rw [State.walk_cons, if_pos hx]; exact hwalk, hleaf⟩
      · exact ⟨true :: r, by simp, by rw [State.walk_cons, if_pos hx]; exact hwalk, hleaf⟩
    · rintro ⟨r, rfl, hwalk, hleaf⟩
      cases r with
      | nil =>
        obtain rfl : x = y := by simpa using hwalk
        simp [hx] at hleaf
      | cons b r =>
        rw [State.walk_cons, if_pos hx] at hwalk
        cases b with
        | false => exact .inl ⟨r, by simp, hwalk, hleaf⟩
        | true => exact .inr ⟨r, by simp, hwalk, hleaf⟩
  nodup := by
    rw [List.map_append, List.nodup_append']
    refine ⟨hl.nodup, hr.nodup, fun q hq hq' => ?_⟩
    obtain ⟨⟨y, q⟩, hmem, rfl⟩ := List.mem_map.mp hq
    obtain ⟨⟨y', q'⟩, hmem', heq⟩ := List.mem_map.mp hq'
    obtain ⟨r, rfl, -⟩ := (hl.mem _ _).mp hmem
    obtain ⟨r', rfl, -⟩ := (hr.mem _ _).mp hmem'
    simp at heq

/-- Below every node of a finished tree the traversal ends (R154). -/
theorem State.FinishedTree.exists_traversed {s : State} (h : s.FinishedTree) {x : Word} (hx : x.toNat < s.nnodes.toNat)
    (p : List Bool) : ∃ L, s.Traversed x p L := by
  induction hd : x.toNat using Nat.strong_induction_on generalizing x p with
  | _ d ih =>
    subst hd
    cases hinternal : s.nodeInternal x.toNat with
    | false => exact ⟨_, State.traversed_leaf hinternal p⟩
    | true =>
      have hlt := fun b => h.child_lt x.toNat b ((h.internal_iff _ hx).mp hinternal) hx
      obtain ⟨L, hl⟩ := ih _ (hlt false) ((hlt false).trans hx) (p ++ [false]) rfl
      obtain ⟨R, hr⟩ := ih _ (hlt true) ((hlt true).trans hx) (p ++ [true]) rfl
      exact ⟨_, .append hinternal hl hr⟩

/-- From the root the traversal meets every leaf once, with its path (R154). -/
theorem State.FinishedTree.traversed_leaves {s : State} (h : s.FinishedTree) {L : List (Word × List Bool)}
    (hL : s.Traversed s.root [] L) : (L.map (fun e => e.1.toNat)).Perm (List.range s.nsym.toNat) := by
  have hpath : ∀ y q, (y, q) ∈ L ↔ s.leadsToLeaf q y := fun y q => by
    rw [hL.mem]
    constructor
    · rintro ⟨r, rfl, hwalk, hleaf⟩
      exact ⟨hwalk, hleaf⟩
    · exact fun ⟨hwalk, hleaf⟩ => ⟨q, rfl, hwalk, hleaf⟩
  have hinj : ∀ e ∈ L, ∀ e' ∈ L, e.1.toNat = e'.1.toNat → e = e' := by
    rintro ⟨y, q⟩ hmem ⟨y', q'⟩ hmem' heq
    obtain rfl : y = y' := BitVec.eq_of_toNat_eq heq
    rw [h.walk_unique ((hpath y q).mp hmem).1 ((hpath y q').mp hmem').1]
  refine (List.perm_ext_iff_of_nodup (List.Nodup.map_on hinj hL.nodup.of_map) List.nodup_range).mpr fun i => ?_
  rw [List.mem_range, List.mem_map]
  constructor
  · rintro ⟨⟨y, q⟩, hmem, rfl⟩
    obtain ⟨hwalk, hleaf⟩ := (hpath y q).mp hmem
    have hy := (h.walk_bounds h.root_lt hwalk).1.trans_lt h.root_lt
    exact Nat.lt_of_not_le fun hge => by simp [(h.internal_iff _ hy).mpr hge] at hleaf
  · intro hi
    have hword := toNat_ofNat_of_lt_toNat hi
    have hnode := hi.trans_le h.nsym_le
    obtain ⟨q, hq⟩ := h.exists_walk (y := BitVec.ofNat 32 i) (by rwa [hword])
    refine ⟨(_, q), (hpath _ q).mpr ⟨hq, ?_⟩, hword⟩
    rw [hword, ← Bool.not_eq_true, h.internal_iff i hnode]
    exact Nat.not_le.mpr hi

/-- The code of a leaf of the tree is the path to it, in the state `GENCODES` leaves (R151, R153). -/
theorem codeBits_of_leadsToLeaf {s t : State} (h : s.Inv) (ht : s.treeV = true) (h2 : 2 ≤ s.nsym.toNat)
    (hc : Completes .gencodes s t) {y : Word} {q : List Bool} (hq : s.leadsToLeaf q y) : t.codeBits y.toNat = q := by
  have hfin := h.tree.finished h.build.stage ht
  obtain ⟨u, hcomp, -, -, hcode, -⟩ := gencodesAssignsPathBits.2 s h ht h2
  obtain rfl : t = u := Host.Outcome.next.inj (hc.1.symm.trans hcomp.1)
  obtain ⟨hwalk, hleaf⟩ := hq
  have hy := (hfin.walk_bounds hfin.root_lt hwalk).1.trans_lt hfin.root_lt
  have hlt : y.toNat < s.nsym.toNat :=
    Nat.lt_of_not_le fun hge => by simp [(hfin.internal_iff _ hy).mpr hge] at hleaf
  obtain ⟨⟨hwalk', -⟩, -⟩ := hcode y.toNat hlt
  rw [BitVec.ofNat_toNat, BitVec.setWidth_eq] at hwalk'
  exact hfin.walk_unique hwalk' hwalk

/-- Settles O21: the traversal of a tree with n leaves ends after its 2n - 1 nodes, and the paths are the codes. -/
theorem referenceTraversalConforms : Obligations.ReferenceTraversalConforms := by
  intro s t h ht h2 hc
  have hfin := h.tree.finished h.build.stage ht
  obtain ⟨L, hL⟩ := hfin.exists_traversed hfin.root_lt []
  have hperm := hfin.traversed_leaves hL
  have hlen : L.length = s.nsym.toNat := by simpa using hperm.length_eq
  have hlast := hfin.root_last
  have htwice := hfin.root_twice
  have hrun : s.traverse s.nnodes.toNat [(s.root, [])] = (L, []) := by
    have hnodes : s.nnodes.toNat = 2 * L.length - 1 + 0 := by omega
    rw [hnodes, hL.run 0 []]
    simp [State.traverse]
  rw [hrun]
  refine ⟨rfl, hperm, fun ⟨y, q⟩ hmem => ?_⟩
  obtain ⟨r, rfl, hwalk, hleaf⟩ := (hL.mem y q).mp hmem
  exact codeBits_of_leadsToLeaf h ht h2 hc ⟨hwalk, hleaf⟩

end Sys2Proof.Machine
end

section
/-! PROOFS. The scan of `DECODE` over any input (spec/42_encode_decode.md R165, R169; O28, O29) and the shape of what
`PERMUTE` leaves (spec/43_transposer.md R182; O32). -/

namespace Sys2Proof.Machine

/-! ### The scan of code words -/

/-- A path from an inner root to a leaf has a step. -/
theorem State.leadsToLeaf.ne_nil {s : State} {p : List Bool} {x : Word} (h : s.leadsToLeaf p x)
    (hroot : s.nodeInternal s.root.toNat = true) : p ≠ [] := by
  rintro rfl
  obtain ⟨hwalk, hleaf⟩ := h
  obtain rfl : s.root = x := by simpa using hwalk
  simp [hroot] at hleaf

section
variable {s : State} (hroot : s.nodeInternal s.root.toNat = true) {ws : List (List Bool × Word)}
  (hws : ∀ e ∈ ws, s.leadsToLeaf e.1 e.2)
include hroot hws

/-- Code words that `DEC` has room for emit the symbols of their leaves (R165). -/
theorem State.scan_words (bits : List Bool) (k : Nat) (out : List Word) (hroom : out.length + ws.length ≤ s.params.decMax) :
    s.scan ((ws.map Prod.fst).flatten ++ bits) k s.root k out
      = s.scan bits (k + (ws.map Prod.fst).flatten.length) s.root (k + (ws.map Prod.fst).flatten.length)
        (out ++ ws.map (fun e => s.nodeSym e.2.toNat)) := by
  induction ws generalizing k out with
  | nil => simp
  | cons e ws ih =>
    rw [List.length_cons] at hroom
    have hleads := hws e (by simp)
    have hword := s.scan_word hroot hleads.1 (hleads.ne_nil hroot) hleads.2 ((ws.map Prod.fst).flatten ++ bits) k k out
    rw [s.emit_ok (by omega)] at hword
    rw [List.map_cons, List.flatten_cons, List.append_assoc, hword]
    refine (ih (fun e' he' => hws e' (by simp [he'])) (k + e.1.length) _ (by simp; omega)).trans ?_
    simp [Nat.add_assoc]

/-- Code words that `DEC` has no room for end the scan (R165). -/
theorem State.scan_words_full (bits : List Bool) (k : Nat) (out : List Word) (hfit : out.length ≤ s.params.decMax)
    (hfull : s.params.decMax < out.length + ws.length) :
    s.scan ((ws.map Prod.fst).flatten ++ bits) k s.root k out = .error (.capacity .decSymbols) := by
  induction ws generalizing k out with
  | nil => simp at hfull; omega
  | cons e ws ih =>
    rw [List.length_cons] at hfull
    have hleads := hws e (by simp)
    have hword := s.scan_word hroot hleads.1 (hleads.ne_nil hroot) hleads.2 ((ws.map Prod.fst).flatten ++ bits) k k out
    rw [List.map_cons, List.flatten_cons, List.append_assoc, hword]
    by_cases hroom : out.length < s.params.decMax
    · rw [s.emit_ok hroom]
      exact ih (fun e' he' => hws e' (by simp [he'])) (k + e.1.length) _ (by simp; omega) (by simp; omega)
    · rw [s.emit_full (Nat.not_lt.mp hroom)]

end

/-- Settles O28: the scan of the code words, then of the bits that are left over. -/
theorem decodeWalksTheTree : Obligations.DecodeWalksTheTree := by
  intro s src ws rest y hp hbits hmax ht hn hroot hws hrest hy
  rw [← State.sourceBits_eq] at hbits
  rw [← State.sourceLen_eq] at hmax
  have hbody := decodeBody_of_tree (w := encode (.decode src)) ht hn hmax
  rw [hbits] at hbody
  have hwords : ws.length ≤ s.params.decMax → s.scan ((ws.map Prod.fst).flatten ++ rest) 0 s.root 0 []
      = s.scan rest (ws.map Prod.fst).flatten.length s.root (ws.map Prod.fst).flatten.length
        (ws.map (fun e => s.nodeSym e.2.toNat)) := fun hdec => by
    simpa using State.scan_words hroot hws rest 0 [] (by simpa using hdec)
  refine ⟨fun hnil hdec => ?all_words, fun hne hyroot hdec => ?left_over, fun hdec => ?too_many⟩
  case all_words =>
    subst hnil
    rw [hwords hdec, State.scan_nil, if_pos rfl] at hbody
    have hdone := decode_completes hp hbody (by simpa using hdec) fun x hx => by
      obtain ⟨e, -, rfl⟩ := List.mem_map.mp hx
      exact s.truncTo_nodeSym _
    simpa using hdone
  case left_over =>
    have hscan := s.scan_walk hroot hrest hy [] (ws.map Prod.fst).flatten.length (ws.map Prod.fst).flatten.length
      (ws.map (fun e => s.nodeSym e.2.toNat))
    rw [List.append_nil, State.scan_nil, if_neg hyroot] at hscan
    rw [hwords hdec, hscan] at hbody
    exact failsWith_of_error (i := .decode src) hbody
  case too_many =>
    rw [State.scan_words_full hroot hws rest 0 [] (Nat.zero_le _) (by simpa using hdec)] at hbody
    exact failsWith_of_error (i := .decode src) hbody

/-! ### Every input parses -/

/-- `bits` is a sequence of code words and then bits that lead to the internal node `y` (R169). -/
structure State.Parse (s : State) (bits : List Bool) (ws : List (List Bool × Word)) (rest : List Bool) (y : Word) :
    Prop where
  bits_eq : bits = (ws.map Prod.fst).flatten ++ rest
  words : ∀ e ∈ ws, s.leadsToLeaf e.1 e.2 ∧ e.1 ≠ []
  walk : s.walk s.root rest = some y
  internal : s.nodeInternal y.toNat = true
  inside : rest ≠ [] → y ≠ s.root

/-- One bit more leads to an internal node, or completes a code word (R169). -/
theorem State.FinishedTree.parse_snoc {s : State} (h : s.FinishedTree) (hroot : s.nodeInternal s.root.toNat = true)
    {bits rest : List Bool} {ws : List (List Bool × Word)} {y : Word} (hp : s.Parse bits ws rest y) (b : Bool) :
    ∃ ws' rest' y', s.Parse (bits ++ [b]) ws' rest' y' := by
  have hle := (h.walk_bounds h.root_lt hp.walk).1
  have hylt := hle.trans_lt h.root_lt
  have hlt := h.child_lt y.toNat b ((h.internal_iff _ hylt).mp hp.internal) hylt
  have hwalk : s.walk s.root (rest ++ [b]) = some (s.child y.toNat b) :=
    State.walk_snoc_iff.mpr ⟨y, hp.walk, hp.internal, rfl⟩
  cases hchild : s.nodeInternal (s.child y.toNat b).toNat with
  | true =>
    refine ⟨ws, rest ++ [b], _, by rw [hp.bits_eq, List.append_assoc], hp.words, hwalk, hchild, fun _ heq => ?_⟩
    rw [heq] at hlt
    omega
  | false =>
    refine ⟨ws ++ [(rest ++ [b], s.child y.toNat b)], [], s.root, by simp [hp.bits_eq], fun e he => ?_, rfl, hroot, nofun⟩
    rcases List.mem_append.mp he with he | he
    · exact hp.words e he
    · obtain rfl := List.mem_singleton.mp he
      exact ⟨⟨hwalk, hchild⟩, by simp⟩

/-- Settles O29: bit by bit, since every child is a node of the tree. -/
theorem everyBitSequenceParses : Obligations.EveryBitSequenceParses := by
  intro s bits h ht h2
  have hfin := h.tree.finished h.build.stage ht
  have htwice := hfin.root_twice
  have hroot : s.nodeInternal s.root.toNat = true := (hfin.internal_iff _ hfin.root_lt).mpr (by omega)
  have hparse : ∃ ws rest y, s.Parse bits ws rest y := by
    induction bits using List.reverseRecOn with
    | nil => exact ⟨[], [], s.root, rfl, nofun, rfl, hroot, nofun⟩
    | append_singleton bits b ih =>
      obtain ⟨ws, rest, y, hp⟩ := ih
      exact hfin.parse_snoc hroot hp b
  obtain ⟨ws, rest, y, hp⟩ := hparse
  exact ⟨hroot, ws, rest, y, hp.bits_eq, hp.words, hp.walk, hp.internal, hp.inside⟩

/-! ### The shape of a padded matrix -/

section
variable {len rows cols : Nat} (hle : len ≤ rows * cols) (hlt : rows * cols < len + cols)
include hle hlt

/-- There is no filler when the input fills its rows (R182). -/
theorem sub_eq_zero_iff_dvd : rows * cols - len = 0 ↔ cols ∣ len := by
  constructor
  · intro h
    obtain rfl : len = rows * cols := by omega
    exact Nat.dvd_mul_left cols rows
  · rintro ⟨k, rfl⟩
    have hk : rows * cols < cols * (k + 1) := by rw [Nat.mul_add, Nat.mul_one]; exact hlt
    rw [Nat.mul_comm rows] at hk ⊢
    have hrows := Nat.lt_of_mul_lt_mul_left hk
    rw [Nat.sub_eq_zero_of_le (Nat.mul_le_mul_left cols (Nat.lt_succ_iff.mp hrows))]

/-- There are rows when there is input (R182). -/
theorem rows_eq_zero_iff : rows = 0 ↔ len = 0 := by
  constructor
  · rintro rfl
    omega
  · rintro rfl
    by_contra hne
    have hcols := Nat.le_mul_of_pos_left cols (Nat.pos_of_ne_zero hne)
    omega

/-- The filler stands at the end of the last row (R182). -/
theorem filler_iff {p : Nat} (hp : p < rows * cols) :
    len ≤ p ↔ ∃ c, cols - (rows * cols - len) ≤ c ∧ c < cols ∧ p = (rows - 1) * cols + c := by
  obtain ⟨r, rfl⟩ := Nat.exists_eq_add_of_lt (Nat.pos_of_mul_pos_right (Nat.zero_lt_of_lt hp))
  rw [Nat.zero_add, Nat.add_sub_cancel, Nat.add_mul, Nat.one_mul] at *
  constructor
  · exact fun h => ⟨p - r * cols, by omega, by omega, by omega⟩
  · rintro ⟨c, h1, h2, rfl⟩
    omega

end

/-! ### The bits PERMUTE writes -/

/-- `PERM` holds the permuted bits (R181). -/
theorem State.readBits_permuted (s : State) :
    s.permuted.readBits .perm (s.permRows * s.cols.toNat) = s.permutedBits s.permRows s.cols.toNat := by
  have hread := s.readBits_writeSeq_bits .perm (s.permutedBits s.permRows s.cols.toNat) fun _ => rfl
  rw [State.length_permutedBits] at hread
  exact (State.readBits_congr fun i _ => State.readBit_congr (State.readElem_withMatrix _ _ _ _ _ _)).trans hread

/-- τ reorders the positions (R189). -/
theorem map_toRowMajor_range_perm (rows cols : Nat) :
    ((List.range (rows * cols)).map (toRowMajor rows cols)).Perm (List.range (rows * cols)) := by
  have hnodup : ((List.range (rows * cols)).map (toRowMajor rows cols)).Nodup :=
    List.Nodup.map_on (fun q hq q' hq' heq => by
      rw [← toColumnMajor_toRowMajor (List.mem_range.mp hq), heq, toColumnMajor_toRowMajor (List.mem_range.mp hq')])
      List.nodup_range
  refine (List.perm_ext_iff_of_nodup hnodup List.nodup_range).mpr fun p => ?_
  simp only [List.mem_map, List.mem_range]
  exact ⟨fun ⟨q, hq, heq⟩ => heq ▸ toRowMajor_lt hq,
    fun hp => ⟨_, toColumnMajor_lt hp, toRowMajor_toColumnMajor hp⟩⟩

/-- Filler adds no 1 bit, and reordering none (R182). -/
theorem State.count_permutedBits (s : State) {rows cols : Nat} (h : s.enclen.toNat ≤ rows * cols) :
    (s.permutedBits rows cols).count true = (s.readBits .enc s.enclen.toNat).count true := by
  have hperm := ((map_toRowMajor_range_perm rows cols).map s.paddedBit).count_eq true
  rw [List.map_map] at hperm
  calc (s.permutedBits rows cols).count true
      = ((List.range (rows * cols)).map s.paddedBit).count true := hperm
    _ = (s.readBits .enc s.enclen.toNat).count true := by
      rw [s.map_paddedBit_range h, List.count_append, List.count_replicate]
      simp

/-- Settles O32: the registers are those of the padded matrix, and the bits are a reordering of the padded input. -/
theorem permuteLengthsAndFiller : Obligations.PermuteLengthsAndFiller := by
  intro s t hp hperm
  obtain ⟨h, rfl⟩ := completes_permute_iff.mp hperm
  have hpermlen : s.permuted.complete.permlen.toNat = s.permRows * s.cols.toNat := h.permuted_permlen hp
  have hrows : s.permuted.complete.rows.toNat = s.permRows := h.permuted_rows hp
  have hpadlen : s.permuted.complete.padlen.toNat = s.permRows * s.cols.toNat - s.enclen.toNat := h.permuted_padlen hp
  have horiglen : s.permuted.complete.origlen.toNat = s.enclen.toNat := congrArg BitVec.toNat s.permuted_origlen
  have hcols : s.permuted.complete.cols = s.cols := s.permuted_cols
  have henclen : s.permuted.complete.enclen = s.enclen := s.permuted_framed.regs .enclen (by simp) (by simp)
  have hle := h.len_le_cells
  have hlt : s.permRows * s.cols.toNat < s.enclen.toNat + s.cols.toNat := ceilDiv_mul_lt h.cols_pos
  have hzero : ∀ x : Word, x = 0#32 ↔ x.toNat = 0 := fun x => BitVec.toNat_inj.symm
  rw [hzero, hzero, hzero, hpermlen, hrows, hpadlen, horiglen, hcols, henclen]
  refine ⟨rfl, Nat.dvd_mul_left _ _, hle, by omega, sub_eq_zero_iff_dvd hle hlt, rows_eq_zero_iff hle hlt,
    fun p hlp => filler_iff hle hlt hlp, fun c hge hc => ?filler, ?ones⟩
  case filler =>
    have hrow : 1 ≤ s.permRows := Nat.one_le_iff_ne_zero.mpr fun h0 => by simp [h0] at hge; omega
    have hcell := cell_lt (rows := s.permRows) (r := s.permRows - 1) (by omega) hc
    have hlen : s.enclen.toNat ≤ (s.permRows - 1) * s.cols.toNat + c :=
      (filler_iff hle hlt hcell).mpr ⟨c, hge, hc, rfl⟩
    rw [Nat.add_sub_assoc hrow, State.readBit_complete, s.readBit_permuted (by omega) hc, State.paddedBit,
      decide_eq_false (Nat.not_lt.mpr hlen), Bool.false_and]
  case ones =>
    have henc : s.permuted.complete.readBits .enc s.enclen.toNat = s.readBits .enc s.enclen.toNat := by
      rw [State.readBits_complete]
      exact State.readBits_congr fun i _ => State.readBit_congr (s.permuted_framed.elems .enc i (by simp))
    rw [henc, State.readBits_complete, s.readBits_permuted, s.count_permutedBits hle]

end Sys2Proof.Machine
end

section
/-! PROOFS. `ENCODE` with a fresh codebook (spec/42_encode_decode.md R162; O25): what `BUILD` and then `GENCODES` leave, and
the length of the code. -/

namespace Sys2Proof.Machine

/-! ### The table, read back -/

theorem State.readSeq_of_tableView {s t : State} (hv : t.tableView = s.tableView) {sp : Space}
    (hsp : sp = .ftsym ∨ sp = .ftcnt) (n : Nat) : t.readSeq sp n = s.readSeq sp n := by
  have hmem : t.memory sp = s.memory sp := by
    rcases hsp with rfl | rfl
    · exact congrArg TableView.ftsym hv
    · exact congrArg TableView.ftcnt hv
  exact State.readSeq_congr fun i _ =>
    State.readElem_congr (congrArg TableView.params hv) (congrArg TableView.resets hv) hmem i

/-! ### BUILD, then GENCODES -/

/-- `b` holds a codebook made for the text of `s` (R162). -/
structure State.CodedFrom (s b : State) : Prop where
  codesV : b.codesV = true
  build : b.BuildInv
  tree : b.TreeInv
  codebook : b.CodebookInv
  table : b.tableView = s.counted.tableView
  text : b.textSeq = s.textSeq
  wUnknown : b.wUnknown = s.wUnknown

/-- A command that writes neither `TEXT` nor `TLEN` keeps the text. -/
theorem State.textSeq_of_framedBy {i : Instr} {s t : State} (h : FramedBy i s t) (hlen : Reg.tlen ∉ writtenRegs i)
    (htext : Space.text ∉ writtenSpaces i) : t.textSeq = s.textSeq := by
  have htlen : t.tlen = s.tlen := h.regs .tlen (by simp) (by simp [hlen])
  rw [State.textSeq, State.textSeq, htlen]
  exact State.readSeq_congr fun k _ => h.elems .text k htext

/-- `GENCODES` keeps the tree and its table (R151). -/
theorem State.codedFrom_of_gencodes {w : Word} {s a b : State} (h : s.BuildingFrom a) (ht : a.textSeq = s.textSeq)
    (hw : a.wUnknown = s.wUnknown) (hb : gencodesBody w a = .ok b) : s.CodedFrom b := by
  obtain ⟨u, n, hview, rfl⟩ := gencodesBody_eq_withCodes hb
  have hframe : FramedBy .gencodes a (u.withCodes n) :=
    (gencodesBody_framed hb).mono (by decide) (List.Subset.refl _) fun _ _ => id
  exact ⟨rfl, h.build.after_gencodes hb, h.tree.withCodes_of_buildView hview n, h.build.codebook_after_gencodes h.tree hb,
    (congrArg BuildView.table hview).trans h.table,
    (State.textSeq_of_framedBy hframe (by decide) (by decide)).trans ht,
    (hframe.flags .wUnknown (by decide)).trans hw⟩

/-- The end of a command keeps it. -/
theorem State.CodedFrom.complete {s b : State} (h : s.CodedFrom b) : s.CodedFrom b.complete :=
  ⟨h.codesV, h.build.of_buildView rfl, h.tree.of_buildView rfl, h.codebook.complete, h.table,
    (State.readSeq_complete _ _ _).trans h.text, h.wUnknown⟩

/-- While `BUILD` runs, so does the end of a command. -/
theorem State.BuildingFrom.complete {s a : State} (h : s.BuildingFrom a) : s.BuildingFrom a.complete :=
  ⟨h.build.of_buildView rfl, h.tree.of_buildView rfl, h.table, h.frame.trans (.complete a (by simp) (by simp))⟩

theorem codedFrom_of_completes {s a b : State} (hp : s.params.valid = true) (hbuild : Completes .build s a)
    (hgen : Completes .gencodes a b) : s.CodedFrom b := by
  obtain ⟨u, hbody, rfl⟩ := completes_iff.mp hbuild
  obtain ⟨v, hbody', rfl⟩ := completes_iff.mp hgen
  have hframe : FramedBy .build s u := commandBody_framed hbody
  refine (State.codedFrom_of_gencodes (buildBody_buildingFrom hp hbody).complete ?_ ?_ hbody').complete
  · exact (State.readSeq_complete _ _ _).trans (State.textSeq_of_framedBy hframe (by decide) (by decide))
  · exact hframe.flags .wUnknown (by decide)

section
variable {s b : State} (h : s.CodedFrom b)
include h

theorem State.CodedFrom.nsym_eq : b.nsym.toNat = s.textSymbols.length := by
  obtain ⟨-, -, hnsym⟩ := State.regs_of_tableView h.table
  rw [hnsym, State.counted_nsym]

theorem State.CodedFrom.ftsym_eq : b.readSeq .ftsym b.nsym.toNat = s.textSymbols := by
  rw [State.readSeq_of_tableView h.table (.inl rfl), h.nsym_eq, State.counted_ftsym]

theorem State.CodedFrom.ftcnt_eq : b.readSeq .ftcnt b.nsym.toNat = s.textCounts := by
  rw [State.readSeq_of_tableView h.table (.inr rfl), h.nsym_eq, State.counted_ftcnt]

/-- The count of an entry is that of its symbol in the text (R125). -/
theorem State.CodedFrom.count_eq {i : Nat} (hi : i < b.nsym.toNat) :
    (b.readElem .ftcnt i).toNat = b.textSeq.count (b.readElem .ftsym i) := by
  have hlen : i < s.textSymbols.length := h.nsym_eq ▸ hi
  have hsym : b.readElem .ftsym i = s.textSymbols[i] := by
    simp only [← h.ftsym_eq, State.getElem_readSeq]
  have hcnt : b.readElem .ftcnt i = s.textCounts[i]'(by rwa [State.length_textCounts]) := by
    simp only [← h.ftcnt_eq, State.getElem_readSeq]
  rw [hcnt, hsym, h.text]
  simp only [State.textCounts, List.getElem_map, State.toNat_count]

/-- Every symbol of the text has an entry (R162). -/
theorem State.CodedFrom.lookup_of_mem {x : Word} (hx : x ∈ b.textSeq) :
    ∃ i, i < b.nsym.toNat ∧ b.readElem .ftsym i = x ∧ b.lookup x = some i := by
  have hmem : x ∈ b.readSeq .ftsym b.nsym.toNat := by
    rw [h.ftsym_eq]
    exact mem_distinctSymbols.mpr (h.text ▸ hx)
  obtain ⟨i, hi, rfl⟩ := State.mem_readSeq.mp hmem
  exact ⟨i, hi, rfl, h.build.lookup_eq_some_iff.mpr ⟨h.build.stage.all_codes h.codesV ▸ hi, rfl⟩⟩

/-- So none is skipped (R162). -/
theorem State.CodedFrom.skippedCount_eq : b.skippedCount = 0 := by
  refine List.countP_eq_zero.mpr fun x hx => ?_
  obtain ⟨i, -, -, hi⟩ := h.lookup_of_mem hx
  simp [hi]

end

/-- A sum over a list, its elements taken together. -/
theorem sum_map_eq_sum_count {l d : List Word} (hd : d.Nodup) (hmem : ∀ x, x ∈ d ↔ x ∈ l) (f : Word → Nat) :
    (l.map f).sum = (d.map (fun x => l.count x * f x)).sum := by
  have hset : l.toFinset = d.toFinset := by ext x; simp [hmem]
  rw [Finset.sum_list_map_count, hset, List.sum_toFinset _ hd]
  rfl

/-- The length of the code, entry by entry (R162). -/
theorem State.CodedFrom.length_encodedBits {s b : State} (h : s.CodedFrom b) : b.encodedBits.length = b.codedLength := by
  have hlen : ∀ i, i < b.nsym.toNat →
      ((b.lookup (b.readElem .ftsym i)).elim [] b.codeBits).length = (b.readElem .cblen i).toNat := fun i hi => by
    rw [h.build.lookup_eq_some_iff.mpr ⟨h.build.stage.all_codes h.codesV ▸ hi, rfl⟩]
    exact b.length_codeBits i
  calc b.encodedBits.length
      = (b.textSeq.map (fun x => ((b.lookup x).elim [] b.codeBits).length)).sum := by
        rw [State.encodedBits_eq_flatMap, List.length_flatMap]
    _ = ((b.readSeq .ftsym b.nsym.toNat).map
          (fun x => b.textSeq.count x * ((b.lookup x).elim [] b.codeBits).length)).sum := by
        refine sum_map_eq_sum_count ?_ (fun x => ?_) _
        · rw [h.ftsym_eq]; exact nodup_distinctSymbols _
        · rw [h.ftsym_eq, h.text]; exact mem_distinctSymbols
    _ = b.codedLength := by
        rw [State.codedLength, State.readSeq, List.map_map]
        refine congrArg List.sum (List.map_congr_left fun i hi => ?_)
        have hi := List.mem_range.mp hi
        rw [Function.comp_apply, hlen i hi, h.count_eq hi]

/-- Settles O25: every symbol of the text is in the table the codebook is for. -/
theorem freshCodebookSkipsNothing : Obligations.FreshCodebookSkipsNothing := by
  intro s a b c hp hbuild hgen hencode
  have h := codedFrom_of_completes hp hbuild hgen
  obtain ⟨u, hbody, rfl⟩ := completes_iff.mp hencode
  obtain ⟨-, -, hbits, rfl⟩ := encodeBody_ok_iff.mp hbody
  have hskip : b.encoded.complete.skipcnt.toNat = 0 := b.encoded_skipcnt.trans h.skippedCount_eq
  have hwarn : b.encoded.complete.wUnknown = (b.wUnknown || decide (0 < b.skippedCount)) := b.encoded_wUnknown
  have hlen : b.encoded.complete.enclen.toNat = b.encodedBits.length := State.encoded_enclen h.build.params_valid hbits
  have hnsym : b.encoded.complete.nsym = b.nsym := b.encoded_nsym
  have helem : ∀ sp i, sp ≠ .enc → b.encoded.complete.readElem sp i = b.readElem sp i := fun sp i hsp =>
    (b.encoded.readElem_complete sp i).trans (b.encoded_framed.elems sp i fun hc => hsp hc.1)
  refine ⟨BitVec.eq_of_toNat_eq hskip, ?_, ?_⟩
  · rw [hwarn, h.skippedCount_eq, h.wUnknown]
    simp
  · simp only [helem _ _ (show Space.ftcnt ≠ .enc by decide), helem _ _ (show Space.cblen ≠ .enc by decide)]
    rw [hlen, hnsym, h.length_encodedBits]
    rfl

end Sys2Proof.Machine
end

section
/-! PROOFS. The encoded length of a fresh codebook (spec/40_tree_builder.md R135; O56). `BUILD` is one way of breaking ties, of
encoded length the sum of the frequencies of the nodes it makes; and that sum is the length of the code `GENCODES` gives. -/

namespace Sys2Proof.Machine

/-! ### BUILD breaks ties in one way -/

/-- The frequencies of the queued nodes. -/
def State.queueFreqs (s : State) : List Nat := s.queue.map (fun j => (s.nodeFreq j.toNat).toNat)

/-- The frequencies of the internal nodes, added up. -/
def State.innerCost (s : State) : Nat :=
  ((List.range' s.nsym.toNat (s.nnodes.toNat - s.nsym.toNat)).map (fun k => (s.nodeFreq k).toNat)).sum

theorem State.innerCost_congr {s t : State} (hnsym : t.nsym = s.nsym) (hnodes : t.nnodes = s.nnodes)
    (h : ∀ n, t.readNode n = s.readNode n) : t.innerCost = s.innerCost := by
  have hfreq : ∀ n, t.nodeFreq n = s.nodeFreq n := fun n => congrArg Node.freq (h n)
  simp only [State.innerCost, hnsym, hnodes, hfreq]

theorem State.queueFreqs_congr {s t : State} (hq : t.queue = s.queue) (h : ∀ n, t.readNode n = s.readNode n) :
    t.queueFreqs = s.queueFreqs := by
  have hfreq : ∀ n, t.nodeFreq n = s.nodeFreq n := fun n => congrArg Node.freq (h n)
  simp only [State.queueFreqs, hq, hfreq]

/-- Any way of breaking the ties that are left is one of breaking the ties of `freqs` (R135). -/
def State.BreaksTies (s : State) (freqs : List Nat) : Prop :=
  ∀ c, AnyTieBreak s.queueFreqs c → AnyTieBreak freqs (c + s.innerCost)

/-- The order of the frequencies does not matter. -/
theorem AnyTieBreak.perm {freqs freqs' : List Nat} {c : Nat} (h : AnyTieBreak freqs c) (hp : freqs'.Perm freqs) :
    AnyTieBreak freqs' c := by
  cases h with
  | done f => rw [List.perm_singleton.mp hp]; exact .done f
  | join taken first least built => exact .join (hp.trans taken) first least built

/-- Before the first round the queued frequencies are the counts (R127). -/
theorem State.breaksTies_toMerge (s : State) : s.toMerge.BreaksTies (s.textCounts.map BitVec.toNat) := by
  intro c hc
  have hnsym : s.counted.queued.nsym = s.counted.nsym := (State.regs_of_tableView s.counted.tableView_queued).2.2
  have hinner : s.toMerge.innerCost = 0 := by
    have hnodes : s.toMerge.nnodes = s.toMerge.nsym := s.counted.queued_nnodes.trans hnsym.symm
    simp [State.innerCost, hnodes]
  have hfreq : ∀ i, i < s.counted.nsym.toNat →
      (s.counted.queued.nodeFreq (BitVec.ofNat 32 i).toNat).toNat = (s.counted.readElem .ftcnt i).toNat := fun i hi => by
    rw [toNat_ofNat_of_lt_toNat hi]
    exact congrArg (fun x : Node => x.freq.toNat) (s.counted.readNode_queued hi)
  have hcounts : s.textCounts.map BitVec.toNat
      = (List.range s.counted.nsym.toNat).map (fun i => (s.counted.readElem .ftcnt i).toNat) := by
    rw [← s.counted_ftcnt, ← s.counted_nsym, State.readSeq, List.map_map]
    rfl
  have hperm : s.toMerge.queueFreqs.Perm (s.textCounts.map BitVec.toNat) := by
    rw [State.toMerge, State.queueFreqs_congr s.counted.queued.queue_warnEmpty s.counted.queued.readNode_warnEmpty,
      State.queueFreqs]
    have hmap := s.counted.queue_queued.1.map (fun j => (s.counted.queued.nodeFreq j.toNat).toNat)
    have heq : ((List.range s.counted.nsym.toNat).map (BitVec.ofNat 32)).map
        (fun j => (s.counted.queued.nodeFreq j.toNat).toNat) = s.textCounts.map BitVec.toNat := by
      rw [hcounts, List.map_map]
      exact List.map_congr_left fun i hi => hfreq i (List.mem_range.mp hi)
    exact heq ▸ hmap
  rw [hinner, Nat.add_zero]
  exact hc.perm hperm.symm

section
variable {s : State} (hb : s.BuildInv) (hv : s.pqV = true) {a b : Word} {q : List Word} (hq : s.queue = a :: b :: q)
include hb hv

/-- A round adds the frequencies it joins (R129). -/
theorem State.BuildInv.innerCost_joined (hfit : (s.nodeFreq a.toNat + s.nodeFreq b.toNat).toNat
      = (s.nodeFreq a.toNat).toNat + (s.nodeFreq b.toNat).toNat) :
    (s.joined a b q).innerCost = s.innerCost + ((s.nodeFreq a.toNat).toNat + (s.nodeFreq b.toNat).toNat) := by
  obtain ⟨-, -, hn⟩ := State.regs_of_tableView (s.tableView_joined a b q)
  have hleaves := hb.stage.leaves_exist hv
  have hcount : s.nnodes.toNat + 1 - s.nsym.toNat = s.nnodes.toNat - s.nsym.toNat + 1 := by omega
  have hold : (List.range' s.nsym.toNat (s.nnodes.toNat - s.nsym.toNat)).map
      (fun k => ((s.joined a b q).nodeFreq k).toNat) =
      (List.range' s.nsym.toNat (s.nnodes.toNat - s.nsym.toNat)).map (fun k => (s.nodeFreq k).toNat) := by
    refine List.map_congr_left fun k hk => ?_
    obtain ⟨-, hlt⟩ := List.mem_range'_1.mp hk
    rw [State.nodeFreq_joined, if_neg (by omega)]
  rw [State.innerCost, hn, hb.toNat_nnodes_joined hv a b q, hcount, List.range'_concat, List.map_append, List.sum_append,
    hold, Nat.one_mul, Nat.add_sub_cancel' hleaves, List.map_singleton, List.sum_singleton, State.nodeFreq_joined,
    if_pos rfl, hfit]
  rfl

include hq

/-- A round joins two least frequencies (R128, R129). -/
theorem State.BuildInv.breaksTies_joined {freqs : List Nat} (h : s.BreaksTies freqs) :
    (s.joined a b q).BreaksTies freqs := by
  intro c hc
  have hfit := hb.toNat_freq_add hv hq
  have hsorted := hb.stage.queue_sorted
  rw [hq, List.pairwise_cons, List.pairwise_cons] at hsorted
  obtain ⟨hfirst, hleast, -⟩ := hsorted
  have hle : ∀ i j, s.keyBefore i j = true → (s.nodeFreq i.toNat).toNat ≤ (s.nodeFreq j.toNat).toNat := by
    intro i j hij
    have hkey := State.keyBefore_iff.mp hij
    omega
  have hqueue : (s.joined a b q).queueFreqs.Perm (((s.nodeFreq a.toNat).toNat + (s.nodeFreq b.toNat).toNat)
      :: q.map (fun j => (s.nodeFreq j.toNat).toNat)) := by
    have hmap := (hb.perm_queue_joined hq).map (fun j => ((s.joined a b q).nodeFreq j.toNat).toNat)
    have hrest : q.map (fun j => ((s.joined a b q).nodeFreq j.toNat).toNat)
        = q.map (fun j => (s.nodeFreq j.toNat).toNat) := by
      refine List.map_congr_left fun j hj => ?_
      have hlt := hb.queue_lt hq (j := j) (by simp [hj])
      rw [State.nodeFreq_joined, if_neg (by omega)]
    rwa [List.map_cons, hrest, State.nodeFreq_joined, if_pos rfl, hfit] at hmap
  have hjoin : AnyTieBreak s.queueFreqs (c + ((s.nodeFreq a.toNat).toNat + (s.nodeFreq b.toNat).toNat)) := by
    have hfreqs : s.queueFreqs = (s.nodeFreq a.toNat).toNat :: (s.nodeFreq b.toNat).toNat
        :: q.map (fun j => (s.nodeFreq j.toNat).toNat) := by
      rw [State.queueFreqs, hq, List.map_cons, List.map_cons]
    have hrest : ∀ x ∈ q.map (fun j => (s.nodeFreq j.toNat).toNat), (s.nodeFreq b.toNat).toNat ≤ x := fun x hx => by
      obtain ⟨j, hj, rfl⟩ := List.mem_map.mp hx
      exact hle b j (hleast j hj)
    rw [hfreqs]
    exact .join (.refl _) (hle a b (hfirst b (by simp))) hrest (hc.perm hqueue.symm)
  rw [hb.innerCost_joined hv hfit, Nat.add_comm s.innerCost, ← Nat.add_assoc]
  exact h _ hjoin

end

/-- `BUILD` leaves a tree whose inner frequencies add up to the encoded length of one way of breaking ties (R135). -/
theorem buildBody_tieBreak {w : Word} {s t : State} (hp : s.params.valid = true) (h : buildBody w s = .ok t)
    (h1 : 1 ≤ t.nsym.toNat) : AnyTieBreak (s.textCounts.map BitVec.toNat) t.innerCost := by
  obtain ⟨htext, hsyms, -⟩ := buildBody_ok_iff.mp h
  obtain ⟨hbuilt, hties⟩ : s.BuildingFrom t ∧ t.BreaksTies (s.textCounts.map BitVec.toNat) :=
    buildBody_induction (P := fun u => s.BuildingFrom u ∧ u.BreaksTies (s.textCounts.map BitVec.toNat))
      ⟨State.buildingFrom_toMerge hp htext hsyms, s.breaksTies_toMerge⟩
      (fun u a b q hu hv hq => ⟨hu.1.joined hv hq, hu.1.build.breaksTies_joined hv hq hu.2⟩) h
  have hqueue : t.queueFreqs = [(t.nodeFreq (t.readElem .pq 0).toNat).toNat] := by
    rw [State.queueFreqs, State.queue_of_pqn_one (hbuilt.pqn_eq_one h h1)]
    rfl
  have hdone := hties 0 (by rw [hqueue]; exact .done _)
  rwa [Nat.zero_add] at hdone

/-! ### The length of the code -/

/-- The depth of a node, the length of the path to it (R150). -/
def State.depth (s : State) (n : Nat) : Nat := (s.pathBits n).length

section
variable {s : State} (h : s.FinishedTree)
include h

theorem State.FinishedTree.walk_pathBits {n : Nat} (hn : n < s.nnodes.toNat) :
    s.walk s.root (s.pathBits n) = some (BitVec.ofNat 32 n) := by
  obtain ⟨p, hp⟩ := h.exists_walk (y := BitVec.ofNat 32 n) (by rwa [toNat_ofNat_of_lt_toNat hn])
  have hle := h.length_le hp
  have hnodes := h.nsym_le
  exact State.walk_pathBits hp (by omega)

theorem State.FinishedTree.depth_eq_of_walk {p : List Bool} {y : Word} (hp : s.walk s.root p = some y) :
    s.depth y.toNat = p.length := by
  have hy := (h.walk_bounds h.root_lt hp).1.trans_lt h.root_lt
  have hwalk := h.walk_pathBits hy
  rw [BitVec.ofNat_toNat, BitVec.setWidth_eq] at hwalk
  rw [State.depth, h.walk_unique hwalk hp]

theorem State.FinishedTree.depth_root : s.depth s.root.toNat = 0 := h.depth_eq_of_walk (p := []) rfl

/-- A child is one step below its parent (R150). -/
theorem State.FinishedTree.depth_child {k : Nat} (hk : s.nsym.toNat ≤ k) (hlt : k < s.nnodes.toNat) (b : Bool) :
    s.depth (s.child k b).toNat = s.depth k + 1 := by
  have hword := toNat_ofNat_of_lt_toNat hlt
  have hwalk : s.walk s.root (s.pathBits k ++ [b]) = some (s.child k b) :=
    State.walk_snoc_iff.mpr ⟨_, h.walk_pathBits hlt, by rw [hword]; exact (h.internal_iff k hlt).mpr hk, by rw [hword]⟩
  rw [h.depth_eq_of_walk hwalk, List.length_append]
  rfl

end

/-- A node's frequency for every step of the path to it. -/
def State.weightedDepth (s : State) (n : Nat) : Nat := (s.nodeFreq n).toNat * s.depth n

/-- The inner nodes, by number. -/
def State.innerNodes (s : State) : List Nat := List.range' s.nsym.toNat (s.nnodes.toNat - s.nsym.toNat)

theorem State.mem_innerNodes {s : State} {k : Nat} :
    k ∈ s.innerNodes ↔ s.nsym.toNat ≤ k ∧ k < s.nnodes.toNat := by
  rw [State.innerNodes, List.mem_range'_1]
  omega

/-- Over all children the weighted depths are those of their parents and once more the parents' frequencies. -/
theorem State.FinishedTree.sum_children {s : State} (h : s.FinishedTree) (ht : s.TreeInv) :
    (s.childList.map s.weightedDepth).sum = (s.innerNodes.map s.weightedDepth).sum + s.innerCost := by
  have hchild : ∀ k ∈ s.innerNodes, s.weightedDepth (s.nodeLeft k).toNat + s.weightedDepth (s.nodeRight k).toNat
      = s.weightedDepth k + (s.nodeFreq k).toNat := fun k hk => by
    obtain ⟨hge, hlt⟩ := State.mem_innerNodes.mp hk
    obtain ⟨-, -, -, -, hsum, -⟩ := ht.internals h.pqV k hge hlt
    have hleft := h.depth_child hge hlt false
    have hright := h.depth_child hge hlt true
    rw [State.child_false] at hleft
    rw [State.child_true] at hright
    rw [State.weightedDepth, State.weightedDepth, State.weightedDepth, hleft, hright, hsum]
    ring
  calc (s.childList.map s.weightedDepth).sum
      = (s.innerNodes.map
          (fun k => s.weightedDepth (s.nodeLeft k).toNat + s.weightedDepth (s.nodeRight k).toNat)).sum := by
        rw [State.childList, List.map_flatMap, List.flatMap_def, List.sum_flatten, List.map_map]
        simp [State.innerNodes, Function.comp_def]
    _ = (s.innerNodes.map (fun k => s.weightedDepth k + (s.nodeFreq k).toNat)).sum :=
        congrArg List.sum (List.map_congr_left hchild)
    _ = (s.innerNodes.map s.weightedDepth).sum + s.innerCost := List.sum_map_add

/-- The leaves' frequencies, each as often as its depth, add up to the frequencies of the inner nodes: every node but the
root is a child (R130, R135). -/
theorem State.FinishedTree.sum_leaves {s : State} (h : s.FinishedTree) (hs : s.StageInv) (ht : s.TreeInv)
    (hpqn : s.pqn = 1#32) : ((List.range s.nsym.toNat).map s.weightedDepth).sum = s.innerCost := by
  have howned := ht.owned_once h.pqV
  have hnodes : List.range s.nnodes.toNat = List.range s.nsym.toNat ++ s.innerNodes := by
    rw [List.range_eq_range', List.range_eq_range', State.innerNodes]
    have happend := List.range'_append_1 (s := 0) (m := s.nsym.toNat) (n := s.nnodes.toNat - s.nsym.toNat)
    rw [Nat.zero_add, Nat.add_sub_cancel' h.nsym_le] at happend
    exact happend.symm
  rw [State.queue_of_pqn_one hpqn, ← (hs.root_value h.pqV hpqn).1, hnodes] at howned
  have hsum := (howned.map s.weightedDepth).sum_eq
  have hroot : s.weightedDepth s.root.toNat = 0 := by rw [State.weightedDepth, h.depth_root, Nat.mul_zero]
  simp only [List.map_append, List.sum_append, List.map_singleton, List.sum_singleton, hroot, h.sum_children ht,
    Nat.zero_add] at hsum
  omega

/-- With two leaves or more the length of the code is the sum of the inner frequencies (R135). -/
theorem State.Coded.codedLength_eq {s : State} (h : s.Coded) (h2 : 2 ≤ s.nsym.toNat) : s.codedLength = s.innerCost := by
  have hfin := h.finished
  obtain ⟨-, hpqn⟩ := h.build.stage.codes_need_tree h.codesV
  have h1 : s.pqn = 1#32 := hpqn.resolve_right fun hc => by simp [hc] at h2
  rw [← hfin.sum_leaves h.build.stage h.tree h1]
  refine congrArg List.sum (List.map_congr_left fun i hi => ?_)
  have hi := List.mem_range.mp hi
  have hdepth := hfin.depth_eq_of_walk (h.codebook.paths h.codesV h2 i hi)
  rw [toNat_ofNat_of_lt_toNat hi, State.length_codeBits] at hdepth
  have hfreq : s.nodeFreq i = s.readElem .ftcnt i := congrArg Node.freq (h.tree.leaves hfin.pqV i hi)
  rw [State.weightedDepth, hdepth, hfreq]

/-- After `BUILD` and `GENCODES` the length of the code is that of one way of breaking ties (R135). -/
theorem codedLength_tieBreak {s a b : State} (hp : s.params.valid = true) (hbuild : Completes .build s a)
    (hgen : Completes .gencodes a b) (h2 : 2 ≤ b.nsym.toNat) :
    AnyTieBreak ((b.readSeq .ftcnt b.nsym.toNat).map BitVec.toNat) b.codedLength := by
  have h := codedFrom_of_completes hp hbuild hgen
  have hcoded : b.Coded := ⟨h.codesV, Nat.le_of_succ_le h2, h.build, h.tree, h.codebook⟩
  obtain ⟨u, hbody, rfl⟩ := completes_iff.mp hbuild
  obtain ⟨v, hbody', rfl⟩ := completes_iff.mp hgen
  obtain ⟨x, n, hview, rfl⟩ := gencodesBody_eq_withCodes hbody'
  have hnsym : (x.withCodes n).complete.nsym = u.nsym := (State.regs_of_buildView hview).2.2.2.1
  have hcost : (x.withCodes n).complete.innerCost = u.innerCost :=
    State.innerCost_congr hnsym (congrArg BuildView.nnodes hview) fun k =>
      (State.readNode_complete _ k).trans ((State.readNode_congr fun f _ => State.withCodes_readElem _ _ _ _).trans
        ((State.readNode_of_buildView hview k).trans (u.readNode_complete k)))
  rw [h.ftcnt_eq, hcoded.codedLength_eq h2, hcost]
  exact buildBody_tieBreak hp hbody (hnsym ▸ Nat.le_of_succ_le h2)

/-- Settles O56: joining two least frequencies is optimal however ties are broken, and `BUILD` does so; with one symbol the
one code has one bit. -/
theorem encodedLengthIsLeast : Obligations.EncodedLengthIsLeast := by
  intro s a b hp hbuild hgen
  have h := codedFrom_of_completes hp hbuild hgen
  have hties := codedLength_tieBreak hp hbuild hgen
  refine ⟨fun code hne hprefix => ?least, fun h2 => ⟨hties h2, fun c hc => hc.unique (hties h2)⟩⟩
  rcases Nat.lt_or_ge b.nsym.toNat 2 with hlt | h2
  · refine List.sum_le_sum fun i hi => Nat.mul_le_mul_left _ ?_
    have hi := List.mem_range.mp hi
    have hcoded : b.Coded := ⟨h.codesV, by omega, h.build, h.tree, h.codebook⟩
    calc (b.readElem .cblen i).toNat = (b.codeBits i).length := (b.length_codeBits i).symm
      _ ≤ max 1 (b.nsym.toNat - 1) := hcoded.length_le hi
      _ ≤ 1 := by omega
      _ ≤ (code i).length := List.length_pos_iff.mpr (hne i hi)
  · have hleast := hties h2
    rw [State.readSeq, List.map_map] at hleast
    exact hleast.le_prefixCode code hprefix

end Sys2Proof.Machine
end

section
/-! PROOFS. The result of a command depends on the valid data alone (spec/10_state.md R55, spec/70_reset_and_hazards.md R247;
O41): the valid data, view by view, and what is determined by it. -/

namespace Sys2Proof.Machine

/-! ### The views of the valid data -/

/-- The parts of the valid data (10_state.md R27), each with a register that bounds it. -/
inductive View where
  | text | table | nodes | queue | codes | enc | perm | inv | dec

/-- The register that says how much of a view is valid. -/
def View.lenReg : View → Reg
  | .text => .tlen
  | .table => .nsym
  | .nodes => .nnodes
  | .queue => .pqn
  | .codes => .ncodes
  | .enc => .enclen
  | .perm => .permlen
  | .inv => .invlen
  | .dec => .declen

/-- The memories a view is in. -/
def View.spaces : View → List Space
  | .text => [.text]
  | .table => [.ftsym, .ftcnt]
  | .nodes => [.node]
  | .queue => [.pq]
  | .codes => [.cblen, .cbbit]
  | .enc => [.enc]
  | .perm => [.perm]
  | .inv => [.inv]
  | .dec => [.dec]

/-- The valid data of a view is the same in both states. -/
def View.Same (s t : State) : View → Prop
  | .text => t.textSeq = s.textSeq
  | .table => (t.readSeq .ftsym t.nsym.toNat, t.readSeq .ftcnt t.nsym.toNat)
      = (s.readSeq .ftsym s.nsym.toNat, s.readSeq .ftcnt s.nsym.toNat)
  | .nodes => (List.range t.nnodes.toNat).map t.readNode = (List.range s.nnodes.toNat).map s.readNode
  | .queue => t.queue = s.queue
  | .codes => (List.range t.ncodes.toNat).map t.codeBits = (List.range s.ncodes.toNat).map s.codeBits
  | .enc => t.readBits .enc t.enclen.toNat = s.readBits .enc s.enclen.toNat
  | .perm => t.readBits .perm t.permlen.toNat = s.readBits .perm s.permlen.toNat
  | .inv => t.readBits .inv t.invlen.toNat = s.readBits .inv s.invlen.toNat
  | .dec => t.readSeq .dec t.declen.toNat = s.readSeq .dec s.declen.toNat

theorem View.Same.symm {s t : State} {v : View} (h : v.Same s t) : v.Same t s := by
  cases v <;> exact Eq.symm h

theorem View.Same.trans {s t u : State} {v : View} (h : v.Same s t) (h' : v.Same t u) : v.Same s u := by
  cases v <;> exact Eq.trans h' h

/-- A view is the same when its register and its memories are. -/
theorem View.same_of_eq {s t : State} {v : View} (hp : t.params = s.params)
    (hlen : t.readReg v.lenReg = s.readReg v.lenReg)
    (helem : ∀ sp ∈ v.spaces, ∀ i, t.readElem sp i = s.readElem sp i) : v.Same s t := by
  have hseq : ∀ sp ∈ v.spaces, ∀ {m n : Word}, m = n → t.readSeq sp m.toNat = s.readSeq sp n.toNat :=
    fun sp hsp _ _ hmn => hmn ▸ State.readSeq_congr fun i _ => helem sp hsp i
  have hbits : ∀ sp ∈ v.spaces, ∀ {m n : Word}, m = n → t.readBits sp m.toNat = s.readBits sp n.toNat :=
    fun sp hsp _ _ hmn => hmn ▸ State.readBits_congr fun i _ => State.readBit_congr (helem sp hsp i)
  cases v with
  | text => exact hseq .text (by simp [View.spaces]) hlen
  | table =>
    exact congrArg₂ Prod.mk (hseq .ftsym (by simp [View.spaces]) hlen) (hseq .ftcnt (by simp [View.spaces]) hlen)
  | nodes =>
    have hnode : t.readNode = s.readNode :=
      funext fun n => State.readNode_congr fun f _ => helem .node (by simp [View.spaces]) _
    have hlen : t.nnodes = s.nnodes := hlen
    rw [View.Same, hnode, hlen]
  | queue => exact hseq .pq (by simp [View.spaces]) hlen
  | codes =>
    have hcode : t.codeBits = s.codeBits := funext fun i => by
      simp only [State.codeBits, State.readBit, hp, helem .cblen (by simp [View.spaces]),
        helem .cbbit (by simp [View.spaces])]
    have hlen : t.ncodes = s.ncodes := hlen
    rw [View.Same, hcode, hlen]
  | enc => exact hbits .enc (by simp [View.spaces]) hlen
  | perm => exact hbits .perm (by simp [View.spaces]) hlen
  | inv => exact hbits .inv (by simp [View.spaces]) hlen
  | dec => exact hseq .dec (by simp [View.spaces]) hlen

/-- Two states agree on the valid data when they do on the registers and on every view. -/
theorem State.agreeOnValid_iff {s t : State} :
    s.AgreeOnValid t ↔ t.params = s.params ∧ (∀ r, t.readReg r = s.readReg r) ∧ ∀ v : View, v.Same s t := by
  constructor
  · intro h
    refine ⟨h.params, h.regs, fun v => ?_⟩
    have hnsym : t.nsym = s.nsym := h.regs .nsym
    have hnodes : t.nnodes = s.nnodes := h.regs .nnodes
    have hncodes : t.ncodes = s.ncodes := h.regs .ncodes
    have henc : t.enclen = s.enclen := h.regs .enclen
    have hperm : t.permlen = s.permlen := h.regs .permlen
    have hinv : t.invlen = s.invlen := h.regs .invlen
    have hdec : t.declen = s.declen := h.regs .declen
    cases v with
    | text => exact h.text
    | table => rw [View.Same, hnsym, h.ftsym, h.ftcnt]
    | nodes => rw [View.Same, hnodes]; exact List.map_congr_left fun n hn => h.node n (List.mem_range.mp hn)
    | queue => exact h.queue
    | codes => rw [View.Same, hncodes]; exact List.map_congr_left fun i hi => h.codes i (List.mem_range.mp hi)
    | enc => rw [View.Same, henc, h.enc]
    | perm => rw [View.Same, hperm, h.perm]
    | inv => rw [View.Same, hinv, h.inv]
    | dec => rw [View.Same, hdec, h.dec]
  · rintro ⟨hparams, hregs, hviews⟩
    have htable := hviews .table
    have hnodes := hviews .nodes
    have hcodes := hviews .codes
    have henc := hviews .enc
    have hperm := hviews .perm
    have hinv := hviews .inv
    have hdec := hviews .dec
    rw [View.Same, show t.nsym = s.nsym from hregs .nsym, Prod.mk.injEq] at htable
    rw [View.Same, show t.nnodes = s.nnodes from hregs .nnodes, List.map_inj_left] at hnodes
    rw [View.Same, show t.ncodes = s.ncodes from hregs .ncodes, List.map_inj_left] at hcodes
    rw [View.Same, show t.enclen = s.enclen from hregs .enclen] at henc
    rw [View.Same, show t.permlen = s.permlen from hregs .permlen] at hperm
    rw [View.Same, show t.invlen = s.invlen from hregs .invlen] at hinv
    rw [View.Same, show t.declen = s.declen from hregs .declen] at hdec
    exact ⟨hparams, hregs, hviews .text, htable.1, htable.2, fun n hn => hnodes n (List.mem_range.mpr hn),
      hviews .queue, fun i hi => hcodes i (List.mem_range.mpr hi), henc, hperm, hinv, hdec⟩

theorem State.AgreeOnValid.same {s t : State} (h : s.AgreeOnValid t) (v : View) : v.Same s t :=
  (State.agreeOnValid_iff.mp h).2.2 v

/-- A command may change what is valid in a view: it writes the view's register or one of its memories. -/
def View.written (v : View) (i : Instr) : Bool :=
  decide (v.lenReg ∈ writtenRegs i) || v.spaces.any (fun sp => decide (sp ∈ writtenSpaces i))

theorem View.same_of_framedBy {v : View} {i : Instr} {s t : State} (h : FramedBy i s t) (hv : v.written i = false) :
    v.Same s t := by
  simp only [View.written, Bool.or_eq_false_iff, decide_eq_false_iff_not, List.any_eq_false, decide_eq_true_eq] at hv
  obtain ⟨hreg, hspaces⟩ := hv
  refine View.same_of_eq h.params (h.regs _ ?_ ?_) fun sp hsp k => h.elems sp k (hspaces sp hsp)
  · cases v <;> decide
  · cases v <;> simpa [View.lenReg] using hreg

/-- The end of a command keeps every view. -/
theorem View.same_complete (v : View) (s : State) : v.Same s s.complete :=
  View.same_of_eq rfl (by cases v <;> rfl) fun sp _ i => s.readElem_complete sp i

/-! ### Two runs of one command -/

/-- The flags are determined by the registers: `STATUS` tells them (10_state.md R26). -/
theorem State.AgreeOnValid.flag {s s' : State} (h : s.AgreeOnValid s') (f : Flag) : s'.flag f = s.flag f :=
  State.flag_of_status (h.regs .status) f

section
variable {i : Instr} {s s' u u' : State} (h : s.AgreeOnValid s') (hu : commandBody i s = .ok u)
  (hu' : commandBody i s' = .ok u')
include h hu hu'

theorem State.AgreeOnValid.reg_after {r : Reg} (hs : r ≠ .status) (hr : r ∉ Reg.err :: Reg.errinfo :: writtenRegs i) :
    u'.readReg r = u.readReg r := by
  rw [(commandBody_framed hu').regs r hs hr, h.regs r, (commandBody_framed hu).regs r hs hr]

theorem State.AgreeOnValid.flag_after {f : Flag} (hf : f ∉ writtenFlags i) : u'.flag f = u.flag f := by
  rw [(commandBody_framed hu').flags f hf, h.flag f, (commandBody_framed hu).flags f hf]

theorem State.AgreeOnValid.same_after {v : View} (hv : v.written i = false) : v.Same u u' :=
  (View.same_of_framedBy (commandBody_framed hu) hv).symm.trans
    ((h.same v).trans (View.same_of_framedBy (commandBody_framed hu') hv))

/-- Two runs of a command that write the same leave states that agree (10_state.md R55). -/
theorem State.AgreeOnValid.completed (hregs : ∀ r ∈ writtenRegs i, u'.readReg r = u.readReg r)
    (hflags : ∀ f ∈ writtenFlags i, u'.flag f = u.flag f) (hviews : ∀ v : View, v.written i = true → v.Same u u') :
    u.complete.AgreeOnValid u'.complete := by
  have hreg : ∀ r, r ≠ .status → r ≠ .err → r ≠ .errinfo → u'.readReg r = u.readReg r := fun r hs he hi => by
    by_cases hr : r ∈ writtenRegs i
    · exact hregs r hr
    · exact h.reg_after hu hu' hs (by simp [he, hi, hr])
  have hflag : ∀ f, u'.flag f = u.flag f := fun f => by
    by_cases hf : f ∈ writtenFlags i
    · exact hflags f hf
    · exact h.flag_after hu hu' hf
  refine State.agreeOnValid_iff.mpr ⟨?params, fun r => ?regs, fun v => ?views⟩
  case params => exact (commandBody_framed hu').params.trans (h.params.trans (commandBody_framed hu).params.symm)
  case regs =>
    by_cases he : r = .err
    · rw [he]; rfl
    by_cases hi : r = .errinfo
    · rw [hi]; rfl
    by_cases hs : r = .status
    · have hnsym : u'.nsym = u.nsym := hreg .nsym nofun nofun nofun
      have hpqn : u'.pqn = u.pqn := hreg .pqn nofun nofun nofun
      rw [hs, State.statusWord_of (s := u'.complete) (hflag .freqV) (hflag .pqV) (hflag .codesV) (hflag .wEmpty)
        (hflag .wUnknown) (hflag .accErr), State.complete_nsym, State.complete_pqn, hnsym, hpqn]
      rfl
    · have hkeep : ∀ x : State, x.complete.readReg r = x.readReg r := fun x =>
        (Framed.complete (regs := [.err, .errinfo]) (flags := []) (touched := noElem) x (by simp) (by simp)).regs r hs
          (by simp [he, hi])
      rw [hkeep, hkeep, hreg r hs he hi]
  case views =>
    refine (v.same_complete u).symm.trans (View.Same.trans ?_ (v.same_complete u'))
    cases hv : v.written i with
    | true => exact hviews v hv
    | false => exact h.same_after hu hu' hv

end

/-! ### What the valid data determines -/

section
variable {s s' : State} (h : s.AgreeOnValid s')
include h

theorem State.AgreeOnValid.textSymbols_eq : s'.textSymbols = s.textSymbols := congrArg distinctSymbols h.text

theorem State.AgreeOnValid.textCounts_eq : s'.textCounts = s.textCounts := by
  rw [State.textCounts, State.textCounts, h.textSymbols_eq, h.text]

theorem State.AgreeOnValid.treeV_eq : s'.treeV = s.treeV := by
  have hpqn : s'.pqn = s.pqn := h.regs .pqn
  have hv : s'.pqV = s.pqV := h.flag .pqV
  rw [State.treeV, State.treeV, hv, hpqn]

theorem State.AgreeOnValid.noTree_eq : s'.noTree = s.noTree := by
  have hnsym : s'.nsym = s.nsym := h.regs .nsym
  have hv : s'.pqV = s.pqV := h.flag .pqV
  rw [State.noTree, State.noTree, hv, hnsym]

theorem State.AgreeOnValid.ftsym_at {i : Nat} (hi : i < s.nsym.toNat) : s'.readElem .ftsym i = s.readElem .ftsym i :=
  State.readSeq_eq_iff.mp h.ftsym i hi

theorem State.AgreeOnValid.ftcnt_at {i : Nat} (hi : i < s.nsym.toNat) : s'.readElem .ftcnt i = s.readElem .ftcnt i :=
  State.readSeq_eq_iff.mp h.ftcnt i hi

end

/-! ### The tree builder -/

/-- A queue is determined by its entries and their frequencies (10_state.md R57 (h)). -/
theorem State.StageInv.queue_eq_of_perm {s t : State} (hs : s.StageInv) (ht : t.StageInv)
    (hnode : ∀ n, n < s.nnodes.toNat → t.readNode n = s.readNode n) (hp : t.queue.Perm s.queue) : t.queue = s.queue := by
  have hfreq : ∀ j ∈ t.queue, t.nodeFreq j.toNat = s.nodeFreq j.toNat := fun j hj =>
    congrArg Node.freq (hnode _ (hs.queue_below j (hp.mem_iff.mp hj)))
  have hasymm : ∀ i j, s.keyBefore i j = true → ¬ s.keyBefore j i = true := fun i j hij hji => by
    have hloop := State.keyBefore_trans hij hji
    rw [State.keyBefore_irrefl] at hloop
    cases hloop
  refine eq_of_perm_of_strict hasymm hp (ht.queue_sorted.imp_of_mem fun {i j} hi hj hij => ?_) hs.queue_sorted
  rwa [State.keyBefore_congr (hfreq i hi) (hfreq j hj)] at hij

/-- The root is determined by the queue (10_state.md R57 (d)). -/
theorem State.StageInv.root_eq {s t : State} (hs : s.StageInv) (ht : t.StageInv) (hv : t.pqV = s.pqV)
    (hq : t.queue = s.queue) : t.root = s.root := by
  have hpqn : t.pqn = s.pqn := BitVec.eq_of_toNat_eq (by rw [← State.length_queue, hq, State.length_queue])
  by_cases h1 : s.pqV = true ∧ s.pqn = 1#32
  · obtain ⟨hsv, hs1⟩ := h1
    have ht1 := hpqn.trans hs1
    rw [State.queue_of_pqn_one hs1, State.queue_of_pqn_one ht1, List.singleton_inj] at hq
    rw [(hs.root_value hsv hs1).1, (ht.root_value (hv.trans hsv) ht1).1, hq]
  · have hnull : s.root = nullIndex := not_not.mp fun hne => h1 (hs.root_iff.mp hne)
    have hnull' : t.root = nullIndex := not_not.mp fun hne => h1 (by rw [← hv, ← hpqn]; exact ht.root_iff.mp hne)
    rw [hnull, hnull']

section
variable {s s' u u' : State} (h : s.AgreeOnValid s')
include h

/-- The result of `FREQ` depends on the text (40_tree_builder.md R125). -/
theorem State.AgreeOnValid.after_freq (hu : commandBody .freq s = .ok u) (hu' : commandBody .freq s' = .ok u') :
    u.complete.AgreeOnValid u'.complete := by
  obtain ⟨-, -, rfl⟩ := freqBody_ok_iff.mp hu
  obtain ⟨-, -, rfl⟩ := freqBody_ok_iff.mp hu'
  have hnsym : s'.counted.nsym = s.counted.nsym := congrArg (fun l => BitVec.ofNat 32 (List.length l)) h.textSymbols_eq
  refine h.completed hu hu' ?regs ?flags fun v hv => ?views
  case regs =>
    simp only [writtenRegs, List.forall_mem_cons]
    exact ⟨hnsym, rfl, rfl, rfl, rfl, nofun⟩
  case flags =>
    simp only [writtenFlags, List.forall_mem_cons]
    exact ⟨rfl, rfl, rfl, nofun⟩
  case views =>
    cases v with
    | text | enc | perm | inv | dec => exact absurd hv (by decide)
    | nodes | queue | codes => rfl
    | table =>
      rw [View.Same, State.counted_nsym, State.counted_nsym, State.counted_ftsym, State.counted_ftcnt,
        State.counted_ftsym, State.counted_ftcnt, h.textSymbols_eq, h.textCounts_eq]

/-- The result of `PQINIT` depends on the table (40_tree_builder.md R127). -/
theorem State.AgreeOnValid.after_pqinit (hi : s.Inv) (hi' : s'.Inv) (hu : commandBody .pqinit s = .ok u)
    (hu' : commandBody .pqinit s' = .ok u') : u.complete.AgreeOnValid u'.complete := by
  have hstage := (hi.after_commandBody hu).build.stage
  have hstage' := (hi'.after_commandBody hu').build.stage
  obtain ⟨-, rfl⟩ := pqinitBody_ok_iff.mp hu
  obtain ⟨-, rfl⟩ := pqinitBody_ok_iff.mp hu'
  have hnsym : s'.nsym = s.nsym := h.regs .nsym
  have hnodes : s'.queued.warnEmpty.nnodes = s.queued.warnEmpty.nnodes :=
    s'.queued_nnodes.trans (hnsym.trans s.queued_nnodes.symm)
  have hnode : ∀ n, n < s.queued.warnEmpty.nnodes.toNat →
      s'.queued.warnEmpty.readNode n = s.queued.warnEmpty.readNode n := fun n hn => by
      rw [State.warnEmpty_nnodes, State.queued_nnodes] at hn
      rw [State.readNode_warnEmpty, State.readNode_warnEmpty, s.readNode_queued hn, s'.readNode_queued (hnsym ▸ hn),
        h.ftsym_at hn, h.ftcnt_at hn]
  have hqueue : s'.queued.warnEmpty.queue = s.queued.warnEmpty.queue := by
    refine hstage.queue_eq_of_perm hstage' hnode (s'.queue_queued.1.trans ?_)
    rw [hnsym]
    exact s.queue_queued.1.symm
  have hpqn : s'.queued.warnEmpty.pqn = s.queued.warnEmpty.pqn := s'.queued_pqn.trans (hnsym.trans s.queued_pqn.symm)
  have hwarn : s'.queued.warnEmpty.wEmpty = s.queued.warnEmpty.wEmpty := by
    have hkeep : ∀ x : State, x.queued.warnEmpty.nsym = x.nsym := fun x => (State.regs_of_tableView x.tableView_queued).2.2
    rw [State.queued_wEmpty, State.queued_wEmpty, hkeep, hkeep, hnsym, show s'.wEmpty = s.wEmpty from h.flag .wEmpty]
  refine h.completed hu hu' ?regs ?flags fun v hv => ?views
  case regs =>
    have hroot := hstage.root_eq hstage' rfl hqueue
    simp only [writtenRegs, List.forall_mem_cons]
    exact ⟨hnodes, hroot, hpqn, rfl, nofun⟩
  case flags =>
    simp only [writtenFlags, List.forall_mem_cons]
    exact ⟨rfl, rfl, hwarn, nofun⟩
  case views =>
    cases v with
    | text | table | enc | perm | inv | dec => exact absurd hv (by decide)
    | nodes => rw [View.Same, hnodes]; exact List.map_congr_left fun n hn => hnode n (List.mem_range.mp hn)
    | queue => exact hqueue
    | codes => rfl

/-- The result of `MERGE` depends on the queue and the nodes (40_tree_builder.md R129). -/
theorem State.AgreeOnValid.after_merge (hi : s.Inv) (hi' : s'.Inv) (hu : commandBody .merge s = .ok u)
    (hu' : commandBody .merge s' = .ok u') : u.complete.AgreeOnValid u'.complete := by
  have hstage := (hi.after_commandBody hu).build.stage
  have hstage' := (hi'.after_commandBody hu').build.stage
  obtain ⟨hv, a, b, q, hq, rfl⟩ := mergeBody_ok_cases hu
  obtain ⟨hv', a', b', q', hq', rfl⟩ := mergeBody_ok_cases hu'
  cases hq.symm.trans (h.queue.symm.trans hq')
  have hold : s'.nnodes = s.nnodes := h.regs .nnodes
  have hfreq : ∀ j ∈ a :: b :: q, s'.nodeFreq j.toNat = s.nodeFreq j.toNat := fun j hj =>
    congrArg Node.freq (h.node _ (hi.build.queue_lt hq hj))
  have hnodes : (s'.joined a b q).nnodes = (s.joined a b q).nnodes := by
    rw [(s'.joined_frame a b q).2.2.2, (s.joined_frame a b q).2.2.2, hold]
  have hnode : ∀ n, n < (s.joined a b q).nnodes.toNat → (s'.joined a b q).readNode n = (s.joined a b q).readNode n :=
    fun n hn => by
      rw [hi.build.toNat_nnodes_joined hv a b q] at hn
      rw [State.readNode_joined, State.readNode_joined, hold, hfreq a (by simp), hfreq b (by simp)]
      split_ifs with hnew
      · rfl
      · exact h.node n (by omega)
  have hqueue : (s'.joined a b q).queue = (s.joined a b q).queue := by
    refine hstage.queue_eq_of_perm hstage' hnode ((hi'.build.perm_queue_joined hq').trans ?_)
    rw [hold]
    exact (hi.build.perm_queue_joined hq).symm
  have hpqV : (s'.joined a b q).pqV = (s.joined a b q).pqV := by
    rw [(s'.joined_frame a b q).1, (s.joined_frame a b q).1, hv, hv']
  have hpqn : (s'.joined a b q).pqn = (s.joined a b q).pqn :=
    BitVec.eq_of_toNat_eq (by rw [← State.length_queue, hqueue, State.length_queue])
  refine h.completed hu hu' ?regs nofun fun v hv => ?views
  case regs =>
    simp only [writtenRegs, List.forall_mem_cons]
    exact ⟨hnodes, hstage.root_eq hstage' hpqV hqueue, hpqn, nofun⟩
  case views =>
    cases v with
    | text | table | codes | enc | perm | inv | dec => exact absurd hv (by decide)
    | nodes => rw [View.Same, hnodes]; exact List.map_congr_left fun n hn => hnode n (List.mem_range.mp hn)
    | queue => exact hqueue

end

end Sys2Proof.Machine
end

section
/-! PROOFS. The result of a command depends on the valid data alone (spec/10_state.md R55, spec/70_reset_and_hazards.md R247;
O41): each command, and `BUILD` as the commands it is made of. -/

namespace Sys2Proof.Machine

/-! ### Walks and scans among the nodes of a tree -/

section
variable {s t : State} (h : s.FinishedTree) (hnode : ∀ n, n < s.nnodes.toNat → t.readNode n = s.readNode n)
include h hnode

/-- Walks stay among the nodes of the tree (41_codebook.md R150). -/
theorem State.FinishedTree.walk_congr_below {x : Word} (hx : x.toNat < s.nnodes.toNat) (p : List Bool) :
    t.walk x p = s.walk x p := by
  induction p generalizing x with
  | nil => rfl
  | cons b p ih =>
    have hinternal : t.nodeInternal x.toNat = s.nodeInternal x.toNat := congrArg Node.internal (hnode _ hx)
    have hchild : t.child x.toNat b = s.child x.toNat b := by
      cases b with
      | false => exact congrArg Node.left (hnode _ hx)
      | true => exact congrArg Node.right (hnode _ hx)
    rw [State.walk_cons, State.walk_cons, hinternal]
    cases hcase : s.nodeInternal x.toNat with
    | false => rfl
    | true =>
      have hlt := h.child_lt x.toNat b ((h.internal_iff _ hx).mp hcase) hx
      exact (congrArg (t.walk · p) hchild).trans (ih (hlt.trans hx))

/-- So do scans (42_encode_decode.md R165). -/
theorem State.FinishedTree.scan_congr_below (hp : t.params = s.params) (hr : t.root = s.root) (bits : List Bool) (k : Nat)
    {cur : Word} (start : Nat) (out : List Word) (hcur : cur.toNat < s.nnodes.toNat)
    (hin : s.nodeInternal s.root.toNat = true → s.nodeInternal cur.toNat = true) :
    t.scan bits k cur start out = s.scan bits k cur start out := by
  have hemit : ∀ out x, t.emit out x = s.emit out x := fun out x => by rw [State.emit, State.emit, hp]
  have hkind : ∀ n, n < s.nnodes.toNat → t.nodeInternal n = s.nodeInternal n := fun n hn =>
    congrArg Node.internal (hnode n hn)
  have hsym : ∀ n, n < s.nnodes.toNat → t.nodeSym n = s.nodeSym n := fun n hn => congrArg Node.sym (hnode n hn)
  have hrlt := h.root_lt
  induction bits generalizing k cur start out with
  | nil => rw [State.scan_nil, State.scan_nil, hr]
  | cons b bits ih =>
    cases hroot : s.nodeInternal s.root.toNat with
    | false =>
      rw [t.scan_cons_leaf (by rw [hr, hkind _ hrlt, hroot]), s.scan_cons_leaf hroot, hr, hsym _ hrlt, hemit]
      cases s.emit out (s.nodeSym s.root.toNat) with
      | error e => rfl
      | ok out' => simp only [ih (k + 1) start out' hcur hin]
    | true =>
      have hlt := (h.child_lt cur.toNat b ((h.internal_iff _ hcur).mp (hin hroot)) hcur).trans hcur
      have hchild : s.child cur.toNat b = if b then t.nodeRight cur.toNat else t.nodeLeft cur.toNat := by
        cases b with
        | false => exact (congrArg Node.left (hnode _ hcur)).symm
        | true => exact (congrArg Node.right (hnode _ hcur)).symm
      rw [t.scan_cons (by rw [hr, hkind _ hrlt, hroot]) b bits k cur start out _ hchild,
        s.scan_cons hroot b bits k cur start out (s.child cur.toNat b) rfl, hkind _ hlt, hsym _ hlt, hemit, hr]
      cases hcase : s.nodeInternal (s.child cur.toNat b).toNat with
      | true => exact ih (k + 1) start out hlt fun _ => hcase
      | false =>
        cases s.emit out (s.nodeSym (s.child cur.toNat b).toNat) with
        | error e => rfl
        | ok out' => exact ih (k + 1) (k + 1) out' hrlt id

end

/-- The codes of a codebook are determined by its tree (41_codebook.md R150 to R152). -/
theorem State.Coded.codeBits_eq {s t : State} (h : s.Coded) (ht : t.Coded) (hnsym : t.nsym = s.nsym)
    (hroot : t.root = s.root) (hnode : ∀ n, n < s.nnodes.toNat → t.readNode n = s.readNode n) {i : Nat}
    (hi : i < s.nsym.toNat) : t.codeBits i = s.codeBits i := by
  rcases h.one_leaf_or_paths with ⟨h1, hcode⟩ | ⟨h2, hpaths⟩
  · obtain rfl : i = 0 := by omega
    rcases ht.one_leaf_or_paths with ⟨-, hcode'⟩ | ⟨h2, -⟩
    · rw [hcode, hcode']
    · rw [hnsym] at h2
      omega
  · have hpath := ht.codebook.paths ht.codesV (by rwa [hnsym]) i (by rwa [hnsym])
    rw [hroot, h.finished.walk_congr_below hnode h.finished.root_lt] at hpath
    exact h.finished.walk_unique hpath (hpaths i hi)

/-! ### Whether a command completes, and how it fails -/

/-- That a command completes, or how it fails. -/
def outcome (r : Except CmdError State) : Except CmdError Unit := r.map fun _ => ()

theorem outcome_eq_error_iff {r : Except CmdError State} {e : CmdError} : outcome r = .error e ↔ r = .error e := by
  cases r <;> simp [outcome, Except.map]

theorem outcome_eq_ok_iff {r : Except CmdError State} : outcome r = .ok () ↔ ∃ u, r = .ok u := by
  cases r <;> simp [outcome, Except.map]

theorem outcome_freqBody (s : State) : outcome (freqBody s) =
    if s.params.textMax < s.tlen.toNat then .error (.badParam .tlen)
    else if s.params.nsymMax < s.textSymbols.length then .error (.capacity .symbols) else .ok () := by
  have hbody : freqBody s = if s.params.textMax < s.tlen.toNat then .error (.badParam .tlen)
    else if s.params.nsymMax < s.textSymbols.length then .error (.capacity .symbols) else .ok s.counted := rfl
  rw [hbody]
  split_ifs <;> rfl

/-- `BUILD` fails as `FREQ` does (40_tree_builder.md R131). -/
theorem outcome_buildBody (w : Word) (s : State) : outcome (buildBody w s) = outcome (freqBody s) := by
  cases hbuild : buildBody w s with
  | error e => rw [buildBody_error_iff.mp hbuild]
  | ok t =>
    obtain ⟨htext, hsyms, -⟩ := buildBody_ok_iff.mp hbuild
    rw [freqBody_ok_iff.mpr ⟨htext, hsyms, rfl⟩]
    rfl

theorem outcome_pqinitBody (w : Word) (s : State) :
    outcome (pqinitBody w s) = if s.freqV then .ok () else .error (.badSequence w) := by
  unfold pqinitBody
  cases s.freqV <;> rfl

theorem outcome_mergeBody (w : Word) (s : State) :
    outcome (mergeBody w s) = if s.pqV && 2 ≤ s.pqn.toNat then .ok () else .error (.badSequence w) := by
  unfold mergeBody
  cases s.pqV && decide (2 ≤ s.pqn.toNat) <;> rfl

theorem outcome_gencodesBody (w : Word) (s : State) :
    outcome (gencodesBody w s) = if s.treeV || s.noTree then .ok () else .error (.badSequence w) := by
  unfold gencodesBody
  cases s.treeV || s.noTree with
  | false => rfl
  | true => cases s.noTree <;> cases s.nodeInternal s.root.toNat <;> rfl

theorem outcome_encodeBody (w : Word) (s : State) : outcome (encodeBody w s) =
    if !s.codesV then .error (.badSequence w)
    else if s.params.textMax < s.tlen.toNat then .error (.badParam .tlen)
    else if s.params.bitsMax < s.encodedBits.length then .error (.capacity .encBits) else .ok () := by
  have hbody : encodeBody w s = if !s.codesV then .error (.badSequence w)
    else if s.params.textMax < s.tlen.toNat then .error (.badParam .tlen)
    else if s.params.bitsMax < s.encodedBits.length then .error (.capacity .encBits) else .ok s.encoded := rfl
  rw [hbody]
  split_ifs <;> rfl

/-- What `DECODE` emits, or how it fails (42_encode_decode.md R165, R167). -/
def State.decodeResult (s : State) (w : Word) (src : Bool) : Except CmdError (List Word) :=
  if !(s.treeV || s.noTree) then .error (.badSequence w)
  else if s.params.bitsMax < s.sourceLen src then .error (.badParam (sourceLenReg src))
  else if s.noTree then if s.sourceLen src ≠ 0 then .error (.badSequence w) else .ok []
  else s.scan (s.sourceBits src) 0 s.root 0 []

theorem decodeBody_eq (w : Word) (src : Bool) (s : State) :
    decodeBody w src s = (s.decodeResult w src).map s.decoded := by
  unfold decodeBody State.decodeResult
  split_ifs
  · rfl
  · rfl
  · rfl
  · rfl
  · cases s.scan (s.sourceBits src) 0 s.root 0 [] <;> rfl

/-- A `DECODE` that completes writes what it emits (R165). -/
theorem decodeBody_ok_emits {w : Word} {src : Bool} {s t : State} (h : decodeBody w src s = .ok t) :
    ∃ out, s.decodeResult w src = .ok out ∧ t = s.decoded out := by
  rw [decodeBody_eq] at h
  cases hresult : s.decodeResult w src with
  | error e => rw [hresult] at h; cases h
  | ok out => rw [hresult] at h; exact ⟨out, rfl, (Except.ok.inj h).symm⟩

theorem outcome_permuteBody (s : State) : outcome (permuteBody s) =
    if s.cols.toNat < 1 then .error (.badParam .cols)
    else if s.params.bitsMax < s.enclen.toNat then .error (.badParam .enclen)
    else if s.params.bitsMax < s.permRows * s.cols.toNat then .error (.capacity .permBits) else .ok () := by
  rw [permuteBody_eq]
  split_ifs <;> rfl

theorem outcome_invertBody (trim : Bool) (s : State) : outcome (invertBody trim s) =
    if s.cols.toNat < 1 then .error (.badParam .cols)
    else if s.params.bitsMax < s.permlen.toNat then .error (.badParam .permlen)
    else if s.permlen.toNat ≠ s.rows.toNat * s.cols.toNat then .error (.shapeMismatch s.permlen)
    else if trim && s.permlen.toNat < s.origlen.toNat then .error (.badParam .origlen) else .ok () := by
  rw [invertBody_eq]
  split_ifs <;> rfl

/-! ### What the codec and the transposer read -/

section
variable {s s' : State} (h : s.AgreeOnValid s')
include h

theorem State.AgreeOnValid.lookup_eq (hi : s.Inv) (hi' : s'.Inv) : s'.lookup = s.lookup := by
  have hncodes : s'.ncodes = s.ncodes := h.regs .ncodes
  have hle := hi.build.stage.ncodes_le
  funext x
  refine Option.ext fun i => ?_
  rw [hi'.build.lookup_eq_some_iff, hi.build.lookup_eq_some_iff, hncodes]
  exact and_congr_right fun hlt => by rw [h.ftsym_at (hlt.trans_le hle)]

theorem State.AgreeOnValid.encodedBits_eq (hi : s.Inv) (hi' : s'.Inv) : s'.encodedBits = s.encodedBits := by
  rw [State.encodedBits, State.encodedBits, h.text, h.lookup_eq hi hi']
  refine List.flatMap_congr fun i hmem => ?_
  obtain ⟨x, -, hx⟩ := List.mem_filterMap.mp hmem
  exact h.codes i (State.lookup_sound hx).1

theorem State.AgreeOnValid.skippedCount_eq (hi : s.Inv) (hi' : s'.Inv) : s'.skippedCount = s.skippedCount := by
  rw [State.skippedCount, State.skippedCount, h.text, h.lookup_eq hi hi']

theorem State.AgreeOnValid.sourceBits_eq (src : Bool) : s'.sourceBits src = s.sourceBits src := by
  cases src with
  | false => exact h.same .enc
  | true => exact h.same .inv

theorem State.AgreeOnValid.decodeResult_eq (hi : s.Inv) (w : Word) (src : Bool) :
    s'.decodeResult w src = s.decodeResult w src := by
  have hroot : s'.root = s.root := h.regs .root
  have hlen : s'.sourceLen src = s.sourceLen src := congrArg BitVec.toNat (h.regs _)
  rw [State.decodeResult, State.decodeResult, h.treeV_eq, h.noTree_eq, h.params, hlen, h.sourceBits_eq src, hroot]
  cases hno : s.noTree with
  | true => rfl
  | false =>
    cases ht : s.treeV with
    | false => rfl
    | true =>
      have hfin := hi.tree.finished hi.build.stage ht
      rw [hfin.scan_congr_below h.node h.params hroot _ 0 0 [] hfin.root_lt id]

theorem State.AgreeOnValid.readBit_enc {p : Nat} (hp : p < s.enclen.toNat) : s'.readBit .enc p = s.readBit .enc p :=
  List.map_inj_left.mp h.enc p (List.mem_range.mpr hp)

theorem State.AgreeOnValid.readBit_perm {p : Nat} (hp : p < s.permlen.toNat) : s'.readBit .perm p = s.readBit .perm p :=
  List.map_inj_left.mp h.perm p (List.mem_range.mpr hp)

theorem State.AgreeOnValid.paddedBit_eq : s'.paddedBit = s.paddedBit := by
  have henclen : s'.enclen = s.enclen := h.regs .enclen
  funext p
  rw [State.paddedBit, State.paddedBit, henclen]
  by_cases hp : p < s.enclen.toNat
  · rw [h.readBit_enc hp]
  · simp [hp]

theorem State.AgreeOnValid.permRows_eq : s'.permRows = s.permRows := by
  have henclen : s'.enclen = s.enclen := h.regs .enclen
  have hcols : s'.cols = s.cols := h.regs .cols
  rw [State.permRows, State.permRows, henclen, hcols]

/-- Whether a command completes, and how it fails, depends on the valid data (10_state.md R55). -/
theorem State.AgreeOnValid.outcome_eq (hi : s.Inv) (hi' : s'.Inv) (i : Instr) :
    outcome (commandBody i s') = outcome (commandBody i s) := by
  have htlen : s'.tlen = s.tlen := h.regs .tlen
  have hpqn : s'.pqn = s.pqn := h.regs .pqn
  have hcols : s'.cols = s.cols := h.regs .cols
  have henclen : s'.enclen = s.enclen := h.regs .enclen
  have hpermlen : s'.permlen = s.permlen := h.regs .permlen
  have hrows : s'.rows = s.rows := h.regs .rows
  have horiglen : s'.origlen = s.origlen := h.regs .origlen
  have hfreqV : s'.freqV = s.freqV := h.flag .freqV
  have hpqV : s'.pqV = s.pqV := h.flag .pqV
  have hcodesV : s'.codesV = s.codesV := h.flag .codesV
  have hfreq : outcome (freqBody s') = outcome (freqBody s) := by
    rw [outcome_freqBody, outcome_freqBody, htlen, h.params, h.textSymbols_eq]
  cases i with
  | nop | clear => rfl
  | freq => exact hfreq
  | build => exact (outcome_buildBody _ s').trans (hfreq.trans (outcome_buildBody _ s).symm)
  | pqinit => rw [commandBody, commandBody, outcome_pqinitBody, outcome_pqinitBody, hfreqV]
  | merge => rw [commandBody, commandBody, outcome_mergeBody, outcome_mergeBody, hpqV, hpqn]
  | gencodes => rw [commandBody, commandBody, outcome_gencodesBody, outcome_gencodesBody, h.treeV_eq, h.noTree_eq]
  | encode =>
    rw [commandBody, commandBody, outcome_encodeBody, outcome_encodeBody, hcodesV, htlen, h.params,
      h.encodedBits_eq hi hi']
  | decode src =>
    rw [commandBody, commandBody, decodeBody_eq, decodeBody_eq, h.decodeResult_eq hi]
    cases s.decodeResult (encode (.decode src)) src <;> rfl
  | permute =>
    rw [commandBody, commandBody, outcome_permuteBody, outcome_permuteBody, hcols, h.params, henclen, h.permRows_eq]
  | invert trim =>
    rw [commandBody, commandBody, outcome_invertBody, outcome_invertBody, hcols, h.params, hpermlen, hrows, horiglen]

end

/-! ### What the other commands write -/

section
variable {s s' u u' : State} (h : s.AgreeOnValid s')
include h

/-- `CLEAR` leaves no valid data (44_system_commands.md R201). -/
theorem State.AgreeOnValid.after_clear : s.resetRegisters.complete.AgreeOnValid s'.resetRegisters.complete := by
  refine h.completed (i := .clear) rfl rfl (fun r _ => ?_) (fun f _ => ?_) fun v _ => ?_
  · rw [State.readReg_resetRegisters, State.readReg_resetRegisters, h.params]
  · rw [State.flag_resetRegisters, State.flag_resetRegisters]
  · cases v <;> rfl

/-- The result of `GENCODES` depends on the tree (41_codebook.md R151). -/
theorem State.AgreeOnValid.after_gencodes (hi : s.Inv) (hi' : s'.Inv) (hu : commandBody .gencodes s = .ok u)
    (hu' : commandBody .gencodes s' = .ok u') : u.complete.AgreeOnValid u'.complete := by
  have hinv := hi.after_commandBody hu
  have hinv' := hi'.after_commandBody hu'
  have hcodesV : ∀ {x y : State}, commandBody .gencodes x = .ok y → y.codesV = true := fun hy => by
    obtain ⟨v, n, -, rfl⟩ := gencodesBody_eq_withCodes hy
    rfl
  have hv := hcodesV hu
  have hv' := hcodesV hu'
  have hnsym : u'.nsym = u.nsym := h.reg_after hu hu' (r := .nsym) nofun (by decide)
  have hnodes : u'.nnodes = u.nnodes := h.reg_after hu hu' (r := .nnodes) nofun (by decide)
  have hroot : u'.root = u.root := h.reg_after hu hu' (r := .root) nofun (by decide)
  have hncodes : u'.ncodes = u.ncodes := by
    rw [hinv'.build.stage.all_codes hv', hinv.build.stage.all_codes hv, hnsym]
  have hnode := h.same_after hu hu' (v := .nodes) (by decide)
  rw [View.Same, hnodes, List.map_inj_left] at hnode
  refine h.completed hu hu' ?regs ?flags fun v hview => ?views
  case regs =>
    simp only [writtenRegs, List.forall_mem_cons]
    exact ⟨hncodes, nofun⟩
  case flags =>
    simp only [writtenFlags, List.forall_mem_cons]
    exact ⟨hv'.trans hv.symm, nofun⟩
  case views =>
    cases v with
    | text | table | nodes | queue | enc | perm | inv | dec => exact absurd hview (by decide)
    | codes =>
      rw [View.Same, hncodes]
      refine List.map_congr_left fun i hlt => ?_
      rw [List.mem_range, hinv.build.stage.all_codes hv] at hlt
      have hcoded : u.Coded := ⟨hv, Nat.one_le_of_lt hlt, hinv.build, hinv.tree, hinv.codebook⟩
      have hcoded' : u'.Coded := ⟨hv', hnsym ▸ Nat.one_le_of_lt hlt, hinv'.build, hinv'.tree, hinv'.codebook⟩
      exact hcoded.codeBits_eq hcoded' hnsym hroot (fun n hn => hnode n (List.mem_range.mpr hn)) hlt

/-- The result of `ENCODE` depends on the text and the codebook (42_encode_decode.md R161). -/
theorem State.AgreeOnValid.after_encode (hi : s.Inv) (hi' : s'.Inv) (hu : commandBody .encode s = .ok u)
    (hu' : commandBody .encode s' = .ok u') : u.complete.AgreeOnValid u'.complete := by
  obtain ⟨-, -, hbits, rfl⟩ := encodeBody_ok_iff.mp hu
  obtain ⟨-, -, hbits', rfl⟩ := encodeBody_ok_iff.mp hu'
  have hout := h.encodedBits_eq hi hi'
  have hskip := h.skippedCount_eq hi hi'
  have hlen : s'.encoded.enclen = s.encoded.enclen := congrArg (fun l => BitVec.ofNat 32 (List.length l)) hout
  have hskipcnt : s'.encoded.skipcnt = s.encoded.skipcnt := congrArg (BitVec.ofNat 32) hskip
  have hwarn : s'.encoded.wUnknown = s.encoded.wUnknown := by
    rw [State.encoded_wUnknown, State.encoded_wUnknown, hskip, show s'.wUnknown = s.wUnknown from h.flag .wUnknown]
  refine h.completed hu hu' ?regs ?flags fun v hv => ?views
  case regs =>
    simp only [writtenRegs, List.forall_mem_cons]
    exact ⟨hlen, hskipcnt, nofun⟩
  case flags =>
    simp only [writtenFlags, List.forall_mem_cons]
    exact ⟨hwarn, nofun⟩
  case views =>
    cases v with
    | text | table | nodes | queue | codes | perm | inv | dec => exact absurd hv (by decide)
    | enc =>
      rw [View.Same, State.encoded_enclen hi'.build.params_valid hbits', State.encoded_enclen hi.build.params_valid hbits,
        State.readBits_encoded, State.readBits_encoded, hout]

/-- The result of `DECODE` depends on its source and the tree (42_encode_decode.md R165). -/
theorem State.AgreeOnValid.after_decode {src : Bool} (hi : s.Inv) (hu : commandBody (.decode src) s = .ok u)
    (hu' : commandBody (.decode src) s' = .ok u') : u.complete.AgreeOnValid u'.complete := by
  have hresult := h.decodeResult_eq hi (encode (.decode src)) src
  obtain ⟨out, hout, rfl⟩ := decodeBody_ok_emits hu
  obtain ⟨out', hout', rfl⟩ := decodeBody_ok_emits hu'
  cases hout.symm.trans (hresult.symm.trans hout')
  have hdeclen : ∀ x : State, (x.decoded out).declen = BitVec.ofNat 32 out.length := fun _ => rfl
  refine h.completed hu hu' ?regs nofun fun v hv => ?views
  case regs =>
    simp only [writtenRegs, List.forall_mem_cons]
    exact ⟨rfl, nofun⟩
  case views =>
    cases v with
    | text | table | nodes | queue | codes | enc | perm | inv =>
      simp [View.written, View.lenReg, View.spaces, writtenRegs, writtenSpaces] at hv
    | dec =>
      rw [View.Same, hdeclen, hdeclen]
      refine State.readSeq_congr fun k hk => ?_
      have hlt : k < out.length := hk.trans_le (by rw [BitVec.toNat_ofNat]; exact Nat.mod_le _ _)
      have hwritten := fun x : State => x.readElem_writeSeq_same .dec 0 hlt
      simp only [Nat.zero_add] at hwritten
      rw [State.decoded, State.decoded, State.readElem_withDeclen, State.readElem_withDeclen, hwritten, hwritten, h.params]

/-- The result of `PERMUTE` depends on `ENC` and `COLS` (43_transposer.md R181). -/
theorem State.AgreeOnValid.after_permute (hi : s.Inv) (hi' : s'.Inv) (hu : commandBody .permute s = .ok u)
    (hu' : commandBody .permute s' = .ok u') : u.complete.AgreeOnValid u'.complete := by
  obtain ⟨hperm, rfl⟩ := permuteBody_ok_iff.mp hu
  obtain ⟨hperm', rfl⟩ := permuteBody_ok_iff.mp hu'
  have hcols : s'.cols = s.cols := h.regs .cols
  have henclen : s'.enclen = s.enclen := h.regs .enclen
  have hrows := h.permRows_eq
  refine h.completed hu hu' ?regs nofun fun v hv => ?views
  case regs =>
    have hcells : ∀ x : State, x.permuted.permlen = BitVec.ofNat 32 (x.permRows * x.cols.toNat) := fun _ => rfl
    have hheight : ∀ x : State, x.permuted.rows = BitVec.ofNat 32 x.permRows := fun _ => rfl
    have hfiller : ∀ x : State, x.permuted.padlen = BitVec.ofNat 32 (x.permRows * x.cols.toNat - x.enclen.toNat) :=
      fun _ => rfl
    have hpermlen : s'.permuted.permlen = s.permuted.permlen := by rw [hcells, hcells, hrows, hcols]
    have hheights : s'.permuted.rows = s.permuted.rows := by rw [hheight, hheight, hrows]
    have hpadlen : s'.permuted.padlen = s.permuted.padlen := by rw [hfiller, hfiller, hrows, hcols, henclen]
    have horiglen : s'.permuted.origlen = s.permuted.origlen := by
      rw [State.permuted_origlen, State.permuted_origlen, henclen]
    simp only [writtenRegs, List.forall_mem_cons]
    exact ⟨hheights, hpadlen, horiglen, hpermlen, nofun⟩
  case views =>
    cases v with
    | text | table | nodes | queue | codes | enc | inv | dec => exact absurd hv (by decide)
    | perm =>
      rw [View.Same, hperm'.permuted_permlen hi'.build.params_valid, hperm.permuted_permlen hi.build.params_valid,
        State.readBits_permuted, State.readBits_permuted, State.permutedBits, State.permutedBits, h.paddedBit_eq, hrows,
        hcols]

/-- The result of `INVERT` depends on `PERM` and the registers of its shape (43_transposer.md R185). -/
theorem State.AgreeOnValid.after_invert {trim : Bool} (hu : commandBody (.invert trim) s = .ok u)
    (hu' : commandBody (.invert trim) s' = .ok u') : u.complete.AgreeOnValid u'.complete := by
  obtain ⟨hinv, rfl⟩ := invertBody_ok_iff.mp hu
  obtain ⟨hinv', rfl⟩ := invertBody_ok_iff.mp hu'
  have hcols : s'.cols = s.cols := h.regs .cols
  have hrows : s'.rows = s.rows := h.regs .rows
  have hpermlen : s'.permlen = s.permlen := h.regs .permlen
  have horiglen : s'.origlen = s.origlen := h.regs .origlen
  have hinvlen : (s'.inverted trim).invlen = (s.inverted trim).invlen := by
    have hreg : ∀ x : State, (x.inverted trim).invlen = if trim then x.origlen else x.permlen := fun _ => rfl
    rw [hreg, hreg, hpermlen, horiglen]
  have hle : (s.inverted trim).invlen.toNat ≤ s.permlen.toNat := by
    have hreg : (s.inverted trim).invlen = if trim then s.origlen else s.permlen := rfl
    rw [hreg]
    split
    · exact hinv.trim_le (by assumption)
    · exact le_rfl
  refine h.completed hu hu' ?regs nofun fun v hv => ?views
  case regs =>
    simp only [writtenRegs, List.forall_mem_cons]
    exact ⟨hinvlen, nofun⟩
  case views =>
    cases v with
    | text | table | nodes | queue | codes | enc | perm | dec =>
      simp [View.written, View.lenReg, View.spaces, writtenRegs, writtenSpaces] at hv
    | inv =>
      rw [View.Same, hinvlen]
      refine State.readBits_congr fun p hp => ?_
      have hcells : p < s.rows.toNat * s.cols.toNat := (hp.trans_le hle).trans_eq hinv.shape
      have hread := toColumnMajor_lt hcells
      rw [State.readBit_inverted _ _ (by rwa [hrows, hcols]), State.readBit_inverted _ _ hcells, hrows, hcols,
        h.readBit_perm (hread.trans_eq hinv.shape.symm)]

end

/-! ### Every command -/

/-- A command that completes from both states. -/
theorem State.AgreeOnValid.after_commandBody {i : Instr} {s s' u u' : State} (h : s.AgreeOnValid s') (hi : s.Inv)
    (hi' : s'.Inv) (hbuild : i ≠ .build) (hu : commandBody i s = .ok u) (hu' : commandBody i s' = .ok u') :
    u.complete.AgreeOnValid u'.complete := by
  cases i with
  | nop => exact h.completed hu hu' nofun nofun fun v hv => absurd hv (by cases v <;> decide)
  | clear => cases hu; cases hu'; exact h.after_clear
  | freq => exact h.after_freq hu hu'
  | pqinit => exact h.after_pqinit hi hi' hu hu'
  | merge => exact h.after_merge hi hi' hu hu'
  | build => exact absurd rfl hbuild
  | gencodes => exact h.after_gencodes hi hi' hu hu'
  | encode => exact h.after_encode hi hi' hu hu'
  | decode src => exact h.after_decode hi hu hu'
  | permute => exact h.after_permute hi hi' hu hu'
  | invert trim => exact h.after_invert hu hu'

/-- A command that fails leaves states that agree. -/
theorem State.AgreeOnValid.raise {s s' : State} (h : s.AgreeOnValid s') (e : CmdError) :
    (s.raise e).AgreeOnValid (s'.raise e) := by
  have hkeep : ∀ (x : State) (v : View), v.Same x (x.raise e) := fun x v =>
    View.same_of_eq rfl (by cases v <;> rfl) fun sp _ => State.readElem_congr rfl rfl (x.raise_memory e sp)
  refine State.agreeOnValid_iff.mpr ⟨h.params, fun r => ?_,
    fun v => (hkeep s v).symm.trans ((h.same v).trans (hkeep s' v))⟩
  have hr := h.regs r
  cases r with
  | err | errinfo => rfl
  | _ => exact hr

/-- Two runs of a command: both complete, or both fail in the same way. -/
theorem State.AgreeOnValid.after_exec {i : Instr} {s s' t : State} (h : s.AgreeOnValid s') (hi : s.Inv) (hi' : s'.Inv)
    (hok : ∀ u u', commandBody i s = .ok u → commandBody i s' = .ok u' → u.complete.AgreeOnValid u'.complete)
    (hexec : exec i s = .next t) : ∃ t', exec i s' = .next t' ∧ t.AgreeOnValid t' := by
  have hout := h.outcome_eq hi hi' i
  rcases exec_cases hexec with ⟨u, hu, rfl⟩ | ⟨e, he, rfl⟩
  · obtain ⟨u', hu'⟩ := outcome_eq_ok_iff.mp (hout.trans (outcome_eq_ok_iff.mpr ⟨u, hu⟩))
    exact ⟨_, exec_of_body hu', hok u u' hu hu'⟩
  · have he' := outcome_eq_error_iff.mp (hout.trans (outcome_eq_error_iff.mpr he))
    refine ⟨s'.raise e, ?_, h.raise e⟩
    rw [exec_eq_finish, he']
    rfl

/-- Two runs of a sequence of commands, `BUILD` not among them. -/
theorem State.AgreeOnValid.after_runCommands {is : List Instr} (his : ∀ i ∈ is, i ≠ .build) {s s' t : State}
    (h : s.AgreeOnValid s') (hi : s.Inv) (hi' : s'.Inv) (hrun : runCommands is s = .next t) :
    ∃ t', runCommands is s' = .next t' ∧ t.AgreeOnValid t' := by
  induction is generalizing s s' with
  | nil => cases hrun; exact ⟨s', rfl, h⟩
  | cons i is ih =>
    obtain ⟨u, hu⟩ : ∃ u, exec i s = .next u := by
      rw [exec_eq_finish]
      cases commandBody i s <;> exact ⟨_, rfl⟩
    obtain ⟨u', hu', hagree⟩ := h.after_exec hi hi'
      (fun _ _ => h.after_commandBody hi hi' (his i (by simp))) hu
    rw [runCommands_cons_of_exec hu] at hrun
    obtain ⟨t', ht', hagree'⟩ := ih (fun j hj => his j (by simp [hj])) hagree (hi.after_exec hu) (hi'.after_exec hu') hrun
    exact ⟨t', (runCommands_cons_of_exec hu').trans ht', hagree'⟩

/-- `BUILD` is made of the other builders (40_tree_builder.md R131). -/
theorem State.AgreeOnValid.after_build {s s' u u' : State} (h : s.AgreeOnValid s') (hi : s.Inv) (hi' : s'.Inv)
    (hu : commandBody .build s = .ok u) (hu' : commandBody .build s' = .ok u') : u.complete.AgreeOnValid u'.complete := by
  have hparts : ∀ {x y : State}, commandBody .build x = .ok y →
      runCommands ([.freq, .pqinit] ++ List.replicate (x.textSeq.dedup.length - 1) .merge) x = .next y.complete := by
    intro x y hy
    obtain ⟨htext, hsyms, -⟩ := buildBody_ok_iff.mp hy
    rw [x.length_textSymbols] at hsyms
    exact ((buildIsFreqPqinitMerges x).2.2 htext hsyms).symm.trans (exec_of_body hy)
  have hbuilders : ∀ n, ∀ i ∈ [Instr.freq, .pqinit] ++ List.replicate n .merge, i ≠ .build := by
    intro n i hmem
    simp only [List.mem_append, List.mem_cons, List.not_mem_nil, or_false, List.mem_replicate] at hmem
    rcases hmem with (rfl | rfl) | ⟨-, rfl⟩ <;> decide
  obtain ⟨t', ht', hagree⟩ := h.after_runCommands (hbuilders _) hi hi' (hparts hu)
  have hrun := hparts hu'
  rw [h.text] at hrun
  cases ht'.symm.trans hrun
  exact hagree

/-- Settles O41: the checks, what is written and the valid lengths are computed from valid data. -/
theorem validDataDeterminesResult : Obligations.ValidDataDeterminesResult := by
  intro i s s' t hi hi' h hexec
  refine h.after_exec hi hi' (fun u u' hu hu' => ?_) hexec
  by_cases hbuild : i = .build
  · subst hbuild
    exact h.after_build hi hi' hu hu'
  · exact h.after_commandBody hi hi' hbuild hu hu'

end Sys2Proof.Machine
end
